-- ==== Sys2Proof/Word.lean ====
section
/-! DEFINITION. The word types of the block: 32-bit registers and pointers, 8-bit memory cells. -/

namespace Sys2Proof

/-- A register, a pointer or a memory word: 32 bits (10_state.md R20, 00_scope.md R11). -/
abbrev Word := BitVec 32

/-- One byte of physical memory (20_memory.md R70). -/
abbrev Byte := BitVec 8

end Sys2Proof
end

