-- ==== Sys2Proof/Syntax.lean ====
section
/-! DEFINITION. The commands of 30_encoding.md R142, one constructor per row of spec/opcode_table.json.
The `CTX` bit is an operand of every command: no row's mask fixes it. -/

namespace Sys2Proof

/-- The calling context, bit 8 of the command word (30_encoding.md R140, 60_exceptions.md R461). -/
inductive Ctx where
  | thread      -- CTX = 0
  | interrupt   -- CTX = 1: interrupt or locked context
deriving DecidableEq, Repr

/-- A command with the operands its word carries (30_encoding.md R143). The handles, depths, indices and
intervals of field `A` and `B` are naturals (R141: zero-extended), bounded in WellFormed.lean; the
operands in `ARG0..ARG3` are registers, not part of the word. -/
inductive Instr where
  /-- `NOP` (R405). -/
  | nop (ctx : Ctx)
  /-- `SCHED_START` (R250). -/
  | schedStart (ctx : Ctx)
  /-- `ED_OPEN` (R200). -/
  | edOpen (ctx : Ctx)
  /-- `ED_CLOSE e` (R208). -/
  | edClose (ctx : Ctx) (e : Nat)
  /-- `ED_SUSPEND e` (R215). -/
  | edSuspend (ctx : Ctx) (e : Nat)
  /-- `ED_RESUME e` (R216). -/
  | edResume (ctx : Ctx) (e : Nat)
  /-- `ED_CLEAR_HALT e, clrtog` (R217). -/
  | edClearHalt (ctx : Ctx) (e : Nat) (clrtog : Bool)
  /-- `ED_QUIESCE e` (R205). -/
  | edQuiesce (ctx : Ctx) (e : Nat)
  /-- `SCHED_BITPOS d, n` (R262). -/
  | schedBitpos (ctx : Ctx) (d : Nat) (n : Nat)
  /-- `SCHED_IDEPTH iv` (R263). -/
  | schedIdepth (ctx : Ctx) (iv : Nat)
  /-- `SCHED_LOAD i` (R264). -/
  | schedLoad (ctx : Ctx) (i : Nat)
  /-- `TD_QUEUE e, more, r, di, dp` (R300). -/
  | tdQueue (ctx : Ctx) (e : Nat) (more : Bool) (r : Bool) (di : BitVec 3) (dp : BitVec 2)
  /-- `XFER_COMPLETE e` (R305). -/
  | xferComplete (ctx : Ctx) (e : Nat)
  /-- `XFER_ABORT e` (R310). -/
  | xferAbort (ctx : Ctx) (e : Nat)
  /-- `CC_CLASSIFY cc` (R315). -/
  | ccClassify (ctx : Ctx) (cc : BitVec 4)
  /-- `DQ_DRAIN` (R350). -/
  | dqDrain (ctx : Ctx)
  /-- `CFLUSH` (R400). -/
  | cflush (ctx : Ctx)
  /-- `CINVAL` (R401). -/
  | cinval (ctx : Ctx)
deriving DecidableEq, Repr

end Sys2Proof
end

