-- ==== Sys2Proof/WellFormed.lean ====
section
/-! DEFINITION. Which commands have an encoding: every operand fits the field of the command word that
carries it (30_encoding.md R140, R141, R143). A value the command itself refuses (a depth of 6, a
direction of 3) is well formed: its word exists, and the command ends with an error. -/

namespace Sys2Proof

/-- A value of an 8-bit operand field, `A` or `B` (R140). -/
def fitsByte (n : Nat) : Bool := decide (n < 256)

/-- The command has a word. The fields of fixed width (`CLRTOG`, `MORE`, `R`, `DI`, `DP`, `CC`, `CTX`)
fit by their type. -/
def Instr.wf : Instr → Bool
  | .nop _ => true
  | .schedStart _ => true
  | .edOpen _ => true
  | .edClose _ e => fitsByte e
  | .edSuspend _ e => fitsByte e
  | .edResume _ e => fitsByte e
  | .edClearHalt _ e _ => fitsByte e
  | .edQuiesce _ e => fitsByte e
  | .schedBitpos _ d n => fitsByte d && fitsByte n
  | .schedIdepth _ iv => fitsByte iv
  | .schedLoad _ i => fitsByte i
  | .tdQueue _ e _ _ _ _ => fitsByte e
  | .xferComplete _ e => fitsByte e
  | .xferAbort _ e => fitsByte e
  | .ccClassify _ _ => true
  | .dqDrain _ => true
  | .cflush _ => true
  | .cinval _ => true

end Sys2Proof
end

