-- ==== Sys2Proof/Decode.lean ====
section
/-! DEFINITION. The command word (30_encoding.md R140 to R146): its fields, the decoder, the encoder. -/

namespace Sys2Proof

/-- Why a word is no command. Both end the command with `E_BADCMD` (30_encoding.md R144 (1), (2)). -/
inductive Reject where
  /-- `OP` is none of R142's values. -/
  | reservedOpcode
  /-- `RSV`, or a bit of `A` or `B` that R143 requires to be 0, is not 0. -/
  | reservedField
deriving DecidableEq, Repr

/-- `OP`, bits [7:0] (R140). -/
def opField (w : Word) : BitVec 8 := w.extractLsb' 0 8

/-- `CTX`, bit 8 (R140). -/
def ctxField (w : Word) : Ctx := if w.getLsbD 8 then .interrupt else .thread

/-- `RSV`, bits [15:9] (R140). -/
def rsvField (w : Word) : BitVec 7 := w.extractLsb' 9 7

/-- `A`, bits [23:16] (R140). -/
def aField (w : Word) : BitVec 8 := w.extractLsb' 16 8

/-- `B`, bits [31:24] (R140). -/
def bField (w : Word) : BitVec 8 := w.extractLsb' 24 8

/-- A command whose reserved fields must be 0. -/
def whenZero (reservedZero : Bool) (i : Instr) : Except Reject Instr :=
  if reservedZero then .ok i else .error .reservedField

/-- The decoder: first the opcode (R144 (1)), then the reserved fields (R144 (2)). It looks at the word
alone (R146). -/
def decode (w : Word) : Except Reject Instr :=
  let ctx := ctxField w
  let a := aField w
  let b := bField w
  let rsv0 := rsvField w == 0#7
  let a0 := rsv0 && a == 0#8
  let b0 := rsv0 && b == 0#8
  let ab0 := a0 && b0
  match (opField w).toNat with
  | 0x00 => whenZero ab0 (.nop ctx)
  | 0x01 => whenZero ab0 (.schedStart ctx)
  | 0x10 => whenZero ab0 (.edOpen ctx)
  | 0x11 => whenZero b0 (.edClose ctx a.toNat)
  | 0x12 => whenZero b0 (.edSuspend ctx a.toNat)
  | 0x13 => whenZero b0 (.edResume ctx a.toNat)
  | 0x14 => whenZero (rsv0 && b.extractLsb' 1 7 == 0#7) (.edClearHalt ctx a.toNat (b.getLsbD 0))
  | 0x15 => whenZero b0 (.edQuiesce ctx a.toNat)
  | 0x20 => whenZero rsv0 (.schedBitpos ctx a.toNat b.toNat)
  | 0x21 => whenZero b0 (.schedIdepth ctx a.toNat)
  | 0x22 => whenZero b0 (.schedLoad ctx a.toNat)
  | 0x30 =>
    whenZero (rsv0 && !b.getLsbD 7)
      (.tdQueue ctx a.toNat (b.getLsbD 0) (b.getLsbD 1) (b.extractLsb' 2 3) (b.extractLsb' 5 2))
  | 0x31 => whenZero b0 (.xferComplete ctx a.toNat)
  | 0x32 => whenZero b0 (.xferAbort ctx a.toNat)
  | 0x33 => whenZero (b0 && a.extractLsb' 4 4 == 0#4) (.ccClassify ctx (a.extractLsb' 0 4))
  | 0x38 => whenZero ab0 (.dqDrain ctx)
  | 0x40 => whenZero ab0 (.cflush ctx)
  | 0x41 => whenZero ab0 (.cinval ctx)
  | _ => .error .reservedOpcode

/-- The opcode of a command (R142). -/
def Instr.opcode : Instr → BitVec 8
  | .nop _ => 0x00#8
  | .schedStart _ => 0x01#8
  | .edOpen _ => 0x10#8
  | .edClose _ _ => 0x11#8
  | .edSuspend _ _ => 0x12#8
  | .edResume _ _ => 0x13#8
  | .edClearHalt _ _ _ => 0x14#8
  | .edQuiesce _ _ => 0x15#8
  | .schedBitpos _ _ _ => 0x20#8
  | .schedIdepth _ _ => 0x21#8
  | .schedLoad _ _ => 0x22#8
  | .tdQueue _ _ _ _ _ _ => 0x30#8
  | .xferComplete _ _ => 0x31#8
  | .xferAbort _ _ => 0x32#8
  | .ccClassify _ _ => 0x33#8
  | .dqDrain _ => 0x38#8
  | .cflush _ => 0x40#8
  | .cinval _ => 0x41#8

/-- The calling context a command carries (R140). -/
def Instr.ctx : Instr → Ctx
  | .nop c => c
  | .schedStart c => c
  | .edOpen c => c
  | .edClose c _ => c
  | .edSuspend c _ => c
  | .edResume c _ => c
  | .edClearHalt c _ _ => c
  | .edQuiesce c _ => c
  | .schedBitpos c _ _ => c
  | .schedIdepth c _ => c
  | .schedLoad c _ => c
  | .tdQueue c _ _ _ _ _ => c
  | .xferComplete c _ => c
  | .xferAbort c _ => c
  | .ccClassify c _ => c
  | .dqDrain c => c
  | .cflush c => c
  | .cinval c => c

/-- Operand `A` of a command (R143). -/
def Instr.fieldA : Instr → BitVec 8
  | .nop _ => 0#8
  | .schedStart _ => 0#8
  | .edOpen _ => 0#8
  | .edClose _ e => BitVec.ofNat 8 e
  | .edSuspend _ e => BitVec.ofNat 8 e
  | .edResume _ e => BitVec.ofNat 8 e
  | .edClearHalt _ e _ => BitVec.ofNat 8 e
  | .edQuiesce _ e => BitVec.ofNat 8 e
  | .schedBitpos _ d _ => BitVec.ofNat 8 d
  | .schedIdepth _ iv => BitVec.ofNat 8 iv
  | .schedLoad _ i => BitVec.ofNat 8 i
  | .tdQueue _ e _ _ _ _ => BitVec.ofNat 8 e
  | .xferComplete _ e => BitVec.ofNat 8 e
  | .xferAbort _ e => BitVec.ofNat 8 e
  | .ccClassify _ cc => 0#4 ++ cc
  | .dqDrain _ => 0#8
  | .cflush _ => 0#8
  | .cinval _ => 0#8

/-- Operand `B` of a command (R143). -/
def Instr.fieldB : Instr → BitVec 8
  | .nop _ => 0#8
  | .schedStart _ => 0#8
  | .edOpen _ => 0#8
  | .edClose _ _ => 0#8
  | .edSuspend _ _ => 0#8
  | .edResume _ _ => 0#8
  | .edClearHalt _ _ clrtog => 0#7 ++ BitVec.ofBool clrtog
  | .edQuiesce _ _ => 0#8
  | .schedBitpos _ _ n => BitVec.ofNat 8 n
  | .schedIdepth _ _ => 0#8
  | .schedLoad _ _ => 0#8
  | .tdQueue _ _ more r di dp => 0#1 ++ dp ++ di ++ BitVec.ofBool r ++ BitVec.ofBool more
  | .xferComplete _ _ => 0#8
  | .xferAbort _ _ => 0#8
  | .ccClassify _ _ => 0#8
  | .dqDrain _ => 0#8
  | .cflush _ => 0#8
  | .cinval _ => 0#8

/-- `CTX` as a bit (R140). -/
def Ctx.bit : Ctx → BitVec 1
  | .thread => 0#1
  | .interrupt => 1#1

/-- The encoder: format C with `B`, `A`, `RSV = 0`, `CTX`, `OP` from the high bits down (R140). -/
def encode (i : Instr) : Word :=
  i.fieldB ++ i.fieldA ++ 0#7 ++ i.ctx.bit ++ i.opcode

/-- What the decoder reads from a word numbered as spec/opcode_table.json numbers it: one 32-bit command
word, bit 0 the least significant; the bits from `nbits` up are 0. -/
def decodeTableWord (nbits w : Nat) : Option Instr :=
  match decode (BitVec.ofNat 32 (w % 2 ^ nbits)) with
  | .ok i => some i
  | .error _ => none

end Sys2Proof
end

