-- ==== Sys2Proof/Config.lean ====
section
/-! DEFINITION. The implementation parameters of 00_scope.md R8, what R9 derives from them, the test
configuration TC, and the one free value of the model. -/

namespace Sys2Proof

/-- How a done TD is correlated with its slot (00_scope.md R8, `CORR_MODE`). -/
inductive CorrMode where
  | index   -- speed-optimized: the index table
  | scan    -- size-optimized: a scan of every queue
deriving DecidableEq, Repr

/-- How a polling interval is rounded (00_scope.md R8, `INTERVAL_ROUND`). -/
inductive IntervalRound where
  | nearest
  | floor
deriving DecidableEq, Repr

/-- A natural number for each of the two speeds. -/
structure PerSpeed where
  full : Nat
  low : Nat
deriving DecidableEq, Repr

/-- The parameters of 00_scope.md R8. The spec takes them as arguments; the model carries them in the
state, where nothing changes them (log 1). -/
structure Params where
  /-- `NED`: endpoint slots. -/
  ned : Nat
  /-- `NTD`: transfer-descriptor slots. -/
  ntd : Nat
  /-- `CACHE_LINE`: bytes of a cache line. -/
  cacheLine : Nat
  /-- `COHERENT`: no cache between the block and memory. -/
  coherent : Bool
  /-- `DESC_BASE`: address of ED slot 0. -/
  descBase : Nat
  /-- `TD_BASE`: address of TD slot 0. -/
  tdBase : Nat
  /-- `HCCA_BASE`. -/
  hccaBase : Nat
  /-- `OHCI_BASE`: the HC's registers (no rule of a step depends on it: R12 gives offsets). -/
  ohciBase : Nat
  /-- `BLK_BASE`: the block's registers (no rule of a step depends on it: R20 gives offsets). -/
  blkBase : Nat
  /-- `CORR_MODE`. -/
  corrMode : CorrMode
  /-- `OVERHEAD(0, speed)`. -/
  overheadControl : PerSpeed
  /-- `OVERHEAD(2, speed)`. -/
  overheadBulk : PerSpeed
  /-- `OVERHEAD(3, speed)`. -/
  overheadInterrupt : PerSpeed
  /-- `MAX_PERIODIC_BW(speed)`. -/
  maxPeriodicBw : PerSpeed
  /-- `INTERVAL_ROUND`. -/
  intervalRound : IntervalRound
  /-- `FAULT_DEPTH`: capacity of the developer-fault log. -/
  faultDepth : Nat
  /-- `WB_MASKED`: a write-back writes only the 32-bit words written. -/
  wbMasked : Bool
deriving DecidableEq, Repr

/-- `STRIDE = max(16, CACHE_LINE)` (00_scope.md R9). -/
def Params.stride (p : Params) : Nat := max 16 p.cacheLine

/-- `COMP_DEPTH = NTD` (00_scope.md R9). -/
def Params.compDepth (p : Params) : Nat := p.ntd

/-- Two half-open address ranges that share no address. -/
def rangesDisjoint (a na b nb : Nat) : Bool := decide (a + na ≤ b) || decide (b + nb ≤ a)

/-- The legal values of 00_scope.md R8, and its demand that the three descriptor regions are disjoint
and lie below 2^32. -/
def Params.legal (p : Params) : Bool :=
  decide (1 ≤ p.ned ∧ p.ned ≤ 255) && decide (2 ≤ p.ntd ∧ p.ntd ≤ 65535)
  && [16, 32, 64, 128, 256].contains p.cacheLine
  && decide (p.descBase % p.stride = 0) && decide (p.tdBase % p.stride = 0)
  && decide (p.hccaBase % 256 = 0) && decide (p.ohciBase % 4 = 0) && decide (p.blkBase % 256 = 0)
  && decide (1 ≤ p.faultDepth ∧ p.faultDepth ≤ 255)
  && rangesDisjoint p.descBase (p.stride * (p.ned + 1)) p.tdBase (p.stride * p.ntd)
  && rangesDisjoint p.descBase (p.stride * (p.ned + 1)) p.hccaBase 256
  && rangesDisjoint p.tdBase (p.stride * p.ntd) p.hccaBase 256
  && decide (p.descBase + p.stride * (p.ned + 1) ≤ 2 ^ 32)
  && decide (p.tdBase + p.stride * p.ntd ≤ 2 ^ 32)
  && decide (p.hccaBase + 256 ≤ 2 ^ 32)

/-- The test configuration TC (00_scope.md R8, last column). -/
def Params.tc : Params where
  ned := 8
  ntd := 32
  cacheLine := 32
  coherent := false
  descBase := 0x20000000
  tdBase := 0x20001000
  hccaBase := 0x20002000
  ohciBase := 0x40000000
  blkBase := 0x40010000
  corrMode := .index
  overheadControl := ⟨0, 0⟩
  overheadBulk := ⟨0, 0⟩
  overheadInterrupt := ⟨0, 0⟩
  maxPeriodicBw := ⟨900, 900⟩
  intervalRound := .nearest
  faultDepth := 8
  wbMasked := false

/-- FREE VALUE (log 8, DESIGN CHOICE): what a result register holds when the exact integer to be written
needs more than 32 bits. R11 keeps the sums exact and R20 gives the register 32 bits; the spec states no
value. The first argument is the count of draws so far, the second the number of the result register. -/
opaque Config.freeResult : Nat → Nat → Word

end Sys2Proof
end

