-- ==== Sys2Proof/Machine/State.lean ====
section
/-! DEFINITION. The state of the machine, all of it plain data: the block's registers and internal state
(10_state.md), memory and cache (20_memory.md R70, R100), the HC as the block's environment (20_memory.md
R91 to R126), and the moves of the other agents still to come. -/

namespace Sys2Proof.Machine

/-! ### The endpoint and transfer tables -/

/-- Type of an endpoint (10_state.md R30); isochronous endpoints are never allocated. -/
inductive EdType where
  | control
  | bulk
  | interrupt
deriving DecidableEq, Repr

/-- Speed of an endpoint (10_state.md R30, 20_memory.md R85 `S`). -/
inductive Speed where
  | full
  | low
deriving DecidableEq, Repr

/-- One HCD-ED (10_state.md R30). -/
structure Ed where
  alloc : Bool := false
  key : Word := 0#32
  type : EdType := .control
  speed : Speed := .full
  interval : Nat := 0
  depth : Nat := 0
  bw : Nat := 0
  slot : Nat := 0
  head : Nat := 0
  tail : Nat := 0
  afterSetup : Bool := false
deriving DecidableEq, Repr

/-- One HCD-TD (10_state.md R31); `none` is the spec's `NONE`. -/
structure Td where
  alloc : Bool := false
  owner : Nat := 0
  status : Word := 0#32
  next : Option Nat := none
deriving DecidableEq, Repr

/-- One completion record (10_state.md R35). -/
structure CompRec where
  ed : Nat
  td : Nat
  cc : BitVec 4
  key : Word
deriving DecidableEq, Repr

/-- The error codes of 60_exceptions.md R450 that a command reports. -/
inductive ErrCode where
  | ok
  | badCmd
  | badArg
  | badState
  | context
  | noMem
  | bandwidth
  | isochronous
  | notFound
  | quiesceTimeout
  | fault
deriving DecidableEq, Repr

/-- The developer-fault codes of 60_exceptions.md R455. -/
inductive FaultCode where
  | indexRange
  | unresolved
  | order
  | notFinished
  | tdNotFound
  | doneLoop
  | compOverflow
  | duplicate
deriving DecidableEq, Repr

/-- One record of the developer-fault log (10_state.md R36). -/
structure FaultRec where
  code : FaultCode
  info : Word
deriving DecidableEq, Repr

/-! ### The sequencer -/

/-- The captured `ARG0..ARG3` (10_state.md R24, R38). -/
structure Args where
  arg0 : Word := 0#32
  arg1 : Word := 0#32
  arg2 : Word := 0#32
  arg3 : Word := 0#32
deriving DecidableEq, Repr

/-- What the sequencer holds of the command it runs (10_state.md R38): the command word (its `op` is a field
of it), the calling context, the snapshot, the position reached (the number of steps taken), and whether it
is an automatic drain (43_done_queue.md R351). A drain has no command word and no snapshot of its own; that
they are 0 there is the model's choice (log 35). -/
structure Running where
  word : Word := 0#32
  /-- `ctx`: the word's `CTX` bit, or 1 for an automatic drain (60_exceptions.md R461) -/
  ctx : Ctx := .thread
  auto : Bool := false
  args : Args := {}
  point : Nat := 0
deriving DecidableEq, Repr

/-- What follows the frame wait (10_state.md R38, `continuation`): the rest of the one of the three
blocking commands that entered it. -/
inductive Cont where
  | quiesce (e : Nat)
  | close (e : Nat)
  | abort (e t : Nat)
deriving DecidableEq, Repr

/-- The sequencer state (10_state.md R38). -/
inductive Seq where
  | idle
  | exec (run : Running)
  | wait (run : Running) (ed : Nat) (f0 : BitVec 16) (r : Nat) (k : Cont)
deriving DecidableEq, Repr

/-! ### The cache -/

/-- A present cache line (20_memory.md R100, R104). `data` lists the line's nonzero bytes by address, in
the canonical form of memory; `words` has one dirty bit per 32-bit word of the line. -/
structure Line where
  data : List Host.Cell := []
  dirty : Bool := false
  words : BitVec 64 := 0#64
  /-- MODEL'S OWN: the block, not only the host, wrote the line since it was last clean
  (70_reset_and_hazards.md R524 asks it; log 36) -/
  byBlock : Bool := false
deriving DecidableEq, Repr

/-! ### The HC -/

/-- The three list positions of the HC (20_memory.md R122). -/
inductive Pos where
  | periodic
  | control
  | bulk
deriving DecidableEq, Repr

/-- The words of the TD being processed, as the HC read them (20_memory.md R123, R124). -/
structure TdView where
  head : Word
  control : Word
  cbp : Word
  next : Word
  be : Word
deriving DecidableEq, Repr

/-- The event of a serve that comes next (20_memory.md R123 to R125). -/
inductive Phase where
  | readHead
  | readTail (head : Word)
  | readTdControl (head : Word)
  | readTdCbp (head control : Word)
  | readTdNext (head control cbp : Word)
  | readTdBe (head control cbp next : Word)
  /-- all words read: one of the three outcomes of R124; `wrote`: IN data has landed in the buffer, so that
  the outcome is not (a), which writes nothing -/
  | process (v : TdView) (wrote : Bool)
  /-- partial progress: `T` and `EC` are still to be written -/
  | progressControl (v : TdView) (t ec : BitVec 2)
  /-- retirement: R125 (2), (3) and (4) still to come -/
  | retireCbp (v : TdView) (cbp : Word) (carry halt : Bool)
  | retireNext (v : TdView) (carry halt : Bool)
  | retireHead (v : TdView) (carry halt : Bool)
  | readNext
deriving DecidableEq, Repr

/-- A serve in progress (20_memory.md R123): the position it serves, the ED's address and its control
word as read, and the event that comes next. -/
structure Serve where
  pos : Pos
  ed : Word
  control : Word
  phase : Phase
deriving DecidableEq, Repr

/-- The HC: its registers (20_memory.md R91 to R97), list positions and done list (R122, R126), and the
serve in progress. `others` holds the registers of R91 that no rule gives a behaviour, by offset. -/
structure Hc where
  control : Word := 0#32
  commandStatus : Word := 0#32
  interruptStatus : Word := 0#32
  hcca : Word := 0#32
  controlHead : Word := 0#32
  bulkHead : Word := 0#32
  fmNumber : BitVec 16 := 0#16
  ppos : Word := 0#32
  cpos : Word := 0#32
  bpos : Word := 0#32
  dq : Word := 0#32
  serve : Option Serve := none
  others : List (Nat × Word) := []
deriving DecidableEq, Repr

/-! ### The moves of the agents (60_exceptions.md R465) -/

/-- One step of the HC, with every choice the rules leave it (20_memory.md R120 to R126). A move that is
not enabled changes nothing. -/
inductive HcMove where
  /-- a frame step (R121, R122); `some b`: with the writeback of R126, flag bit `b`, where it may come -/
  | frame (writeback : Option Bool)
  /-- the control (`false`) or bulk (`true`) position restarts from its head register (R122) -/
  | restart (bulk : Bool)
  /-- a serve begins: the ED's control word is read (R123) -/
  | serve (pos : Pos)
  /-- the next event of the serve in progress that leaves no choice (R123, R125) -/
  | event
  /-- outcome (a) of R124: no progress -/
  | noProgress
  /-- outcome (b) of R124 -/
  | progress (cbp : Word) (update : Option (BitVec 2 × BitVec 2))
  /-- outcome (c) of R124: retirement begins, R125 (1) -/
  | retire (cc : BitVec 4) (t ec : BitVec 2) (cbp : Word) (carry : Bool)
  /-- a byte of IN data lands in the buffer of the TD being processed -/
  | data (a : Word) (b : Byte)
  /-- the HC writes a byte of the HCCA that R80 leaves to it and no other rule describes -/
  | reserved (off : BitVec 8) (b : Byte)
  /-- the HC sets bits of `HcInterruptStatus` other than `WDH` (R95) -/
  | status (bits : Word)
deriving DecidableEq, Repr

/-- One spontaneous step of the cache (20_memory.md R103). `inter` gives, word by word, the HC steps that
come between the writes of a write-back (R104). -/
inductive CacheMove where
  | writeBack (base : Nat) (inter : List (List HcMove))
  | drop (base : Nat)
deriving DecidableEq, Repr

/-- One access of the host (60_exceptions.md R465, 70_reset_and_hazards.md R512, R521). The spec gives neither
the width of a host access to an HC register nor the size of the HC's register space (20_memory.md R70, R91):
whole 32-bit accesses and 4096 bytes of offsets are the model's choice (log 43). -/
inductive HostMove where
  | blockRead (off : BitVec 8) (size : Nat)
  | blockWrite (off : BitVec 8) (size : Nat) (v : Word)
  | hcRead (off : BitVec 12)
  | hcWrite (off : BitVec 12) (v : Word)
  | memRead (a : Word)
  | memWrite (a : Word) (b : Byte)
deriving DecidableEq, Repr

/-- Who moves next. `block` gives the turn to the sequencer; `timer` is the frame-period timer event of
40_endpoint.md R207; `reset` is the reset input of 70_reset_and_hazards.md R500. -/
inductive Move where
  | block
  | host (m : HostMove)
  | hc (m : HcMove)
  | cache (m : CacheMove)
  | timer
  | reset
deriving DecidableEq, Repr

/-! ### The state -/

/-- The machine's state. Tables are sparse: a slot that is not listed holds the default of its type. -/
structure State where
  /-- the parameters (00_scope.md R8); nothing changes them -/
  params : Params
  /-- `CFG.AUTO_DRAIN` (10_state.md R22) -/
  autoDrain : Bool := false
  /-- `STATUS.STARTED` (R23, R37) -/
  started : Bool := false
  /-- `STATUS.FAULT_OVF` (R23) -/
  faultOvf : Bool := false
  /-- `STATUS.CMDLOST` (R23, R24) -/
  cmdLost : Bool := false
  /-- `STATUS.ERR` (R23) -/
  err : ErrCode := .ok
  /-- `ARG0..ARG3` (R25) -/
  arg0 : Word := 0#32
  arg1 : Word := 0#32
  arg2 : Word := 0#32
  arg3 : Word := 0#32
  /-- `RES0..RES2` (R26) -/
  res0 : Word := 0#32
  res1 : Word := 0#32
  res2 : Word := 0#32
  /-- `ISR[3:0]` (R27) -/
  isr : BitVec 4 := 0#4
  /-- `IER[3:0]` (R28) -/
  ier : BitVec 4 := 0#4
  /-- `EDT` (R30) -/
  edt : List (Nat × Ed) := []
  /-- `TDT` (R31) -/
  tdt : List (Nat × Td) := []
  /-- `IDX_VALID` (R33) -/
  idxValid : List (Nat × Bool) := []
  /-- `L[0..64]` (R34) -/
  place : List (Nat × List Nat) := []
  /-- `COMPQ` (R35) -/
  compq : List CompRec := []
  /-- `FLOG` (R36) -/
  flog : List FaultRec := []
  /-- `FAULT_COUNT` (R20, 60_exceptions.md R456) -/
  faultCount : Word := 0#32
  /-- `PLOCK` (R37) -/
  plock : Bool := false
  /-- the sequencer (R38) -/
  seq : Seq := .idle
  /-- physical memory (20_memory.md R70): the nonzero bytes, by rising address -/
  mem : List Host.Cell := []
  /-- the present cache lines (20_memory.md R100), by rising base address -/
  cache : List (Nat × Line) := []
  /-- the HC -/
  hc : Hc := {}
  /-- MODEL'S OWN: the moves still to come (log 2) -/
  sched : List Move := []
  /-- MODEL'S OWN: the word the host's last read returned (log 19) -/
  hostData : Word := 0#32
  /-- MODEL'S OWN: how many free values have been drawn (log 8) -/
  draws : Nat := 0
deriving DecidableEq, Repr

/-! ### What a step can end in -/

/-- Why the machine stops. Each stop is safe: nothing is claimed of what the hardware does after it. -/
inductive Fault where
  /-- A host register access that is not an aligned 32-bit access. Raised by the host's port; 20_memory.md
  R76: "the model gives it no step (the access is stuck)". Safe. -/
  | hostAccess
  /-- A walk along `next` met `NONE`, or more than `NTD` TDs, where the pseudocode goes on. Raised by the
  queue walks; R42 (b) rules such states out. Safe. -/
  | brokenQueue
  /-- An endpoint to be unlinked is not in its placement list. Raised by the unlinking procedures; R42 (e)
  rules such states out. Safe. -/
  | brokenPlacement
  /-- `step` was given a state between two steps of a command (log 23). Raised by `step`; no step answers
  such a state. Safe. -/
  | midCommand
deriving DecidableEq, Repr

/-- Why an instruction has no meaning. -/
inductive Refusal where
  /-- The instruction has no meaning yet. Raised by the dispatch alone. Safe. -/
  | notModelled (mnemonic : String)
deriving DecidableEq, Repr

/-! ### The canonical form of memory, and reset -/

/-- The keys of a sparse table rise strictly. -/
def keysRise {α : Type} : List (Nat × α) → Bool
  | [] => true
  | [_] => true
  | p :: q :: rest => decide (p.1 < q.1) && keysRise (q :: rest)

/-- The canonical form of a sparse table whose unlisted entries read as `d`: rising keys, and no entry
equal to `d`. -/
def tableWf {α : Type} [DecidableEq α] (d : α) (m : List (Nat × α)) : Bool :=
  keysRise m && m.all (fun p => decide (p.2 ≠ d))

/-- The canonical form of memory: rising addresses, no listed byte equal to 0, which is what an unlisted
address reads as (log 5). -/
abbrev Memory.wf (m : List Host.Cell) : Bool := tableWf (0#8) m

/-- The machine right after reset: the block at the reset values of 10_state.md R20 and R43, the cache
empty, the HC in the initial state of 70_reset_and_hazards.md R501, the parameters those of TC (log 1).
The defaults of the fields are the reset values. -/
def State.reset : State := { params := Params.tc }

end Sys2Proof.Machine
end

