-- ==== Sys2Proof/Machine/Store.lean ====
section
/-! DEFINITION. Sparse tables in canonical form (memory among them), little-endian 32-bit and 16-bit values in
memory (20_memory.md R72), and the entries of the block's tables. -/

namespace Sys2Proof.Machine

/-- The entry listed under a key. -/
def tableFind {α : Type} (k : Nat) : List (Nat × α) → Option α
  | [] => none
  | p :: rest => if p.1 = k then some p.2 else tableFind k rest

/-- What a key reads as. -/
def tableGet {α : Type} (d : α) (m : List (Nat × α)) (k : Nat) : α := (tableFind k m).getD d

/-- No entry under a key. -/
def tableErase {α : Type} (k : Nat) : List (Nat × α) → List (Nat × α)
  | [] => []
  | p :: rest => if p.1 = k then tableErase k rest else p :: tableErase k rest

/-- An entry put before the first larger key. -/
def tableInsert {α : Type} (k : Nat) (v : α) : List (Nat × α) → List (Nat × α)
  | [] => [(k, v)]
  | p :: rest => if k < p.1 then (k, v) :: p :: rest else p :: tableInsert k v rest

/-- The table in which a key holds a value; a value equal to the default is not listed. -/
def tablePut {α : Type} [DecidableEq α] (d : α) (m : List (Nat × α)) (k : Nat) (v : α) :
    List (Nat × α) :=
  if v = d then tableErase k m else tableInsert k v (tableErase k m)

/-- One byte of memory (log 5: an unlisted address reads 0). -/
def loadByte (m : List Host.Cell) (a : Nat) : Byte := tableGet 0#8 m a

/-- Memory with one byte written. -/
def storeByte (m : List Host.Cell) (a : Nat) (b : Byte) : List Host.Cell := tablePut 0#8 m a b

/-- A 32-bit value: the byte at the lowest address holds bits [7:0] (20_memory.md R72). -/
def load32 (m : List Host.Cell) (a : Nat) : Word :=
  loadByte m (a + 3) ++ loadByte m (a + 2) ++ loadByte m (a + 1) ++ loadByte m a

/-- Memory with a 32-bit value written, little-endian (20_memory.md R72). -/
def store32 (m : List Host.Cell) (a : Nat) (v : Word) : List Host.Cell :=
  storeByte (storeByte (storeByte (storeByte m a (v.extractLsb' 0 8)) (a + 1) (v.extractLsb' 8 8))
    (a + 2) (v.extractLsb' 16 8)) (a + 3) (v.extractLsb' 24 8)

/-- Memory with a 16-bit value written, little-endian (20_memory.md R72, R80 `HccaFrameNumber`). -/
def store16 (m : List Host.Cell) (a : Nat) (v : BitVec 16) : List Host.Cell :=
  storeByte (storeByte m a (v.extractLsb' 0 8)) (a + 1) (v.extractLsb' 8 8)

/-- The part of memory in `[base, base + n)`. -/
def memRange (m : List Host.Cell) (base n : Nat) : List Host.Cell :=
  m.filter (fun p => decide (base ≤ p.1 ∧ p.1 < base + n))

/-! ### The tables (10_state.md R30 to R34) -/

/-- `EDT[e]`. -/
def State.ed (s : State) (e : Nat) : Ed := tableGet {} s.edt e

/-- `TDT[t]`. -/
def State.td (s : State) (t : Nat) : Td := tableGet {} s.tdt t

/-- `IDX_VALID[t]`. -/
def State.indexed (s : State) (t : Nat) : Bool := tableGet false s.idxValid t

/-- `L[k]`. -/
def State.list (s : State) (k : Nat) : List Nat := tableGet [] s.place k

end Sys2Proof.Machine
end

