-- ==== Sys2Proof/Machine/Flags.lean ====
section
/-! DEFINITION. Bits and codes: the flags of the HC-ED and HC-TD words, of the HC registers, of `STATUS`,
`ISR` and `IRQ`; error, fault and class codes; the completion-record and fault-record words. -/

namespace Sys2Proof.Machine

/-! ### HC-ED words (20_memory.md R84 to R88) -/

/-- `K`, bit 14 of the HC-ED control word (R85). -/
def skipBit : Word := 0x4000#32

/-- `H`, bit 0 of `HeadP` (R87). -/
def haltBit : Word := 0x1#32

/-- `C`, bit 1 of `HeadP` (R87). -/
def carryBit : Word := 0x2#32

/-- The address of a pointer word, bits [31:4] (R86, R87, R88, R82). -/
def ptrOf (w : Word) : Word := w &&& ~~~0xF#32

/-- `K <- 1`. -/
def setSkip (w : Word) : Word := w ||| skipBit

/-- `K <- 0`. -/
def clearSkip (w : Word) : Word := w &&& ~~~skipBit

/-- `H <- 0`. -/
def clearHaltBit (w : Word) : Word := w &&& ~~~haltBit

/-- `C <- 0`. -/
def clearCarry (w : Word) : Word := w &&& ~~~carryBit

/-! ### HC-TD control word (20_memory.md R90) -/

/-- The control word TD_QUEUE builds (42_transfer.md R300): `CC = 0xF`, `T`, `DI`, `DP`, `R`, `IDX`. -/
def tdControl (toggle : BitVec 2) (di : BitVec 3) (dp : BitVec 2) (r : Bool) (idx : Nat) : Word :=
  0xF#4 ++ 0#2 ++ toggle ++ di ++ dp ++ BitVec.ofBool r ++ 0#2 ++ BitVec.ofNat 16 idx

/-- `CC`, bits [31:28] (R90). -/
def ccOf (control : Word) : BitVec 4 := control.extractLsb' 28 4

/-- `IDX`, bits [15:0] (R90). -/
def idxOf (control : Word) : Nat := (control.extractLsb' 0 16).toNat

/-- `DP`, bits [20:19] (R90). -/
def dpOf (control : Word) : BitVec 2 := control.extractLsb' 19 2

/-- A control word with `EC` [27:26] and `T` [25:24] replaced (20_memory.md R124). -/
def withToggle (control : Word) (t ec : BitVec 2) : Word :=
  control.extractLsb' 28 4 ++ ec ++ t ++ control.extractLsb' 0 24

/-- A control word with `CC`, `EC` and `T` replaced (20_memory.md R125 (1)). -/
def withRetired (control : Word) (cc : BitVec 4) (t ec : BitVec 2) : Word :=
  cc ++ ec ++ t ++ control.extractLsb' 0 24

/-! ### The HCD-TD status word (10_state.md R32) -/

/-- `LEN`, bits [29:0]. -/
def Td.len (t : Td) : Nat := (t.status.extractLsb' 0 30).toNat

/-- `MORE`, bit 30. -/
def Td.more (t : Td) : Bool := t.status.getLsbD 30

/-- `FINISHED`, bit 31. -/
def Td.finished (t : Td) : Bool := t.status.getLsbD 31

/-- The status word TD_QUEUE writes: `more << 30 | len` (42_transfer.md R300). -/
def queuedStatus (more : Bool) (len : Word) : Word :=
  (if more then 0x40000000#32 else 0#32) ||| len

/-- `FINISHED <- 1`. -/
def setFinished (status : Word) : Word := status ||| 0x80000000#32

/-- `MORE <- 0`. -/
def clearMore (status : Word) : Word := status &&& ~~~0x40000000#32

/-! ### HC registers (20_memory.md R93 to R95) -/

/-- `PLE`, bit 2 of `HcControl`. -/
def Hc.ple (h : Hc) : Bool := h.control.getLsbD 2

/-- `CLE`, bit 4 of `HcControl`. -/
def Hc.cle (h : Hc) : Bool := h.control.getLsbD 4

/-- `BLE`, bit 5 of `HcControl`. -/
def Hc.ble (h : Hc) : Bool := h.control.getLsbD 5

/-- `WDH`, bit 1 of `HcInterruptStatus`. -/
def Hc.wdh (h : Hc) : Bool := h.interruptStatus.getLsbD 1

/-- `CLF` of `HcCommandStatus`. -/
def clfBit : Word := 0x2#32

/-- `BLF` of `HcCommandStatus`. -/
def blfBit : Word := 0x4#32

/-- `WDH` of `HcInterruptStatus`. -/
def wdhBit : Word := 0x2#32

/-- The bits of `HcInterruptStatus` that R95 names, without `WDH`. -/
def otherStatusBits : Word := 0x4000007D#32

/-! ### `STATUS`, `ISR`, `IRQ` -/

/-- The error codes (60_exceptions.md R450). -/
def ErrCode.code : ErrCode → BitVec 8
  | .ok => 0x00#8
  | .badCmd => 0x01#8
  | .badArg => 0x02#8
  | .badState => 0x03#8
  | .context => 0x04#8
  | .noMem => 0x06#8
  | .bandwidth => 0x07#8
  | .isochronous => 0x08#8
  | .notFound => 0x09#8
  | .quiesceTimeout => 0x0A#8
  | .fault => 0x0B#8

/-- The developer-fault codes (60_exceptions.md R455). -/
def FaultCode.code : FaultCode → BitVec 8
  | .indexRange => 0x01#8
  | .unresolved => 0x02#8
  | .order => 0x03#8
  | .notFinished => 0x04#8
  | .tdNotFound => 0x05#8
  | .doneLoop => 0x06#8
  | .compOverflow => 0x07#8
  | .duplicate => 0x08#8

/-- `BUSY`: the sequencer is not idle (10_state.md R38). -/
def Seq.busy : Seq → Bool
  | .idle => false
  | .exec _ => true
  | .wait .. => true

/-- `WAITING`: the sequencer is in the frame wait (10_state.md R38). -/
def Seq.waiting : Seq → Bool
  | .idle => false
  | .exec _ => false
  | .wait .. => true

/-- `STATUS` (10_state.md R23). -/
def State.status (s : State) : Word :=
  0#16 ++ s.err.code ++ 0#3 ++ BitVec.ofBool s.cmdLost ++ BitVec.ofBool s.faultOvf
    ++ BitVec.ofBool s.seq.waiting ++ BitVec.ofBool s.started ++ BitVec.ofBool s.seq.busy

/-- `ISR.CMD_DONE` (10_state.md R27). -/
def cmdDoneBit : BitVec 4 := 0x1#4

/-- `ISR.COMP_AVAIL`. -/
def compAvailBit : BitVec 4 := 0x2#4

/-- `ISR.FAULT`. -/
def faultBit : BitVec 4 := 0x4#4

/-- `ISR.DRAIN_DONE`. -/
def drainDoneBit : BitVec 4 := 0x8#4

/-- `ISR` bits set. -/
def State.raiseIsr (s : State) (bits : BitVec 4) : State := { s with isr := s.isr ||| bits }

/-- `IRQ`, a level (10_state.md R28). -/
def State.irq (s : State) : Bool := s.isr &&& s.ier != 0#4

/-- `WDH_IN` (10_state.md R39). -/
def State.wdhIn (s : State) : Bool := s.hc.wdh

/-! ### Record words -/

/-- `COMP_W0` of a record (10_state.md R29). -/
def CompRec.word0 (c : CompRec) : Word :=
  1#1 ++ 0#3 ++ c.cc ++ BitVec.ofNat 16 c.td ++ BitVec.ofNat 8 c.ed

/-- `FAULT_W0` of a record (10_state.md R36). -/
def FaultRec.word0 (f : FaultRec) : Word := 1#1 ++ 0#23 ++ f.code.code

/-- The `info` word `e << 16 | t` (60_exceptions.md R455). -/
def infoWord (e t : Nat) : Word := BitVec.ofNat 32 (e * 65536 + t)

/-! ### Completion classes (42_transfer.md R316) -/

/-- `CLASS(cc)`. -/
inductive CcClass where
  | ok
  | io
  | overrun
  | stall
  | unspec
deriving DecidableEq, Repr

/-- The class of a completion code: R316's table. 0xE is `UNSPEC` (90_conflicts.md C7). -/
def ccClass (cc : BitVec 4) : CcClass :=
  match cc.toNat with
  | 0x0 => .ok
  | 0x9 => .ok
  | 0xF => .ok
  | 0x1 => .io
  | 0x2 => .io
  | 0x3 => .io
  | 0x5 => .io
  | 0x6 => .io
  | 0x7 => .io
  | 0xC => .io
  | 0xD => .io
  | 0x8 => .overrun
  | 0x4 => .stall
  | _ => .unspec

/-- The value of a class (R316). -/
def CcClass.value : CcClass → Nat
  | .ok => 0
  | .io => 1
  | .overrun => 2
  | .stall => 3
  | .unspec => 4

end Sys2Proof.Machine
end

