-- ==== Sys2Proof/Machine/Operands.lean ====
section
/-! DEFINITION. Operands: slot addresses (00_scope.md R9), the `ARG` forms of 30_encoding.md R143, the
control template of ED_OPEN, and the gates of 30_encoding.md R142. -/

namespace Sys2Proof.Machine

/-! ### Addresses (00_scope.md R9) -/

/-- `EDADDR(e)`. -/
def edAddr (p : Params) (e : Nat) : Word := BitVec.ofNat 32 (p.descBase + p.stride * e)

/-- `DUMMY_ED`. -/
def dummyEd (p : Params) : Word := BitVec.ofNat 32 (p.descBase + p.stride * p.ned)

/-- `TDADDR(t)`. -/
def tdAddr (p : Params) (t : Nat) : Word := BitVec.ofNat 32 (p.tdBase + p.stride * t)

/-- The address of `HccaInterruptTable[i]`, written `T[i]` (20_memory.md R80, R81). -/
def tableAddr (p : Params) (i : Nat) : Word := BitVec.ofNat 32 (p.hccaBase + 4 * i)

/-- The address of `HccaDoneHead` (20_memory.md R80). -/
def doneHeadAddr (p : Params) : Word := BitVec.ofNat 32 (p.hccaBase + 0x84)

/-- The address of an endpoint's control word, `TailP`, `HeadP` and `NextED` (20_memory.md R84). -/
def edControlAddr (p : Params) (e : Nat) : Word := edAddr p e
def edTailAddr (p : Params) (e : Nat) : Word := edAddr p e + 0x4#32
def edHeadAddr (p : Params) (e : Nat) : Word := edAddr p e + 0x8#32
def edNextAddr (p : Params) (e : Nat) : Word := edAddr p e + 0xC#32

/-- An address of the descriptor regions or the HCCA (00_scope.md R8), which belong to the block
(70_reset_and_hazards.md R510 (1), R512). -/
def blockOwns (p : Params) (a : Nat) : Bool :=
  decide (p.descBase ≤ a ∧ a < p.descBase + p.stride * (p.ned + 1))
    || decide (p.tdBase ≤ a ∧ a < p.tdBase + p.stride * p.ntd)
    || decide (p.hccaBase ≤ a ∧ a < p.hccaBase + 256)

/-! ### ARG forms (30_encoding.md R143) -/

/-- A TD handle: `ARG0[15:0]` with `ARG0[31:16] = 0` (R141). -/
def tdHandle (arg0 : Word) : Option Nat :=
  if arg0.extractLsb' 16 16 = 0#16 then some (arg0.extractLsb' 0 16).toNat else none

/-- Reserved bits of ED_OPEN's operands: `ARG2[31:8]`, template bits [15:14] and [31:29]
(40_endpoint.md R200). -/
def openReservedClear (template interval : Word) : Bool :=
  interval.extractLsb' 8 24 == 0#24 && template.extractLsb' 14 2 == 0#2
    && template.extractLsb' 29 3 == 0#3

/-- `TYPE` of a control template; `none` is isochronous (20_memory.md R85, 40_endpoint.md R202). -/
def templateType (template : Word) : Option EdType :=
  match (template.extractLsb' 27 2).toNat with
  | 0 => some .control
  | 2 => some .bulk
  | 3 => some .interrupt
  | _ => none

/-- `S` of a control template (20_memory.md R85). -/
def templateSpeed (template : Word) : Speed := if template.getLsbD 13 then .low else .full

/-- `MPS` of a control template (20_memory.md R85). -/
def templateMps (template : Word) : Nat := (template.extractLsb' 16 11).toNat

/-- The number for a speed. -/
def perSpeed (v : PerSpeed) : Speed → Nat
  | .full => v.full
  | .low => v.low

/-- `OVERHEAD(type, speed)` (00_scope.md R8). -/
def overhead (p : Params) : EdType → Speed → Nat
  | .control => perSpeed p.overheadControl
  | .bulk => perSpeed p.overheadBulk
  | .interrupt => perSpeed p.overheadInterrupt

/-! ### Gates (30_encoding.md R142) -/

/-- The `STARTED` condition of a command. -/
inductive StartGate where
  | any
  | needed
  | mustBeClear
deriving DecidableEq, Repr

/-- R142, column "needs STARTED". -/
def startGate : Instr → StartGate
  | .nop _ => .any
  | .schedStart _ => .mustBeClear
  | .edOpen _ => .needed
  | .edClose _ _ => .needed
  | .edSuspend _ _ => .needed
  | .edResume _ _ => .needed
  | .edClearHalt _ _ _ => .needed
  | .edQuiesce _ _ => .needed
  | .schedBitpos _ _ _ => .any
  | .schedIdepth _ _ => .any
  | .schedLoad _ _ => .needed
  | .tdQueue _ _ _ _ _ _ => .needed
  | .xferComplete _ _ => .needed
  | .xferAbort _ _ => .needed
  | .ccClassify _ _ => .any
  | .dqDrain _ => .needed
  | .cflush _ => .any
  | .cinval _ => .any

/-- R142, column "blocking (needs CTX=0)". -/
def blocking : Instr → Bool
  | .nop _ => false
  | .schedStart _ => false
  | .edOpen _ => false
  | .edClose _ _ => true
  | .edSuspend _ _ => false
  | .edResume _ _ => false
  | .edClearHalt _ _ _ => false
  | .edQuiesce _ _ => true
  | .schedBitpos _ _ _ => false
  | .schedIdepth _ _ => false
  | .schedLoad _ _ => false
  | .tdQueue _ _ _ _ _ _ => false
  | .xferComplete _ _ => false
  | .xferAbort _ _ => true
  | .ccClassify _ _ => false
  | .dqDrain _ => false
  | .cflush _ => false
  | .cinval _ => false

/-- The `STARTED` condition holds (R144 (3)). -/
def gateOpen (started : Bool) : StartGate → Bool
  | .any => true
  | .needed => started
  | .mustBeClear => !started

end Sys2Proof.Machine
end

