-- ==== Sys2Proof/Machine/Hc.lean ====
section
/-! DEFINITION. The HC: its registers as the block and the host reach them (20_memory.md R91 to R97), and
its own steps (20_memory.md R120 to R126). Its memory accesses do not see the cache. -/

namespace Sys2Proof.Machine

/-- `PhysRead(a, 4)` (00_scope.md R12). -/
def State.physRead (s : State) (a : Word) : Word := load32 s.mem a.toNat

/-- `PhysWrite(a, 4, v)` (00_scope.md R12). -/
def State.physWrite (s : State) (a v : Word) : State :=
  { s with mem := store32 s.mem a.toNat v }

/-! ### Registers -/

/-- A 32-bit read of the HC register at an offset (20_memory.md R91). Reads have no side effect (R75). The
spec gives bits [15:0] of `HcFmNumber` (R96); that the others read 0 is the model's choice (log 38). -/
def hcRegRead (h : Hc) (off : Nat) : Word :=
  match off with
  | 0x04 => h.control
  | 0x08 => h.commandStatus
  | 0x0C => h.interruptStatus
  | 0x18 => h.hcca
  | 0x1C => h.ppos
  | 0x20 => h.controlHead
  | 0x24 => h.cpos
  | 0x28 => h.bulkHead
  | 0x2C => h.bpos
  | 0x30 => h.dq
  | 0x3C => h.fmNumber.setWidth 32
  | off => tableGet 0#32 h.others off

/-- A 32-bit write of the HC register at an offset. `HcCommandStatus` bits are set by writing 1 (R94),
`HcInterruptStatus` bits cleared by writing 1 (R95), `HcFmNumber` is the HC's (R96); the pointers keep
bits [3:0] 0 (R97, R122). The registers no rule describes keep what is written (log 17). What clears `CLF`,
`BLF`, `HCR` and `OCR` once set, and what changes `SOC`, the spec does not say: that no write does is the
model's choice (logs 37, 42). -/
def hcRegWrite (h : Hc) (off : Nat) (v : Word) : Hc :=
  match off with
  | 0x04 => { h with control := v }
  | 0x08 => { h with commandStatus := h.commandStatus ||| (v &&& 0xF#32) }
  | 0x0C => { h with interruptStatus := h.interruptStatus &&& ~~~v }
  | 0x18 => { h with hcca := v }
  | 0x1C => { h with ppos := ptrOf v }
  | 0x20 => { h with controlHead := ptrOf v }
  | 0x24 => { h with cpos := ptrOf v }
  | 0x28 => { h with bulkHead := ptrOf v }
  | 0x2C => { h with bpos := ptrOf v }
  | 0x30 => { h with dq := ptrOf v }
  | 0x3C => h
  | off => { h with others := tablePut 0#32 h.others off v }

/-! ### Positions (20_memory.md R122) -/

/-- The ED address at a position. -/
def Hc.position (h : Hc) : Pos → Word
  | .periodic => h.ppos
  | .control => h.cpos
  | .bulk => h.bpos

/-- A position set. -/
def Hc.setPosition (h : Hc) (p : Pos) (a : Word) : Hc :=
  match p with
  | .periodic => { h with ppos := a }
  | .control => { h with cpos := a }
  | .bulk => { h with bpos := a }

/-- The list enable of a position. -/
def Hc.listEnabled (h : Hc) : Pos → Bool
  | .periodic => h.ple
  | .control => h.cle
  | .bulk => h.ble

/-! ### Steps -/

/-- The frame counter, the HCCA's copy of it, and the periodic position (20_memory.md R121, R122). -/
def frameStart (s : State) : State :=
  let fn := s.hc.fmNumber + 1#16
  let m := store16 s.mem (s.params.hccaBase + 0x80) fn
  { s with
    mem := m
    hc := { s.hc with
      fmNumber := fn
      ppos := ptrOf (load32 m (tableAddr s.params (fn.toNat % 32)).toNat) } }

/-- The writeback of the done list (20_memory.md R126). -/
def writeBackDone (flag : Bool) (s : State) : State :=
  if s.hc.dq ≠ 0#32 ∧ s.hc.wdh = false then
    let s1 := s.physWrite (doneHeadAddr s.params) (s.hc.dq ||| (BitVec.ofBool flag).setWidth 32)
    { s1 with hc := { s1.hc with dq := 0#32, interruptStatus := s1.hc.interruptStatus ||| wdhBit } }
  else s

/-- A frame step; not enabled while a serve is in progress (20_memory.md R121, R123). -/
def hcFrame (writeback : Option Bool) (s : State) : State :=
  match s.hc.serve with
  | some _ => s
  | none =>
    match writeback with
    | none => frameStart s
    | some flag => writeBackDone flag (frameStart s)

/-- A control or bulk position that is 0 restarts from its head register while its list is enabled
(20_memory.md R122). -/
def hcRestart (bulk : Bool) (s : State) : State :=
  if bulk then
    if s.hc.bpos = 0#32 ∧ s.hc.ble = true then { s with hc := { s.hc with bpos := s.hc.bulkHead } }
    else s
  else
    if s.hc.cpos = 0#32 ∧ s.hc.cle = true then { s with hc := { s.hc with cpos := s.hc.controlHead } }
    else s

/-- The serve in progress goes on with another event. -/
def servePhase (s : State) (v : Serve) (ph : Phase) : State :=
  { s with hc := { s.hc with serve := some { v with phase := ph } } }

/-- A serve begins at a nonzero position whose list is enabled: the control word is read, and `K = 1`
leads past the TDs (20_memory.md R122, R123). -/
def hcServe (p : Pos) (s : State) : State :=
  match s.hc.serve with
  | some _ => s
  | none =>
    let ed := s.hc.position p
    if ed ≠ 0#32 ∧ s.hc.listEnabled p = true then
      let c := s.physRead ed
      servePhase s { pos := p, ed := ed, control := c, phase := .readNext }
        (if c.getLsbD 14 then .readNext else .readHead)
    else s

/-- The next event of a serve where no choice is left (20_memory.md R123, R125 (2) to (4)). -/
def hcEvent (s : State) : State :=
  match s.hc.serve with
  | none => s
  | some v =>
    match v.phase with
    | .readHead => servePhase s v (.readTail (s.physRead (v.ed + 8#32)))
    | .readTail h =>
      let tl := s.physRead (v.ed + 4#32)
      servePhase s v (if h.getLsbD 0 || ptrOf h == ptrOf tl then .readNext else .readTdControl h)
    | .readTdControl h => servePhase s v (.readTdCbp h (s.physRead (ptrOf h)))
    | .readTdCbp h c => servePhase s v (.readTdNext h c (s.physRead (ptrOf h + 4#32)))
    | .readTdNext h c cbp => servePhase s v (.readTdBe h c cbp (s.physRead (ptrOf h + 8#32)))
    | .readTdBe h c cbp nx =>
      servePhase s v (.process
        { head := h, control := c, cbp := cbp, next := nx, be := s.physRead (ptrOf h + 0xC#32) } false)
    | .process _ _ => s
    | .progressControl d t ec =>
      servePhase (s.physWrite (ptrOf d.head) (withToggle d.control t ec)) v .readNext
    | .retireCbp d cbp carry halt =>
      servePhase (s.physWrite (ptrOf d.head + 4#32) cbp) v (.retireNext d carry halt)
    | .retireNext d carry halt =>
      let s1 := s.physWrite (ptrOf d.head + 8#32) s.hc.dq
      servePhase { s1 with hc := { s1.hc with dq := ptrOf d.head } } v (.retireHead d carry halt)
    | .retireHead d carry halt =>
      let h := ptrOf d.next ||| (if carry then carryBit else 0#32) ||| (if halt then haltBit else 0#32)
      servePhase (s.physWrite (v.ed + 8#32) h) v .readNext
    | .readNext =>
      { s with hc := { s.hc.setPosition v.pos (ptrOf (s.physRead (v.ed + 0xC#32))) with serve := none } }

/-- An address inside the TD's buffer `[CBP, BE]`. -/
def inBuffer (d : TdView) (a : Word) : Bool :=
  d.cbp != 0#32 && decide (d.cbp.toNat ≤ a.toNat) && decide (a.toNat ≤ d.be.toNat)

/-- The TD's direction is IN: from the ED's `D`, or from the TD's `DP` where `D` leaves it
(20_memory.md R85, R90). -/
def isIn (edControl : Word) (d : TdView) : Bool :=
  match (edControl.extractLsb' 11 2).toNat with
  | 1 => false
  | 2 => true
  | _ => dpOf d.control == 2#2

/-- The outcomes of processing a TD (20_memory.md R124), and the IN data that lands before the outcome: once
data has landed the outcome is (b) or (c), since (a) writes nothing. Data lands in buffer memory alone: of the
descriptors and the HCCA the HC writes what R121, R125 and R126 name and nothing else (R120, R126, R127), also
where a buffer overlaps them (log 45). A draw outside what the rules allow is not enabled. R125 ties `R`, `cc` and `CBP` together in one sentence about short packets, and
93_implementation_defined.md I16 leaves `cc` free: that the draws are free of `R` is the model's choice
(log 39). -/
def hcOutcome (m : HcMove) (s : State) : State :=
  match s.hc.serve with
  | none => s
  | some v =>
    match v.phase with
    | .process d wrote =>
      match m with
      | .noProgress => if wrote then s else servePhase s v .readNext
      | .progress cbp update =>
        if inBuffer d cbp && cbp != d.cbp then
          servePhase (s.physWrite (ptrOf d.head + 4#32) cbp) v
            (match update with
              | none => .readNext
              | some (t, ec) => .progressControl d t ec)
        else s
      | .retire cc t ec cbp carry =>
        if cbp == 0#32 || inBuffer d cbp then
          servePhase (s.physWrite (ptrOf d.head) (withRetired d.control cc t ec)) v
            (.retireCbp d cbp carry (cc != 0#4))
        else s
      | .data a b =>
        if inBuffer d a && isIn v.control d && !blockOwns s.params a.toNat then
          servePhase { s with mem := storeByte s.mem a.toNat b } v (.process d true)
        else s
      | _ => s
    | _ => s

/-- The HCCA bytes no rule but R80 describes: the padding and the reserved bytes. -/
def hccaReserved (off : Nat) : Bool := off == 0x82 || off == 0x83 || decide (0x88 ≤ off)

/-- One step of the HC (20_memory.md R120). No step clears a bit of `HcCommandStatus` (log 37) and none counts
in its field `SOC` (log 42): R120 to R126 name no such step, and that there is none is the model's choice. -/
def hcMove (m : HcMove) (s : State) : State :=
  match m with
  | .frame wb => hcFrame wb s
  | .restart bulk => hcRestart bulk s
  | .serve p => hcServe p s
  | .event => hcEvent s
  | .noProgress => hcOutcome .noProgress s
  | .progress cbp u => hcOutcome (.progress cbp u) s
  | .retire cc t ec cbp carry => hcOutcome (.retire cc t ec cbp carry) s
  | .data a b => hcOutcome (.data a b) s
  | .reserved off b =>
    if hccaReserved off.toNat then
      { s with mem := storeByte s.mem (s.params.hccaBase + off.toNat) b }
    else s
  | .status bits =>
    { s with hc := { s.hc with
        interruptStatus := s.hc.interruptStatus ||| (bits &&& otherStatusBits) } }

/-- The HC steps of a list, in order. -/
def hcMoves (ms : List HcMove) (s : State) : State := ms.foldl (fun s m => hcMove m s) s

end Sys2Proof.Machine
end

