-- ==== Sys2Proof/Machine/Cache.lean ====
section
/-! DEFINITION. The cache between the block and memory (20_memory.md R100 to R104), one line of a flush or
an invalidate (44_coherence.md R403, R404), and the cache's own steps. -/

namespace Sys2Proof.Machine

/-! ### Lines -/

/-- The base of the line that holds an address (20_memory.md R100). -/
def lineBase (p : Params) (a : Nat) : Nat := a / p.cacheLine * p.cacheLine

/-- The number of lines of `[a, a+n)` (44_coherence.md R403). -/
def lineCount (p : Params) (a n : Nat) : Nat :=
  if n = 0 then 0 else (a + n - 1) / p.cacheLine - a / p.cacheLine + 1

/-- The bases of the lines of `[a, a+n)`, ascending (44_coherence.md R403). -/
def rangeLines (p : Params) (a n : Nat) : List Nat :=
  (List.range (lineCount p a n)).map (fun k => (a / p.cacheLine + k) * p.cacheLine)

/-- A byte that a flush of `[a, a+n)` can write: those of its lines (44_coherence.md R403), the range
itself where there is no cache. -/
def inLines (p : Params) (a n x : Nat) : Bool :=
  if p.coherent then decide (a ≤ x ∧ x < a + n)
  else decide (n ≠ 0 ∧ a / p.cacheLine ≤ x / p.cacheLine ∧ x / p.cacheLine ≤ (a + n - 1) / p.cacheLine)

/-- The addresses of a line's 32-bit words, ascending. -/
def lineWords (p : Params) (base : Nat) : List Nat :=
  (List.range (p.cacheLine / 4)).map (fun k => base + 4 * k)

/-- A line just filled from memory: clean (20_memory.md R101). The fill is one event (log 12). -/
def filledLine (s : State) (base : Nat) : Line :=
  { data := memRange s.mem base s.params.cacheLine, dirty := false, words := 0#64 }

/-- The line at a base as a fill would leave it: present lines are not refilled (20_memory.md R101). -/
def lineAt (s : State) (base : Nat) : Line :=
  match tableFind base s.cache with
  | some l => l
  | none => filledLine s base

/-- The cache with a line present. -/
def State.setLine (s : State) (base : Nat) (l : Line) : State :=
  { s with cache := tableInsert base l (tableErase base s.cache) }

/-- The cache with a line absent. -/
def State.dropLine (s : State) (base : Nat) : State :=
  { s with cache := tableErase base s.cache }

/-! ### Accesses -/

/-- The value of `MemRead(a, 4)` (20_memory.md R100, R101). -/
def State.cacheLoad (s : State) (a : Word) : Word :=
  if s.params.coherent then s.physRead a
  else load32 (lineAt s (lineBase s.params a.toNat)).data a.toNat

/-- The state after `MemRead(a, 4)`: the line is present (20_memory.md R101). -/
def State.touch (s : State) (a : Nat) : State :=
  if s.params.coherent then s
  else s.setLine (lineBase s.params a) (lineAt s (lineBase s.params a))

/-- A line with its dirty bit and the bit of the word at `a` set (20_memory.md R102, R104), by the block or by
the host. -/
def Line.mark (l : Line) (block : Bool) (off : Nat) (data : List Host.Cell) : Line :=
  { data := data, dirty := true, words := l.words ||| (1#64 <<< (off / 4))
    byBlock := block || (l.dirty && l.byBlock) }

/-- The state after `MemWrite(a, 4, v)` (20_memory.md R100, R102). -/
def State.cacheStore (s : State) (a v : Word) : State :=
  if s.params.coherent then s.physWrite a v
  else
    let base := lineBase s.params a.toNat
    let l := lineAt s base
    s.setLine base (l.mark true (a.toNat - base) (store32 l.data a.toNat v))

/-- A byte read through the cache (70_reset_and_hazards.md R521: the host shares the cache). -/
def State.cacheLoadByte (s : State) (a : Nat) : Byte :=
  if s.params.coherent then loadByte s.mem a
  else loadByte (lineAt s (lineBase s.params a)).data a

/-- A byte written through the cache (70_reset_and_hazards.md R521). -/
def State.cacheStoreByte (s : State) (a : Nat) (b : Byte) : State :=
  if s.params.coherent then { s with mem := storeByte s.mem a b }
  else
    let base := lineBase s.params a
    let l := lineAt s base
    s.setLine base (l.mark false (a - base) (storeByte l.data a b))

/-! ### Write-back (20_memory.md R104) -/

/-- The words a write-back of a line writes: all of them, or the dirty ones when `WB_MASKED = 1`. -/
def writeBackWords (p : Params) (base : Nat) (l : Line) : List Nat :=
  if p.wbMasked then (lineWords p base).filter (fun a => l.words.getLsbD ((a - base) / 4))
  else lineWords p base

/-- A line after its write-back. -/
def Line.clean (l : Line) : Line := { l with dirty := false, words := 0#64, byBlock := false }

/-- The HC steps of the schedule that come before the next word of a write-back: those at its front, up
to a `block` mark, which is taken. Another agent's move waits for the end of the line (R104: "HC steps may
interleave between them"). -/
def hcLead : List Move → State → State
  | .block :: ms, s => { s with sched := ms }
  | .hc m :: ms, s => hcLead ms (hcMove m s)
  | ms, s => { s with sched := ms }

/-- The writes of a flush's write-back, HC steps between them (20_memory.md R104). -/
def flushWords (data : List Host.Cell) : List Nat → State → State
  | [], s => s
  | a :: rest, s =>
    let s1 := hcLead s.sched s
    flushWords data rest { s1 with mem := store32 s1.mem a (load32 data a) }

/-- One line of `Flush` (44_coherence.md R404). -/
def State.flushLine (s : State) (base : Nat) : State :=
  if s.params.coherent then s
  else
    match tableFind base s.cache with
    | none => s
    | some l =>
      if l.dirty then
        (flushWords l.data (writeBackWords s.params base l) s).setLine base l.clean
      else s

/-- One line of `Inval` (44_coherence.md R404): dirty data is discarded. -/
def State.invalLine (s : State) (base : Nat) : State :=
  if s.params.coherent then s else s.dropLine base

/-! ### The cache's own steps (20_memory.md R103) -/

/-- The writes of a spontaneous write-back, with the HC steps given for each. -/
def evictWords (data : List Host.Cell) : List Nat → List (List HcMove) → State → State
  | [], _, s => s
  | a :: rest, inter, s =>
    let s1 := hcMoves (inter.headD []) s
    evictWords data rest inter.tail { s1 with mem := store32 s1.mem a (load32 data a) }

/-- One spontaneous step: a dirty line written back, or a clean line dropped. -/
def cacheMove (m : CacheMove) (s : State) : State :=
  if s.params.coherent then s
  else
    match m with
    | .writeBack base inter =>
      match tableFind base s.cache with
      | none => s
      | some l =>
        if l.dirty then
          (evictWords l.data (writeBackWords s.params base l) inter s).setLine base l.clean
        else s
    | .drop base =>
      match tableFind base s.cache with
      | none => s
      | some l => if l.dirty then s else s.dropLine base

end Sys2Proof.Machine
end

