-- ==== Sys2Proof/Machine/HostPort.lean ====
section
/-! DEFINITION. The host's port: the block's register space (10_state.md R20 to R29, R36), the HC's
registers and memory as the host reaches them, the reset input, and one move of an agent other than the
sequencer (60_exceptions.md R465). -/

namespace Sys2Proof.Machine

/-- The width and alignment every host access to the block's registers must have (20_memory.md R76). -/
def alignedWordAccess (off : BitVec 8) (size : Nat) : Bool := off.toNat % 4 == 0 && size == 4

/-- What a host read of the block's register space returns (10_state.md R20). Write-only and reserved
offsets read 0. -/
def blockRegRead (s : State) (off : Nat) : Word :=
  match off with
  | 0x00 => 0x50540001#32
  | 0x04 => (BitVec.ofBool s.autoDrain).setWidth 32
  | 0x08 => s.status
  | 0x10 => s.arg0
  | 0x14 => s.arg1
  | 0x18 => s.arg2
  | 0x1C => s.arg3
  | 0x20 => s.res0
  | 0x24 => s.res1
  | 0x28 => s.res2
  | 0x30 => s.isr.setWidth 32
  | 0x34 => s.ier.setWidth 32
  | 0x38 => BitVec.ofNat 32 s.compq.length
  | 0x3C => match s.compq with | [] => 0#32 | c :: _ => c.word0
  | 0x40 => match s.compq with | [] => 0#32 | c :: _ => c.key
  | 0x48 => s.faultCount
  | 0x4C => match s.flog with | [] => 0#32 | f :: _ => f.word0
  | 0x50 => match s.flog with | [] => 0#32 | f :: _ => f.info
  | _ => 0#32

/-- A host write of the block's register space (10_state.md R20). A `CMD` write while `BUSY = 1` is
dropped and sets `CMDLOST` (R24); the acceptance of a `CMD` write while `BUSY = 0` is in Step.lean. -/
def blockRegWrite (s : State) (off : Nat) (v : Word) : State :=
  match off with
  | 0x04 => { s with autoDrain := v.getLsbD 0 }
  | 0x0C => if s.seq.busy then { s with cmdLost := true } else s
  | 0x10 => { s with arg0 := v }
  | 0x14 => { s with arg1 := v }
  | 0x18 => { s with arg2 := v }
  | 0x1C => { s with arg3 := v }
  | 0x30 => { s with isr := s.isr &&& ~~~(v.setWidth 4) }
  | 0x34 => { s with ier := v.setWidth 4 }
  | 0x44 => { s with compq := s.compq.tail }
  | 0x54 => { s with flog := s.flog.tail }
  | _ => s

/-- The offset of the 32-bit HC register an address names (log 17). -/
def hcRegOffset (off : BitVec 12) : Nat := off.toNat / 4 * 4

/-! ### What the host never does (70_reset_and_hazards.md R510 to R512) -/

/-- A TD whose buffer the host has handed over: queued and not finished. -/
def State.queuedTd (s : State) (t : Nat) : Bool := (s.td t).alloc && s.indexed t && !(s.td t).finished

/-- The first byte of a TD's buffer: `BE` names the last one, the status word the length
(42_transfer.md R300). -/
def State.bufferStart (s : State) (t : Nat) : Nat :=
  (s.physRead (tdAddr s.params t + 0xC#32)).toNat + 1 - (s.td t).len

/-- An address in the lines of a queued buffer (R512). With `COHERENT = 1` there is no cache (20_memory.md R100) and
the spec does not say what the lines are: that they are then the buffer's own bytes is the model's choice
(log 46). -/
def State.inQueuedBuffer (s : State) (a : Nat) : Bool :=
  s.tdt.any (fun p => s.queuedTd p.1 && inLines s.params (s.bufferStart p.1) (s.td p.1).len a)

/-- An HC register write that is the block's alone once it is started: a clear of `WDH` (R512), or a head
register (R511). Before `SCHED_START` the host's boot writes them (R510 (2)). -/
def State.blocksWrite (s : State) (off : Nat) (v : Word) : Bool :=
  s.started && ((off == 0x0C && v.getLsbD 1) || off == 0x20 || off == 0x28)

/-- One host access; a register access that is not an aligned 32-bit access is stuck (20_memory.md R76).
"What the host never does has no move in the model" (70_reset_and_hazards.md R512): such a move is not
enabled and changes nothing (log 20, log 40). The touch of a queued buffer's lines is taken as a read or write
of memory: CFLUSH and CINVAL run over such lines too, which is the model's choice (log 44). -/
def hostMove (m : HostMove) (s : State) : Except Fault State :=
  match m with
  | .blockRead off size =>
    if alignedWordAccess off size then .ok { s with hostData := blockRegRead s off.toNat }
    else .error .hostAccess
  | .blockWrite off size v =>
    if alignedWordAccess off size then .ok (blockRegWrite s off.toNat v) else .error .hostAccess
  | .hcRead off => .ok { s with hostData := hcRegRead s.hc (hcRegOffset off) }
  | .hcWrite off v =>
    .ok (if s.blocksWrite (hcRegOffset off) v then s
      else { s with hc := hcRegWrite s.hc (hcRegOffset off) v })
  | .memRead a =>
    .ok (if s.inQueuedBuffer a.toNat then s
      else { s.touch a.toNat with hostData := (s.cacheLoadByte a.toNat).setWidth 32 })
  | .memWrite a b =>
    .ok (if blockOwns s.params a.toNat || s.inQueuedBuffer a.toNat then s else s.cacheStoreByte a.toNat b)

/-- The block's reset (70_reset_and_hazards.md R500, R501): every register and all internal state at
their reset values, the cache empty; memory and the HC untouched. -/
def State.blockReset (s : State) : State :=
  { params := s.params, mem := s.mem, hc := s.hc, sched := s.sched, hostData := s.hostData
    draws := s.draws }

/-- What a move of another agent does to a running command. -/
inductive MoveEnd where
  /-- the command goes on -/
  | on (s : State)
  /-- a reset: the command is abandoned (70_reset_and_hazards.md R500) -/
  | abandoned (s : State)
  /-- a stuck host access -/
  | stuck (f : Fault)
deriving DecidableEq, Repr

/-- One move of an agent other than the sequencer. The `block` mark and a timer event outside the frame
wait change nothing. -/
def otherMove (m : Move) (s : State) : MoveEnd :=
  match m with
  | .block => .on s
  | .timer => .on s
  | .hc h => .on (hcMove h s)
  | .cache c => .on (cacheMove c s)
  | .reset => .abandoned s.blockReset
  | .host h =>
    match hostMove h s with
    | .ok s' => .on s'
    | .error f => .stuck f

end Sys2Proof.Machine
end

