-- ==== Sys2Proof/Machine/Ops.lean ====
section
/-! DEFINITION. The shared operations of the sequencer (10_state.md R38 to R41, 00_scope.md R12 to R14):
commands as state transformers that end, raise, are abandoned or stop; one step at a time with the other
agents' moves before it; memory, cache and HC register accesses; the developer-fault log; the common
checks, the acceptance and the end of a command; the queue walks. The block takes no exception
(60_exceptions.md R460): `endWithError` and `logFault` are what a command that cannot go on does instead. -/

namespace Sys2Proof.Machine

/-! ### Commands -/

/-- Why a command's pseudocode does not run on. -/
inductive Stop where
  /-- `raise Err(code)` (60_exceptions.md R452) -/
  | err (e : ErrCode)
  /-- the sequencer no longer runs it: a reset abandoned it, or it stays in the frame wait -/
  | gone
  /-- the machine stops -/
  | stuck (f : Fault)
deriving DecidableEq, Repr

/-- A piece of a command's pseudocode: a state transformer that keeps the state where it stops. -/
abbrev Cmd (α : Type) : Type := EStateM Stop State α

/-- `raise Err(code)` (00_scope.md R13). -/
def raise {α : Type} (e : ErrCode) : Cmd α := throw (.err e)

/-- The machine stops. -/
def stop {α : Type} (f : Fault) : Cmd α := throw (.stuck f)

/-- A value that a walk must have found. -/
def orStop {α : Type} (f : Fault) : Option α → Cmd α
  | some x => pure x
  | none => stop f

/-! ### One step of the sequencer (10_state.md R40) -/

/-- The position reached moves on by one step (10_state.md R38). -/
def Seq.advance : Seq → Seq
  | .idle => .idle
  | .exec run => .exec { run with point := run.point + 1 }
  | .wait run ed f0 r k => .wait run ed f0 r k

/-- The moves of the other agents that come before the sequencer's next step: those of the schedule up to
a `block` mark, or all of them (log 2). -/
def interfere : List Move → State → EStateM.Result Stop State Unit
  | [], s => .ok () { s with sched := [], seq := s.seq.advance }
  | .block :: ms, s => .ok () { s with sched := ms, seq := s.seq.advance }
  | m :: ms, s =>
    match otherMove m s with
    | .on s' => interfere ms s'
    | .abandoned s' => .error .gone { s' with sched := ms }
    | .stuck f => .error (.stuck f) s

/-- The sequencer's next step: first the other agents. -/
def turn : Cmd Unit := fun s => interfere s.sched s

/-! ### Accesses (00_scope.md R12) -/

/-- `MemRead(a, 4)`. -/
def memRead (a : Word) : Cmd Word := do
  turn
  let s ← get
  set (s.touch a.toNat)
  return s.cacheLoad a

/-- `MemWrite(a, 4, v)`. -/
def memWrite (a v : Word) : Cmd Unit := do
  turn
  modify fun s => s.cacheStore a v

/-- A flush of the lines at the given bases, one step each. -/
def flushLines : List Nat → Cmd Unit
  | [] => pure ()
  | b :: rest => do
    turn
    modify fun s => s.flushLine b
    flushLines rest

/-- `Flush(a, n)` (44_coherence.md R403, R404). -/
def flush (a : Word) (n : Nat) : Cmd Unit := do
  let s ← get
  flushLines (rangeLines s.params a.toNat n)

/-- An invalidate of the lines at the given bases, one step each. -/
def invalLines : List Nat → Cmd Unit
  | [] => pure ()
  | b :: rest => do
    turn
    modify fun s => s.invalLine b
    invalLines rest

/-- `Inval(a, n)` (44_coherence.md R403, R404). -/
def inval (a : Word) (n : Nat) : Cmd Unit := do
  let s ← get
  invalLines (rangeLines s.params a.toNat n)

/-- `RMW(a, f)` (00_scope.md R12). -/
def rmw (a : Word) (f : Word → Word) : Cmd Unit := do
  inval a 4
  let v ← memRead a
  memWrite a (f v)
  flush a 4

/-- `MmioRead(off)` (00_scope.md R12, 20_memory.md R105). -/
def mmioRead (off : Nat) : Cmd Word := do
  turn
  let s ← get
  return hcRegRead s.hc off

/-- `MmioWrite(off, v)` (00_scope.md R12, 20_memory.md R105). -/
def mmioWrite (off : Nat) (v : Word) : Cmd Unit := do
  turn
  modify fun s => { s with hc := hcRegWrite s.hc off v }

/-! ### Developer faults (60_exceptions.md R456) -/

/-- `fault F(code, info)` on the state: counted (saturating), latched in `ISR`, logged or lost. -/
def State.logFault (s : State) (code : FaultCode) (info : Word) : State :=
  { s with
    faultCount := if s.faultCount = 0xFFFFFFFF#32 then s.faultCount else s.faultCount + 1#32
    isr := s.isr ||| faultBit
    flog := if s.flog.length < s.params.faultDepth then s.flog ++ [⟨code, info⟩] else s.flog
    faultOvf := if s.flog.length < s.params.faultDepth then s.faultOvf else true }

/-- `fault F(code, info)` (00_scope.md R13). It does not end the command. -/
def logFault (code : FaultCode) (info : Word) : Cmd Unit := modify fun s => s.logFault code info

/-! ### Updates of the tables (10_state.md R30 to R34) -/

/-- `EDT[e] <- v`. -/
def State.setEd (s : State) (e : Nat) (v : Ed) : State := { s with edt := tablePut {} s.edt e v }

/-- `TDT[t] <- v`. -/
def State.setTd (s : State) (t : Nat) (v : Td) : State := { s with tdt := tablePut {} s.tdt t v }

/-- `IDX_VALID[t] <- v`. -/
def State.setIndexed (s : State) (t : Nat) (v : Bool) : State :=
  { s with idxValid := tablePut false s.idxValid t v }

/-- `L[k] <- l`. -/
def State.setList (s : State) (k : Nat) (l : List Nat) : State :=
  { s with place := tablePut [] s.place k l }

/-- `FREE_TD(t)` (40_endpoint.md R219). -/
def State.freeTd (s : State) (t : Nat) : State :=
  (s.setTd t { s.td t with alloc := false }).setIndexed t false

/-- `FREE_TD` of several slots, in order. -/
def State.freeTds (s : State) (ts : List Nat) : State := ts.foldl State.freeTd s

/-- `FREE_ED(e)` (40_endpoint.md R219). -/
def State.freeEd (s : State) (e : Nat) : State := s.setEd e { s.ed e with alloc := false }

/-- `ALLOC_ED()`: the lowest free slot (40_endpoint.md R219). -/
def State.allocEd (s : State) : Option Nat :=
  (List.range s.params.ned).find? (fun e => !(s.ed e).alloc)

/-- `ALLOC_TD()`: the lowest free slot (40_endpoint.md R219). -/
def State.allocTd (s : State) : Option Nat :=
  (List.range s.params.ntd).find? (fun t => !(s.td t).alloc)

/-- The handle names an allocated endpoint (40_endpoint.md R219). -/
def State.validEd (s : State) (e : Nat) : Bool := decide (e < s.params.ned) && (s.ed e).alloc

/-- `VALID_ED(e)` (40_endpoint.md R219). -/
def checkEd (e : Nat) : Cmd Unit := do
  let s ← get
  if s.validEd e then pure () else raise .notFound

/-! ### Queue walks

The pseudocode's loops along `next`, each bounded by `NTD` (30_encoding.md R147). `none`: the walk met
`NONE`, or more than `NTD` TDs (log 9). -/

/-- From `u` along `next` to the first TD where `halt` holds: the TDs passed, and that TD. -/
def walkUntil (s : State) (halt : Nat → Bool) : Nat → Nat → Option (List Nat × Nat)
  | 0, u => if halt u then some ([], u) else none
  | fuel + 1, u =>
    if halt u then some ([], u)
    else
      match (s.td u).next with
      | none => none
      | some nx => (walkUntil s halt fuel nx).map (fun r => (u :: r.1, r.2))

/-- The TDs of an endpoint's queue before the placeholder (10_state.md R42 (b)). -/
def State.queue (s : State) (e : Nat) : Option (List Nat) :=
  (walkUntil s (fun u => u == (s.ed e).tail) s.params.ntd (s.ed e).head).map (·.1)

/-- The rest of a logical transfer from `u`: up to and with the first TD whose `MORE` is 0, never the
placeholder; and the TD after it (42_transfer.md R310, 43_done_queue.md R358). -/
def walkGroup (s : State) (tail : Nat) : Nat → Nat → Option (List Nat × Nat)
  | 0, u => if u = tail then some ([], u) else none
  | fuel + 1, u =>
    if u = tail then some ([], u)
    else
      match (s.td u).next with
      | none => none
      | some nx =>
        if (s.td u).more then (walkGroup s tail fuel nx).map (fun r => (u :: r.1, r.2))
        else some ([u], nx)

/-! ### The frame wait (40_endpoint.md R206, R207) -/

/-- How `QUIESCE` ends. -/
inductive Quiesced where
  | already
  | ok
  | timeout
deriving DecidableEq, Repr

/-- The frame number differs from the one sampled (60_exceptions.md R463). -/
def State.frameMoved (s : State) (f0 : BitVec 16) : Bool := s.hc.fmNumber != f0

/-- The sequencer with `r` timeouts counted. -/
def Seq.withTimeouts : Seq → Nat → Seq
  | .wait run ed f0 _ k, r => .wait run ed f0 r k
  | .exec run, _ => .exec run
  | .idle, _ => .idle

/-- The waiting sequencer's steps, with the moves of the schedule: a `block` mark polls the frame number,
a timer event counts a missed frame, the third ends the wait. When the schedule is used up the sequencer
polls once more and, where nothing has moved, stays in `WAIT` (log 21). -/
def waitSteps (f0 : BitVec 16) : List Move → Nat → State → EStateM.Result Stop State Quiesced
  | [], _, s =>
    if s.frameMoved f0 then .ok .ok { s with sched := [] } else .error .gone { s with sched := [] }
  | .block :: ms, r, s =>
    if s.frameMoved f0 then .ok .ok { s with sched := ms } else waitSteps f0 ms r s
  | .timer :: ms, r, s =>
    if r + 1 < 3 then waitSteps f0 ms (r + 1) { s with seq := s.seq.withTimeouts (r + 1) }
    else .ok .timeout { s with sched := ms }
  | m :: ms, r, s =>
    match otherMove m s with
    | .on s' => waitSteps f0 ms r s'
    | .abandoned s' => .error .gone { s' with sched := ms }
    | .stuck f => .error (.stuck f) s

/-- What the sequencer runs. -/
def Seq.running : Seq → Running
  | .idle => {}
  | .exec run => run
  | .wait run _ _ _ _ => run

/-- The wait from `r` timeouts on; when it ends the command goes on where it was. -/
def waitFrom (f0 : BitVec 16) (r : Nat) : Cmd Quiesced := do
  let q ← fun s => waitSteps f0 s.sched r s
  modify fun s => { s with seq := .exec s.seq.running }
  return q

/-- `wait_frame(f0)` (40_endpoint.md R207). -/
def waitFrame (e : Nat) (f0 : BitVec 16) (k : Cont) : Cmd Quiesced := do
  modify fun s => { s with seq := .wait s.seq.running e f0 0 k }
  waitFrom f0 0

/-- `QUIESCE(e)` (40_endpoint.md R206). -/
def quiesce (e : Nat) (k : Cont) : Cmd Quiesced := do
  let p := (← get).params
  inval (edHeadAddr p e) 4
  let h ← memRead (edHeadAddr p e)
  if h.getLsbD 0 then return .already
  rmw (edControlAddr p e) setSkip
  let f0 ← mmioRead 0x3C
  waitFrame e (f0.setWidth 16) k

/-! ### Clear halt (40_endpoint.md R218) -/

/-- `CLEAR_HALT(e, clrtog)`. -/
def clearHalt (e : Nat) (clrtog : Bool) : Cmd Unit := do
  let p := (← get).params
  inval (edHeadAddr p e) 4
  let h ← memRead (edHeadAddr p e)
  memWrite (edHeadAddr p e) (clearHaltBit (if clrtog then clearCarry h else h))
  let c ← memRead (edControlAddr p e)
  memWrite (edControlAddr p e) (clearSkip c)
  flush (edAddr p e) 16

/-- The list-filled write of a class: `CLF` for control, `BLF` for bulk, none for interrupt endpoints
(40_endpoint.md R216, 42_transfer.md R300, 43_done_queue.md R358). -/
def listFilled (t : EdType) : Cmd Unit :=
  match t with
  | .control => mmioWrite 0x08 clfBit
  | .bulk => mmioWrite 0x08 blfBit
  | .interrupt => pure ()

/-! ### Acceptance, checks and end of a command (10_state.md R24, R26, R41; 30_encoding.md R144) -/

/-- The results a command's rule lists; an unlisted one is 0 (10_state.md R26). -/
structure Results where
  res0 : Nat := 0
  res1 : Nat := 0
  res2 : Nat := 0
deriving DecidableEq, Repr

/-- An exact integer in a result register: its value, or a free value where it needs more than 32 bits
(log 8). -/
def resultWord (draws reg n : Nat) : Word :=
  if n < 2 ^ 32 then BitVec.ofNat 32 n else Config.freeResult draws reg

/-- The results written, all at once (10_state.md R26); a free value drawn is counted. -/
def State.writeResults (s : State) (r : Results) : State :=
  { s with
    res0 := resultWord s.draws 0 r.res0
    res1 := resultWord s.draws 1 r.res1
    res2 := resultWord s.draws 2 r.res2
    draws := if r.res0 < 2 ^ 32 ∧ r.res1 < 2 ^ 32 ∧ r.res2 < 2 ^ 32 then s.draws else s.draws + 1 }

/-- The end-of-command actions (10_state.md R41): `STATUS.ERR`, `ISR.CMD_DONE`, `PLOCK` released, idle. -/
def State.endCommand (s : State) (e : ErrCode) : State :=
  { s with err := e, isr := s.isr ||| cmdDoneBit, plock := false, seq := .idle }

/-- A command ends with an error: the results stay (60_exceptions.md R452). -/
def State.endWithError (s : State) (e : ErrCode) : State := s.endCommand e

/-- A command ends successfully. -/
def State.endOk (s : State) (r : Results) : State := (s.writeResults r).endCommand .ok

/-- How a command's run becomes the outcome of a step. -/
def finish : EStateM.Result Stop State Results → Host.Outcome State Fault Refusal
  | .ok r s => .next (s.endOk r)
  | .error (.err e) s => .next (s.endWithError e)
  | .error .gone s => .next s
  | .error (.stuck f) _ => .fault f

/-- The captured operands (10_state.md R24). -/
def State.args (s : State) : Args := { arg0 := s.arg0, arg1 := s.arg1, arg2 := s.arg2, arg3 := s.arg3 }

/-- The acceptance of a command word (10_state.md R24). -/
def State.accept (s : State) (w : Word) : State :=
  { s with cmdLost := false, seq := .exec { word := w, ctx := ctxField w, args := s.args } }

/-- The checks (3) and (4) of 30_encoding.md R144. -/
def commonChecks (i : Instr) : Cmd Unit := do
  let s ← get
  if gateOpen s.started (startGate i) then pure () else raise .badState
  if blocking i && i.ctx == .interrupt then raise .context else pure ()

/-- A command written to `CMD` (10_state.md R24, R40, R41): dropped while the block is busy, else accepted
and run to its end with the captured operands. -/
def runCommand (i : Instr) (body : Args → Cmd Results) (s : State) :
    Host.Outcome State Fault Refusal :=
  if s.seq.busy then .next { s with cmdLost := true }
  else
    finish ((do turn; commonChecks i; body s.args) (s.accept (encode i)))

/-- A word that is no command, written to `CMD`: accepted, and ended with `E_BADCMD`
(30_encoding.md R144 (1), (2)). -/
def runReserved (w : Word) (s : State) : Host.Outcome State Fault Refusal :=
  finish ((do turn; raise .badCmd) (s.accept w))

end Sys2Proof.Machine
end

