-- ==== Sys2Proof/Machine/Coherence.lean ====
section
/-! DEFINITION. The coherence commands (44_coherence.md): CFLUSH, CINVAL, NOP. -/

namespace Sys2Proof.Machine

/-- The lines a command names: none when there is no cache (44_coherence.md R400, R401). -/
def namedLines (p : Params) (a n : Nat) : Nat := if p.coherent then 0 else lineCount p a n

/-- `CFLUSH` (44_coherence.md R400). -/
def cflushBody (args : Args) : Cmd Results := do
  if args.arg0.toNat + args.arg1.toNat > 2 ^ 32 then raise .badArg
  let p := (← get).params
  flush args.arg0 args.arg1.toNat
  return { res0 := namedLines p args.arg0.toNat args.arg1.toNat }

/-- `CFLUSH`. -/
def execCflush (ctx : Ctx) (s : State) : Host.Outcome State Fault Refusal :=
  runCommand (.cflush ctx) cflushBody s

/-- `CINVAL` (44_coherence.md R401). -/
def cinvalBody (args : Args) : Cmd Results := do
  if args.arg0.toNat + args.arg1.toNat > 2 ^ 32 then raise .badArg
  let p := (← get).params
  inval args.arg0 args.arg1.toNat
  return { res0 := namedLines p args.arg0.toNat args.arg1.toNat }

/-- `CINVAL`. -/
def execCinval (ctx : Ctx) (s : State) : Host.Outcome State Fault Refusal :=
  runCommand (.cinval ctx) cinvalBody s

/-- `NOP` (44_coherence.md R405). -/
def nopBody (_ : Args) : Cmd Results := pure {}

/-- `NOP`. -/
def execNop (ctx : Ctx) (s : State) : Host.Outcome State Fault Refusal :=
  runCommand (.nop ctx) nopBody s

end Sys2Proof.Machine
end

