-- ==== Sys2Proof/Machine/Scheduler.lean ====
section
/-! DEFINITION. The periodic binary-tree scheduler (41_scheduler.md): geometry, bandwidth, placement and
removal, and the commands SCHED_START, SCHED_BITPOS, SCHED_IDEPTH and SCHED_LOAD. -/

namespace Sys2Proof.Machine

/-! ### Geometry (41_scheduler.md R251, R252) -/

/-- `bitrev_k(n)`: the `k` low bits of `n`, reversed (R251). -/
def bitrev : Nat → Nat → Nat
  | 0, _ => 0
  | k + 1, n => (n % 2) * 2 ^ k + bitrev k (n / 2)

/-- `base(d)` (R252). -/
def nodeBase (d : Nat) : Nat := [0, 32, 48, 56, 60, 62].getD d 0

/-- `node(d, g)`, the placement slot of a tree node (R252). -/
def node (d g : Nat) : Nat := nodeBase d + g

/-- `T[i]`'s index for a bit-order position (R251). -/
def tableIndex (p : Nat) : Nat := bitrev 5 p

/-! ### Interval and depth (41_scheduler.md R253) -/

/-- The largest power of two not above `v` (1 ≤ v < 32), as an exponent. -/
def log2Below (v : Nat) : Nat :=
  if 16 ≤ v then 4 else if 8 ≤ v then 3 else if 4 ≤ v then 2 else if 2 ≤ v then 1 else 0

/-- The exponent of the rounded interval: `P = 2 ^ intervalLog` (R253). -/
def intervalLog (round : IntervalRound) (iv : Nat) : Nat :=
  let v := max iv 1
  if 32 ≤ v then 5
  else
    let k := log2Below v
    match round with
    | .floor => k
    | .nearest => if v - 2 ^ k ≤ 2 ^ (k + 1) - v then k else k + 1

/-- `IDEPTH(iv)`: the rounded interval `P` and the depth `d = 5 - log2 P` (R253). -/
def idepth (round : IntervalRound) (iv : Nat) : Nat × Nat :=
  (2 ^ intervalLog round iv, 5 - intervalLog round iv)

/-! ### Bandwidth (41_scheduler.md R254) -/

/-- The bandwidth of the endpoints of one placement list. -/
def State.listLoad (s : State) (k : Nat) : Nat := ((s.list k).map (fun e => (s.ed e).bw)).sum

/-- The load of a bit-order position: the endpoints on its path. -/
def State.posLoad (s : State) (p : Nat) : Nat :=
  ((List.range 6).map (fun d => s.listLoad (node d (p / 2 ^ d)))).sum

/-- `LOAD(i)` (R254). -/
def State.load (s : State) (i : Nat) : Nat := s.posLoad (bitrev 5 i)

/-! ### The search for a group (41_scheduler.md R255) -/

/-- The worst case of group `g` of size `2 ^ d`. -/
def State.groupWorst (s : State) (d g : Nat) : Nat :=
  ((List.range (2 ^ d)).map (fun j => s.load (bitrev 5 (g * 2 ^ d + j)))).foldl max 0

/-- The first of the groups with the lowest worst case: its number and that worst case. -/
def bestOf : List (Nat × Nat) → Option (Nat × Nat)
  | [] => none
  | x :: rest =>
    match bestOf rest with
    | none => some x
    | some y => if x.2 ≤ y.2 then some x else some y

/-- The best group of depth `d`, in bit order, first minimum. -/
def State.bestGroup (s : State) (d : Nat) : Option (Nat × Nat) :=
  bestOf ((List.range (2 ^ (5 - d))).map (fun g => (g, s.groupWorst d g)))

/-- The placement search for endpoint `x` (R255): `none` is `REJECT`. The comparison
`bw > MAX - low` is on exact integers, here `bw + low > MAX`. -/
def State.placementGroup (s : State) (x : Nat) : Option Nat :=
  match s.bestGroup (s.ed x).depth with
  | none => none
  | some (g, low) =>
    if (s.ed x).bw + low > perSpeed s.params.maxPeriodicBw (s.ed x).speed then none else some g

/-! ### The layout (41_scheduler.md R258) -/

/-- `HOP(p, d0)`: the first endpoint of the first non-empty list on the path of `p` from depth `d0` on. -/
def State.hop (s : State) (p d0 : Nat) : Option Nat :=
  ((List.range 6).filter (fun d => decide (d0 ≤ d))).findSome?
    (fun d => (s.list (node d (p / 2 ^ d))).head?)

/-- The node of the largest depth below `d` on the path of `p` that holds an endpoint (R256). -/
def State.shallower (s : State) (p d : Nat) : Option Nat :=
  (List.range d).reverse.findSome?
    (fun d' => if s.list (node d' (p / 2 ^ d')) = [] then none else some (node d' (p / 2 ^ d')))

/-- A pointer to an endpoint, or 0. -/
def edPointer (p : Params) : Option Nat → Word
  | none => 0#32
  | some e => edAddr p e

/-- The table entry for a successor: the dummy ED where there is none (R258). -/
def tablePointer (p : Params) (succ : Word) : Word := if succ = 0#32 then dummyEd p else succ

/-- The pointers into a node's chain, for the positions in ascending order (R256, R259): the last
endpoint of the nearest shallower node, once for each such node, or the table entry itself. -/
def repoint (d : Nat) (link entry : Word) : List Nat → List Nat → Cmd Unit
  | [], _ => pure ()
  | p :: rest, done => do
    let s ← get
    match s.shallower p d with
    | some u =>
      if done.contains u then repoint d link entry rest done
      else
        rmw (edNextAddr s.params ((s.list u).getLastD 0)) (fun _ => link)
        repoint d link entry rest (u :: done)
    | none =>
      memWrite (tableAddr s.params (tableIndex p)) entry
      flush (tableAddr s.params (tableIndex p)) 4
      repoint d link entry rest done

/-- The positions of group `g` of depth `d`, ascending (R252). -/
def groupPositions (d g : Nat) : List Nat := (List.range (2 ^ d)).map (fun j => g * 2 ^ d + j)

/-- `PERIODIC_INSERT(x)` (R256); the answer is false on `REJECT`. -/
def periodicInsert (x : Nat) : Cmd Bool := do
  let s ← get
  let p := s.params
  let d := (s.ed x).depth
  match s.placementGroup x with
  | none => return false
  | some g =>
    let k := node d g
    modify fun s => { s with plock := true }
    memWrite (edNextAddr p x) (edPointer p (s.hop (g * 2 ^ d) (d + 1)))
    flush (edNextAddr p x) 4
    match (s.list k).getLast? with
    | some last => rmw (edNextAddr p last) (fun _ => edAddr p x)
    | none => repoint d (edAddr p x) (edAddr p x) (groupPositions d g) []
    modify fun s =>
      { (s.setList k (s.list k ++ [x])).setEd x { s.ed x with slot := k } with plock := false }
    return true

/-- `PERIODIC_REMOVE(x)` (R259). -/
def periodicRemove (x : Nat) : Cmd Unit := do
  let s ← get
  let p := s.params
  let k := (s.ed x).slot
  let d := (s.ed x).depth
  let g := k - nodeBase d
  let l := s.list k
  let i ← orStop .brokenPlacement (l.idxOf? x)
  modify fun s => { s with plock := true }
  let succ := edPointer p (match l[i + 1]? with
    | some nx => some nx
    | none => s.hop (g * 2 ^ d) (d + 1))
  if 0 < i then rmw (edNextAddr p (l.getD (i - 1) 0)) (fun _ => succ)
  else repoint d succ (tablePointer p succ) (groupPositions d g) []
  modify fun s => { s.setList k ((s.list k).erase x) with plock := false }

/-! ### Commands -/

/-- The table entries written with the dummy ED's address, from entry `i` on (R250). -/
def fillTable (p : Params) : List Nat → Cmd Unit
  | [] => pure ()
  | i :: rest => do
    memWrite (tableAddr p i) (dummyEd p)
    fillTable p rest

/-- `SCHED_START` (R250). -/
def schedStartBody (_ : Args) : Cmd Results := do
  let p := (← get).params
  memWrite (dummyEd p) skipBit
  memWrite (dummyEd p + 4#32) 0#32
  memWrite (dummyEd p + 8#32) 0#32
  memWrite (dummyEd p + 0xC#32) 0#32
  flush (dummyEd p) 16
  fillTable p (List.range 32)
  flush (tableAddr p 0) 128
  modify fun s => { s with started := true }
  return {}

/-- `SCHED_START`. -/
def execSchedStart (ctx : Ctx) (s : State) : Host.Outcome State Fault Refusal :=
  runCommand (.schedStart ctx) schedStartBody s

/-- The results of SCHED_BITPOS (R262), or `none` for an operand outside the tree. -/
def bitposResults (d n : Nat) : Option Results :=
  if d > 5 ∨ n ≥ 2 ^ (5 - d) then none
  else
    some { res0 := bitrev (5 - d) n * 2 ^ d, res1 := node d (bitrev (5 - d) n), res2 := 2 ^ d }

/-- `SCHED_BITPOS d, n` (R262). -/
def schedBitposBody (d n : Nat) (_ : Args) : Cmd Results :=
  match bitposResults d n with
  | none => raise .badArg
  | some r => pure r

/-- `SCHED_BITPOS`. -/
def execSchedBitpos (ctx : Ctx) (d n : Nat) (s : State) : Host.Outcome State Fault Refusal :=
  runCommand (.schedBitpos ctx d n) (schedBitposBody d n) s

/-- `SCHED_IDEPTH iv` (R263). -/
def schedIdepthBody (iv : Nat) (_ : Args) : Cmd Results := do
  let s ← get
  let r := idepth s.params.intervalRound iv
  return { res0 := r.2, res1 := r.1 }

/-- `SCHED_IDEPTH`. -/
def execSchedIdepth (ctx : Ctx) (iv : Nat) (s : State) : Host.Outcome State Fault Refusal :=
  runCommand (.schedIdepth ctx iv) (schedIdepthBody iv) s

/-- `SCHED_LOAD i` (R264). -/
def schedLoadBody (i : Nat) (_ : Args) : Cmd Results := do
  let s ← get
  if i > 31 then raise .badArg else return { res0 := s.load i }

/-- `SCHED_LOAD`. -/
def execSchedLoad (ctx : Ctx) (i : Nat) (s : State) : Host.Outcome State Fault Refusal :=
  runCommand (.schedLoad ctx i) (schedLoadBody i) s

end Sys2Proof.Machine
end

