-- ==== Sys2Proof/Machine/Endpoint.lean ====
section
/-! DEFINITION. The endpoint commands (40_endpoint.md): ED_OPEN, ED_CLOSE, ED_QUIESCE, ED_SUSPEND,
ED_RESUME, ED_CLEAR_HALT, and the class lists. -/

namespace Sys2Proof.Machine

/-! ### Class lists (40_endpoint.md R212 to R214) -/

/-- The head register and enable bit of a class list: control (63) or bulk (64). -/
def classHeadReg (k : Nat) : Nat := if k = 63 then 0x20 else 0x28

/-- `CLE` or `BLE` in `HcControl`. -/
def classEnable (k : Nat) : Word := if k = 63 then 0x10#32 else 0x20#32

/-- The list disabled: whether it was enabled (R212, R214). -/
def classDisable (k : Nat) : Cmd Bool := do
  let c ← mmioRead 0x04
  mmioWrite 0x04 (c &&& ~~~(classEnable k))
  return c &&& classEnable k != 0#32

/-- The list enabled again where it was. -/
def classRestore (k : Nat) (was : Bool) : Cmd Unit := do
  if was then
    let c ← mmioRead 0x04
    mmioWrite 0x04 (c ||| classEnable k)

/-- `CLASS_INSERT(k, e)` (R212). -/
def classInsert (k e : Nat) : Cmd Unit := do
  let s ← get
  let p := s.params
  let was ← classDisable k
  match (s.list k).getLast? with
  | none => mmioWrite (classHeadReg k) (edAddr p e)
  | some last => rmw (edNextAddr p last) (fun _ => edAddr p e)
  modify fun s => (s.setList k (s.list k ++ [e])).setEd e { s.ed e with slot := k }
  classRestore k was

/-- `CLASS_REMOVE(k, e)` (R214). -/
def classRemove (k e : Nat) : Cmd Unit := do
  let s ← get
  let p := s.params
  let l := s.list k
  let i ← orStop .brokenPlacement (l.idxOf? e)
  let succ := edPointer p l[i + 1]?
  let was ← classDisable k
  if i = 0 then mmioWrite (classHeadReg k) succ
  else rmw (edNextAddr p (l.getD (i - 1) 0)) (fun _ => succ)
  modify fun s => s.setList k ((s.list k).erase e)
  classRestore k was

/-! ### ED_OPEN -/

/-- The HCD-ED a successful check of ED_OPEN allocates (40_endpoint.md R200). -/
def openedEd (p : Params) (key template : Word) (iv : Nat) (ty : EdType) (td : Nat) : Ed :=
  match ty with
  | .interrupt =>
    { alloc := true, key := key, type := ty, speed := templateSpeed template
      interval := (idepth p.intervalRound iv).1, depth := (idepth p.intervalRound iv).2
      bw := templateMps template + overhead p ty (templateSpeed template)
      head := td, tail := td }
  | .control =>
    { alloc := true, key := key, type := ty, speed := templateSpeed template, head := td, tail := td }
  | .bulk =>
    { alloc := true, key := key, type := ty, speed := templateSpeed template, head := td, tail := td }

/-- The four words of an HC-TD written (40_endpoint.md R200, 42_transfer.md R300). -/
def writeTd (a w0 w1 w2 w3 : Word) : Cmd Unit := do
  memWrite a w0
  memWrite (a + 4#32) w1
  memWrite (a + 8#32) w2
  memWrite (a + 0xC#32) w3

/-- The HC-TD and HC-ED of a new endpoint, written and flushed (40_endpoint.md R200, R204). -/
def buildEndpoint (p : Params) (e t : Nat) (template : Word) : Cmd Unit := do
  writeTd (tdAddr p t) 0#32 0#32 0#32 0#32
  memWrite (edControlAddr p e) template
  memWrite (edTailAddr p e) (tdAddr p t)
  memWrite (edHeadAddr p e) (tdAddr p t)
  memWrite (edNextAddr p e) 0#32
  flush (edAddr p e) 16
  flush (tdAddr p t) 16

/-- The endpoint linked into its list (40_endpoint.md R200); the answer is false on a bandwidth
rejection. -/
def linkEndpoint (e : Nat) : EdType → Cmd Bool
  | .control => do classInsert 63 e; return true
  | .bulk => do classInsert 64 e; return true
  | .interrupt => periodicInsert e

/-- `ED_OPEN` (40_endpoint.md R200 to R204). -/
def edOpenBody (args : Args) : Cmd Results := do
  let c := args.arg1
  if !openReservedClear c args.arg2 then raise .badArg
  match templateType c with
  | none => raise .isochronous
  | some ty =>
    let s ← get
    match s.allocEd, s.allocTd with
    | some e, some t =>
      let p := s.params
      modify fun s =>
        (s.setEd e (openedEd p args.arg0 c (args.arg2.extractLsb' 0 8).toNat ty t)).setTd t
          { alloc := true, owner := e }
      buildEndpoint p e t c
      let linked ← linkEndpoint e ty
      if !linked then
        modify fun s => (s.freeTd t).freeEd e
        raise .bandwidth
      let s ← get
      return { res0 := e, res1 := (s.ed e).slot, res2 := if ty = .interrupt then (s.ed e).bw else 0 }
    | _, _ => raise .noMem

/-- `ED_OPEN`. -/
def execEdOpen (ctx : Ctx) (s : State) : Host.Outcome State Fault Refusal :=
  runCommand (.edOpen ctx) edOpenBody s

/-! ### ED_QUIESCE -/

/-- What ED_QUIESCE does after the wait (40_endpoint.md R205). -/
def quiesceRest (q : Quiesced) : Cmd Results :=
  match q with
  | .timeout => raise .quiesceTimeout
  | .already => pure { res0 := 1 }
  | .ok => pure {}

/-- `ED_QUIESCE e` (R205). -/
def edQuiesceBody (e : Nat) (_ : Args) : Cmd Results := do
  checkEd e
  quiesceRest (← quiesce e (.quiesce e))

/-- `ED_QUIESCE`. -/
def execEdQuiesce (ctx : Ctx) (e : Nat) (s : State) : Host.Outcome State Fault Refusal :=
  runCommand (.edQuiesce ctx e) (edQuiesceBody e) s

/-! ### ED_CLOSE -/

/-- An endpoint unlinked from its list (40_endpoint.md R208). -/
def unlinkEndpoint (e : Nat) : EdType → Cmd Unit
  | .control => classRemove 63 e
  | .bulk => classRemove 64 e
  | .interrupt => periodicRemove e

/-- What ED_CLOSE does after the wait (40_endpoint.md R208): unlink, then free every TD from head to
tail, then the ED. -/
def closeRest (e : Nat) (q : Quiesced) : Cmd Results := do
  if q = .timeout then raise .quiesceTimeout
  unlinkEndpoint e ((← get).ed e).type
  let s ← get
  let ts ← orStop .brokenQueue (s.queue e)
  let all := ts ++ [(s.ed e).tail]
  set ((s.freeTds all).freeEd e)
  return { res0 := all.length }

/-- `ED_CLOSE e` (R208). -/
def edCloseBody (e : Nat) (_ : Args) : Cmd Results := do
  checkEd e
  closeRest e (← quiesce e (.close e))

/-- `ED_CLOSE`. -/
def execEdClose (ctx : Ctx) (e : Nat) (s : State) : Host.Outcome State Fault Refusal :=
  runCommand (.edClose ctx e) (edCloseBody e) s

/-! ### Suspend, resume, clear halt -/

/-- `ED_SUSPEND e` (40_endpoint.md R215). -/
def edSuspendBody (e : Nat) (_ : Args) : Cmd Results := do
  checkEd e
  let p := (← get).params
  rmw (edControlAddr p e) setSkip
  return {}

/-- `ED_SUSPEND`. -/
def execEdSuspend (ctx : Ctx) (e : Nat) (s : State) : Host.Outcome State Fault Refusal :=
  runCommand (.edSuspend ctx e) (edSuspendBody e) s

/-- `ED_RESUME e` (40_endpoint.md R216). -/
def edResumeBody (e : Nat) (_ : Args) : Cmd Results := do
  checkEd e
  let s ← get
  rmw (edControlAddr s.params e) clearSkip
  listFilled (s.ed e).type
  return {}

/-- `ED_RESUME`. -/
def execEdResume (ctx : Ctx) (e : Nat) (s : State) : Host.Outcome State Fault Refusal :=
  runCommand (.edResume ctx e) (edResumeBody e) s

/-- `ED_CLEAR_HALT e, clrtog` (40_endpoint.md R217). -/
def edClearHaltBody (e : Nat) (clrtog : Bool) (_ : Args) : Cmd Results := do
  checkEd e
  clearHalt e clrtog
  return {}

/-- `ED_CLEAR_HALT`. -/
def execEdClearHalt (ctx : Ctx) (e : Nat) (clrtog : Bool) (s : State) :
    Host.Outcome State Fault Refusal :=
  runCommand (.edClearHalt ctx e clrtog) (edClearHaltBody e clrtog) s

end Sys2Proof.Machine
end

