-- ==== Sys2Proof/Machine/Transfer.lean ====
section
/-! DEFINITION. The transfer commands (42_transfer.md): TD_QUEUE, XFER_COMPLETE, XFER_ABORT, CC_CLASSIFY. -/

namespace Sys2Proof.Machine

/-! ### Lengths and toggles -/

/-- `ACTUAL(len, cbp, be)` (42_transfer.md R317), on exact integers. -/
def actualBytes (len : Nat) (cbp be : Word) : Nat :=
  if len = 0 then 0
  else if cbp = 0#32 then len
  else
    let rem : Int := (be.toNat : Int) - (cbp.toNat : Int) + 1
    if rem < 0 ∨ rem > (len : Int) then 0 else len - rem.toNat

/-- `TOGGLE(e, dp)`: the `T` field, and `after_setup` afterwards (42_transfer.md R302). -/
def togglePolicy (dp : BitVec 2) (afterSetup : Bool) : BitVec 2 × Bool :=
  if dp = 0#2 then (0b10#2, true)
  else if afterSetup then (0b11#2, false)
  else (0b00#2, false)

/-! ### TD_QUEUE -/

/-- The operand checks of TD_QUEUE (42_transfer.md R300, R303). -/
def queueArgsOk (dp : BitVec 2) (buf len : Word) : Bool :=
  dp != 3#2 && decide (len.toNat ≤ 8192) && decide (buf.toNat % 4096 + len.toNat ≤ 8192)
    && !(decide (0 < len.toNat) && decide (2 ^ 32 ≤ buf.toNat + len.toNat - 1))

/-- `TD_QUEUE e, more, r, di, dp` (42_transfer.md R300, R301, R304). -/
def tdQueueBody (e : Nat) (more r : Bool) (di : BitVec 3) (dp : BitVec 2) (args : Args) :
    Cmd Results := do
  checkEd e
  let buf := args.arg0
  let len := args.arg1
  if !queueArgsOk dp buf len then raise .badArg
  let s ← get
  match s.allocTd with
  | none => raise .noMem
  | some n =>
    let p := s.params
    let t := (s.ed e).tail
    let tog := togglePolicy dp (s.ed e).afterSetup
    modify fun s =>
      (s.setEd e { s.ed e with afterSetup := tog.2 }).setTd n { alloc := true, owner := e }
    writeTd (tdAddr p n) 0#32 0#32 0#32 0#32
    flush (tdAddr p n) 16
    writeTd (tdAddr p t) (tdControl tog.1 di dp r t) (if len = 0#32 then 0#32 else buf) (tdAddr p n)
      (if len = 0#32 then 0#32 else buf + len - 1#32)
    flush (tdAddr p t) 16
    modify fun s =>
      ((s.setTd t { s.td t with status := queuedStatus more len, next := some n }).setIndexed t true).setEd
        e { s.ed e with tail := n }
    rmw (edTailAddr p e) (fun _ => tdAddr p n)
    listFilled (s.ed e).type
    return { res0 := t, res1 := n }

/-- `TD_QUEUE`. -/
def execTdQueue (ctx : Ctx) (e : Nat) (more r : Bool) (di : BitVec 3) (dp : BitVec 2) (s : State) :
    Host.Outcome State Fault Refusal :=
  runCommand (.tdQueue ctx e more r di dp) (tdQueueBody e more r di dp) s

/-! ### XFER_COMPLETE -/

/-- The TD handle names an allocated TD of the endpoint (42_transfer.md R305, R310). -/
def State.ownedTd (s : State) (e : Nat) (arg0 : Word) : Option Nat :=
  match tdHandle arg0 with
  | none => none
  | some t => if t < s.params.ntd ∧ (s.td t).alloc = true ∧ (s.td t).owner = e then some t else none

/-- What the check of a group finds (42_transfer.md R305). -/
inductive GroupCheck where
  /-- the TDs of the group, all finished, and the TD after it -/
  | finished (g : List Nat) (after : Nat)
  /-- the first TD that is the placeholder or not finished -/
  | unfinished (u : Nat)
deriving DecidableEq, Repr

/-- A group with one more TD in front. -/
def GroupCheck.cons (u : Nat) : GroupCheck → GroupCheck
  | .finished g s => .finished (u :: g) s
  | .unfinished v => .unfinished v

/-- The walk over the group from `u` (42_transfer.md R305, first loop). -/
def checkGroup (s : State) (tail : Nat) : Nat → Nat → Option GroupCheck
  | 0, u => if u = tail ∨ (s.td u).finished = false then some (.unfinished u) else none
  | fuel + 1, u =>
    if u = tail ∨ (s.td u).finished = false then some (.unfinished u)
    else
      match (s.td u).next with
      | none => none
      | some nx =>
        if (s.td u).more then (checkGroup s tail fuel nx).map (GroupCheck.cons u)
        else some (.finished [u] nx)

/-- The lengths of a group read back from its HC-TDs (42_transfer.md R305, second loop): the total, and
the control word of the last TD. -/
def readGroup : List Nat → Nat → Word → Cmd (Nat × Word)
  | [], total, c => pure (total, c)
  | u :: rest, total, _ => do
    let p := (← get).params
    inval (tdAddr p u) 16
    let c ← memRead (tdAddr p u)
    let cbp ← memRead (tdAddr p u + 4#32)
    let be ← memRead (tdAddr p u + 0xC#32)
    let s ← get
    readGroup rest (total + actualBytes (s.td u).len cbp be) c

/-- The class leaves the endpoint halted (42_transfer.md R305, R307). -/
def leavesHalted (c : CcClass) : Bool := c == .io || c == .stall

/-- `XFER_COMPLETE e` (42_transfer.md R305 to R307). The info word of `F_NOT_FINISHED` names the unfinished TD:
R305's pseudocode writes `e << 16 | u`; the row of 60_exceptions.md R455 leaves its `t` unbound and cites R305,
and that `t` is read as the TD that the row's cause names (log 41). -/
def xferCompleteBody (e : Nat) (args : Args) : Cmd Results := do
  checkEd e
  let s ← get
  match s.ownedTd e args.arg0 with
  | none => raise .badArg
  | some t =>
    if t ≠ (s.ed e).head then
      logFault .order (infoWord e t)
      raise .fault
    match ← orStop .brokenQueue (checkGroup s (s.ed e).tail s.params.ntd t) with
    | .unfinished u =>
      logFault .notFinished (infoWord e u)
      raise .fault
    | .finished g after =>
      let r ← readGroup g 0 0#32
      modify fun s => (s.freeTds g).setEd e { s.ed e with head := after }
      if !leavesHalted (ccClass (ccOf r.2)) then clearHalt e false
      return { res0 := r.1, res1 := (ccClass (ccOf r.2)).value, res2 := (ccOf r.2).toNat }

/-- `XFER_COMPLETE`. -/
def execXferComplete (ctx : Ctx) (e : Nat) (s : State) : Host.Outcome State Fault Refusal :=
  runCommand (.xferComplete ctx e) (xferCompleteBody e) s

/-! ### XFER_ABORT -/

/-- Where an aborted TD lies on its queue (42_transfer.md R310): the TDs before it, or not on it. -/
def State.before (s : State) (e t : Nat) : Option (Option (List Nat)) :=
  (walkUntil s (fun u => u == (s.ed e).tail || u == t) s.params.ntd (s.ed e).head).map
    (fun r => if r.2 = t then some r.1 else none)

/-- The hardware relink of an abort (42_transfer.md R310, R312). -/
def relink (e : Nat) (h : Word) (before grp : List Nat) (after : Nat) : Cmd Unit := do
  let p := (← get).params
  if (grp.map (tdAddr p)).contains (ptrOf h) then
    memWrite (edHeadAddr p e) (tdAddr p after ||| (h &&& carryBit))
    flush (edHeadAddr p e) 4
  else if (before.map (tdAddr p)).contains (ptrOf h) then
    rmw (tdAddr p (before.getLastD 0) + 8#32) (fun _ => tdAddr p after)
  else pure ()

/-- The group taken off the queue (42_transfer.md R310): freed, and its predecessor, or the head, linked
past it. -/
def State.cutGroup (s : State) (e : Nat) (before grp : List Nat) (after : Nat) : State :=
  let s1 := s.freeTds grp
  match before.getLast? with
  | none => s1.setEd e { s1.ed e with head := after }
  | some prev => s1.setTd prev { s1.td prev with next := some after }

/-- What XFER_ABORT does after the wait (42_transfer.md R310 to R313). -/
def abortRest (e t : Nat) (q : Quiesced) : Cmd Results := do
  if q = .timeout then raise .quiesceTimeout
  let s ← get
  let found ← orStop .brokenQueue (s.before e t)
  if found.isNone then logFault .tdNotFound (infoWord e t)
  let before := found.getD []
  inval (edHeadAddr s.params e) 4
  let h ← memRead (edHeadAddr s.params e)
  let s ← get
  let g ← orStop .brokenQueue (walkGroup s (s.ed e).tail s.params.ntd t)
  set (s.cutGroup e before g.1 g.2)
  relink e h before g.1 g.2
  clearHalt e false
  return { res0 := g.1.length }

/-- `XFER_ABORT e` (42_transfer.md R310). -/
def xferAbortBody (e : Nat) (args : Args) : Cmd Results := do
  checkEd e
  let s ← get
  match s.ownedTd e args.arg0 with
  | none => raise .badArg
  | some t =>
    if t = (s.ed e).tail then raise .badArg
    abortRest e t (← quiesce e (.abort e t))

/-- `XFER_ABORT`. -/
def execXferAbort (ctx : Ctx) (e : Nat) (s : State) : Host.Outcome State Fault Refusal :=
  runCommand (.xferAbort ctx e) (xferAbortBody e) s

/-! ### CC_CLASSIFY -/

/-- `CC_CLASSIFY cc` (42_transfer.md R315). -/
def ccClassifyBody (cc : BitVec 4) (_ : Args) : Cmd Results := pure { res0 := (ccClass cc).value }

/-- `CC_CLASSIFY`. -/
def execCcClassify (ctx : Ctx) (cc : BitVec 4) (s : State) : Host.Outcome State Fault Refusal :=
  runCommand (.ccClassify ctx cc) (ccClassifyBody cc) s

end Sys2Proof.Machine
end

