-- ==== Sys2Proof/Machine/DoneQueue.lean ====
section
/-! DEFINITION. The done-queue drainer and completion correlator (43_done_queue.md): DRAIN, DQ_DRAIN and
the automatic drain. -/

namespace Sys2Proof.Machine

/-- The counts of a drain (43_done_queue.md R350, R352). -/
structure Tally where
  walked : Nat := 0
  posted : Nat := 0
  faults : Nat := 0
deriving DecidableEq, Repr

/-- A developer fault logged by a drain, and counted (43_done_queue.md R352). -/
def drainFault (n : Tally) (code : FaultCode) (info : Word) : Cmd Tally := do
  logFault code info
  return { n with faults := n.faults + 1 }

/-! ### Reversal (43_done_queue.md R353, R354) -/

/-- The links reversed in place; `budget` is how many TDs may still come. `none`: the list is longer than
`NTD`. -/
def reverseDone : Nat → Word → Word → Cmd (Option Word)
  | 0, prev, a => if a = 0#32 then pure (some prev) else pure none
  | budget + 1, prev, a =>
    if a = 0#32 then pure (some prev)
    else do
      inval a 16
      let nx ← memRead (a + 8#32)
      memWrite (a + 8#32) prev
      flush (a + 8#32) 4
      reverseDone budget a (ptrOf nx)

/-! ### Correlation (43_done_queue.md R356) -/

/-- The scan of the queues of the allocated endpoints, ascending, for the TD at an address. The outer
`none` is a broken queue. -/
def scanQueues (s : State) (a : Word) : List Nat → Option (Option Nat)
  | [] => some none
  | e :: rest =>
    if (s.ed e).alloc then
      match walkUntil s (fun u => u == (s.ed e).tail || tdAddr s.params u == a) s.params.ntd
          (s.ed e).head with
      | none => none
      | some r => if r.2 = (s.ed e).tail then scanQueues s a rest else some (some r.2)
    else scanQueues s a rest

/-- `RESOLVE(a, c)` (R356). -/
def resolve (n : Tally) (a c : Word) : Cmd (Option Nat × Tally) := do
  let s ← get
  match s.params.corrMode with
  | .index =>
    let j := idxOf c
    if s.params.ntd ≤ j then return (none, ← drainFault n .indexRange a)
    else if s.indexed j = false ∨ tdAddr s.params j ≠ a then
      return (none, ← drainFault n .unresolved a)
    else return (some j, n)
  | .scan =>
    match ← orStop .brokenQueue (scanQueues s a (List.range s.params.ned)) with
    | some u => return (some u, n)
    | none => return (none, ← drainFault n .unresolved a)

/-! ### Completion (43_done_queue.md R357, R360, R362) -/

/-- The first TD of the transfer after the TDs of a list, `g` being the first of the one they begin in
(R360). -/
def groupStart (s : State) (g : Nat) : List Nat → Option Nat
  | [] => some g
  | u :: rest =>
    if (s.td u).more then groupStart s g rest
    else
      match (s.td u).next with
      | none => none
      | some nx => groupStart s nx rest

/-- `GSTART(e, t)` (R360). -/
def State.gstart (s : State) (e t : Nat) : Option Nat :=
  match walkUntil s (fun u => u == t) s.params.ntd (s.ed e).head with
  | none => none
  | some r => groupStart s (s.ed e).head r.1

/-- `POST(e, g, cc)` (R362). -/
def post (n : Tally) (e g : Nat) (cc : BitVec 4) : Cmd Tally := do
  let s ← get
  if s.compq.length < s.params.compDepth then
    set (({ s with compq := s.compq ++ [⟨e, g, cc, (s.ed e).key⟩] } : State).raiseIsr compAvailBit)
    return { n with posted := n.posted + 1 }
  else drainFault n .compOverflow (infoWord e g)

/-- The rest of the group of `j` freed; `j` becomes the terminator (43_done_queue.md R358). -/
def State.unwindGroup (s : State) (j : Nat) (grp : List Nat) (after : Nat) : State :=
  let s1 := s.freeTds grp
  s1.setTd j { s1.td j with next := some after, status := clearMore (s1.td j).status }

/-- `UNWIND(e, j, cc)` (43_done_queue.md R358, R359). -/
def unwind (e j : Nat) (cc : BitVec 4) : Cmd Unit := do
  let s ← get
  let p := s.params
  let nx ← orStop .brokenQueue (s.td j).next
  let g ← orStop .brokenQueue (walkGroup s (s.ed e).tail p.ntd nx)
  set (s.unwindGroup j g.1 g.2)
  inval (edAddr p e) 16
  let h ← memRead (edHeadAddr p e)
  memWrite (edHeadAddr p e)
    (tdAddr p g.2 ||| (if cc = 9#4 then h &&& carryBit else h &&& (carryBit ||| haltBit)))
  if cc = 9#4 then
    let k ← memRead (edControlAddr p e)
    memWrite (edControlAddr p e) (clearSkip k)
  flush (edAddr p e) 16
  if cc = 9#4 then listFilled (s.ed e).type

/-- `PROCESS(t, cc)` (43_done_queue.md R357). -/
def process (n : Tally) (t : Nat) (cc : BitVec 4) : Cmd Tally := do
  let s ← get
  let e := (s.td t).owner
  if (s.td t).finished then drainFault n .duplicate (BitVec.ofNat 32 t)
  else
    let first ← orStop .brokenQueue
      (walkUntil s (fun u => !(s.td u).finished) s.params.ntd (s.ed e).head)
    if first.2 ≠ t then drainFault n .order (infoWord e t)
    else
      set (s.setTd t { s.td t with status := setFinished (s.td t).status })
      if (s.td t).more then
        if cc = 0#4 then return n
        unwind e t cc
      let s ← get
      post n e (← orStop .brokenQueue (s.gstart e t)) cc

/-! ### The drain (43_done_queue.md R352) -/

/-- One TD of the forward walk: correlated, and processed where it resolves. -/
def visitDone (n : Tally) (a c : Word) : Cmd Tally := do
  let r ← resolve { n with walked := n.walked + 1 } a c
  match r.1 with
  | none => return r.2
  | some t => process r.2 t (ccOf c)

/-- The forward walk, oldest completion first (R355). The loop is bounded by `NTD` (30_encoding.md R147,
log 10): after `NTD` TDs it ends as at the end of the list. -/
def forwardDone : Nat → Tally → Word → Cmd Tally
  | 0, n, _ => pure n
  | fuel + 1, n, a =>
    if a = 0#32 then pure n
    else do
      let c ← memRead a
      let nx ← memRead (a + 8#32)
      let n' ← visitDone n a c
      forwardDone fuel n' nx

/-- `DRAIN()` (R352, R361). -/
def drain : Cmd Tally := do
  let w ← mmioRead 0x0C
  if w.getLsbD 1 then
    let p := (← get).params
    inval (doneHeadAddr p) 4
    let dh ← memRead (doneHeadAddr p)
    let n ← match ← reverseDone p.ntd 0#32 (ptrOf dh) with
      | none => drainFault {} .doneLoop (ptrOf dh)
      | some first => forwardDone p.ntd {} first
    mmioWrite 0x0C wdhBit
    return n
  else return {}

/-- `ISR.DRAIN_DONE <- 1`, in the last step of a drain (60_exceptions.md R459). -/
def drainDone : Cmd Unit := modify fun s => s.raiseIsr drainDoneBit

/-- `DQ_DRAIN` (43_done_queue.md R350). -/
def dqDrainBody (_ : Args) : Cmd Results := do
  let n ← drain
  drainDone
  return { res0 := n.walked, res1 := n.posted, res2 := n.faults }

/-- `DQ_DRAIN`. -/
def execDqDrain (ctx : Ctx) (s : State) : Host.Outcome State Fault Refusal :=
  runCommand (.dqDrain ctx) dqDrainBody s

/-! ### The automatic drain (43_done_queue.md R351) -/

/-- The automatic drain may begin. -/
def State.autoDrainEnabled (s : State) : Bool :=
  !s.seq.busy && s.started && s.autoDrain && s.wdhIn

/-- How an automatic drain ends: `RES0..RES2`, `STATUS.ERR` and `ISR.CMD_DONE` stay (R351). -/
def finishAuto : EStateM.Result Stop State Tally → Host.Outcome State Fault Refusal
  | .ok _ s => .next { s.raiseIsr drainDoneBit with plock := false, seq := .idle }
  | .error (.err _) s => .next { s.raiseIsr drainDoneBit with plock := false, seq := .idle }
  | .error .gone s => .next s
  | .error (.stuck f) _ => .fault f

/-- The automatic drain, begun by the sequencer as a step of its own, with `CTX = 1` (R351; 60_exceptions.md
R461). It has no command word and captures no operands: that the sequencer holds zeros there is the model's
choice (log 35). -/
def runAutoDrain (s : State) : Host.Outcome State Fault Refusal :=
  finishAuto (drain { s with seq := .exec { auto := true, ctx := .interrupt } })

end Sys2Proof.Machine
end

