-- ==== Sys2Proof/Machine/Dispatch.lean ====
section
/-! DEFINITION. From a command to its meaning: one arm per constructor of `Instr`. -/

namespace Sys2Proof.Machine

def exec (i : Instr) (s : State) : Host.Outcome State Fault Refusal :=
  match i with
  | .nop ctx => Sys2Proof.Machine.execNop ctx s
  | .schedStart ctx => Sys2Proof.Machine.execSchedStart ctx s
  | .edOpen ctx => Sys2Proof.Machine.execEdOpen ctx s
  | .edClose ctx e => Sys2Proof.Machine.execEdClose ctx e s
  | .edSuspend ctx e => Sys2Proof.Machine.execEdSuspend ctx e s
  | .edResume ctx e => Sys2Proof.Machine.execEdResume ctx e s
  | .edClearHalt ctx e clrtog => Sys2Proof.Machine.execEdClearHalt ctx e clrtog s
  | .edQuiesce ctx e => Sys2Proof.Machine.execEdQuiesce ctx e s
  | .schedBitpos ctx d n => Sys2Proof.Machine.execSchedBitpos ctx d n s
  | .schedIdepth ctx iv => Sys2Proof.Machine.execSchedIdepth ctx iv s
  | .schedLoad ctx k => Sys2Proof.Machine.execSchedLoad ctx k s
  | .tdQueue ctx e more r di dp => Sys2Proof.Machine.execTdQueue ctx e more r di dp s
  | .xferComplete ctx e => Sys2Proof.Machine.execXferComplete ctx e s
  | .xferAbort ctx e => Sys2Proof.Machine.execXferAbort ctx e s
  | .ccClassify ctx cc => Sys2Proof.Machine.execCcClassify ctx cc s
  | .dqDrain ctx => Sys2Proof.Machine.execDqDrain ctx s
  | .cflush ctx => Sys2Proof.Machine.execCflush ctx s
  | .cinval ctx => Sys2Proof.Machine.execCinval ctx s

end Sys2Proof.Machine
end

