-- ==== Sys2Proof/Machine/Fetch.lean ====
section
/-! DEFINITION. How the sequencer comes to its next command: the block fetches no instructions from memory
(20_memory.md R114), its commands arrive by a host write of `CMD` (10_state.md R24). -/

namespace Sys2Proof.Machine

/-- The host move that writes a command word to `CMD`. -/
def commandMove (w : Word) : Move := .host (.blockWrite 0x0C#8 4 w)

/-- The command word a move writes to `CMD`, if it is such a write. -/
def commandWord : Move → Option Word
  | .host (.blockWrite off size v) => if off = 0x0C#8 ∧ size = 4 then some v else none
  | _ => none

/-- A command word accepted while the block is idle: its decoding runs, or it ends with `E_BADCMD`
(30_encoding.md R144). -/
def runWord (w : Word) (s : State) : Host.Outcome State Fault Refusal :=
  match decode w with
  | .ok i => exec i s
  | .error _ => runReserved w s

/-- The sequencer's turn while it is idle: an enabled automatic drain begins (43_done_queue.md R351). -/
def idleTurn (s : State) : Host.Outcome State Fault Refusal :=
  if s.autoDrainEnabled then runAutoDrain s else .next s

/-- A move of another agent while the sequencer is idle. -/
def idleMove (m : Move) (s : State) : Host.Outcome State Fault Refusal :=
  match otherMove m s with
  | .on s' => .next s'
  | .abandoned s' => .next s'
  | .stuck f => .fault f

/-- The rest of a blocking command, after its frame wait (10_state.md R38, `continuation`). -/
def afterWait (k : Cont) (q : Quiesced) : Cmd Results :=
  match k with
  | .quiesce _ => quiesceRest q
  | .close e => closeRest e q
  | .abort e t => abortRest e t q

/-- A waiting sequencer goes on waiting, from `r` timeouts on, and then with its command. -/
def continueWait (f0 : BitVec 16) (r : Nat) (k : Cont) (s : State) :
    Host.Outcome State Fault Refusal :=
  finish ((do afterWait k (← waitFrom f0 r)) s)

/-- The next move of the schedule, the sequencer being idle: a command, the sequencer's turn, or a move
of another agent. When the schedule is used up the turn is the sequencer's (log 21). -/
def idleStep (s : State) : Host.Outcome State Fault Refusal :=
  match s.sched with
  | [] => idleTurn s
  | m :: ms =>
    match commandWord m with
    | some w => runWord w { s with sched := ms }
    | none => if m = .block then idleTurn { s with sched := ms } else idleMove m { s with sched := ms }

end Sys2Proof.Machine
end

