-- ==== Sys2Proof/Machine/Step.lean ====
section
/-! DEFINITION. One step of the machine. -/

namespace Sys2Proof.Machine

/-- One step: an idle block takes the next move of the schedule, a waiting one goes on with its wait. -/
def step (s : State) : Host.Outcome State Fault Refusal :=
  match s.seq with
  | .idle => idleStep s
  | .wait _ _ f0 r k => continueWait f0 r k s
  | .exec _ => .fault .midCommand

/-- The state whose very next step runs the command word: the host's next move writes it to `CMD`, and
the block is idle, so that it is accepted (log 4). -/
def State.withFetchWord (s : State) (nbits w : Nat) : State :=
  { s with seq := .idle, sched := commandMove (BitVec.ofNat 32 (w % 2 ^ nbits)) :: s.sched }

end Sys2Proof.Machine
end

