-- ==== Sys2Proof/Safety.lean ====
section
/-! DEFINITION. What counts as a good state or a safe run, in the terms the statements use: the canonical
form of the stored tables, what holds between two steps, the invariants of 10_state.md R42, the canonical
layouts of 40_endpoint.md R213 and 41_scheduler.md R258, the end of a run (70_reset_and_hazards.md R524),
and a run without a developer fault (60_exceptions.md R457). -/

namespace Sys2Proof.Machine

/-! ### The model's own invariants -/

/-- Every line of a cache is in canonical form. -/
def cacheWf (c : List (Nat × Line)) : Bool := keysRise c && c.all (fun p => Memory.wf p.2.data)

/-- Every stored table is in canonical form, so that equal contents are equal data. -/
def State.canonical (s : State) : Bool :=
  Memory.wf s.mem && cacheWf s.cache && tableWf ({} : Ed) s.edt && tableWf ({} : Td) s.tdt
    && tableWf false s.idxValid && tableWf ([] : List Nat) s.place && tableWf (0#32) s.hc.others

/-- What the sequencer is between two steps of the machine: idle, or waiting with fewer than three
timeouts counted (40_endpoint.md R207); never in the middle of a command. -/
def Seq.resting : Seq → Bool
  | .idle => true
  | .exec _ => false
  | .wait _ _ _ r _ => decide (r < 3)

/-- `PLOCK` is free whenever the sequencer is idle or waits (10_state.md R37, 60_exceptions.md R462). -/
def State.lockFree (s : State) : Bool := s.seq.resting && !s.plock

/-- The two logs keep to their capacities (10_state.md R35, R36). -/
def State.logsBounded (s : State) : Bool :=
  decide (s.compq.length ≤ s.params.compDepth) && decide (s.flog.length ≤ s.params.faultDepth)

/-- The HC's list positions, its done list and the head registers are addresses of 16-byte aligned
descriptors (20_memory.md R97, R122). -/
def State.pointersAligned (s : State) : Bool :=
  [s.hc.controlHead, s.hc.bulkHead, s.hc.ppos, s.hc.cpos, s.hc.bpos, s.hc.dq].all (fun a => ptrOf a == a)

/-- The block is idle and no move of another agent is to come. -/
abbrev State.quiet (s : State) : Prop := s.seq = .idle ∧ s.sched = []

/-! ### The end of a command, as the statements write it -/

/-- A command word has been accepted (10_state.md R24). -/
def State.taken (s : State) : State := { s with cmdLost := false }

/-- A command has ended with a code (10_state.md R41). -/
def State.ended (s : State) (e : ErrCode) : State :=
  { s with err := e, isr := s.isr ||| 0x1#4, plock := false }

/-- A command has ended successfully with these results (10_state.md R26, R41). -/
def State.endedOk (s : State) (r0 r1 r2 : Word) : State :=
  { s.ended .ok with res0 := r0, res1 := r1, res2 := r2 }

/-- The endpoint handle a command takes (30_encoding.md R143). -/
def edHandle : Instr → Option Nat
  | .nop _ => none
  | .schedStart _ => none
  | .edOpen _ => none
  | .edClose _ e => some e
  | .edSuspend _ e => some e
  | .edResume _ e => some e
  | .edClearHalt _ e _ => some e
  | .edQuiesce _ e => some e
  | .schedBitpos _ _ _ => none
  | .schedIdepth _ _ => none
  | .schedLoad _ _ => none
  | .tdQueue _ e _ _ _ _ => some e
  | .xferComplete _ e => some e
  | .xferAbort _ e => some e
  | .ccClassify _ _ => none
  | .dqDrain _ => none
  | .cflush _ => none
  | .cinval _ => none

/-! ### Memory as the block sees it -/

/-- A byte as the block reads it. -/
def State.view (s : State) (x : Nat) : Byte := s.cacheLoadByte x

/-- A byte that a flush of its line would write to memory (20_memory.md R104, 44_coherence.md R404). -/
def State.pending (s : State) (x : Nat) : Bool :=
  !s.params.coherent &&
    match tableFind (lineBase s.params x) s.cache with
    | none => false
    | some l => l.dirty && (!s.params.wbMasked || l.words.getLsbD ((x - lineBase s.params x) / 4))

/-- One of the four bytes of the word at an address. -/
def inWord (a : Word) (x : Nat) : Bool := decide (a.toNat ≤ x ∧ x < a.toNat + 4)

/-- What the block reads of the interrupt table is what memory holds. -/
def State.tableSeen (s : State) : Bool :=
  (List.range 128).all (fun k =>
    s.view (s.params.hccaBase + k) == loadByte s.mem (s.params.hccaBase + k))

/-! ### 10_state.md R34, R42 -/

/-- `next` leads from `u` over the TDs of the list to `v`. -/
def Chain (s : State) : Nat → List Nat → Nat → Prop
  | u, [], v => u = v
  | u, x :: l, v => u = x ∧ ∃ nx, (s.td x).next = some nx ∧ Chain s nx l v

/-- R34: every allocated endpoint is in exactly one placement list, that of its slot, once; no free one is
in any. -/
structure State.placed (s : State) : Prop where
  member : ∀ k e, e ∈ s.list k → s.validEd e = true ∧ (s.ed e).slot = k
  listed : ∀ e, (s.ed e).alloc = true → e < s.params.ned ∧ e ∈ s.list (s.ed e).slot
  once : ∀ k, (s.list k).Nodup

/-- The queue of an endpoint (R42 (b)): `next` leads from `head` over the TDs of `q` to `tail`, all of them
allocated slots the endpoint owns, each once; the placeholder `tail` is empty. -/
structure State.queueIs (s : State) (e : Nat) (q : List Nat) : Prop where
  chain : Chain s (s.ed e).head q (s.ed e).tail
  once : (q ++ [(s.ed e).tail]).Nodup
  owned : ∀ t ∈ q ++ [(s.ed e).tail],
    t < s.params.ntd ∧ (s.td t).alloc = true ∧ (s.td t).owner = e
  empty : (s.td (s.ed e).tail).status = 0#32 ∧ s.indexed (s.ed e).tail = false

/-- What a waiting command has checked of its handles before it waits (40_endpoint.md R208,
42_transfer.md R310). -/
def State.waitOwned (s : State) : Prop :=
  match s.seq with
  | .idle => True
  | .exec _ => True
  | .wait _ _ _ _ (.quiesce _) => True
  | .wait _ _ _ _ (.close e) => (s.ed e).alloc = true
  | .wait _ _ _ _ (.abort e t) =>
    (s.ed e).alloc = true ∧ (s.td t).alloc = true ∧ (s.td t).owner = e ∧ t ≠ (s.ed e).tail

/-- R42 (b) and R33: every allocated endpoint has a queue, every allocated TD is on the queue of its owner,
an index entry belongs to an allocated TD; and what a waiting command has checked still holds. -/
structure State.queuesOk (s : State) : Prop where
  shaped : ∀ e, (s.ed e).alloc = true → ∃ q, s.queueIs e q
  onQueue : ∀ t, (s.td t).alloc = true → (s.ed (s.td t).owner).alloc = true ∧
    ∃ q, s.queueIs (s.td t).owner q ∧ t ∈ q ++ [(s.ed (s.td t).owner).tail]
  indexOwned : ∀ t, s.indexed t = true → (s.td t).alloc = true
  waiting : s.waitOwned

/-- R42 (c): on every queue the finished TDs form a prefix, and the placeholder is not finished. -/
def State.finishedFirst (s : State) : Prop :=
  ∀ e q, (s.ed e).alloc = true → s.queueIs e q →
    ∃ done rest, q = done ++ rest ∧ (∀ t ∈ done, (s.td t).finished = true) ∧
      ∀ t ∈ rest ++ [(s.ed e).tail], (s.td t).finished = false

/-- R42 (d) of an endpoint: its queue is `retired ++ waiting`, where `waiting` are the TDs the HC has not
retired. The HC-TD list from `HeadP` to `TailP` has their order: `HeadP` names the first of them (or the
placeholder), the `NextTD` of each is the address of its `next`, `TailP` that of the placeholder. -/
structure State.hardwareAgrees (s : State) (e : Nat) (retired waiting : List Nat) : Prop where
  queue : s.queueIs e (retired ++ waiting)
  unfinished : ∀ t ∈ waiting, (s.td t).finished = false
  head : ∀ t, (waiting ++ [(s.ed e).tail]).head? = some t →
    ptrOf (s.physRead (edHeadAddr s.params e)) = tdAddr s.params t
  next : ∀ t ∈ waiting, ∀ nx, (s.td t).next = some nx →
    s.physRead (tdAddr s.params t + 8#32) = tdAddr s.params nx
  tail : s.physRead (edTailAddr s.params e) = tdAddr s.params (s.ed e).tail

/-- The slot of an endpoint suits its type (R42 (e)). -/
def State.slotSuits (s : State) (e : Nat) : Bool :=
  match (s.ed e).type with
  | .control => (s.ed e).slot == 63
  | .bulk => (s.ed e).slot == 64
  | .interrupt =>
    decide ((s.ed e).depth ≤ 5) && decide (nodeBase (s.ed e).depth ≤ (s.ed e).slot)
      && decide ((s.ed e).slot < nodeBase (s.ed e).depth + 2 ^ (5 - (s.ed e).depth))

/-- R42 (e) of every allocated endpoint. -/
def State.slotsSuit (s : State) : Prop := ∀ e, (s.ed e).alloc = true → s.slotSuits e = true

/-- The group that begins at the head of an endpoint's queue is finished (42_transfer.md R305): `g` are its
TDs, `after` the TD after it. -/
structure State.headGroup (s : State) (e : Nat) (g : List Nat) (after : Nat) : Prop where
  chain : Chain s (s.ed e).head g after
  nonempty : g ≠ []
  notTail : (s.ed e).tail ∉ g
  finished : ∀ t ∈ g, (s.td t).finished = true
  more : ∀ t ∈ g.dropLast, (s.td t).more = true
  last : ∀ t, g.getLast? = some t → (s.td t).more = false

/-! ### Layouts -/

/-- The pointers of a chain of endpoints: each one's `NextED` names the next, the last one's is `after`. -/
def State.chained (s : State) (after : Word) : List Nat → Bool
  | [] => true
  | [e] => s.physRead (edNextAddr s.params e) == after
  | e :: e' :: rest =>
    s.physRead (edNextAddr s.params e) == edAddr s.params e' && s.chained after (e' :: rest)

/-- What the HC takes for the head of a class list: `HcControlHeadED` of list 63, `HcBulkHeadED` of list 64
(20_memory.md R97). -/
def Hc.classHead (h : Hc) (k : Nat) : Word := if k = 63 then h.controlHead else h.bulkHead

/-- The canonical class list (40_endpoint.md R213). -/
def State.classLayout (s : State) (k : Nat) : Bool :=
  s.hc.classHead k == edPointer s.params (s.list k).head? && s.chained 0#32 (s.list k)

/-- The canonical tree layout (41_scheduler.md R258). -/
def State.treeLayout (s : State) : Bool :=
  (List.range 32).all (fun i =>
      s.physRead (tableAddr s.params i)
        == match s.hop (bitrev 5 i) 0 with
          | none => dummyEd s.params
          | some e => edAddr s.params e)
    && (List.range 6).all (fun d => (List.range (2 ^ (5 - d))).all (fun g =>
      s.chained (edPointer s.params (s.hop (g * 2 ^ d) (d + 1))) (s.list (node d g))))

/-! ### The cache between two commands -/

/-- No line is dirty. -/
def State.cacheClean (s : State) : Bool := s.cache.all (fun p => !p.2.dirty)

/-- No line that the block wrote is dirty (44_coherence.md R406, 70_reset_and_hazards.md R524); a line that only
the host wrote may be (log 36). With `COHERENT = 1` there is no line. -/
def State.blockClean (s : State) : Bool :=
  s.params.coherent || s.cache.all (fun p => !(p.2.dirty && p.2.byBlock))

/-- The started machine as it stands between two commands while no other agent moves: the invariants of
R42, the canonical tree in memory, the table as the block sees it, nothing dirty and no done list waiting.
The schedule holds at most the next command. -/
structure State.treeReady (s : State) : Prop where
  legal : s.params.legal = true
  placed : s.placed
  suits : s.slotsSuit
  queues : s.queuesOk
  noZeroEd : 0 < s.params.descBase
  started : s.started = true
  clean : s.cacheClean = true
  seen : s.tableSeen = true
  layout : s.treeLayout = true
  noDone : s.wdhIn = false
  alone : s.sched = [] ∨ ∃ w, s.sched = [commandMove w]

/-! ### Runs -/

/-- No developer fault has been logged (60_exceptions.md R457). -/
def State.noDeveloperFault (s : State) : Prop := s.faultCount = 0#32

/-- The block is at rest (70_reset_and_hazards.md R524). -/
def AtRest (s : State) : Prop :=
  s.seq.busy = false ∧ s.autoDrainEnabled = false ∧ s.blockClean = true

/-- Steps lead from a state to another. -/
inductive Reaches : State → State → Prop
  | refl (s : State) : Reaches s s
  | next {s t u : State} : step s = .next t → Reaches t u → Reaches s u

/-- The end state of a program (70_reset_and_hazards.md R524): the state at rest that steps reach when every move of
the program has been taken: the host's accesses, its commands among them, and the HC steps it names. -/
structure State.programEnds (s : State) (program : List Move) (t : State) : Prop where
  run : Reaches { s with sched := program } t
  taken : t.sched = []
  rest : AtRest t

/-! ### The HC -/

/-- The TD a serve works on, once its words are read (20_memory.md R124, R125). -/
def Phase.view : Phase → Option TdView
  | .readHead => none
  | .readTail _ => none
  | .readTdControl _ => none
  | .readTdCbp _ _ => none
  | .readTdNext _ _ _ => none
  | .readTdBe _ _ _ _ => none
  | .process d _ => some d
  | .progressControl d _ _ => some d
  | .retireCbp d _ _ _ => some d
  | .retireNext d _ _ => some d
  | .retireHead d _ _ => some d
  | .readNext => none

end Sys2Proof.Machine
end

