-- ==== Sys2Proof/Certificates/Slice0/Obligations.lean ====
section
/-! DEFINITION. The statements for the provers. A state is `quiet` when the block is idle and no move of
another agent is to come (the schedule is the model's, log 2); statements about a command's effect are about
quiet states, statements about every step and every schedule are the invariants. `s.taken`, `.ended` and `.endedOk` are what acceptance and end of
a command write (Safety.lean). -/

open Sys2Proof Sys2Proof.Machine

/-! ### Encoding -/

/-- 30_encoding.md R140 to R143: decoding the word of a well-formed command gives the command back, every
operand at every value its field admits. -/
def Obligations.DecodeOfEncode : Prop :=
  ∀ i : Instr, i.wf = true → decode (encode i) = .ok i

/-- 30_encoding.md R140 to R143: a word that decodes is the word of what it decodes to, so no bit of a
command word is ignored. -/
def Obligations.EncodeOfDecode : Prop :=
  ∀ (w : Word) (i : Instr), decode w = .ok i → i.wf = true ∧ encode i = w

/-- 30_encoding.md R142: words written out from the table decode to the commands they stand for. -/
def Obligations.TableWordsDecode : Prop :=
  decode 0x00000000#32 = .ok (.nop .thread) ∧ decode 0x00050011#32 = .ok (.edClose .thread 5) ∧
    decode 0x01000014#32 = .ok (.edClearHalt .thread 0 true) ∧
    decode 0x00000115#32 = .ok (.edQuiesce .interrupt 0) ∧
    decode 0x10000020#32 = .ok (.schedBitpos .thread 0 16) ∧
    decode 0x5D000030#32 = .ok (.tdQueue .thread 0 true false 7#3 2#2) ∧
    decode 0x00040033#32 = .ok (.ccClassify .thread 4#4)

/-- 30_encoding.md R144 (1), (2) and R145: a word that is no command's ends with `E_BADCMD` and changes
nothing else but `ISR.CMD_DONE` and `CMDLOST` (and `PLOCK`, which every end releases). -/
def Obligations.ReservedWordsEnd : Prop :=
  ∀ (s : State) (w : Word), s.seq = .idle → s.sched = [commandMove w] →
    (∀ i : Instr, i.wf = true → encode i ≠ w) →
    step s = .next { s.taken.ended .badCmd with sched := [] }

/-! ### Steps and acceptance -/

/-- 10_state.md R24, 70_reset_and_hazards.md R515: a host write of a command's word to `CMD` of the idle block
runs the command, the schedule having moved past the write (`withFetchWord` places such a write next); a
write to the busy block is dropped and sets `CMDLOST`, and nothing else changes. The model's choices: the
schedule (log 2), how a word comes to run (log 4), `exec` of a busy block (log 22). -/
def Obligations.StepRunsCommand : Prop :=
  (∀ (s : State) (ms : List Move) (w : Word) (i : Instr), s.seq = .idle →
    s.sched = commandMove w :: ms → decode w = .ok i →
    i.wf = true ∧ step s = exec i { s with sched := ms }) ∧
  (∀ (s : State) (w : Word) (i : Instr), decode w = .ok i →
    step (s.withFetchWord 32 w.toNat) = exec i { s with seq := .idle }) ∧
  (∀ (i : Instr) (w : Word) (s : State), s.seq.busy = true →
    exec i s = .next { s with cmdLost := true } ∧
    hostMove (.blockWrite 0x0C#8 4 w) s = .ok { s with cmdLost := true })

/-- 30_encoding.md R142, R144 (3), (4), 40_endpoint.md R219, 60_exceptions.md R451: a command whose `STARTED`
condition does not hold ends with `E_BADSTATE`, else one of the three blocking commands with `CTX = 1` with
`E_CONTEXT`, else one whose endpoint handle names no allocated endpoint with `E_NOTFOUND`; each changes nothing
else. The columns of R142 are written out. -/
def Obligations.CommonChecksStop : Prop :=
  ∀ (i : Instr) (s : State), s.quiet →
    let shut : Prop := match i with
      | .schedStart _ => s.started = true
      | .edOpen _ | .edClose _ _ | .edSuspend _ _ | .edResume _ _ | .edClearHalt _ _ _ | .edQuiesce _ _
      | .schedLoad _ _ | .tdQueue _ _ _ _ _ _ | .xferComplete _ _ | .xferAbort _ _ | .dqDrain _ =>
        s.started = false
      | .nop _ | .schedBitpos _ _ _ | .schedIdepth _ _ | .ccClassify _ _ | .cflush _ | .cinval _ => False
    let wrongContext : Prop := match i with
      | .edClose ctx _ | .edQuiesce ctx _ | .xferAbort ctx _ => ctx = .interrupt
      | .nop _ | .schedStart _ | .edOpen _ | .edSuspend _ _ | .edResume _ _ | .edClearHalt _ _ _
      | .schedBitpos _ _ _ | .schedIdepth _ _ | .schedLoad _ _ | .tdQueue _ _ _ _ _ _ | .xferComplete _ _
      | .ccClassify _ _ | .dqDrain _ | .cflush _ | .cinval _ => False
    let handle : Option Nat := match i with
      | .edClose _ e | .edSuspend _ e | .edResume _ e | .edClearHalt _ e _ | .edQuiesce _ e
      | .tdQueue _ e _ _ _ _ | .xferComplete _ e | .xferAbort _ e => some e
      | .nop _ | .schedStart _ | .edOpen _ | .schedBitpos _ _ _ | .schedIdepth _ _ | .schedLoad _ _
      | .ccClassify _ _ | .dqDrain _ | .cflush _ | .cinval _ => none
    (shut → exec i s = .next (s.taken.ended .badState)) ∧
    (¬ shut → wrongContext → exec i s = .next (s.taken.ended .context)) ∧
    (∀ e, ¬ shut → ¬ wrongContext → handle = some e → (s.params.ned ≤ e ∨ (s.ed e).alloc = false) →
      exec i s = .next (s.taken.ended .notFound))

/-- 10_state.md R26, 60_exceptions.md R452: whatever the other agents do short of a reset, a command that
does not end successfully leaves `RES0..RES2` as they were. -/
def Obligations.ErrorsKeepResults : Prop :=
  ∀ (i : Instr) (s t : State), Move.reset ∉ s.sched → exec i s = .next t → t.err ≠ .ok →
    t.res0 = s.res0 ∧ t.res1 = s.res1 ∧ t.res2 = s.res2

/-! ### Invariants of every step, over every schedule -/

/-- Every step keeps the canonical form of memory, cache and tables. -/
def Obligations.CanonicalKept : Prop :=
  ∀ s t : State, s.canonical = true → step s = .next t → t.canonical = true

/-- 10_state.md R37, R42 (f), 44_coherence.md R406, 60_exceptions.md R462, 70_reset_and_hazards.md R524: between
two steps of the machine the block is idle or waits, `PLOCK` is free, and no cache line the block wrote is
dirty; so the idle block is at rest where no automatic drain is enabled, and a program has at most one end
state. That a step of the machine never ends between two steps of a command is the model's choice (log 3,
log 23), and so is the mark that tells the block's writes of a line from the host's (log 36). -/
def Obligations.LockFreeKept : Prop :=
  (∀ s t : State, s.lockFree = true → step s = .next t → t.lockFree = true ∧
    (s.params.legal = true → s.blockClean = true →
      t.blockClean = true ∧ (t.seq = .idle → t.autoDrainEnabled = false → AtRest t))) ∧
  (∀ (s t u : State) (program : List Move), s.programEnds program t → s.programEnds program u → t = u)

/-- 10_state.md R35, R36, 00_scope.md R8: the completion FIFO and the fault log keep to their capacities, and
no step changes a parameter. -/
def Obligations.LogsBoundedKept : Prop :=
  ∀ s t : State, step s = .next t →
    t.params = s.params ∧ (s.logsBounded = true → t.logsBounded = true)

/-- 20_memory.md R97, R122, R125, R126: the head registers, the HC's positions and its done list stay addresses
with bits [3:0] zero. That this holds whatever the host writes is the model's choice: a host write of
`HcPeriodCurrentED`, `HcControlCurrentED`, `HcBulkCurrentED` or `HcDoneHead` is taken with bits [3:0] cleared
(log 17), and so is one of a head register (log 26). -/
def Obligations.PointersAlignedKept : Prop :=
  ∀ s t : State, s.pointersAligned = true → step s = .next t → t.pointersAligned = true

/-- 10_state.md R34, R42 (e): every step keeps each allocated endpoint in exactly one placement list and no
free one in any; and an interrupt endpoint in a node of its depth, control endpoints in list 63, bulk
endpoints in list 64. -/
def Obligations.PlacementKept : Prop :=
  ∀ s t : State, step s = .next t → (s.placed → t.placed) ∧ (s.slotsSuit → t.slotsSuit)

/-- 10_state.md R42 (b), (c): every step keeps the shape of the queues, and in each the finished TDs first. -/
def Obligations.QueuesKept : Prop :=
  ∀ s t : State, s.queuesOk → step s = .next t → t.queuesOk ∧ (s.finishedFirst → t.finishedFirst)

/-- 10_state.md R23, 60_exceptions.md R456: only a reset clears `STARTED` and `FAULT_OVF`, and
`FAULT_COUNT` never falls otherwise. -/
def Obligations.StickyUntilReset : Prop :=
  ∀ s t : State, Move.reset ∉ s.sched → step s = .next t →
    (s.started = true → t.started = true) ∧ (s.faultOvf = true → t.faultOvf = true) ∧
    s.faultCount.toNat ≤ t.faultCount.toNat

/-- 10_state.md R22, R24, R25, R28, 70_reset_and_hazards.md R515: where the host writes nothing but commands and no
reset comes, a step leaves `ARG0..ARG3`, `CFG` and `IER` as they were: the block never writes them. A running
command uses its snapshot: a host write of an `ARG` register that comes after `CMD` (with any number of the
sequencer's steps before it, no other agent moving) changes that register alone, or is still to come when the
command has ended; and a waiting command goes on alike whatever the `ARG` registers hold. -/
def Obligations.BlockNeverWritesOperands : Prop :=
  (∀ s t : State, (∀ m ∈ s.sched, m ≠ .reset ∧ ∀ h, m = .host h → ∃ w, m = commandMove w) →
    step s = .next t →
    t.arg0 = s.arg0 ∧ t.arg1 = s.arg1 ∧ t.arg2 = s.arg2 ∧ t.arg3 = s.arg3 ∧
    t.autoDrain = s.autoDrain ∧ t.ier = s.ier) ∧
  (∀ (i : Instr) (s t : State) (n : Nat) (off : BitVec 8) (v : Word), s.seq = .idle →
    off ∈ [0x10#8, 0x14#8, 0x18#8, 0x1C#8] → s.sched = List.replicate n .block → exec i s = .next t →
    let late := Move.host (.blockWrite off 4 v)
    exec i { s with sched := s.sched ++ [late] } = .next (blockRegWrite t off.toNat v) ∨
    exec i { s with sched := s.sched ++ [late] } = .next { t with sched := t.sched ++ [late] }) ∧
  (∀ (s t : State) (run : Running) (e r : Nat) (f0 : BitVec 16) (k : Cont) (a b c d : Word),
    s.seq = .wait run e f0 r k →
    (∀ m ∈ s.sched, m ≠ .reset ∧ ∀ off size v, m ≠ .host (.blockRead off size) ∧
      m ≠ .host (.blockWrite off size v)) →
    step s = .next t →
    step { s with arg0 := a, arg1 := b, arg2 := c, arg3 := d } =
      .next { t with arg0 := a, arg1 := b, arg2 := c, arg3 := d })

/-- The invariants hold at reset. -/
def Obligations.InvariantsAtReset : Prop :=
  State.reset.canonical = true ∧ State.reset.lockFree = true ∧ State.reset.logsBounded = true ∧
    State.reset.pointersAligned = true ∧ State.reset.placed ∧ State.reset.queuesOk ∧
    State.reset.finishedFirst ∧ State.reset.slotsSuit ∧ State.reset.blockClean = true ∧ AtRest State.reset

/-! ### Reset -/

/-- 10_state.md R43: the reset values of all block state; the registers are those of R20's table, read
through the register port. -/
def Obligations.ResetValues : Prop :=
  (∀ off : BitVec 8, off.toNat % 4 = 0 →
    blockRegRead State.reset off.toNat = if off = 0#8 then 0x50540001#32 else 0#32) ∧
  (∀ e, (State.reset.ed e).alloc = false) ∧ (∀ t, (State.reset.td t).alloc = false) ∧
  (∀ t, State.reset.indexed t = false) ∧ (∀ k, State.reset.list k = []) ∧
  State.reset.compq = [] ∧ State.reset.flog = [] ∧ State.reset.faultCount = 0#32 ∧
  State.reset.started = false ∧ State.reset.plock = false ∧ State.reset.seq = .idle

/-- 70_reset_and_hazards.md R500, R501: a reset abandons what the block runs at the step it has reached: the block
is at its reset values, the cache is empty, memory and the HC are as they were. Where it comes before the
first step of a command or in a frame wait, that is all; where it comes after any number of the sequencer's
steps, the same holds of the memory and the HC of that moment, or the command has ended before it. No access
of a command has an effect once the reset is next: what it wrote before stays, and nothing more is written.
That a reset is one move, and keeps the schedule and the model's own fields, is the model's choice (log 27). -/
def Obligations.ResetAbandons : Prop :=
  let after := fun (s : State) (ms : List Move) =>
    { State.reset with
      params := s.params, mem := s.mem, hc := s.hc, sched := ms, hostData := s.hostData, draws := s.draws }
  (∀ (s : State) (ms : List Move), s.sched = .reset :: ms →
    (∀ i : Instr, s.seq = .idle → exec i s = .next (after s ms)) ∧
    (s.seq = .idle → step s = .next (after s ms)) ∧
    (∀ run e f0 r k, s.seq = .wait run e f0 r k → step s = .next (after s ms)) ∧
    (∀ (a v : Word) (off : Nat), memRead a s = .error .gone (after s ms) ∧
      memWrite a v s = .error .gone (after s ms) ∧ mmioRead off s = .error .gone (after s ms) ∧
      mmioWrite off v s = .error .gone (after s ms)) ∧
    (∀ (b : Nat) (bs : List Nat), flushLines (b :: bs) s = .error .gone (after s ms) ∧
      invalLines (b :: bs) s = .error .gone (after s ms))) ∧
  (∀ (s u : State) (n : Nat) (ms : List Move), s.sched = List.replicate n .block ++ .reset :: ms →
    ((s.seq = .idle ∧ ∃ i, exec i s = .next u) ∨ step s = .next u) →
    u = after { s with mem := u.mem, hc := u.hc } ms ∨
    ∃ k ≤ n, u.sched = List.replicate k .block ++ .reset :: ms)

/-! ### Registers and the host -/

/-- 10_state.md R20 to R23, R25 to R28, 60_exceptions.md R450: the block's registers as the host reads and writes
them, by offset: `ID`, `CFG`, `STATUS` with the numbers of the error codes, `ARG0..ARG3`, `RES0..RES2`, `ISR`,
`IER`; writes of read-only and reserved offsets change nothing, write-only and reserved ones read 0; `IRQ` is 1
exactly when some `ISR` bit is set whose `IER` bit is set. -/
def Obligations.StatusAndInterruptRegisters : Prop :=
  ∀ (s : State) (v : Word),
    blockRegRead s 0x08 = s.status ∧ s.status.getLsbD 0 = s.seq.busy ∧
    s.status.getLsbD 1 = s.started ∧ s.status.getLsbD 2 = s.seq.waiting ∧
    s.status.getLsbD 3 = s.faultOvf ∧ s.status.getLsbD 4 = s.cmdLost ∧
    s.status.extractLsb' 5 3 = 0#3 ∧ s.status.extractLsb' 16 16 = 0#16 ∧
    (∀ p ∈ [(ErrCode.ok, 0x00#8), (.badCmd, 0x01#8), (.badArg, 0x02#8), (.badState, 0x03#8), (.context, 0x04#8),
        (.noMem, 0x06#8), (.bandwidth, 0x07#8), (.isochronous, 0x08#8), (.notFound, 0x09#8),
        (.quiesceTimeout, 0x0A#8), (.fault, 0x0B#8)],
      s.err = p.1 → s.status.extractLsb' 8 8 = p.2) ∧
    (∃ i : BitVec 4, blockRegWrite s 0x30 v = { s with isr := i } ∧
      ∀ k < 4, i.getLsbD k = (s.isr.getLsbD k && !v.getLsbD k)) ∧
    blockRegWrite s 0x34 v = { s with ier := v.extractLsb' 0 4 } ∧
    blockRegRead s 0x30 = s.isr.setWidth 32 ∧ blockRegRead s 0x34 = s.ier.setWidth 32 ∧
    (s.irq = true ↔ ∃ k < 4, s.isr.getLsbD k = true ∧ s.ier.getLsbD k = true) ∧
    blockRegRead s 0x00 = 0x50540001#32 ∧
    blockRegWrite s 0x04 v = { s with autoDrain := v.getLsbD 0 } ∧
    blockRegRead s 0x04 = (if s.autoDrain then 1#32 else 0#32) ∧
    blockRegWrite s 0x10 v = { s with arg0 := v } ∧ blockRegWrite s 0x14 v = { s with arg1 := v } ∧
    blockRegWrite s 0x18 v = { s with arg2 := v } ∧ blockRegWrite s 0x1C v = { s with arg3 := v } ∧
    blockRegRead s 0x10 = s.arg0 ∧ blockRegRead s 0x14 = s.arg1 ∧ blockRegRead s 0x18 = s.arg2 ∧
    blockRegRead s 0x1C = s.arg3 ∧ blockRegRead s 0x20 = s.res0 ∧ blockRegRead s 0x24 = s.res1 ∧
    blockRegRead s 0x28 = s.res2 ∧
    (∀ off : BitVec 8, off ∈ [0x0C#8, 0x2C#8, 0x44#8, 0x54#8] ∨ 0x58 ≤ off.toNat →
      blockRegRead s off.toNat = 0#32) ∧
    (∀ off : BitVec 8, off ∈ [0x00#8, 0x08#8, 0x20#8, 0x24#8, 0x28#8, 0x2C#8, 0x38#8, 0x3C#8, 0x40#8, 0x48#8,
        0x4C#8, 0x50#8] ∨ 0x58 ≤ off.toNat → blockRegWrite s off.toNat v = s) ∧
    (∀ off : BitVec 8, off.toNat % 4 = 0 →
      hostMove (.blockRead off 4) s = .ok { s with hostData := blockRegRead s off.toNat } ∧
      hostMove (.blockWrite off 4 v) s = .ok (blockRegWrite s off.toNat v))

/-- 10_state.md R29, R35, 43_done_queue.md R362, 60_exceptions.md R455: the completion FIFO as the host reads and
pops it; posting a record appends it and sets `COMP_AVAIL`, and where the FIFO is full logs `F_COMP_OVERFLOW`
instead, the record lost. -/
def Obligations.CompletionPort : Prop :=
  ∀ s : State,
    (s.compq = [] → blockRegRead s 0x3C = 0#32 ∧ blockRegRead s 0x40 = 0#32) ∧
    (∀ c rest, s.compq = c :: rest → c.td < 65536 → c.ed < 256 →
      (blockRegRead s 0x3C).getLsbD 31 = true ∧ (blockRegRead s 0x3C).extractLsb' 28 3 = 0#3 ∧
      (blockRegRead s 0x3C).extractLsb' 24 4 = c.cc ∧
      ((blockRegRead s 0x3C).extractLsb' 8 16).toNat = c.td ∧
      ((blockRegRead s 0x3C).extractLsb' 0 8).toNat = c.ed ∧ blockRegRead s 0x40 = c.key) ∧
    (∀ off ∈ [0x38#8, 0x3C#8, 0x40#8],
      hostMove (.blockRead off 4) s = .ok { s with hostData := blockRegRead s off.toNat }) ∧
    (∀ v, blockRegWrite s 0x44 v = { s with compq := s.compq.drop 1 }) ∧
    blockRegRead s 0x38 = BitVec.ofNat 32 s.compq.length ∧
    (∀ (n : Tally) (e g : Nat) (cc : BitVec 4),
      (s.compq.length < s.params.ntd → post n e g cc s = .ok { n with posted := n.posted + 1 }
        { s with
          compq := s.compq ++ [{ ed := e, td := g, cc := cc, key := (s.ed e).key }], isr := s.isr ||| 0x2#4 }) ∧
      (s.params.ntd ≤ s.compq.length → post n e g cc s = .ok { n with faults := n.faults + 1 }
        (s.logFault .compOverflow (BitVec.ofNat 32 (e * 65536 + g)))))

/-- 10_state.md R36, 60_exceptions.md R455, R456: a fault is counted (saturating), latched, and logged where there is
room, else lost with `FAULT_OVF` set; the host reads the oldest record, with the number of its code, and pops
it. -/
def Obligations.FaultLog : Prop :=
  (∀ (s : State) (code : FaultCode) (info : Word),
    let u := s.logFault code info
    u = { s with faultCount := u.faultCount, isr := s.isr ||| 0x4#4, flog := u.flog, faultOvf := u.faultOvf } ∧
    u.faultCount.toNat = min (s.faultCount.toNat + 1) 0xFFFFFFFF ∧
    (s.flog.length < s.params.faultDepth → u.flog = s.flog ++ [⟨code, info⟩] ∧ u.faultOvf = s.faultOvf) ∧
    (s.params.faultDepth ≤ s.flog.length → u.flog = s.flog ∧ u.faultOvf = true)) ∧
  (∀ s : State,
    (s.flog = [] → blockRegRead s 0x4C = 0#32 ∧ blockRegRead s 0x50 = 0#32) ∧
    (∀ f rest, s.flog = f :: rest →
      (blockRegRead s 0x4C).getLsbD 31 = true ∧ (blockRegRead s 0x4C).extractLsb' 8 23 = 0#23 ∧
      (∀ p ∈ [(FaultCode.indexRange, 0x01#8), (.unresolved, 0x02#8), (.order, 0x03#8), (.notFinished, 0x04#8),
          (.tdNotFound, 0x05#8), (.doneLoop, 0x06#8), (.compOverflow, 0x07#8), (.duplicate, 0x08#8)],
        f.code = p.1 → (blockRegRead s 0x4C).extractLsb' 0 8 = p.2) ∧
      blockRegRead s 0x50 = f.info) ∧
    (∀ v, blockRegWrite s 0x54 v = { s with flog := s.flog.drop 1 }) ∧
    blockRegRead s 0x48 = s.faultCount)

/-- 20_memory.md R76: a host access to the block's registers that is not an aligned 32-bit access has no
next state, whatever the block is doing; where it comes next, the machine stops. -/
def Obligations.NarrowHostAccessIsStuck : Prop :=
  ∀ (s : State) (off : BitVec 8) (size : Nat) (v : Word) (ms : List Move),
    (off.toNat % 4 ≠ 0 ∨ size ≠ 4) →
    hostMove (.blockRead off size) s = .error .hostAccess ∧
    hostMove (.blockWrite off size v) s = .error .hostAccess ∧
    ((s.sched = .host (.blockRead off size) :: ms ∨ s.sched = .host (.blockWrite off size v) :: ms) →
      (s.seq = .idle → step s = .fault .hostAccess ∧ ∀ i, exec i s = .fault .hostAccess) ∧
      (∀ run e f0 r k, s.seq = .wait run e f0 r k → step s = .fault .hostAccess))

/-! ### Cache and HC -/

/-- 20_memory.md R100 to R102: with `COHERENT = 1` there is no cache; else a write through the cache changes no
memory, is read back, and changes no other word the block reads; a read of an absent line is memory's and
leaves it present and clean, holding memory's bytes; a present line is read as it is, not refilled, whatever
memory holds (the fill of a line is one event: the model's choice, log 12). -/
def Obligations.CacheAccesses : Prop :=
  (∀ (s : State) (a v : Word) (b : Nat) (m : CacheMove), s.params.coherent = true →
    s.cacheLoad a = s.physRead a ∧ s.touch a.toNat = s ∧ s.cacheStore a v = s.physWrite a v ∧
    s.flushLine b = s ∧ s.invalLine b = s ∧ cacheMove m s = s) ∧
  (∀ (s : State) (a b v : Word), s.params.legal = true → s.params.coherent = false →
    a.toNat % 4 = 0 → b.toNat % 4 = 0 →
    (s.cacheStore a v).mem = s.mem ∧ (s.cacheStore a v).cacheLoad a = v ∧
    (b ≠ a → (s.cacheStore a v).cacheLoad b = s.cacheLoad b) ∧
    (tableFind (lineBase s.params a.toNat) s.cache = none → s.cacheLoad a = s.physRead a)) ∧
  (∀ (s : State) (a : Word), s.params.legal = true → s.params.coherent = false → a.toNat % 4 = 0 →
    let base := a.toNat / s.params.cacheLine * s.params.cacheLine
    s.touch a.toNat = { s with cache := (s.touch a.toNat).cache } ∧
    (∀ x, x ≠ base → tableFind x (s.touch a.toNat).cache = tableFind x s.cache) ∧
    (∀ l, tableFind base s.cache = some l →
      tableFind base (s.touch a.toNat).cache = some l ∧ s.cacheLoad a = load32 l.data a.toNat) ∧
    (tableFind base s.cache = none → ∃ l, tableFind base (s.touch a.toNat).cache = some l ∧ l.dirty = false ∧
      ∀ x, base ≤ x → x < base + s.params.cacheLine → loadByte l.data x = loadByte s.mem x))

/-- 20_memory.md R121 to R126, the HC's steps. A frame step counts the frame, publishes the number, starts the
periodic list of the frame, and writes the done list back where the draw says so and `WDH` is 0. A control or
bulk position that is 0 restarts from its head register while its list is enabled, and a serve begins at a
nonzero position of an enabled list alone. With no other agent's move between its events, a serve of a skipped,
halted or empty ED moves the position on and changes nothing else; any other reads the TD at `HeadP` and ends
without progress, with the words of a partial progress, or with those of a retirement, and then moves on by
the `NextED` it reads. The model's choices: the frame step is one move (log 14), the order of a serve's reads
(log 15), and that the draws of a retirement are free of the TD's `R` (log 39). -/
def Obligations.FrameStep : Prop :=
  (∀ (s : State) (wb : Option Bool), s.params.legal = true →
    let u := hcMove (.frame wb) s
    let fn := s.hc.fmNumber + 1#16
    let hcca := s.params.hccaBase
    (s.hc.serve ≠ none → u = s) ∧
    (s.hc.serve = none →
      u = { s with
        mem := u.mem
        hc := { s.hc with
          fmNumber := fn
          ppos := ptrOf (s.physRead (tableAddr s.params (fn.toNat % 32)))
          dq := u.hc.dq
          interruptStatus := u.hc.interruptStatus } } ∧
      loadByte u.mem (hcca + 0x80) = fn.extractLsb' 0 8 ∧
      loadByte u.mem (hcca + 0x81) = fn.extractLsb' 8 8 ∧
      (∀ x, ¬ (hcca + 0x80 ≤ x ∧ x < hcca + 0x82) → ¬ (hcca + 0x84 ≤ x ∧ x < hcca + 0x88) →
        loadByte u.mem x = loadByte s.mem x) ∧
      (∀ b, wb = some b → s.hc.dq ≠ 0#32 → s.hc.wdh = false →
        u.physRead (doneHeadAddr s.params) = s.hc.dq ||| (BitVec.ofBool b).setWidth 32 ∧
        u.hc.dq = 0#32 ∧ u.hc.interruptStatus = s.hc.interruptStatus ||| 0x2#32) ∧
      ((wb = none ∨ s.hc.dq = 0#32 ∨ s.hc.wdh = true) →
        u.physRead (doneHeadAddr s.params) = s.physRead (doneHeadAddr s.params) ∧
        u.hc.dq = s.hc.dq ∧ u.hc.interruptStatus = s.hc.interruptStatus))) ∧
  (∀ s : State,
    hcMove (.restart false) s = (if s.hc.cpos = 0#32 ∧ s.hc.control.getLsbD 4 = true then
      { s with hc := { s.hc with cpos := s.hc.controlHead } } else s) ∧
    hcMove (.restart true) s = (if s.hc.bpos = 0#32 ∧ s.hc.control.getLsbD 5 = true then
      { s with hc := { s.hc with bpos := s.hc.bulkHead } } else s)) ∧
  (∀ (s : State) (p : Pos), s.hc.serve = none →
    let ed := match p with
      | .periodic => s.hc.ppos
      | .control => s.hc.cpos
      | .bulk => s.hc.bpos
    let enabled := match p with
      | .periodic => s.hc.control.getLsbD 2
      | .control => s.hc.control.getLsbD 4
      | .bulk => s.hc.control.getLsbD 5
    let moved := fun (a : Word) => match p with
      | .periodic => { s.hc with ppos := a }
      | .control => { s.hc with cpos := a }
      | .bulk => { s.hc with bpos := a }
    let ctl := s.physRead ed
    let h := s.physRead (ed + 8#32)
    let idle := h.getLsbD 0 = true ∨ ptrOf h = ptrOf (s.physRead (ed + 4#32))
    let td := ptrOf h
    let old := s.physRead td
    let cbp := s.physRead (td + 4#32)
    let be := s.physRead (td + 12#32)
    let begun := HcMove.serve p :: List.replicate 6 .event
    let inside := fun (a : Word) => cbp ≠ 0#32 ∧ cbp.toNat ≤ a.toNat ∧ a.toNat ≤ be.toNat
    let ends := fun (m : List Host.Cell) (dq : Word) =>
      { s with mem := m, hc := { moved (ptrOf (load32 m (ed + 12#32).toNat)) with dq := dq } }
    ((ed = 0#32 ∨ enabled = false) → hcMove (.serve p) s = s) ∧
    (ed ≠ 0#32 → enabled = true →
      (ctl.getLsbD 14 = true → hcMoves [.serve p, .event] s = ends s.mem s.hc.dq) ∧
      (ctl.getLsbD 14 = false → idle → hcMoves [.serve p, .event, .event, .event] s = ends s.mem s.hc.dq) ∧
      (ctl.getLsbD 14 = false → ¬ idle →
        hcMoves (begun ++ [.noProgress, .event]) s = ends s.mem s.hc.dq ∧
        (∀ a, inside a → a ≠ cbp →
          hcMoves (begun ++ [.progress a none, .event]) s = ends (store32 s.mem (td + 4#32).toNat a) s.hc.dq ∧
          ∀ t ec, hcMoves (begun ++ [.progress a (some (t, ec)), .event, .event]) s =
            ends (store32 (store32 s.mem (td + 4#32).toNat a) td.toNat
              (old.extractLsb' 28 4 ++ ec ++ t ++ old.extractLsb' 0 24)) s.hc.dq) ∧
        (∀ cc t ec a carry, a = 0#32 ∨ inside a →
          let nx := s.physRead (td + 8#32)
          let m1 := store32 s.mem td.toNat (cc ++ ec ++ t ++ old.extractLsb' 0 24)
          let m2 := store32 m1 (td + 4#32).toNat a
          let m3 := store32 m2 (td + 8#32).toNat s.hc.dq
          let m4 := store32 m3 (ed + 8#32).toNat
            (nx.extractLsb' 4 28 ++ 0#2 ++ BitVec.ofBool carry ++ BitVec.ofBool (cc != 0#4))
          hcMoves (begun ++ [.retire cc t ec a carry, .event, .event, .event, .event]) s = ends m4 td))))

/-- 20_memory.md R120, R126, R127: an HC step leaves every register and table of the block, the cache, and the HC
registers that are not its own to write as they were; it clears no bit of `HcInterruptStatus`. Of memory it
changes only the HCCA beyond the interrupt table (while `WDH = 1` not `HccaDoneHead` either), and, while it
processes a TD, the first three words of that TD, the `HeadP` of the ED it serves, and the TD's IN buffer outside
the descriptor regions and the HCCA: never a control word, `TailP` or `NextED` of an ED, nor the interrupt table.
What it may write beside descriptors is as logs 25 and 45 read the rules. -/
def Obligations.HcLeavesTheBlockAlone : Prop :=
  ∀ (m : HcMove) (s : State),
    let u := hcMove m s
    u = { s with mem := u.mem, hc := u.hc } ∧ u.hc.control = s.hc.control ∧
    u.hc.commandStatus = s.hc.commandStatus ∧ u.hc.controlHead = s.hc.controlHead ∧
    u.hc.bulkHead = s.hc.bulkHead ∧ u.hc.hcca = s.hc.hcca ∧ u.hc.others = s.hc.others ∧
    (∀ k, s.hc.interruptStatus.getLsbD k = true → u.hc.interruptStatus.getLsbD k = true) ∧
    (s.params.legal = true → ∀ x, loadByte u.mem x ≠ loadByte s.mem x →
      (s.params.hccaBase + 0x80 ≤ x ∧ x < s.params.hccaBase + 0x100 ∧
        (s.hc.interruptStatus.getLsbD 1 = true →
          ¬ (s.params.hccaBase + 0x84 ≤ x ∧ x < s.params.hccaBase + 0x88))) ∨
      ∃ v d, s.hc.serve = some v ∧ v.phase.view = some d ∧
        (((ptrOf d.head).toNat ≤ x ∧ x < (ptrOf d.head).toNat + 12) ∨ inWord (v.ed + 8#32) x = true ∨
          (d.cbp ≠ 0#32 ∧ d.cbp.toNat ≤ x ∧ x ≤ d.be.toNat ∧
            (v.control.extractLsb' 11 2 = 2#2 ∨
              (v.control.extractLsb' 11 2 ≠ 1#2 ∧ d.control.extractLsb' 19 2 = 2#2)) ∧
            ¬ (s.params.descBase ≤ x ∧ x < s.params.descBase + s.params.stride * (s.params.ned + 1)) ∧
            ¬ (s.params.tdBase ≤ x ∧ x < s.params.tdBase + s.params.stride * s.params.ntd) ∧
            ¬ (s.params.hccaBase ≤ x ∧ x < s.params.hccaBase + 0x100))))

/-! ### The commands that change no memory -/

/-- 44_coherence.md R405: `NOP` ends, its results 0, and changes nothing else. -/
def Obligations.NopCompletes : Prop :=
  ∀ (ctx : Ctx) (s : State), s.quiet → exec (.nop ctx) s = .next (s.taken.endedOk 0 0 0)

/-- 42_transfer.md R315, R316: `CC_CLASSIFY` answers the class of the code, and changes nothing else. -/
def Obligations.CcClassifyCompletes : Prop :=
  ∀ (ctx : Ctx) (cc : BitVec 4) (s : State), s.quiet →
    ∃ v : Nat, exec (.ccClassify ctx cc) s = .next (s.taken.endedOk (BitVec.ofNat 32 v) 0 0) ∧
      (cc ∈ [0x0#4, 0x9#4, 0xF#4] → v = 0) ∧
      (cc ∈ [0x1#4, 0x2#4, 0x3#4, 0x5#4, 0x6#4, 0x7#4, 0xC#4, 0xD#4] → v = 1) ∧
      (cc = 0x8#4 → v = 2) ∧ (cc = 0x4#4 → v = 3) ∧ (cc ∈ [0xA#4, 0xB#4, 0xE#4] → v = 4)

/-- 41_scheduler.md R262: `SCHED_BITPOS`, the table indices its node serves, its error, and its corner
cases. -/
def Obligations.SchedBitposCompletes : Prop :=
  (∀ (ctx : Ctx) (d n : Nat) (s : State), s.quiet →
    (d ≤ 5 → n < 2 ^ (5 - d) →
      exec (.schedBitpos ctx d n) s = .next (s.taken.endedOk
        (BitVec.ofNat 32 (bitrev (5 - d) n * 2 ^ d))
        (BitVec.ofNat 32 ([0, 32, 48, 56, 60, 62].getD d 0 + bitrev (5 - d) n)) (BitVec.ofNat 32 (2 ^ d)))) ∧
    (5 < d ∨ 2 ^ (5 - d) ≤ n → exec (.schedBitpos ctx d n) s = .next (s.taken.ended .badArg))) ∧
  (∀ d ≤ 5, ∀ n < 2 ^ (5 - d), ∀ i < 32, (bitrev 5 i / 2 ^ d = bitrev (5 - d) n ↔ i % 2 ^ (5 - d) = n)) ∧
  (∀ d n, d < 5 → n < 2 ^ (4 - d) → bitrev (5 - d) (n + 2 ^ (4 - d)) = bitrev (5 - d) n + 1)

/-- 41_scheduler.md R263: `SCHED_IDEPTH` answers depth and rounded interval, and changes nothing else. -/
def Obligations.SchedIdepthCompletes : Prop :=
  ∀ (ctx : Ctx) (iv : Nat) (s : State), s.quiet →
    exec (.schedIdepth ctx iv) s = .next (s.taken.endedOk
      (BitVec.ofNat 32 (idepth s.params.intervalRound iv).2)
      (BitVec.ofNat 32 (idepth s.params.intervalRound iv).1) 0)

/-- 41_scheduler.md R254, R264: `SCHED_LOAD` answers the branch load where it fits the register (log 8 for
the rest), refuses an index above 31, and changes nothing else. -/
def Obligations.SchedLoadCompletes : Prop :=
  ∀ (ctx : Ctx) (i : Nat) (s : State), s.quiet → s.started = true →
    let load := ((List.range 6).map (fun d =>
      ((s.list (nodeBase d + bitrev 5 i / 2 ^ d)).map (fun e => (s.ed e).bw)).sum)).sum
    (i ≤ 31 → ∃ r n, exec (.schedLoad ctx i) s = .next { s.taken.endedOk r 0 0 with draws := n } ∧
      (load < 2 ^ 32 → r = BitVec.ofNat 32 load ∧ n = s.draws)) ∧
    (31 < i → exec (.schedLoad ctx i) s = .next (s.taken.ended .badArg))

/-! ### The scheduler's functions -/

/-- 41_scheduler.md R253: the rounded interval and its depth. -/
def Obligations.IntervalDepth : Prop :=
  ∀ (round : IntervalRound) (iv : Nat),
    let v := max iv 1
    let r := idepth round iv
    r.2 ≤ 5 ∧ r.1 = 2 ^ (5 - r.2) ∧ (32 ≤ v → r.1 = 32) ∧
    (v < 32 → ∃ lo k, lo = 2 ^ k ∧ lo ≤ v ∧ v < 2 * lo ∧
      r.1 = match round with
        | .floor => lo
        | .nearest => if v - lo ≤ 2 * lo - v then lo else 2 * lo)

/-- 41_scheduler.md R251, R261: `bitrev_k` reverses the `k` low bits and is its own inverse; the table indices
of a node are those congruent to its natural index. -/
def Obligations.BitReversal : Prop :=
  (∀ k n, n < 2 ^ k →
    bitrev k n < 2 ^ k ∧ bitrev k (bitrev k n) = n ∧
    ∀ j < k, (bitrev k n).testBit j = n.testBit (k - 1 - j)) ∧
  (∀ d ≤ 5, ∀ g < 2 ^ (5 - d), ∀ i < 32,
    (bitrev 5 i / 2 ^ d = g ↔ i % 2 ^ (5 - d) = bitrev (5 - d) g))

/-- 41_scheduler.md R255: the search answers the first of the groups whose worst branch load is lowest, and
rejects exactly when the bandwidth does not fit beside that load. -/
def Obligations.PlacementSearch : Prop :=
  ∀ (s : State) (x : Nat), (s.ed x).depth ≤ 5 →
    let d := (s.ed x).depth
    let fits := fun w => (s.ed x).bw + w ≤ perSpeed s.params.maxPeriodicBw (s.ed x).speed
    let worstIs := fun g w =>
      (∀ p, g * 2 ^ d ≤ p → p < (g + 1) * 2 ^ d → s.load (bitrev 5 p) ≤ w) ∧
      (∃ p, g * 2 ^ d ≤ p ∧ p < (g + 1) * 2 ^ d ∧ s.load (bitrev 5 p) = w)
    (∀ g, s.placementGroup x = some g → g < 2 ^ (5 - d) ∧ ∃ w, worstIs g w ∧ fits w ∧
      (∀ g' w', g' < 2 ^ (5 - d) → worstIs g' w' → w ≤ w' ∧ (g' < g → w < w'))) ∧
    (s.placementGroup x = none → ∀ g w, g < 2 ^ (5 - d) → worstIs g w → ¬ fits w)

/-! ### SCHED_START -/

/-- 41_scheduler.md R250, R258, R265: `SCHED_START` writes the dummy ED and every table entry, publishes them, sets
`STARTED`, and changes no byte outside the lines it flushes; where no endpoint is open this is the canonical
tree. -/
def Obligations.SchedStartCompletes : Prop :=
  ∀ (ctx : Ctx) (s : State), s.quiet → s.params.legal = true → s.started = false →
    let p := s.params
    ∃ u : State, exec (.schedStart ctx) s = .next u ∧
      u = { s.taken.endedOk 0 0 0 with started := true, mem := u.mem, cache := u.cache } ∧
      u.physRead (dummyEd p) = 0x4000#32 ∧ u.physRead (dummyEd p + 4#32) = 0#32 ∧
      u.physRead (dummyEd p + 8#32) = 0#32 ∧ u.physRead (dummyEd p + 12#32) = 0#32 ∧
      (∀ i < 32, u.physRead (tableAddr p i) = dummyEd p) ∧ u.tableSeen = true ∧
      ((∀ k, s.list k = []) → u.treeLayout = true) ∧
      (∀ x, inLines p (dummyEd p).toNat 16 x = false → inLines p p.hccaBase 128 x = false →
        loadByte u.mem x = loadByte s.mem x)

/-! ### ED_OPEN -/

/-- 40_endpoint.md R200, R202, R203: an open refused before any allocation changes nothing: a reserved bit of
`ARG2` [31:8] or of the template ([15:14], [31:29]) set, else the isochronous type, else no free slot. -/
def Obligations.EdOpenRefused : Prop :=
  ∀ (ctx : Ctx) (s : State), s.quiet → s.started = true →
    let reserved := s.arg2.extractLsb' 8 24 ≠ 0#24 ∨ s.arg1.extractLsb' 14 2 ≠ 0#2 ∨ s.arg1.extractLsb' 29 3 ≠ 0#3
    (reserved → exec (.edOpen ctx) s = .next (s.taken.ended .badArg)) ∧
    (¬ reserved → s.arg1.extractLsb' 27 2 = 1#2 → exec (.edOpen ctx) s = .next (s.taken.ended .isochronous)) ∧
    (¬ reserved → s.arg1.extractLsb' 27 2 ≠ 1#2 →
      ((∀ e < s.params.ned, (s.ed e).alloc = true) ∨ (∀ t < s.params.ntd, (s.td t).alloc = true)) →
      exec (.edOpen ctx) s = .next (s.taken.ended .noMem))

/-- 40_endpoint.md R200, R212: opening a control or bulk endpoint allocates the lowest free slots, builds
ED and placeholder in memory, appends the endpoint to its class list and links it last, after the last
endpoint or in `HcControlHeadED` or `HcBulkHeadED`; nothing else changes. That the interval, depth and bandwidth
fields of such an endpoint hold 0 is the model's choice: R30 has them for interrupt endpoints only (log 7). -/
def Obligations.EdOpenClassCompletes : Prop :=
  ∀ (ctx : Ctx) (s : State) (ty : EdType) (k e t : Nat), s.quiet → s.params.legal = true →
    s.started = true → s.placed →
    s.arg2.extractLsb' 8 24 = 0#24 → s.arg1.extractLsb' 14 2 = 0#2 → s.arg1.extractLsb' 29 3 = 0#3 →
    (s.arg1.extractLsb' 27 2 = 0#2 ∧ ty = .control ∧ k = 63 ∨ s.arg1.extractLsb' 27 2 = 2#2 ∧ ty = .bulk ∧ k = 64) →
    s.allocEd = some e → s.allocTd = some t →
    let p := s.params
    ∃ u : State, exec (.edOpen ctx) s = .next u ∧
      u = { s.taken.endedOk (BitVec.ofNat 32 e) (BitVec.ofNat 32 k) 0 with
        edt := u.edt, tdt := u.tdt, place := u.place, mem := u.mem, cache := u.cache, hc := u.hc } ∧
      (∀ x, u.ed x = if x = e then
        { alloc := true, key := s.arg0, type := ty, speed := if s.arg1.getLsbD 13 then .low else .full
          interval := 0, depth := 0, bw := 0, slot := k, head := t, tail := t }
        else s.ed x) ∧
      (∀ x, u.td x = if x = t then { alloc := true, owner := e } else s.td x) ∧
      (∀ x, u.list x = if x = k then s.list k ++ [e] else s.list x) ∧
      u.hc = (if s.list k = [] then
        (match ty with
        | .control => { s.hc with controlHead := edAddr p e }
        | .bulk => { s.hc with bulkHead := edAddr p e }
        | .interrupt => s.hc)
        else s.hc) ∧
      (s.queuesOk → u.hardwareAgrees e [] []) ∧
      u.physRead (edControlAddr p e) = s.arg1 ∧ u.physRead (edTailAddr p e) = tdAddr p t ∧
      u.physRead (edHeadAddr p e) = tdAddr p t ∧ u.physRead (edNextAddr p e) = 0#32 ∧
      u.physRead (tdAddr p t) = 0#32 ∧ u.physRead (tdAddr p t + 4#32) = 0#32 ∧
      u.physRead (tdAddr p t + 8#32) = 0#32 ∧ u.physRead (tdAddr p t + 12#32) = 0#32 ∧
      (∀ last, (s.list k).getLast? = some last → u.physRead (edNextAddr p last) = edAddr p e) ∧
      (∀ x, inLines p (edAddr p e).toNat 16 x = false → inLines p (tdAddr p t).toNat 16 x = false →
        (∀ last, (s.list k).getLast? = some last → inWord (edNextAddr p last) x = false) →
        loadByte u.mem x = loadByte s.mem x)

/-- 40_endpoint.md R200, 41_scheduler.md R254 to R256, R266: opening an interrupt endpoint whose bandwidth
fits somewhere puts it at the end of the first group of lowest worst load, with its bandwidth within the
budget; the HC's registers stay, and memory changes only in the slots built, in next pointers of endpoints
and in the interrupt table. `RES2` of a bandwidth that fits no register is a free value (the model's, log 8). -/
def Obligations.EdOpenInterruptCompletes : Prop :=
  ∀ (ctx : Ctx) (s : State) (e t : Nat), s.quiet → s.params.legal = true → s.started = true → s.placed →
    s.arg2.extractLsb' 8 24 = 0#24 → s.arg1.extractLsb' 14 2 = 0#2 → s.arg1.extractLsb' 29 3 = 0#3 →
    s.arg1.extractLsb' 27 2 = 3#2 →
    s.allocEd = some e → s.allocTd = some t →
    let p := s.params
    let sp : Speed := if s.arg1.getLsbD 13 then .low else .full
    let d := (idepth p.intervalRound (s.arg2.extractLsb' 0 8).toNat).2
    let bw := (s.arg1.extractLsb' 16 11).toNat + perSpeed p.overheadInterrupt sp
    (∃ g < 2 ^ (5 - d), bw + s.groupWorst d g ≤ perSpeed p.maxPeriodicBw sp) →
    ∃ (u : State) (g : Nat), exec (.edOpen ctx) s = .next u ∧ g < 2 ^ (5 - d) ∧
      bw + s.groupWorst d g ≤ perSpeed p.maxPeriodicBw sp ∧
      (∀ g' < 2 ^ (5 - d), s.groupWorst d g ≤ s.groupWorst d g') ∧
      (∀ g' < g, s.groupWorst d g < s.groupWorst d g') ∧
      u = { s.taken.endedOk (BitVec.ofNat 32 e) (BitVec.ofNat 32 (node d g)) u.res2 with
        edt := u.edt, tdt := u.tdt, place := u.place, mem := u.mem, cache := u.cache, draws := u.draws } ∧
      (bw < 2 ^ 32 → u.res2 = BitVec.ofNat 32 bw ∧ u.draws = s.draws) ∧
      (∀ x, u.ed x = if x = e then
        { alloc := true, key := s.arg0, type := .interrupt, speed := sp, interval := 2 ^ (5 - d), depth := d
          bw := bw, slot := node d g, head := t, tail := t }
        else s.ed x) ∧
      (∀ x, u.td x = if x = t then { alloc := true, owner := e } else s.td x) ∧
      (∀ x, u.list x = if x = node d g then s.list x ++ [e] else s.list x) ∧
      u.physRead (edControlAddr p e) = s.arg1 ∧ u.physRead (edTailAddr p e) = tdAddr p t ∧
      u.physRead (edHeadAddr p e) = tdAddr p t ∧
      u.physRead (edNextAddr p e) = edPointer p (s.hop (g * 2 ^ d) (d + 1)) ∧
      (s.queuesOk → u.hardwareAgrees e [] []) ∧
      u.physRead (tdAddr p t) = 0#32 ∧ u.physRead (tdAddr p t + 4#32) = 0#32 ∧
      u.physRead (tdAddr p t + 8#32) = 0#32 ∧ u.physRead (tdAddr p t + 12#32) = 0#32 ∧
      (∀ x, inLines p (edAddr p e).toNat 16 x = false → inLines p (tdAddr p t).toNat 16 x = false →
        inLines p p.hccaBase 128 x = false → (∀ j < p.ned, inWord (edNextAddr p j) x = false) →
        loadByte u.mem x = loadByte s.mem x)

/-- 40_endpoint.md R203, 41_scheduler.md R255: where the bandwidth fits in no group the open ends with
`E_BANDWIDTH`, the two slots it took are free again, and of memory only those slots have been written. -/
def Obligations.EdOpenOverBudget : Prop :=
  ∀ (ctx : Ctx) (s : State) (e t : Nat), s.quiet → s.params.legal = true → s.started = true → s.placed →
    s.arg2.extractLsb' 8 24 = 0#24 → s.arg1.extractLsb' 14 2 = 0#2 → s.arg1.extractLsb' 29 3 = 0#3 →
    s.arg1.extractLsb' 27 2 = 3#2 →
    s.allocEd = some e → s.allocTd = some t →
    let p := s.params
    let sp : Speed := if s.arg1.getLsbD 13 then .low else .full
    let d := (idepth p.intervalRound (s.arg2.extractLsb' 0 8).toNat).2
    let bw := (s.arg1.extractLsb' 16 11).toNat + perSpeed p.overheadInterrupt sp
    (∀ g < 2 ^ (5 - d), perSpeed p.maxPeriodicBw sp < bw + s.groupWorst d g) →
    ∃ u : State, exec (.edOpen ctx) s = .next u ∧
      u = { s.taken.ended .bandwidth with
        edt := u.edt, tdt := u.tdt, idxValid := u.idxValid, mem := u.mem, cache := u.cache } ∧
      (u.ed e).alloc = false ∧ (∀ x, x ≠ e → u.ed x = s.ed x) ∧
      (u.td t).alloc = false ∧ (∀ x, x ≠ t → u.td x = s.td x) ∧
      u.indexed t = false ∧ (∀ x, x ≠ t → u.indexed x = s.indexed x) ∧
      (∀ x, inLines p (edAddr p e).toNat 16 x = false → inLines p (tdAddr p t).toNat 16 x = false →
        loadByte u.mem x = loadByte s.mem x)

/-! ### Quiesce -/

/-- 40_endpoint.md R205 to R207, 60_exceptions.md R463: `ED_QUIESCE` of a halted endpoint ends at once with
`RES0 = 1`, sets no skip bit and changes no byte of memory; of any other it ends with `RES0 = 0` at the poll
that finds the frame number changed, and a poll that finds it unchanged changes nothing. That a waiting block
polls once a step where no other agent moves is the model's choice (log 21). -/
def Obligations.EdQuiesceCompletes : Prop :=
  (∀ (e : Nat) (s : State), s.quiet → s.params.legal = true → s.started = true → s.validEd e = true →
    (s.physRead (edHeadAddr s.params e)).getLsbD 0 = true →
    ∃ k, exec (.edQuiesce .thread e) s = .next { s.taken.endedOk 1 0 0 with cache := k }) ∧
  (∀ (s : State) (run : Running) (w e r : Nat) (f0 : BitVec 16),
    s.seq = .wait run w f0 r (.quiesce e) → s.sched = [] →
    (s.hc.fmNumber ≠ f0 → step s = .next { s.endedOk 0 0 0 with seq := .idle }) ∧
    (s.hc.fmNumber = f0 → step s = .next s))

/-- 40_endpoint.md R206, R207: a blocking command on an endpoint that is not halted sets the skip bit in
memory, changes no other byte, and enters the frame wait with the frame number sampled and no timeout
counted; the command's results and its end are still to come. That the step ends here where no other agent
moves is the model's choice (log 21). -/
def Obligations.BlockingCommandsWait : Prop :=
  ∀ (i : Instr) (e : Nat) (k : Cont) (s : State), s.quiet → s.params.legal = true → s.started = true →
    s.validEd e = true →
    (i = .edQuiesce .thread e ∧ k = .quiesce e ∨ i = .edClose .thread e ∧ k = .close e ∨
      ∃ t, i = .xferAbort .thread e ∧ k = .abort e t ∧ s.arg0 = BitVec.ofNat 32 t ∧ t < s.params.ntd ∧
        (s.td t).alloc = true ∧ (s.td t).owner = e ∧ t ≠ (s.ed e).tail) →
    (s.physRead (edHeadAddr s.params e)).getLsbD 0 = false →
    let c := edControlAddr s.params e
    ∃ (u : State) (n : Nat), exec i s = .next u ∧
      u = { s.taken with
        mem := u.mem
        cache := u.cache
        seq := .wait { word := encode i, ctx := .thread, args := s.args, point := n } e s.hc.fmNumber 0 k } ∧
      u.physRead c = s.physRead c ||| 0x4000#32 ∧
      (∀ x, inWord c x = false → loadByte u.mem x = loadByte s.mem x)

/-- 40_endpoint.md R205, R207, R208: whatever blocking command waits, its third timeout ends it with
`E_QUIESCE_TIMEOUT`; nothing has been unlinked or freed. -/
def Obligations.ThirdTimeoutEnds : Prop :=
  ∀ (s : State) (run : Running) (e r : Nat) (f0 : BitVec 16) (k : Cont) (ms : List Move),
    s.seq = .wait run e f0 r k → r < 3 → s.sched = List.replicate (3 - r) .timer ++ ms →
    step s = .next { s.ended .quiesceTimeout with seq := .idle, sched := ms }

/-! ### ED_CLOSE -/

/-- 40_endpoint.md R208 to R211, R214, 41_scheduler.md R259: closing an endpoint, at once where it is halted
and after the frame wait otherwise, unlinks it from its list, frees every TD of its queue and then the
endpoint, and answers how many TDs it freed; the freed descriptors keep their memory, and memory changes
only in next pointers of other endpoints and, for an interrupt endpoint, in the interrupt table. -/
def Obligations.EdCloseCompletes : Prop :=
  ∀ (e : Nat) (q : List Nat) (s : State), s.params.legal = true → s.placed → s.slotsSuit →
    s.validEd e = true → s.queueIs e q → s.sched = [] →
    let p := s.params
    let k := (s.ed e).slot
    let freed := q ++ [(s.ed e).tail]
    let isInt := (s.ed e).type = .interrupt
    let closed := fun (b u : State) =>
      u = { b.endedOk (BitVec.ofNat 32 freed.length) 0 0 with
        seq := .idle, edt := u.edt, tdt := u.tdt, idxValid := u.idxValid, place := u.place, mem := u.mem
        cache := u.cache, hc := u.hc } ∧
      (∀ x, u.ed x = if x = e then { s.ed e with alloc := false } else s.ed x) ∧
      (∀ x, u.td x = if x ∈ freed then { s.td x with alloc := false } else s.td x) ∧
      (∀ x, u.indexed x = if x ∈ freed then false else s.indexed x) ∧
      (∀ x, u.list x = if x = k then (s.list k).erase e else s.list x) ∧
      (isInt → u.hc = s.hc) ∧
      (¬ isInt → (s.list k).head? = some e →
        u.hc = (match (s.ed e).type with
          | .control => { s.hc with controlHead := edPointer p (s.list k)[1]? }
          | .bulk => { s.hc with bulkHead := edPointer p (s.list k)[1]? }
          | .interrupt => s.hc) ∧
        ∀ x, loadByte u.mem x = loadByte s.mem x) ∧
      (¬ isInt → (s.list k).head? ≠ some e → u.hc = s.hc) ∧
      (∀ i, (s.list k)[i + 1]? = some e → ∀ b, (s.list k)[i]? = some b →
        u.physRead (edNextAddr p b) = edPointer p ((s.list k)[i + 2]?.or
          (if isInt then s.hop ((k - nodeBase (s.ed e).depth) * 2 ^ (s.ed e).depth) ((s.ed e).depth + 1) else none)) ∧
        ∀ x, inWord (edNextAddr p b) x = false → loadByte u.mem x = loadByte s.mem x) ∧
      (∀ x, inLines p p.hccaBase 128 x = false →
        (∀ j < p.ned, j ≠ e → inWord (edNextAddr p j) x = false) → loadByte u.mem x = loadByte s.mem x)
    (s.seq = .idle → s.started = true → (s.physRead (edHeadAddr p e)).getLsbD 0 = true →
      ∃ u, exec (.edClose .thread e) s = .next u ∧ closed s.taken u) ∧
    (∀ run w f0 r, s.seq = .wait run w f0 r (.close e) → s.hc.fmNumber ≠ f0 →
      ∃ u, step s = .next u ∧ closed s u)

/-- 41_scheduler.md R256 to R260, 10_state.md R42 (f): the canonical layout of the tree in memory is kept by
opening an interrupt endpoint and by closing one, at once or at the end of its frame wait, where the block sees
the interrupt table as memory holds it and no ED lies at address 0, which a pointer could not tell from the
end of a list; and it is kept, with all of `State.treeReady`, by every step of the started machine, whichever
commands the host writes, while no other agent moves and no done list waits. -/
def Obligations.TreeLayoutKept : Prop :=
  (∀ s u : State, s.treeReady → step s = .next u → u.treeReady) ∧
  (∀ s u : State, s.sched = [] → s.params.legal = true → s.placed → s.slotsSuit →
    0 < s.params.descBase → s.tableSeen = true → s.treeLayout = true →
    (s.seq = .idle ∧ (∃ i, ((∃ ctx, i = .edOpen ctx) ∨ ∃ ctx e, i = .edClose ctx e) ∧ exec i s = .next u) ∨
      (∃ run w f0 r e, s.seq = .wait run w f0 r (.close e) ∧ s.validEd e = true) ∧ step s = .next u) →
    u.treeLayout = true ∧ u.tableSeen = true)

/-- 40_endpoint.md R212 to R214, 10_state.md R42 (f): opening an endpoint, and closing one at once or at the end of
its frame wait, keeps the canonical layout of the control list, headed by `HcControlHeadED`, and of the bulk
list, headed by `HcBulkHeadED`; these registers lie at 0x20 and 0x28. -/
def Obligations.ClassLayoutKept : Prop :=
  ∀ (k : Nat) (s u : State), s.sched = [] → s.params.legal = true → s.placed → s.slotsSuit →
    (k = 63 ∨ k = 64) → s.classLayout k = true →
    (s.seq = .idle ∧ (∃ i, ((∃ ctx, i = .edOpen ctx) ∨ ∃ ctx e, i = .edClose ctx e) ∧ exec i s = .next u) ∨
      (∃ run w f0 r e, s.seq = .wait run w f0 r (.close e) ∧ s.validEd e = true) ∧ step s = .next u) →
    u.classLayout k = true ∧
    hcRegRead u.hc (if k = 63 then 0x20 else 0x28) = edPointer u.params (u.list k).head?

/-! ### Suspend, resume, clear halt -/

/-- 40_endpoint.md R215: `ED_SUSPEND` sets the skip bit in memory and changes no other byte. -/
def Obligations.EdSuspendCompletes : Prop :=
  ∀ (ctx : Ctx) (e : Nat) (s : State), s.quiet → s.params.legal = true → s.started = true →
    s.validEd e = true →
    let c := edControlAddr s.params e
    ∃ m k, exec (.edSuspend ctx e) s = .next { s.taken.endedOk 0 0 0 with mem := m, cache := k } ∧
      load32 m c.toNat = s.physRead c ||| 0x4000#32 ∧
      ∀ x, inWord c x = false → loadByte m x = loadByte s.mem x

/-- 40_endpoint.md R216: `ED_RESUME` clears the skip bit in memory, changes no other byte, and sets `CLF` for
a control endpoint, `BLF` for a bulk one. -/
def Obligations.EdResumeCompletes : Prop :=
  ∀ (ctx : Ctx) (e : Nat) (s : State), s.quiet → s.params.legal = true → s.started = true →
    s.validEd e = true →
    let c := edControlAddr s.params e
    ∃ m k, exec (.edResume ctx e) s = .next
        { s.taken.endedOk 0 0 0 with
          mem := m
          cache := k
          hc := { s.hc with commandStatus := s.hc.commandStatus ||| (match (s.ed e).type with
            | .control => 0x2#32
            | .bulk => 0x4#32
            | .interrupt => 0#32) } } ∧
      load32 m c.toNat = s.physRead c &&& ~~~0x4000#32 ∧
      ∀ x, inWord c x = false → loadByte m x = loadByte s.mem x

/-- 40_endpoint.md R217, R218: `ED_CLEAR_HALT` clears `H` and `K`, and `C` with `CLRTOG`, in memory, and
changes no other byte. -/
def Obligations.EdClearHaltCompletes : Prop :=
  ∀ (ctx : Ctx) (e : Nat) (clrtog : Bool) (s : State), s.quiet → s.params.legal = true →
    s.started = true → s.validEd e = true →
    let c := edControlAddr s.params e
    let h := edHeadAddr s.params e
    ∃ m k, exec (.edClearHalt ctx e clrtog) s = .next { s.taken.endedOk 0 0 0 with mem := m, cache := k } ∧
      load32 m h.toNat = s.physRead h &&& (if clrtog then ~~~0x3#32 else ~~~0x1#32) ∧
      load32 m c.toNat = s.physRead c &&& ~~~0x4000#32 ∧
      ∀ x, inWord c x = false → inWord h x = false → loadByte m x = loadByte s.mem x

/-! ### TD_QUEUE -/

/-- 42_transfer.md R300 to R302, R304: `TD_QUEUE` fills the placeholder, appends the lowest free TD slot as the
new one, publishes both and then `TailP`, marks the slot in the index table, and sets `CLF` or `BLF`; of
memory only the two slots' lines and `TailP` change. The HC's list of the endpoint stays in step with the queue
(10_state.md R42 (d)). -/
def Obligations.TdQueueCompletes : Prop :=
  ∀ (ctx : Ctx) (e n : Nat) (more r : Bool) (di : BitVec 3) (dp : BitVec 2) (s : State), s.quiet →
    s.params.legal = true → s.started = true → s.queuesOk → s.validEd e = true →
    s.allocTd = some n →
    let p := s.params
    let buf := s.arg0
    let len := s.arg1
    dp ≠ 3#2 → len.toNat ≤ 8192 → buf.toNat % 4096 + len.toNat ≤ 8192 →
    (0 < len.toNat → buf.toNat + len.toNat - 1 < 2 ^ 32) →
    let t := (s.ed e).tail
    let tog : BitVec 2 × Bool := if dp = 0#2 then (2#2, true)
      else if (s.ed e).afterSetup then (3#2, false) else (0#2, false)
    let tdw := tdAddr p t
    let nw := tdAddr p n
    ∃ u : State, exec (.tdQueue ctx e more r di dp) s = .next u ∧
      u = { s.taken.endedOk (BitVec.ofNat 32 t) (BitVec.ofNat 32 n) 0 with
        edt := u.edt
        tdt := u.tdt
        idxValid := u.idxValid
        mem := u.mem
        cache := u.cache
        hc := { s.hc with commandStatus := s.hc.commandStatus ||| (match (s.ed e).type with
          | .control => 0x2#32
          | .bulk => 0x4#32
          | .interrupt => 0#32) } } ∧
      (∀ x, u.ed x = if x = e then { s.ed e with tail := n, afterSetup := tog.2 } else s.ed x) ∧
      (∀ x, u.td x = if x = n then { alloc := true, owner := e }
        else if x = t then
          { s.td t with status := (if more then 0x40000000#32 else 0#32) ||| len, next := some n }
        else s.td x) ∧
      (∀ x, u.indexed x = if x = t then true else s.indexed x) ∧
      u.physRead tdw = 0xF#4 ++ 0#2 ++ tog.1 ++ di ++ dp ++ BitVec.ofBool r ++ 0#2 ++ BitVec.ofNat 16 t ∧
      u.physRead (tdw + 4#32) = (if len = 0#32 then 0#32 else buf) ∧ u.physRead (tdw + 8#32) = nw ∧
      u.physRead (tdw + 12#32) = (if len = 0#32 then 0#32 else buf + len - 1#32) ∧
      u.physRead nw = 0#32 ∧ u.physRead (nw + 4#32) = 0#32 ∧ u.physRead (nw + 8#32) = 0#32 ∧
      u.physRead (nw + 12#32) = 0#32 ∧ u.physRead (edTailAddr p e) = nw ∧
      (∀ x, inLines p tdw.toNat 16 x = false → inLines p nw.toNat 16 x = false →
        inWord (edTailAddr p e) x = false → loadByte u.mem x = loadByte s.mem x) ∧
      (∀ retired waiting, s.hardwareAgrees e retired waiting → u.hardwareAgrees e retired (waiting ++ [t]))

/-- 42_transfer.md R300, R303, R305, R310: what the transfer commands refuse before they change anything. For
`TD_QUEUE`: `DP = 3`, a length above 8192, a buffer that touches more than two pages or passes 2^32; then no free
slot. -/
def Obligations.TransferOperandErrors : Prop :=
  ∀ (ctx : Ctx) (e : Nat) (s : State), s.quiet → s.started = true → s.validEd e = true →
    let buf := s.arg0.toNat
    let len := s.arg1.toNat
    let bad := fun (dp : BitVec 2) =>
      dp = 3#2 ∨ 8192 < len ∨ 8192 < buf % 4096 + len ∨ (0 < len ∧ 2 ^ 32 ≤ buf + len - 1)
    (∀ more r di dp, bad dp → exec (.tdQueue ctx e more r di dp) s = .next (s.taken.ended .badArg)) ∧
    (∀ more r di dp, ¬ bad dp → (∀ t < s.params.ntd, (s.td t).alloc = true) →
      exec (.tdQueue ctx e more r di dp) s = .next (s.taken.ended .noMem)) ∧
    ((s.arg0.extractLsb' 16 16 ≠ 0#16 ∨ s.params.ntd ≤ s.arg0.toNat ∨ (s.td s.arg0.toNat).alloc = false ∨
        (s.td s.arg0.toNat).owner ≠ e) →
      exec (.xferComplete ctx e) s = .next (s.taken.ended .badArg) ∧
      exec (.xferAbort .thread e) s = .next (s.taken.ended .badArg)) ∧
    (s.arg0.toNat = (s.ed e).tail → exec (.xferAbort .thread e) s = .next (s.taken.ended .badArg))

/-! ### XFER_COMPLETE -/

/-- 42_transfer.md R317: the bytes a TD has transferred. -/
def Obligations.ActualBytes : Prop :=
  ∀ (len : Nat) (cbp be : Word),
    let rem : Int := (be.toNat : Int) - cbp.toNat + 1
    (len = 0 → actualBytes len cbp be = 0) ∧
    (len ≠ 0 → cbp = 0#32 → actualBytes len cbp be = len) ∧
    (len ≠ 0 → cbp ≠ 0#32 → (rem < 0 ∨ (len : Int) < rem) → actualBytes len cbp be = 0) ∧
    (len ≠ 0 → cbp ≠ 0#32 → 0 ≤ rem → rem ≤ len → (actualBytes len cbp be : Int) = len - rem)

/-- 42_transfer.md R305, R307: `XFER_COMPLETE` of a finished group at the head of the queue frees its TDs,
moves the head past them, answers the bytes transferred (where their sum fits the register, log 8), the
class and the code of its last TD, and clears `H` and `K` unless the class is `IO` or `STALL`; no other
byte of memory changes, and the HC's list stays in step with the queue (10_state.md R42 (d)). -/
def Obligations.XferCompleteCompletes : Prop :=
  ∀ (ctx : Ctx) (e after last : Nat) (g : List Nat) (s : State), s.quiet → s.params.legal = true →
    s.started = true → s.queuesOk → s.validEd e = true → s.headGroup e g after → g.getLast? = some last →
    s.arg0 = BitVec.ofNat 32 (s.ed e).head →
    let p := s.params
    let total := (g.map (fun t => actualBytes (s.td t).len (s.physRead (tdAddr p t + 4#32))
      (s.physRead (tdAddr p t + 12#32)))).sum
    let cc := (s.physRead (tdAddr p last)).extractLsb' 28 4
    let halted := ccClass cc = .io ∨ ccClass cc = .stall
    let c := edControlAddr p e
    let h := edHeadAddr p e
    ∃ u : State, exec (.xferComplete ctx e) s = .next u ∧
      u = { s.taken.endedOk u.res0 (BitVec.ofNat 32 (ccClass cc).value) (cc.setWidth 32) with
        edt := u.edt, tdt := u.tdt, idxValid := u.idxValid, mem := u.mem, cache := u.cache, draws := u.draws } ∧
      (total < 2 ^ 32 → u.res0 = BitVec.ofNat 32 total ∧ u.draws = s.draws) ∧
      (∀ x, u.ed x = if x = e then { s.ed e with head := after } else s.ed x) ∧
      (∀ x, u.td x = if x ∈ g then { s.td x with alloc := false } else s.td x) ∧
      (∀ x, u.indexed x = if x ∈ g then false else s.indexed x) ∧
      (halted → ∀ x, loadByte u.mem x = loadByte s.mem x) ∧
      (¬ halted → u.physRead h = s.physRead h &&& ~~~0x1#32 ∧ u.physRead c = s.physRead c &&& ~~~0x4000#32 ∧
        ∀ x, inWord c x = false → inWord h x = false → loadByte u.mem x = loadByte s.mem x) ∧
      (∀ retired waiting, s.hardwareAgrees e retired waiting →
        u.hardwareAgrees e (retired.drop g.length) waiting)

/-- 42_transfer.md R305, R306: `XFER_COMPLETE` of a TD that is not the head, or of a group with an unfinished
TD, logs `F_ORDER` or `F_NOT_FINISHED`, ends with `E_FAULT`, and frees and changes nothing else. The info word of
`F_NOT_FINISHED` names the unfinished TD (R305; log 41 reads the `t` of 60_exceptions.md R455 as that TD). -/
def Obligations.XferCompleteFaults : Prop :=
  ∀ (ctx : Ctx) (e t : Nat) (s : State), s.quiet → s.started = true → s.validEd e = true →
    s.arg0 = BitVec.ofNat 32 t → t < 65536 → t < s.params.ntd → (s.td t).alloc = true →
    (s.td t).owner = e →
    (t ≠ (s.ed e).head → exec (.xferComplete ctx e) s =
      .next ((s.taken.logFault .order (BitVec.ofNat 32 (e * 65536 + t))).ended .fault)) ∧
    (∀ l u, t = (s.ed e).head → Chain s t l u → l.length ≤ s.params.ntd →
      (∀ x ∈ l, x ≠ (s.ed e).tail ∧ (s.td x).finished = true ∧ (s.td x).more = true) →
      (u = (s.ed e).tail ∨ (s.td u).finished = false) →
      exec (.xferComplete ctx e) s =
        .next ((s.taken.logFault .notFinished (BitVec.ofNat 32 (e * 65536 + u))).ended .fault))

/-! ### XFER_ABORT -/

/-- 42_transfer.md R310, R312, R313: aborting a group, at once where the endpoint is halted and after the
frame wait otherwise, frees it, links its predecessor (or the head) past it, moves `HeadP` or the
predecessor's `NextTD` past it according to where the HC stands, clears `H` and `K` keeping `C`, and answers
how many TDs it freed; no other byte of memory changes, and the HC's list stays in step with the queue
(10_state.md R42 (d)). -/
def Obligations.XferAbortCompletes : Prop :=
  ∀ (e t after : Nat) (before grp rest : List Nat) (s : State), s.params.legal = true → s.queuesOk →
    s.validEd e = true → s.sched = [] → s.queueIs e (before ++ t :: grp ++ rest) →
    (rest ++ [(s.ed e).tail]).head? = some after →
    (∀ x ∈ (t :: grp).dropLast, (s.td x).more = true) →
    (rest = [] ∨ ∀ x, (t :: grp).getLast? = some x → (s.td x).more = false) →
    let p := s.params
    let gone := t :: grp
    let c := edControlAddr p e
    let h := edHeadAddr p e
    let hp := ptrOf (s.physRead h)
    let inGroup := hp ∈ gone.map (tdAddr p)
    let relinked := fun (x : Nat) => ¬ inGroup ∧ hp ∈ before.map (tdAddr p) ∧ before.getLast? = some x
    let aborted := fun (b u : State) =>
      u = { b.endedOk (BitVec.ofNat 32 gone.length) 0 0 with
        seq := .idle, edt := u.edt, tdt := u.tdt, idxValid := u.idxValid, mem := u.mem, cache := u.cache } ∧
      (∀ x, u.ed x = if x = e ∧ before = [] then { s.ed e with head := after } else s.ed x) ∧
      (∀ x, u.td x = if x ∈ gone then { s.td x with alloc := false }
        else if before.getLast? = some x then { s.td x with next := some after } else s.td x) ∧
      (∀ x, u.indexed x = if x ∈ gone then false else s.indexed x) ∧
      (inGroup → u.physRead h = tdAddr p after ||| (s.physRead h &&& 0x2#32)) ∧
      (¬ inGroup → u.physRead h = s.physRead h &&& ~~~0x1#32) ∧
      u.physRead c = s.physRead c &&& ~~~0x4000#32 ∧
      (∀ x, relinked x → u.physRead (tdAddr p x + 8#32) = tdAddr p after) ∧
      (∀ a, inWord c a = false → inWord h a = false →
        (∀ x, relinked x → inWord (tdAddr p x + 8#32) a = false) → loadByte u.mem a = loadByte s.mem a) ∧
      (∀ retired waiting, s.hardwareAgrees e retired waiting →
        u.hardwareAgrees e (retired.filter (· ∉ gone)) (waiting.filter (· ∉ gone)))
    (s.seq = .idle → s.started = true → s.arg0 = BitVec.ofNat 32 t →
      (s.physRead h).getLsbD 0 = true → ∃ u, exec (.xferAbort .thread e) s = .next u ∧ aborted s.taken u) ∧
    (∀ run w f0 r, s.seq = .wait run w f0 r (.abort e t) → s.hc.fmNumber ≠ f0 →
      ∃ u, step s = .next u ∧ aborted s u)

/-! ### The done queue -/

/-- 43_done_queue.md R350, R352, R354 to R357, R360 to R363: with `WDH = 0` a drain reads nothing more, and
`DQ_DRAIN` ends with all results 0. Draining a done list that ends one transfer (`mids` retired without error,
then `t`, the last of it, with any code; the first unfinished TDs of their endpoint) marks its TDs finished,
pushes the record of the transfer, clears `WDH`, leaves the list linked in completion order, and answers how
many TDs it walked, one record, no fault. A list of more than `NTD` TDs is reversed up to there, logged as
`F_DONE_LOOP` and acknowledged, no TD of it processed. All set `DRAIN_DONE`, and nothing else changes. -/
def Obligations.DqDrainCompletes : Prop :=
  (∀ (ctx : Ctx) (s : State), s.quiet → s.started = true → s.wdhIn = false →
    exec (.dqDrain ctx) s = .next { s.taken.endedOk 0 0 0 with isr := s.isr ||| 0x9#4 }) ∧
  (∀ (ctx : Ctx) (t : Nat) (done group mids rest : List Nat) (s : State), s.quiet → s.params.legal = true →
      s.started = true → s.queuesOk → s.wdhIn = true →
      let p := s.params
      let e := (s.td t).owner
      let order := mids ++ [t]
      let addr := fun (x : Option Nat) => match x with | none => 0#32 | some t => tdAddr p t
      s.validEd e = true → s.queueIs e (done ++ group ++ order ++ rest) →
      (∀ x ∈ done ++ group, (s.td x).finished = true) → (∀ x ∈ order, (s.td x).finished = false) →
      (∀ x, done.getLast? = some x → (s.td x).more = false) → (∀ x ∈ group ++ mids, (s.td x).more = true) →
      (s.td t).more = false → (∀ x ∈ mids, (s.physRead (tdAddr p x)).extractLsb' 28 4 = 0#4) →
      (∀ x ∈ order, s.indexed x = true ∧ tdAddr p x ≠ 0#32 ∧
        (s.physRead (tdAddr p x)).extractLsb' 0 16 = BitVec.ofNat 16 x) →
      ptrOf (s.physRead (doneHeadAddr p)) = tdAddr p t →
      (∀ pre x post, order = pre ++ x :: post →
        ptrOf (s.physRead (tdAddr p x + 8#32)) = addr pre.getLast?) →
      s.compq.length < p.ntd →
      ∃ (u : State) (g : Nat), exec (.dqDrain ctx) s = .next u ∧ (group ++ order).head? = some g ∧
        u = { s.taken.endedOk (BitVec.ofNat 32 order.length) 1 0 with
          isr := s.isr ||| 0xB#4
          tdt := u.tdt
          compq := s.compq ++
            [{ ed := e, td := g, cc := (s.physRead (tdAddr p t)).extractLsb' 28 4, key := (s.ed e).key }]
          mem := u.mem
          cache := u.cache
          hc := { s.hc with interruptStatus := s.hc.interruptStatus &&& ~~~0x2#32 } } ∧
        (∀ x, u.td x =
          if x ∈ order then { s.td x with status := (s.td x).status ||| 0x80000000#32 } else s.td x) ∧
        (∀ pre x post, order = pre ++ x :: post → u.physRead (tdAddr p x + 8#32) = addr post.head?) ∧
        (∀ a, (∀ x ∈ order, inWord (tdAddr p x + 8#32) a = false) → loadByte u.mem a = loadByte s.mem a) ∧
        (∀ retired waiting, s.hardwareAgrees e retired waiting → (∀ x ∈ order, x ∈ retired) →
          u.hardwareAgrees e retired waiting)) ∧
  (∀ (ctx : Ctx) (first : Word) (more : List Word) (s : State), s.quiet → s.params.legal = true →
      s.started = true → s.wdhIn = true →
      let list := first :: more
      let walked := list.dropLast
      more.length = s.params.ntd → list.Nodup → (∀ a ∈ list, a ≠ 0#32 ∧ ptrOf a = a) →
      ptrOf (s.physRead (doneHeadAddr s.params)) = first →
      (∀ pre a b post, list = pre ++ a :: b :: post → ptrOf (s.physRead (a + 8#32)) = b) →
      ∃ u : State, exec (.dqDrain ctx) s = .next u ∧
        u = { (s.taken.logFault .doneLoop first).endedOk 0 0 1 with
          isr := s.isr ||| 0xD#4
          mem := u.mem
          cache := u.cache
          hc := { s.hc with interruptStatus := s.hc.interruptStatus &&& ~~~0x2#32 } } ∧
        (∀ pre a post, walked = pre ++ a :: post → u.physRead (a + 8#32) = pre.getLast?.getD 0#32) ∧
        (∀ x, (∀ a ∈ walked, inWord (a + 8#32) x = false) → loadByte u.mem x = loadByte s.mem x))

/-- 43_done_queue.md R353: the reversal of a done list leaves it linked in completion order, oldest first, and
changes no byte outside the `NextTD` words of its TDs. -/
def Obligations.ReversalReverses : Prop :=
  ∀ (ts : List Nat) (s : State), s.sched = [] → s.params.legal = true → ts.Nodup →
    (∀ t ∈ ts, t < s.params.ntd ∧ tdAddr s.params t ≠ 0#32) → ts.length ≤ s.params.ntd →
    let p := s.params
    let addr := fun (l : List Nat) => match l with | [] => 0#32 | t :: _ => tdAddr p t
    (∀ pre t post, ts = pre ++ t :: post → ptrOf (s.physRead (tdAddr p t + 8#32)) = addr post) →
    ∃ u : State, reverseDone p.ntd 0#32 (addr ts) s = .ok (some (addr ts.reverse)) u ∧
      u = { s with mem := u.mem, cache := u.cache, seq := u.seq } ∧
      (∀ pre t post, ts = pre ++ t :: post → u.physRead (tdAddr p t + 8#32) = addr pre.reverse) ∧
      (∀ x, (∀ t ∈ ts, inWord (tdAddr p t + 8#32) x = false) → loadByte u.mem x = loadByte s.mem x)

/-- 43_done_queue.md R356, R357: with the index table a done TD resolves to its slot, or is dropped with the
fault its index calls for; with the scan it resolves to the TD of a queue that lies at its address, or is
dropped with `F_UNRESOLVED`. A TD that is finished already is dropped with `F_DUPLICATE`, one that is not the
first unfinished of its endpoint with `F_ORDER`; one that is, and neither ends its transfer nor failed, is
marked finished and nothing else happens. -/
def Obligations.IndexResolves : Prop :=
  (∀ (s : State) (n : Tally) (a c : Word), s.params.corrMode = .index →
    let j := (c.extractLsb' 0 16).toNat
    let counted := { n with faults := n.faults + 1 }
    (s.params.ntd ≤ j → resolve n a c s = .ok (none, counted) (s.logFault .indexRange a)) ∧
    (j < s.params.ntd → (s.indexed j = false ∨ tdAddr s.params j ≠ a) →
      resolve n a c s = .ok (none, counted) (s.logFault .unresolved a)) ∧
    (j < s.params.ntd → s.indexed j = true → tdAddr s.params j = a → resolve n a c s = .ok (some j, n) s)) ∧
  (∀ (s : State) (n : Tally) (a c : Word), s.params.corrMode = .scan → s.params.legal = true → s.queuesOk →
    let queued := fun (t : Nat) => s.validEd (s.td t).owner = true ∧ (s.td t).alloc = true ∧
      t ≠ (s.ed (s.td t).owner).tail ∧ tdAddr s.params t = a
    (∀ t, queued t → resolve n a c s = .ok (some t, n) s) ∧
    ((∀ t, ¬ queued t) →
      resolve n a c s = .ok (none, { n with faults := n.faults + 1 }) (s.logFault .unresolved a))) ∧
  (∀ (s : State) (n : Tally) (t : Nat) (cc : BitVec 4),
    let e := (s.td t).owner
    let counted := { n with faults := n.faults + 1 }
    ((s.td t).finished = true →
      process n t cc s = .ok counted (s.logFault .duplicate (BitVec.ofNat 32 t))) ∧
    (∀ u done rest q, (s.td t).finished = false → s.queueIs e q → q ++ [(s.ed e).tail] = done ++ u :: rest →
      (∀ x ∈ done, (s.td x).finished = true) → (s.td u).finished = false →
      (u ≠ t → process n t cc s = .ok counted (s.logFault .order (BitVec.ofNat 32 (e * 65536 + t)))) ∧
      (u = t → (s.td t).more = true → cc = 0#4 → ∃ v, process n t cc s = .ok n v ∧
        v = { s with tdt := v.tdt } ∧
        ∀ x, v.td x = if x = t then { s.td t with status := (s.td t).status ||| 0x80000000#32 } else s.td x)))

/-- 43_done_queue.md R358, R359, R364: a TD that ended its transfer early becomes the last of it: the rest of
the transfer is freed, `HeadP` moves past it, and on a short packet (code 9) `H` and `K` are cleared and
`CLF` or `BLF` set, while on another error `H` and `K` stay; no other byte of memory changes. Where the TD is the
last that the HC has retired, its list stays in step with the queue (10_state.md R42 (d)). -/
def Obligations.UnwindFreesTheRest : Prop :=
  ∀ (e j after : Nat) (pre grp rest : List Nat) (cc : BitVec 4) (s : State), s.sched = [] →
    s.params.legal = true → s.queuesOk → s.validEd e = true → s.queueIs e (pre ++ j :: grp ++ rest) →
    (rest ++ [(s.ed e).tail]).head? = some after →
    (∀ x ∈ grp.dropLast, (s.td x).more = true) →
    (rest = [] ∨ ∃ x, grp.getLast? = some x ∧ (s.td x).more = false) →
    let p := s.params
    let c := edControlAddr p e
    let h := edHeadAddr p e
    ∃ u : State, unwind e j cc s = .ok () u ∧
      u = { s with
        tdt := u.tdt
        idxValid := u.idxValid
        mem := u.mem
        cache := u.cache
        seq := u.seq
        hc := { s.hc with commandStatus := s.hc.commandStatus ||| (if cc = 9#4 then
          (match (s.ed e).type with
          | .control => 0x2#32
          | .bulk => 0x4#32
          | .interrupt => 0#32) else 0#32) } } ∧
      (∀ x, u.td x = if x ∈ grp then { s.td x with alloc := false }
        else if x = j then { s.td j with next := some after, status := (s.td j).status &&& ~~~0x40000000#32 }
        else s.td x) ∧
      (∀ x, u.indexed x = if x ∈ grp then false else s.indexed x) ∧
      u.physRead h = tdAddr p after ||| (s.physRead h &&& (if cc = 9#4 then 0x2#32 else 0x3#32)) ∧
      u.physRead c = (if cc = 9#4 then s.physRead c &&& ~~~0x4000#32 else s.physRead c) ∧
      (∀ x, inWord c x = false → inWord h x = false → loadByte u.mem x = loadByte s.mem x) ∧
      (s.hardwareAgrees e (pre ++ [j]) (grp ++ rest) → u.hardwareAgrees e (pre ++ [j]) rest)

/-- 43_done_queue.md R351: the idle block begins an automatic drain exactly where it is started, enabled and
`WDH_IN` is 1; the drain clears `WDH`, sets `DRAIN_DONE`, and leaves `RES0..RES2`, `STATUS.ERR`,
`ISR.CMD_DONE` and `CMDLOST` as they were. That it begins at once where no other agent moves is the model's
choice (log 21). -/
def Obligations.AutoDrainBookkeeping : Prop :=
  ∀ s : State, s.quiet →
    ((s.started = false ∨ s.autoDrain = false ∨ s.wdhIn = false) → step s = .next s) ∧
    (∀ t, s.started = true → s.autoDrain = true → s.wdhIn = true → step s = .next t →
      t.wdhIn = false ∧ t.seq = .idle ∧ t.isr.getLsbD 3 = true ∧ t.isr.getLsbD 0 = s.isr.getLsbD 0 ∧
      t.err = s.err ∧ t.cmdLost = s.cmdLost ∧ t.res0 = s.res0 ∧ t.res1 = s.res1 ∧ t.res2 = s.res2)

/-! ### CFLUSH and CINVAL -/

/-- 44_coherence.md R400, R403, R404: `CFLUSH` writes back what is pending in the lines of its range, answers
their number, leaves what the block reads as it was, and changes no other byte; a range that passes 2^32 is
refused. -/
def Obligations.CflushCompletes : Prop :=
  ∀ (ctx : Ctx) (s : State), s.quiet → s.params.legal = true →
    let p := s.params
    let a := s.arg0.toNat
    let n := s.arg1.toNat
    (2 ^ 32 < a + n → exec (.cflush ctx) s = .next (s.taken.ended .badArg)) ∧
    (a + n ≤ 2 ^ 32 → ∃ u : State, exec (.cflush ctx) s = .next u ∧
      u = { s.taken.endedOk (BitVec.ofNat 32 (if p.coherent = true ∨ n = 0 then 0
          else (a + n - 1) / p.cacheLine - a / p.cacheLine + 1)) 0 0 with mem := u.mem, cache := u.cache } ∧
      ∀ x, u.view x = s.view x ∧
        loadByte u.mem x = (if inLines p a n x = true ∧ s.pending x = true then s.view x else loadByte s.mem x) ∧
        u.pending x = (!inLines p a n x && s.pending x))

/-- 44_coherence.md R401, R403, R404: `CINVAL` drops the lines of its range, so that the block reads memory
there, answers their number, and changes no byte of memory; a range that passes 2^32 is refused. -/
def Obligations.CinvalCompletes : Prop :=
  ∀ (ctx : Ctx) (s : State), s.quiet → s.params.legal = true →
    let p := s.params
    let a := s.arg0.toNat
    let n := s.arg1.toNat
    (2 ^ 32 < a + n → exec (.cinval ctx) s = .next (s.taken.ended .badArg)) ∧
    (a + n ≤ 2 ^ 32 → ∃ u : State, exec (.cinval ctx) s = .next u ∧
      u = { s.taken.endedOk (BitVec.ofNat 32 (if p.coherent = true ∨ n = 0 then 0
          else (a + n - 1) / p.cacheLine - a / p.cacheLine + 1)) 0 0 with cache := u.cache } ∧
      ∀ x, u.view x = (if inLines p a n x = true then loadByte s.mem x else s.view x) ∧
        u.pending x = (!inLines p a n x && s.pending x))
end

