-- ==== Sys2Proof/Laws/Table.lean ====
section
/-! SUPPORT. Laws of the sparse tables: read after write, read of another key, canonical form. -/

namespace Sys2Proof.Machine

variable {α : Type}

@[simp] theorem tableFind_nil (k : Nat) : tableFind k ([] : List (Nat × α)) = none := rfl

@[simp] theorem tableFind_erase_self (k : Nat) (m : List (Nat × α)) :
    tableFind k (tableErase k m) = none := by
  induction m with
  | nil => rfl
  | cons p rest ih =>
    by_cases h : p.1 = k
    · simp [tableErase, h, ih]
    · simp [tableErase, tableFind, h, ih]

theorem tableFind_erase_ne {j k : Nat} (h : j ≠ k) (m : List (Nat × α)) :
    tableFind j (tableErase k m) = tableFind j m := by
  induction m with
  | nil => rfl
  | cons p rest ih =>
    by_cases hk : p.1 = k
    · have hj : p.1 ≠ j := fun e => h (by omega)
      simp [tableErase, tableFind, hk, ih, show k ≠ j from fun e => h e.symm]
    · by_cases hj : p.1 = j
      · simp [tableErase, tableFind, hj, show j ≠ k from h]
      · simp [tableErase, tableFind, hk, hj, ih]

theorem tableFind_insert_ne {j k : Nat} (h : j ≠ k) (v : α) (m : List (Nat × α)) :
    tableFind j (tableInsert k v m) = tableFind j m := by
  have hkj : k ≠ j := fun e => h e.symm
  induction m with
  | nil => simp [tableInsert, tableFind, hkj]
  | cons p rest ih =>
    by_cases hlt : k < p.1
    · simp [tableInsert, tableFind, hlt, hkj]
    · simp [tableInsert, tableFind, hlt, ih]

theorem tableFind_insert_self {k : Nat} (v : α) {m : List (Nat × α)} (h : tableFind k m = none) :
    tableFind k (tableInsert k v m) = some v := by
  induction m with
  | nil => simp [tableInsert, tableFind]
  | cons p rest ih =>
    have hp : p.1 ≠ k := by
      intro e
      simp [tableFind, e] at h
    have hr : tableFind k rest = none := by simpa [tableFind, hp] using h
    by_cases hlt : k < p.1
    · simp [tableInsert, tableFind, hlt]
    · simp [tableInsert, tableFind, hlt, hp, ih hr]

/-- The line or entry just inserted is found. -/
@[simp] theorem tableFind_replace_self (k : Nat) (v : α) (m : List (Nat × α)) :
    tableFind k (tableInsert k v (tableErase k m)) = some v :=
  tableFind_insert_self v (tableFind_erase_self k m)

theorem tableFind_replace_ne {j k : Nat} (h : j ≠ k) (v : α) (m : List (Nat × α)) :
    tableFind j (tableInsert k v (tableErase k m)) = tableFind j m := by
  rw [tableFind_insert_ne h, tableFind_erase_ne h]

@[simp] theorem tableGet_nil (d : α) (k : Nat) : tableGet d [] k = d := rfl

/-- Read after write. -/
@[simp] theorem tableGet_put_self [DecidableEq α] (d : α) (m : List (Nat × α)) (k : Nat) (v : α) :
    tableGet d (tablePut d m k v) k = v := by
  by_cases h : v = d <;> simp [tablePut, tableGet, h]

/-- A write leaves every other key alone. -/
theorem tableGet_put_ne [DecidableEq α] (d : α) (m : List (Nat × α)) {j k : Nat} (h : j ≠ k) (v : α) :
    tableGet d (tablePut d m k v) j = tableGet d m j := by
  by_cases hv : v = d
  · simp [tablePut, tableGet, hv, tableFind_erase_ne h]
  · simp [tablePut, tableGet, hv, tableFind_replace_ne h]

theorem tableGet_put [DecidableEq α] (d : α) (m : List (Nat × α)) (j k : Nat) (v : α) :
    tableGet d (tablePut d m k v) j = if j = k then v else tableGet d m j := by
  by_cases h : j = k
  · subst h; simp
  · simp [h, tableGet_put_ne]

/-! ### Canonical form -/

/-- Rising keys, as a pairwise relation. -/
theorem keysRise_iff (m : List (Nat × α)) :
    keysRise m = true ↔ m.Pairwise (fun p q => p.1 < q.1) := by
  induction m with
  | nil => simp [keysRise]
  | cons p rest ih =>
    cases rest with
    | nil => simp [keysRise]
    | cons q rest =>
      simp only [keysRise, Bool.and_eq_true, decide_eq_true_eq, ih, List.pairwise_cons]
      constructor
      · rintro ⟨h1, h2, h3⟩
        refine ⟨fun x hx => ?_, h2, h3⟩
        rcases List.mem_cons.1 hx with rfl | hx
        · exact h1
        · exact lt_trans h1 (h2 x hx)
      · rintro ⟨h1, h2, h3⟩
        exact ⟨h1 q (by simp), h2, h3⟩

theorem tableErase_eq_filter (k : Nat) (m : List (Nat × α)) :
    tableErase k m = m.filter (fun p => decide (p.1 ≠ k)) := by
  induction m with
  | nil => rfl
  | cons p rest ih => by_cases h : p.1 = k <;> simp [tableErase, h, ih]

theorem mem_tableInsert {k : Nat} {v : α} {m : List (Nat × α)} {x : Nat × α}
    (h : x ∈ tableInsert k v m) : x = (k, v) ∨ x ∈ m := by
  induction m with
  | nil => simpa [tableInsert] using h
  | cons p rest ih =>
    by_cases hlt : k < p.1
    · simpa [tableInsert, hlt] using h
    · simp only [tableInsert, hlt, if_false, List.mem_cons] at h
      rcases h with h | h
      · exact .inr (by simp [h])
      · rcases ih h with h | h
        · exact .inl h
        · exact .inr (by simp [h])

theorem keysRise_erase {k : Nat} {m : List (Nat × α)} (h : keysRise m = true) :
    keysRise (tableErase k m) = true := by
  rw [keysRise_iff] at *
  rw [tableErase_eq_filter]
  exact h.filter _

theorem keysRise_insert {k : Nat} {v : α} {m : List (Nat × α)} (h : keysRise m = true)
    (hk : ∀ p ∈ m, p.1 ≠ k) : keysRise (tableInsert k v m) = true := by
  rw [keysRise_iff] at *
  induction m with
  | nil => simp [tableInsert]
  | cons p rest ih =>
    rw [List.pairwise_cons] at h
    by_cases hlt : k < p.1
    · simp only [tableInsert, hlt, if_true, List.pairwise_cons]
      refine ⟨fun x hx => ?_, h⟩
      rcases List.mem_cons.1 hx with rfl | hx
      · exact hlt
      · exact lt_trans hlt (h.1 x hx)
    · simp only [tableInsert, hlt, if_false, List.pairwise_cons]
      have hp : p.1 < k := by
        have := hk p (by simp)
        omega
      refine ⟨fun x hx => ?_, ih h.2 (fun q hq => hk q (by simp [hq]))⟩
      rcases mem_tableInsert hx with rfl | hx
      · exact hp
      · exact h.1 x hx

theorem keysRise_replace {k : Nat} {v : α} {m : List (Nat × α)} (h : keysRise m = true) :
    keysRise (tableInsert k v (tableErase k m)) = true := by
  refine keysRise_insert (keysRise_erase h) (fun p hp => ?_)
  rw [tableErase_eq_filter] at hp
  simpa using (List.mem_filter.1 hp).2

/-- A write keeps the canonical form. -/
theorem tableWf_put [DecidableEq α] {d : α} {m : List (Nat × α)} (h : tableWf d m = true) (k : Nat)
    (v : α) : tableWf d (tablePut d m k v) = true := by
  simp only [tableWf, Bool.and_eq_true] at *
  have hall : ∀ p ∈ tableErase k m, decide (p.2 ≠ d) = true := fun p hp => by
    rw [tableErase_eq_filter] at hp
    exact List.all_eq_true.1 h.2 p (List.mem_filter.1 hp).1
  by_cases hv : v = d
  · simp only [tablePut, hv, if_true]
    exact ⟨keysRise_erase h.1, List.all_eq_true.2 hall⟩
  · simp only [tablePut, hv, if_false]
    refine ⟨keysRise_replace h.1, List.all_eq_true.2 (fun p hp => ?_)⟩
    rcases mem_tableInsert hp with rfl | hp
    · simpa using hv
    · exact hall p hp

end Sys2Proof.Machine
end

