-- ==== Sys2Proof/Laws/Memory.lean ====
section
/-! SUPPORT. Laws of memory: read after write, the frame of a write, canonical form. -/

namespace Sys2Proof.Machine

@[simp] theorem loadByte_storeByte_self (m : List Host.Cell) (a : Nat) (b : Byte) :
    loadByte (storeByte m a b) a = b := tableGet_put_self _ _ _ _

theorem loadByte_storeByte_ne (m : List Host.Cell) {x a : Nat} (h : x ≠ a) (b : Byte) :
    loadByte (storeByte m a b) x = loadByte m x := tableGet_put_ne _ _ h _

theorem loadByte_storeByte (m : List Host.Cell) (x a : Nat) (b : Byte) :
    loadByte (storeByte m a b) x = if x = a then b else loadByte m x := tableGet_put _ _ _ _ _

/-- What a byte reads as after a 32-bit write. -/
theorem loadByte_store32 (m : List Host.Cell) (x a : Nat) (v : Word) :
    loadByte (store32 m a v) x =
      if x = a then v.extractLsb' 0 8
      else if x = a + 1 then v.extractLsb' 8 8
      else if x = a + 2 then v.extractLsb' 16 8
      else if x = a + 3 then v.extractLsb' 24 8
      else loadByte m x := by
  simp only [store32, loadByte_storeByte]
  split_ifs <;> first | rfl | omega

/-- A 32-bit write leaves every byte outside its four alone. -/
theorem loadByte_store32_ne (m : List Host.Cell) {x a : Nat} (h : x < a ∨ a + 4 ≤ x) (v : Word) :
    loadByte (store32 m a v) x = loadByte m x := by
  rw [loadByte_store32]
  split_ifs <;> first | rfl | omega

/-- A word is its four bytes. -/
theorem word_of_bytes (v : Word) :
    v.extractLsb' 24 8 ++ v.extractLsb' 16 8 ++ v.extractLsb' 8 8 ++ v.extractLsb' 0 8 = v := by
  apply BitVec.eq_of_getLsbD_eq
  intro i hi
  simp only [BitVec.getLsbD_append, BitVec.getLsbD_extractLsb']
  split_ifs with h1 h2 h3
  · simp [h1]
  · simp [h2]; congr 1; omega
  · simp [h3]; congr 1; omega
  · have : i - 8 - 8 - 8 < 8 := by omega
    simp [this]; congr 1; omega

theorem byte0_of_word (b3 b2 b1 b0 : Byte) : (b3 ++ b2 ++ b1 ++ b0).extractLsb' 0 8 = b0 := by
  apply BitVec.eq_of_getLsbD_eq
  intro i hi
  rw [BitVec.getLsbD_extractLsb', BitVec.getLsbD_append]
  simp [hi]

theorem byte1_of_word (b3 b2 b1 b0 : Byte) : (b3 ++ b2 ++ b1 ++ b0).extractLsb' 8 8 = b1 := by
  apply BitVec.eq_of_getLsbD_eq
  intro i hi
  rw [BitVec.getLsbD_extractLsb', BitVec.getLsbD_append, BitVec.getLsbD_append]
  simp [hi]

theorem byte2_of_word (b3 b2 b1 b0 : Byte) : (b3 ++ b2 ++ b1 ++ b0).extractLsb' 16 8 = b2 := by
  apply BitVec.eq_of_getLsbD_eq
  intro i hi
  rw [BitVec.getLsbD_extractLsb', BitVec.getLsbD_append, BitVec.getLsbD_append, BitVec.getLsbD_append]
  simp [hi, show ¬ (16 + i < 8) by omega, show 16 + i - 8 = 8 + i by omega]

theorem byte3_of_word (b3 b2 b1 b0 : Byte) : (b3 ++ b2 ++ b1 ++ b0).extractLsb' 24 8 = b3 := by
  apply BitVec.eq_of_getLsbD_eq
  intro i hi
  rw [BitVec.getLsbD_extractLsb', BitVec.getLsbD_append, BitVec.getLsbD_append, BitVec.getLsbD_append]
  simp [hi, show ¬ (24 + i < 8) by omega, show 24 + i - 8 = 16 + i by omega,
    show ¬ (16 + i < 8) by omega, show 16 + i - 8 = 8 + i by omega]

/-- Read after write, 32 bits. -/
@[simp] theorem load32_store32_self (m : List Host.Cell) (a : Nat) (v : Word) :
    load32 (store32 m a v) a = v := by
  simp only [load32, loadByte_store32]
  simpa using word_of_bytes v

/-- Equal bytes make equal words. -/
theorem load32_congr {m m' : List Host.Cell} {a : Nat}
    (h : ∀ x, a ≤ x → x < a + 4 → loadByte m' x = loadByte m x) : load32 m' a = load32 m a := by
  simp only [load32]
  rw [h (a + 3) (by omega) (by omega), h (a + 2) (by omega) (by omega),
    h (a + 1) (by omega) (by omega), h a (by omega) (by omega)]

/-- A 32-bit write leaves every word that does not overlap it alone. -/
theorem load32_store32_ne (m : List Host.Cell) {x a : Nat} (h : x + 4 ≤ a ∨ a + 4 ≤ x) (v : Word) :
    load32 (store32 m a v) x = load32 m x :=
  load32_congr fun y h1 h2 => loadByte_store32_ne m (by omega) v

/-- Writing a word back where it stands changes no byte. -/
theorem loadByte_store32_same (m m' : List Host.Cell) (a x : Nat)
    (h : ∀ y, a ≤ y → y < a + 4 → loadByte m' y = loadByte m y) :
    loadByte (store32 m a (load32 m' a)) x = loadByte m x := by
  rw [load32_congr h, loadByte_store32]
  have e0 : (load32 m a).extractLsb' 0 8 = loadByte m a := byte0_of_word _ _ _ _
  have e1 : (load32 m a).extractLsb' 8 8 = loadByte m (a + 1) := byte1_of_word _ _ _ _
  have e2 : (load32 m a).extractLsb' 16 8 = loadByte m (a + 2) := byte2_of_word _ _ _ _
  have e3 : (load32 m a).extractLsb' 24 8 = loadByte m (a + 3) := byte3_of_word _ _ _ _
  split_ifs with h0 h1 h2 h3
  · rw [h0, e0]
  · rw [h1, e1]
  · rw [h2, e2]
  · rw [h3, e3]
  · rfl

/-! ### Canonical form -/

theorem wf_storeByte {m : List Host.Cell} (h : Memory.wf m = true) (a : Nat) (b : Byte) :
    Memory.wf (storeByte m a b) = true := tableWf_put h a b

theorem wf_store32 {m : List Host.Cell} (h : Memory.wf m = true) (a : Nat) (v : Word) :
    Memory.wf (store32 m a v) = true :=
  wf_storeByte (wf_storeByte (wf_storeByte (wf_storeByte h _ _) _ _) _ _) _ _

theorem wf_store16 {m : List Host.Cell} (h : Memory.wf m = true) (a : Nat) (v : BitVec 16) :
    Memory.wf (store16 m a v) = true := wf_storeByte (wf_storeByte h _ _) _ _

theorem wf_memRange {m : List Host.Cell} (h : Memory.wf m = true) (base n : Nat) :
    Memory.wf (memRange m base n) = true := by
  simp only [Memory.wf, tableWf, Bool.and_eq_true, keysRise_iff] at *
  refine ⟨h.1.filter _, List.all_eq_true.2 fun p hp => ?_⟩
  exact List.all_eq_true.1 h.2 p (List.mem_filter.1 hp).1

/-- The memory at reset is in canonical form. -/
theorem wf_reset : Memory.wf State.reset.mem = true := rfl

/-- A range of memory reads as memory inside it. -/
theorem loadByte_memRange {m : List Host.Cell} {base n a : Nat} (h : base ≤ a ∧ a < base + n) :
    loadByte (memRange m base n) a = loadByte m a := by
  simp only [loadByte, tableGet, memRange]
  congr 1
  induction m with
  | nil => rfl
  | cons p rest ih =>
    by_cases hr : base ≤ p.1 ∧ p.1 < base + n
    · rw [List.filter_cons_of_pos (by simpa using hr)]
      simp only [tableFind, ih]
    · rw [List.filter_cons_of_neg (by simpa using hr), ih]
      have : p.1 ≠ a := by rintro rfl; exact hr h
      simp [tableFind, this]

theorem load32_memRange {m : List Host.Cell} {base n a : Nat} (h : base ≤ a ∧ a + 4 ≤ base + n) :
    load32 (memRange m base n) a = load32 m a := by
  simp only [load32]
  rw [loadByte_memRange (by omega), loadByte_memRange (by omega), loadByte_memRange (by omega),
    loadByte_memRange (by omega)]

end Sys2Proof.Machine
end

