-- ==== Sys2Proof/Laws/State.lean ====
section
/-! SUPPORT. One lemma per field per update of the state: what each update writes, and that it leaves every
other field alone. -/

namespace Sys2Proof.Machine

variable (s : State)

/-! ### `State.physWrite` -/

@[simp] theorem physWrite_params (a v : Word) : (s.physWrite a v).params = s.params := rfl
@[simp] theorem physWrite_autoDrain (a v : Word) : (s.physWrite a v).autoDrain = s.autoDrain := rfl
@[simp] theorem physWrite_started (a v : Word) : (s.physWrite a v).started = s.started := rfl
@[simp] theorem physWrite_faultOvf (a v : Word) : (s.physWrite a v).faultOvf = s.faultOvf := rfl
@[simp] theorem physWrite_cmdLost (a v : Word) : (s.physWrite a v).cmdLost = s.cmdLost := rfl
@[simp] theorem physWrite_err (a v : Word) : (s.physWrite a v).err = s.err := rfl
@[simp] theorem physWrite_arg0 (a v : Word) : (s.physWrite a v).arg0 = s.arg0 := rfl
@[simp] theorem physWrite_arg1 (a v : Word) : (s.physWrite a v).arg1 = s.arg1 := rfl
@[simp] theorem physWrite_arg2 (a v : Word) : (s.physWrite a v).arg2 = s.arg2 := rfl
@[simp] theorem physWrite_arg3 (a v : Word) : (s.physWrite a v).arg3 = s.arg3 := rfl
@[simp] theorem physWrite_res0 (a v : Word) : (s.physWrite a v).res0 = s.res0 := rfl
@[simp] theorem physWrite_res1 (a v : Word) : (s.physWrite a v).res1 = s.res1 := rfl
@[simp] theorem physWrite_res2 (a v : Word) : (s.physWrite a v).res2 = s.res2 := rfl
@[simp] theorem physWrite_isr (a v : Word) : (s.physWrite a v).isr = s.isr := rfl
@[simp] theorem physWrite_ier (a v : Word) : (s.physWrite a v).ier = s.ier := rfl
@[simp] theorem physWrite_edt (a v : Word) : (s.physWrite a v).edt = s.edt := rfl
@[simp] theorem physWrite_tdt (a v : Word) : (s.physWrite a v).tdt = s.tdt := rfl
@[simp] theorem physWrite_idxValid (a v : Word) : (s.physWrite a v).idxValid = s.idxValid := rfl
@[simp] theorem physWrite_place (a v : Word) : (s.physWrite a v).place = s.place := rfl
@[simp] theorem physWrite_compq (a v : Word) : (s.physWrite a v).compq = s.compq := rfl
@[simp] theorem physWrite_flog (a v : Word) : (s.physWrite a v).flog = s.flog := rfl
@[simp] theorem physWrite_faultCount (a v : Word) : (s.physWrite a v).faultCount = s.faultCount := rfl
@[simp] theorem physWrite_plock (a v : Word) : (s.physWrite a v).plock = s.plock := rfl
@[simp] theorem physWrite_seq (a v : Word) : (s.physWrite a v).seq = s.seq := rfl
@[simp] theorem physWrite_mem (a v : Word) : (s.physWrite a v).mem = store32 s.mem a.toNat v := rfl
@[simp] theorem physWrite_cache (a v : Word) : (s.physWrite a v).cache = s.cache := rfl
@[simp] theorem physWrite_hc (a v : Word) : (s.physWrite a v).hc = s.hc := rfl
@[simp] theorem physWrite_sched (a v : Word) : (s.physWrite a v).sched = s.sched := rfl
@[simp] theorem physWrite_hostData (a v : Word) : (s.physWrite a v).hostData = s.hostData := rfl
@[simp] theorem physWrite_draws (a v : Word) : (s.physWrite a v).draws = s.draws := rfl

/-! ### `State.setLine` -/

@[simp] theorem setLine_params (b : Nat) (l : Line) : (s.setLine b l).params = s.params := rfl
@[simp] theorem setLine_autoDrain (b : Nat) (l : Line) : (s.setLine b l).autoDrain = s.autoDrain := rfl
@[simp] theorem setLine_started (b : Nat) (l : Line) : (s.setLine b l).started = s.started := rfl
@[simp] theorem setLine_faultOvf (b : Nat) (l : Line) : (s.setLine b l).faultOvf = s.faultOvf := rfl
@[simp] theorem setLine_cmdLost (b : Nat) (l : Line) : (s.setLine b l).cmdLost = s.cmdLost := rfl
@[simp] theorem setLine_err (b : Nat) (l : Line) : (s.setLine b l).err = s.err := rfl
@[simp] theorem setLine_arg0 (b : Nat) (l : Line) : (s.setLine b l).arg0 = s.arg0 := rfl
@[simp] theorem setLine_arg1 (b : Nat) (l : Line) : (s.setLine b l).arg1 = s.arg1 := rfl
@[simp] theorem setLine_arg2 (b : Nat) (l : Line) : (s.setLine b l).arg2 = s.arg2 := rfl
@[simp] theorem setLine_arg3 (b : Nat) (l : Line) : (s.setLine b l).arg3 = s.arg3 := rfl
@[simp] theorem setLine_res0 (b : Nat) (l : Line) : (s.setLine b l).res0 = s.res0 := rfl
@[simp] theorem setLine_res1 (b : Nat) (l : Line) : (s.setLine b l).res1 = s.res1 := rfl
@[simp] theorem setLine_res2 (b : Nat) (l : Line) : (s.setLine b l).res2 = s.res2 := rfl
@[simp] theorem setLine_isr (b : Nat) (l : Line) : (s.setLine b l).isr = s.isr := rfl
@[simp] theorem setLine_ier (b : Nat) (l : Line) : (s.setLine b l).ier = s.ier := rfl
@[simp] theorem setLine_edt (b : Nat) (l : Line) : (s.setLine b l).edt = s.edt := rfl
@[simp] theorem setLine_tdt (b : Nat) (l : Line) : (s.setLine b l).tdt = s.tdt := rfl
@[simp] theorem setLine_idxValid (b : Nat) (l : Line) : (s.setLine b l).idxValid = s.idxValid := rfl
@[simp] theorem setLine_place (b : Nat) (l : Line) : (s.setLine b l).place = s.place := rfl
@[simp] theorem setLine_compq (b : Nat) (l : Line) : (s.setLine b l).compq = s.compq := rfl
@[simp] theorem setLine_flog (b : Nat) (l : Line) : (s.setLine b l).flog = s.flog := rfl
@[simp] theorem setLine_faultCount (b : Nat) (l : Line) : (s.setLine b l).faultCount = s.faultCount := rfl
@[simp] theorem setLine_plock (b : Nat) (l : Line) : (s.setLine b l).plock = s.plock := rfl
@[simp] theorem setLine_seq (b : Nat) (l : Line) : (s.setLine b l).seq = s.seq := rfl
@[simp] theorem setLine_mem (b : Nat) (l : Line) : (s.setLine b l).mem = s.mem := rfl
@[simp] theorem setLine_cache (b : Nat) (l : Line) : (s.setLine b l).cache = tableInsert b l (tableErase b s.cache) := rfl
@[simp] theorem setLine_hc (b : Nat) (l : Line) : (s.setLine b l).hc = s.hc := rfl
@[simp] theorem setLine_sched (b : Nat) (l : Line) : (s.setLine b l).sched = s.sched := rfl
@[simp] theorem setLine_hostData (b : Nat) (l : Line) : (s.setLine b l).hostData = s.hostData := rfl
@[simp] theorem setLine_draws (b : Nat) (l : Line) : (s.setLine b l).draws = s.draws := rfl

/-! ### `State.dropLine` -/

@[simp] theorem dropLine_params (b : Nat) : (s.dropLine b).params = s.params := rfl
@[simp] theorem dropLine_autoDrain (b : Nat) : (s.dropLine b).autoDrain = s.autoDrain := rfl
@[simp] theorem dropLine_started (b : Nat) : (s.dropLine b).started = s.started := rfl
@[simp] theorem dropLine_faultOvf (b : Nat) : (s.dropLine b).faultOvf = s.faultOvf := rfl
@[simp] theorem dropLine_cmdLost (b : Nat) : (s.dropLine b).cmdLost = s.cmdLost := rfl
@[simp] theorem dropLine_err (b : Nat) : (s.dropLine b).err = s.err := rfl
@[simp] theorem dropLine_arg0 (b : Nat) : (s.dropLine b).arg0 = s.arg0 := rfl
@[simp] theorem dropLine_arg1 (b : Nat) : (s.dropLine b).arg1 = s.arg1 := rfl
@[simp] theorem dropLine_arg2 (b : Nat) : (s.dropLine b).arg2 = s.arg2 := rfl
@[simp] theorem dropLine_arg3 (b : Nat) : (s.dropLine b).arg3 = s.arg3 := rfl
@[simp] theorem dropLine_res0 (b : Nat) : (s.dropLine b).res0 = s.res0 := rfl
@[simp] theorem dropLine_res1 (b : Nat) : (s.dropLine b).res1 = s.res1 := rfl
@[simp] theorem dropLine_res2 (b : Nat) : (s.dropLine b).res2 = s.res2 := rfl
@[simp] theorem dropLine_isr (b : Nat) : (s.dropLine b).isr = s.isr := rfl
@[simp] theorem dropLine_ier (b : Nat) : (s.dropLine b).ier = s.ier := rfl
@[simp] theorem dropLine_edt (b : Nat) : (s.dropLine b).edt = s.edt := rfl
@[simp] theorem dropLine_tdt (b : Nat) : (s.dropLine b).tdt = s.tdt := rfl
@[simp] theorem dropLine_idxValid (b : Nat) : (s.dropLine b).idxValid = s.idxValid := rfl
@[simp] theorem dropLine_place (b : Nat) : (s.dropLine b).place = s.place := rfl
@[simp] theorem dropLine_compq (b : Nat) : (s.dropLine b).compq = s.compq := rfl
@[simp] theorem dropLine_flog (b : Nat) : (s.dropLine b).flog = s.flog := rfl
@[simp] theorem dropLine_faultCount (b : Nat) : (s.dropLine b).faultCount = s.faultCount := rfl
@[simp] theorem dropLine_plock (b : Nat) : (s.dropLine b).plock = s.plock := rfl
@[simp] theorem dropLine_seq (b : Nat) : (s.dropLine b).seq = s.seq := rfl
@[simp] theorem dropLine_mem (b : Nat) : (s.dropLine b).mem = s.mem := rfl
@[simp] theorem dropLine_cache (b : Nat) : (s.dropLine b).cache = tableErase b s.cache := rfl
@[simp] theorem dropLine_hc (b : Nat) : (s.dropLine b).hc = s.hc := rfl
@[simp] theorem dropLine_sched (b : Nat) : (s.dropLine b).sched = s.sched := rfl
@[simp] theorem dropLine_hostData (b : Nat) : (s.dropLine b).hostData = s.hostData := rfl
@[simp] theorem dropLine_draws (b : Nat) : (s.dropLine b).draws = s.draws := rfl

/-! ### `State.setEd` -/

@[simp] theorem setEd_params (e : Nat) (v : Ed) : (s.setEd e v).params = s.params := rfl
@[simp] theorem setEd_autoDrain (e : Nat) (v : Ed) : (s.setEd e v).autoDrain = s.autoDrain := rfl
@[simp] theorem setEd_started (e : Nat) (v : Ed) : (s.setEd e v).started = s.started := rfl
@[simp] theorem setEd_faultOvf (e : Nat) (v : Ed) : (s.setEd e v).faultOvf = s.faultOvf := rfl
@[simp] theorem setEd_cmdLost (e : Nat) (v : Ed) : (s.setEd e v).cmdLost = s.cmdLost := rfl
@[simp] theorem setEd_err (e : Nat) (v : Ed) : (s.setEd e v).err = s.err := rfl
@[simp] theorem setEd_arg0 (e : Nat) (v : Ed) : (s.setEd e v).arg0 = s.arg0 := rfl
@[simp] theorem setEd_arg1 (e : Nat) (v : Ed) : (s.setEd e v).arg1 = s.arg1 := rfl
@[simp] theorem setEd_arg2 (e : Nat) (v : Ed) : (s.setEd e v).arg2 = s.arg2 := rfl
@[simp] theorem setEd_arg3 (e : Nat) (v : Ed) : (s.setEd e v).arg3 = s.arg3 := rfl
@[simp] theorem setEd_res0 (e : Nat) (v : Ed) : (s.setEd e v).res0 = s.res0 := rfl
@[simp] theorem setEd_res1 (e : Nat) (v : Ed) : (s.setEd e v).res1 = s.res1 := rfl
@[simp] theorem setEd_res2 (e : Nat) (v : Ed) : (s.setEd e v).res2 = s.res2 := rfl
@[simp] theorem setEd_isr (e : Nat) (v : Ed) : (s.setEd e v).isr = s.isr := rfl
@[simp] theorem setEd_ier (e : Nat) (v : Ed) : (s.setEd e v).ier = s.ier := rfl
@[simp] theorem setEd_edt (e : Nat) (v : Ed) : (s.setEd e v).edt = tablePut {} s.edt e v := rfl
@[simp] theorem setEd_tdt (e : Nat) (v : Ed) : (s.setEd e v).tdt = s.tdt := rfl
@[simp] theorem setEd_idxValid (e : Nat) (v : Ed) : (s.setEd e v).idxValid = s.idxValid := rfl
@[simp] theorem setEd_place (e : Nat) (v : Ed) : (s.setEd e v).place = s.place := rfl
@[simp] theorem setEd_compq (e : Nat) (v : Ed) : (s.setEd e v).compq = s.compq := rfl
@[simp] theorem setEd_flog (e : Nat) (v : Ed) : (s.setEd e v).flog = s.flog := rfl
@[simp] theorem setEd_faultCount (e : Nat) (v : Ed) : (s.setEd e v).faultCount = s.faultCount := rfl
@[simp] theorem setEd_plock (e : Nat) (v : Ed) : (s.setEd e v).plock = s.plock := rfl
@[simp] theorem setEd_seq (e : Nat) (v : Ed) : (s.setEd e v).seq = s.seq := rfl
@[simp] theorem setEd_mem (e : Nat) (v : Ed) : (s.setEd e v).mem = s.mem := rfl
@[simp] theorem setEd_cache (e : Nat) (v : Ed) : (s.setEd e v).cache = s.cache := rfl
@[simp] theorem setEd_hc (e : Nat) (v : Ed) : (s.setEd e v).hc = s.hc := rfl
@[simp] theorem setEd_sched (e : Nat) (v : Ed) : (s.setEd e v).sched = s.sched := rfl
@[simp] theorem setEd_hostData (e : Nat) (v : Ed) : (s.setEd e v).hostData = s.hostData := rfl
@[simp] theorem setEd_draws (e : Nat) (v : Ed) : (s.setEd e v).draws = s.draws := rfl

/-! ### `State.setTd` -/

@[simp] theorem setTd_params (t : Nat) (v : Td) : (s.setTd t v).params = s.params := rfl
@[simp] theorem setTd_autoDrain (t : Nat) (v : Td) : (s.setTd t v).autoDrain = s.autoDrain := rfl
@[simp] theorem setTd_started (t : Nat) (v : Td) : (s.setTd t v).started = s.started := rfl
@[simp] theorem setTd_faultOvf (t : Nat) (v : Td) : (s.setTd t v).faultOvf = s.faultOvf := rfl
@[simp] theorem setTd_cmdLost (t : Nat) (v : Td) : (s.setTd t v).cmdLost = s.cmdLost := rfl
@[simp] theorem setTd_err (t : Nat) (v : Td) : (s.setTd t v).err = s.err := rfl
@[simp] theorem setTd_arg0 (t : Nat) (v : Td) : (s.setTd t v).arg0 = s.arg0 := rfl
@[simp] theorem setTd_arg1 (t : Nat) (v : Td) : (s.setTd t v).arg1 = s.arg1 := rfl
@[simp] theorem setTd_arg2 (t : Nat) (v : Td) : (s.setTd t v).arg2 = s.arg2 := rfl
@[simp] theorem setTd_arg3 (t : Nat) (v : Td) : (s.setTd t v).arg3 = s.arg3 := rfl
@[simp] theorem setTd_res0 (t : Nat) (v : Td) : (s.setTd t v).res0 = s.res0 := rfl
@[simp] theorem setTd_res1 (t : Nat) (v : Td) : (s.setTd t v).res1 = s.res1 := rfl
@[simp] theorem setTd_res2 (t : Nat) (v : Td) : (s.setTd t v).res2 = s.res2 := rfl
@[simp] theorem setTd_isr (t : Nat) (v : Td) : (s.setTd t v).isr = s.isr := rfl
@[simp] theorem setTd_ier (t : Nat) (v : Td) : (s.setTd t v).ier = s.ier := rfl
@[simp] theorem setTd_edt (t : Nat) (v : Td) : (s.setTd t v).edt = s.edt := rfl
@[simp] theorem setTd_tdt (t : Nat) (v : Td) : (s.setTd t v).tdt = tablePut {} s.tdt t v := rfl
@[simp] theorem setTd_idxValid (t : Nat) (v : Td) : (s.setTd t v).idxValid = s.idxValid := rfl
@[simp] theorem setTd_place (t : Nat) (v : Td) : (s.setTd t v).place = s.place := rfl
@[simp] theorem setTd_compq (t : Nat) (v : Td) : (s.setTd t v).compq = s.compq := rfl
@[simp] theorem setTd_flog (t : Nat) (v : Td) : (s.setTd t v).flog = s.flog := rfl
@[simp] theorem setTd_faultCount (t : Nat) (v : Td) : (s.setTd t v).faultCount = s.faultCount := rfl
@[simp] theorem setTd_plock (t : Nat) (v : Td) : (s.setTd t v).plock = s.plock := rfl
@[simp] theorem setTd_seq (t : Nat) (v : Td) : (s.setTd t v).seq = s.seq := rfl
@[simp] theorem setTd_mem (t : Nat) (v : Td) : (s.setTd t v).mem = s.mem := rfl
@[simp] theorem setTd_cache (t : Nat) (v : Td) : (s.setTd t v).cache = s.cache := rfl
@[simp] theorem setTd_hc (t : Nat) (v : Td) : (s.setTd t v).hc = s.hc := rfl
@[simp] theorem setTd_sched (t : Nat) (v : Td) : (s.setTd t v).sched = s.sched := rfl
@[simp] theorem setTd_hostData (t : Nat) (v : Td) : (s.setTd t v).hostData = s.hostData := rfl
@[simp] theorem setTd_draws (t : Nat) (v : Td) : (s.setTd t v).draws = s.draws := rfl

/-! ### `State.setIndexed` -/

@[simp] theorem setIndexed_params (t : Nat) (v : Bool) : (s.setIndexed t v).params = s.params := rfl
@[simp] theorem setIndexed_autoDrain (t : Nat) (v : Bool) : (s.setIndexed t v).autoDrain = s.autoDrain := rfl
@[simp] theorem setIndexed_started (t : Nat) (v : Bool) : (s.setIndexed t v).started = s.started := rfl
@[simp] theorem setIndexed_faultOvf (t : Nat) (v : Bool) : (s.setIndexed t v).faultOvf = s.faultOvf := rfl
@[simp] theorem setIndexed_cmdLost (t : Nat) (v : Bool) : (s.setIndexed t v).cmdLost = s.cmdLost := rfl
@[simp] theorem setIndexed_err (t : Nat) (v : Bool) : (s.setIndexed t v).err = s.err := rfl
@[simp] theorem setIndexed_arg0 (t : Nat) (v : Bool) : (s.setIndexed t v).arg0 = s.arg0 := rfl
@[simp] theorem setIndexed_arg1 (t : Nat) (v : Bool) : (s.setIndexed t v).arg1 = s.arg1 := rfl
@[simp] theorem setIndexed_arg2 (t : Nat) (v : Bool) : (s.setIndexed t v).arg2 = s.arg2 := rfl
@[simp] theorem setIndexed_arg3 (t : Nat) (v : Bool) : (s.setIndexed t v).arg3 = s.arg3 := rfl
@[simp] theorem setIndexed_res0 (t : Nat) (v : Bool) : (s.setIndexed t v).res0 = s.res0 := rfl
@[simp] theorem setIndexed_res1 (t : Nat) (v : Bool) : (s.setIndexed t v).res1 = s.res1 := rfl
@[simp] theorem setIndexed_res2 (t : Nat) (v : Bool) : (s.setIndexed t v).res2 = s.res2 := rfl
@[simp] theorem setIndexed_isr (t : Nat) (v : Bool) : (s.setIndexed t v).isr = s.isr := rfl
@[simp] theorem setIndexed_ier (t : Nat) (v : Bool) : (s.setIndexed t v).ier = s.ier := rfl
@[simp] theorem setIndexed_edt (t : Nat) (v : Bool) : (s.setIndexed t v).edt = s.edt := rfl
@[simp] theorem setIndexed_tdt (t : Nat) (v : Bool) : (s.setIndexed t v).tdt = s.tdt := rfl
@[simp] theorem setIndexed_idxValid (t : Nat) (v : Bool) : (s.setIndexed t v).idxValid = tablePut false s.idxValid t v := rfl
@[simp] theorem setIndexed_place (t : Nat) (v : Bool) : (s.setIndexed t v).place = s.place := rfl
@[simp] theorem setIndexed_compq (t : Nat) (v : Bool) : (s.setIndexed t v).compq = s.compq := rfl
@[simp] theorem setIndexed_flog (t : Nat) (v : Bool) : (s.setIndexed t v).flog = s.flog := rfl
@[simp] theorem setIndexed_faultCount (t : Nat) (v : Bool) : (s.setIndexed t v).faultCount = s.faultCount := rfl
@[simp] theorem setIndexed_plock (t : Nat) (v : Bool) : (s.setIndexed t v).plock = s.plock := rfl
@[simp] theorem setIndexed_seq (t : Nat) (v : Bool) : (s.setIndexed t v).seq = s.seq := rfl
@[simp] theorem setIndexed_mem (t : Nat) (v : Bool) : (s.setIndexed t v).mem = s.mem := rfl
@[simp] theorem setIndexed_cache (t : Nat) (v : Bool) : (s.setIndexed t v).cache = s.cache := rfl
@[simp] theorem setIndexed_hc (t : Nat) (v : Bool) : (s.setIndexed t v).hc = s.hc := rfl
@[simp] theorem setIndexed_sched (t : Nat) (v : Bool) : (s.setIndexed t v).sched = s.sched := rfl
@[simp] theorem setIndexed_hostData (t : Nat) (v : Bool) : (s.setIndexed t v).hostData = s.hostData := rfl
@[simp] theorem setIndexed_draws (t : Nat) (v : Bool) : (s.setIndexed t v).draws = s.draws := rfl

/-! ### `State.setList` -/

@[simp] theorem setList_params (k : Nat) (l : List Nat) : (s.setList k l).params = s.params := rfl
@[simp] theorem setList_autoDrain (k : Nat) (l : List Nat) : (s.setList k l).autoDrain = s.autoDrain := rfl
@[simp] theorem setList_started (k : Nat) (l : List Nat) : (s.setList k l).started = s.started := rfl
@[simp] theorem setList_faultOvf (k : Nat) (l : List Nat) : (s.setList k l).faultOvf = s.faultOvf := rfl
@[simp] theorem setList_cmdLost (k : Nat) (l : List Nat) : (s.setList k l).cmdLost = s.cmdLost := rfl
@[simp] theorem setList_err (k : Nat) (l : List Nat) : (s.setList k l).err = s.err := rfl
@[simp] theorem setList_arg0 (k : Nat) (l : List Nat) : (s.setList k l).arg0 = s.arg0 := rfl
@[simp] theorem setList_arg1 (k : Nat) (l : List Nat) : (s.setList k l).arg1 = s.arg1 := rfl
@[simp] theorem setList_arg2 (k : Nat) (l : List Nat) : (s.setList k l).arg2 = s.arg2 := rfl
@[simp] theorem setList_arg3 (k : Nat) (l : List Nat) : (s.setList k l).arg3 = s.arg3 := rfl
@[simp] theorem setList_res0 (k : Nat) (l : List Nat) : (s.setList k l).res0 = s.res0 := rfl
@[simp] theorem setList_res1 (k : Nat) (l : List Nat) : (s.setList k l).res1 = s.res1 := rfl
@[simp] theorem setList_res2 (k : Nat) (l : List Nat) : (s.setList k l).res2 = s.res2 := rfl
@[simp] theorem setList_isr (k : Nat) (l : List Nat) : (s.setList k l).isr = s.isr := rfl
@[simp] theorem setList_ier (k : Nat) (l : List Nat) : (s.setList k l).ier = s.ier := rfl
@[simp] theorem setList_edt (k : Nat) (l : List Nat) : (s.setList k l).edt = s.edt := rfl
@[simp] theorem setList_tdt (k : Nat) (l : List Nat) : (s.setList k l).tdt = s.tdt := rfl
@[simp] theorem setList_idxValid (k : Nat) (l : List Nat) : (s.setList k l).idxValid = s.idxValid := rfl
@[simp] theorem setList_place (k : Nat) (l : List Nat) : (s.setList k l).place = tablePut [] s.place k l := rfl
@[simp] theorem setList_compq (k : Nat) (l : List Nat) : (s.setList k l).compq = s.compq := rfl
@[simp] theorem setList_flog (k : Nat) (l : List Nat) : (s.setList k l).flog = s.flog := rfl
@[simp] theorem setList_faultCount (k : Nat) (l : List Nat) : (s.setList k l).faultCount = s.faultCount := rfl
@[simp] theorem setList_plock (k : Nat) (l : List Nat) : (s.setList k l).plock = s.plock := rfl
@[simp] theorem setList_seq (k : Nat) (l : List Nat) : (s.setList k l).seq = s.seq := rfl
@[simp] theorem setList_mem (k : Nat) (l : List Nat) : (s.setList k l).mem = s.mem := rfl
@[simp] theorem setList_cache (k : Nat) (l : List Nat) : (s.setList k l).cache = s.cache := rfl
@[simp] theorem setList_hc (k : Nat) (l : List Nat) : (s.setList k l).hc = s.hc := rfl
@[simp] theorem setList_sched (k : Nat) (l : List Nat) : (s.setList k l).sched = s.sched := rfl
@[simp] theorem setList_hostData (k : Nat) (l : List Nat) : (s.setList k l).hostData = s.hostData := rfl
@[simp] theorem setList_draws (k : Nat) (l : List Nat) : (s.setList k l).draws = s.draws := rfl

/-! ### `State.freeTd` -/

@[simp] theorem freeTd_params (t : Nat) : (s.freeTd t).params = s.params := rfl
@[simp] theorem freeTd_autoDrain (t : Nat) : (s.freeTd t).autoDrain = s.autoDrain := rfl
@[simp] theorem freeTd_started (t : Nat) : (s.freeTd t).started = s.started := rfl
@[simp] theorem freeTd_faultOvf (t : Nat) : (s.freeTd t).faultOvf = s.faultOvf := rfl
@[simp] theorem freeTd_cmdLost (t : Nat) : (s.freeTd t).cmdLost = s.cmdLost := rfl
@[simp] theorem freeTd_err (t : Nat) : (s.freeTd t).err = s.err := rfl
@[simp] theorem freeTd_arg0 (t : Nat) : (s.freeTd t).arg0 = s.arg0 := rfl
@[simp] theorem freeTd_arg1 (t : Nat) : (s.freeTd t).arg1 = s.arg1 := rfl
@[simp] theorem freeTd_arg2 (t : Nat) : (s.freeTd t).arg2 = s.arg2 := rfl
@[simp] theorem freeTd_arg3 (t : Nat) : (s.freeTd t).arg3 = s.arg3 := rfl
@[simp] theorem freeTd_res0 (t : Nat) : (s.freeTd t).res0 = s.res0 := rfl
@[simp] theorem freeTd_res1 (t : Nat) : (s.freeTd t).res1 = s.res1 := rfl
@[simp] theorem freeTd_res2 (t : Nat) : (s.freeTd t).res2 = s.res2 := rfl
@[simp] theorem freeTd_isr (t : Nat) : (s.freeTd t).isr = s.isr := rfl
@[simp] theorem freeTd_ier (t : Nat) : (s.freeTd t).ier = s.ier := rfl
@[simp] theorem freeTd_edt (t : Nat) : (s.freeTd t).edt = s.edt := rfl
@[simp] theorem freeTd_idxValid (t : Nat) : (s.freeTd t).idxValid = tablePut false s.idxValid t false := rfl
@[simp] theorem freeTd_place (t : Nat) : (s.freeTd t).place = s.place := rfl
@[simp] theorem freeTd_compq (t : Nat) : (s.freeTd t).compq = s.compq := rfl
@[simp] theorem freeTd_flog (t : Nat) : (s.freeTd t).flog = s.flog := rfl
@[simp] theorem freeTd_faultCount (t : Nat) : (s.freeTd t).faultCount = s.faultCount := rfl
@[simp] theorem freeTd_plock (t : Nat) : (s.freeTd t).plock = s.plock := rfl
@[simp] theorem freeTd_seq (t : Nat) : (s.freeTd t).seq = s.seq := rfl
@[simp] theorem freeTd_mem (t : Nat) : (s.freeTd t).mem = s.mem := rfl
@[simp] theorem freeTd_cache (t : Nat) : (s.freeTd t).cache = s.cache := rfl
@[simp] theorem freeTd_hc (t : Nat) : (s.freeTd t).hc = s.hc := rfl
@[simp] theorem freeTd_sched (t : Nat) : (s.freeTd t).sched = s.sched := rfl
@[simp] theorem freeTd_hostData (t : Nat) : (s.freeTd t).hostData = s.hostData := rfl
@[simp] theorem freeTd_draws (t : Nat) : (s.freeTd t).draws = s.draws := rfl

/-! ### `State.freeEd` -/

@[simp] theorem freeEd_params (e : Nat) : (s.freeEd e).params = s.params := rfl
@[simp] theorem freeEd_autoDrain (e : Nat) : (s.freeEd e).autoDrain = s.autoDrain := rfl
@[simp] theorem freeEd_started (e : Nat) : (s.freeEd e).started = s.started := rfl
@[simp] theorem freeEd_faultOvf (e : Nat) : (s.freeEd e).faultOvf = s.faultOvf := rfl
@[simp] theorem freeEd_cmdLost (e : Nat) : (s.freeEd e).cmdLost = s.cmdLost := rfl
@[simp] theorem freeEd_err (e : Nat) : (s.freeEd e).err = s.err := rfl
@[simp] theorem freeEd_arg0 (e : Nat) : (s.freeEd e).arg0 = s.arg0 := rfl
@[simp] theorem freeEd_arg1 (e : Nat) : (s.freeEd e).arg1 = s.arg1 := rfl
@[simp] theorem freeEd_arg2 (e : Nat) : (s.freeEd e).arg2 = s.arg2 := rfl
@[simp] theorem freeEd_arg3 (e : Nat) : (s.freeEd e).arg3 = s.arg3 := rfl
@[simp] theorem freeEd_res0 (e : Nat) : (s.freeEd e).res0 = s.res0 := rfl
@[simp] theorem freeEd_res1 (e : Nat) : (s.freeEd e).res1 = s.res1 := rfl
@[simp] theorem freeEd_res2 (e : Nat) : (s.freeEd e).res2 = s.res2 := rfl
@[simp] theorem freeEd_isr (e : Nat) : (s.freeEd e).isr = s.isr := rfl
@[simp] theorem freeEd_ier (e : Nat) : (s.freeEd e).ier = s.ier := rfl
@[simp] theorem freeEd_tdt (e : Nat) : (s.freeEd e).tdt = s.tdt := rfl
@[simp] theorem freeEd_idxValid (e : Nat) : (s.freeEd e).idxValid = s.idxValid := rfl
@[simp] theorem freeEd_place (e : Nat) : (s.freeEd e).place = s.place := rfl
@[simp] theorem freeEd_compq (e : Nat) : (s.freeEd e).compq = s.compq := rfl
@[simp] theorem freeEd_flog (e : Nat) : (s.freeEd e).flog = s.flog := rfl
@[simp] theorem freeEd_faultCount (e : Nat) : (s.freeEd e).faultCount = s.faultCount := rfl
@[simp] theorem freeEd_plock (e : Nat) : (s.freeEd e).plock = s.plock := rfl
@[simp] theorem freeEd_seq (e : Nat) : (s.freeEd e).seq = s.seq := rfl
@[simp] theorem freeEd_mem (e : Nat) : (s.freeEd e).mem = s.mem := rfl
@[simp] theorem freeEd_cache (e : Nat) : (s.freeEd e).cache = s.cache := rfl
@[simp] theorem freeEd_hc (e : Nat) : (s.freeEd e).hc = s.hc := rfl
@[simp] theorem freeEd_sched (e : Nat) : (s.freeEd e).sched = s.sched := rfl
@[simp] theorem freeEd_hostData (e : Nat) : (s.freeEd e).hostData = s.hostData := rfl
@[simp] theorem freeEd_draws (e : Nat) : (s.freeEd e).draws = s.draws := rfl

/-! ### `State.raiseIsr` -/

@[simp] theorem raiseIsr_params (b : BitVec 4) : (s.raiseIsr b).params = s.params := rfl
@[simp] theorem raiseIsr_autoDrain (b : BitVec 4) : (s.raiseIsr b).autoDrain = s.autoDrain := rfl
@[simp] theorem raiseIsr_started (b : BitVec 4) : (s.raiseIsr b).started = s.started := rfl
@[simp] theorem raiseIsr_faultOvf (b : BitVec 4) : (s.raiseIsr b).faultOvf = s.faultOvf := rfl
@[simp] theorem raiseIsr_cmdLost (b : BitVec 4) : (s.raiseIsr b).cmdLost = s.cmdLost := rfl
@[simp] theorem raiseIsr_err (b : BitVec 4) : (s.raiseIsr b).err = s.err := rfl
@[simp] theorem raiseIsr_arg0 (b : BitVec 4) : (s.raiseIsr b).arg0 = s.arg0 := rfl
@[simp] theorem raiseIsr_arg1 (b : BitVec 4) : (s.raiseIsr b).arg1 = s.arg1 := rfl
@[simp] theorem raiseIsr_arg2 (b : BitVec 4) : (s.raiseIsr b).arg2 = s.arg2 := rfl
@[simp] theorem raiseIsr_arg3 (b : BitVec 4) : (s.raiseIsr b).arg3 = s.arg3 := rfl
@[simp] theorem raiseIsr_res0 (b : BitVec 4) : (s.raiseIsr b).res0 = s.res0 := rfl
@[simp] theorem raiseIsr_res1 (b : BitVec 4) : (s.raiseIsr b).res1 = s.res1 := rfl
@[simp] theorem raiseIsr_res2 (b : BitVec 4) : (s.raiseIsr b).res2 = s.res2 := rfl
@[simp] theorem raiseIsr_isr (b : BitVec 4) : (s.raiseIsr b).isr = s.isr ||| b := rfl
@[simp] theorem raiseIsr_ier (b : BitVec 4) : (s.raiseIsr b).ier = s.ier := rfl
@[simp] theorem raiseIsr_edt (b : BitVec 4) : (s.raiseIsr b).edt = s.edt := rfl
@[simp] theorem raiseIsr_tdt (b : BitVec 4) : (s.raiseIsr b).tdt = s.tdt := rfl
@[simp] theorem raiseIsr_idxValid (b : BitVec 4) : (s.raiseIsr b).idxValid = s.idxValid := rfl
@[simp] theorem raiseIsr_place (b : BitVec 4) : (s.raiseIsr b).place = s.place := rfl
@[simp] theorem raiseIsr_compq (b : BitVec 4) : (s.raiseIsr b).compq = s.compq := rfl
@[simp] theorem raiseIsr_flog (b : BitVec 4) : (s.raiseIsr b).flog = s.flog := rfl
@[simp] theorem raiseIsr_faultCount (b : BitVec 4) : (s.raiseIsr b).faultCount = s.faultCount := rfl
@[simp] theorem raiseIsr_plock (b : BitVec 4) : (s.raiseIsr b).plock = s.plock := rfl
@[simp] theorem raiseIsr_seq (b : BitVec 4) : (s.raiseIsr b).seq = s.seq := rfl
@[simp] theorem raiseIsr_mem (b : BitVec 4) : (s.raiseIsr b).mem = s.mem := rfl
@[simp] theorem raiseIsr_cache (b : BitVec 4) : (s.raiseIsr b).cache = s.cache := rfl
@[simp] theorem raiseIsr_hc (b : BitVec 4) : (s.raiseIsr b).hc = s.hc := rfl
@[simp] theorem raiseIsr_sched (b : BitVec 4) : (s.raiseIsr b).sched = s.sched := rfl
@[simp] theorem raiseIsr_hostData (b : BitVec 4) : (s.raiseIsr b).hostData = s.hostData := rfl
@[simp] theorem raiseIsr_draws (b : BitVec 4) : (s.raiseIsr b).draws = s.draws := rfl

/-! ### `State.accept` -/

@[simp] theorem accept_params (w : Word) : (s.accept w).params = s.params := rfl
@[simp] theorem accept_autoDrain (w : Word) : (s.accept w).autoDrain = s.autoDrain := rfl
@[simp] theorem accept_started (w : Word) : (s.accept w).started = s.started := rfl
@[simp] theorem accept_faultOvf (w : Word) : (s.accept w).faultOvf = s.faultOvf := rfl
@[simp] theorem accept_cmdLost (w : Word) : (s.accept w).cmdLost = false := rfl
@[simp] theorem accept_err (w : Word) : (s.accept w).err = s.err := rfl
@[simp] theorem accept_arg0 (w : Word) : (s.accept w).arg0 = s.arg0 := rfl
@[simp] theorem accept_arg1 (w : Word) : (s.accept w).arg1 = s.arg1 := rfl
@[simp] theorem accept_arg2 (w : Word) : (s.accept w).arg2 = s.arg2 := rfl
@[simp] theorem accept_arg3 (w : Word) : (s.accept w).arg3 = s.arg3 := rfl
@[simp] theorem accept_res0 (w : Word) : (s.accept w).res0 = s.res0 := rfl
@[simp] theorem accept_res1 (w : Word) : (s.accept w).res1 = s.res1 := rfl
@[simp] theorem accept_res2 (w : Word) : (s.accept w).res2 = s.res2 := rfl
@[simp] theorem accept_isr (w : Word) : (s.accept w).isr = s.isr := rfl
@[simp] theorem accept_ier (w : Word) : (s.accept w).ier = s.ier := rfl
@[simp] theorem accept_edt (w : Word) : (s.accept w).edt = s.edt := rfl
@[simp] theorem accept_tdt (w : Word) : (s.accept w).tdt = s.tdt := rfl
@[simp] theorem accept_idxValid (w : Word) : (s.accept w).idxValid = s.idxValid := rfl
@[simp] theorem accept_place (w : Word) : (s.accept w).place = s.place := rfl
@[simp] theorem accept_compq (w : Word) : (s.accept w).compq = s.compq := rfl
@[simp] theorem accept_flog (w : Word) : (s.accept w).flog = s.flog := rfl
@[simp] theorem accept_faultCount (w : Word) : (s.accept w).faultCount = s.faultCount := rfl
@[simp] theorem accept_plock (w : Word) : (s.accept w).plock = s.plock := rfl
@[simp] theorem accept_mem (w : Word) : (s.accept w).mem = s.mem := rfl
@[simp] theorem accept_cache (w : Word) : (s.accept w).cache = s.cache := rfl
@[simp] theorem accept_hc (w : Word) : (s.accept w).hc = s.hc := rfl
@[simp] theorem accept_sched (w : Word) : (s.accept w).sched = s.sched := rfl
@[simp] theorem accept_hostData (w : Word) : (s.accept w).hostData = s.hostData := rfl
@[simp] theorem accept_draws (w : Word) : (s.accept w).draws = s.draws := rfl

/-! ### `State.writeResults` -/

@[simp] theorem writeResults_params (r : Results) : (s.writeResults r).params = s.params := rfl
@[simp] theorem writeResults_autoDrain (r : Results) : (s.writeResults r).autoDrain = s.autoDrain := rfl
@[simp] theorem writeResults_started (r : Results) : (s.writeResults r).started = s.started := rfl
@[simp] theorem writeResults_faultOvf (r : Results) : (s.writeResults r).faultOvf = s.faultOvf := rfl
@[simp] theorem writeResults_cmdLost (r : Results) : (s.writeResults r).cmdLost = s.cmdLost := rfl
@[simp] theorem writeResults_err (r : Results) : (s.writeResults r).err = s.err := rfl
@[simp] theorem writeResults_arg0 (r : Results) : (s.writeResults r).arg0 = s.arg0 := rfl
@[simp] theorem writeResults_arg1 (r : Results) : (s.writeResults r).arg1 = s.arg1 := rfl
@[simp] theorem writeResults_arg2 (r : Results) : (s.writeResults r).arg2 = s.arg2 := rfl
@[simp] theorem writeResults_arg3 (r : Results) : (s.writeResults r).arg3 = s.arg3 := rfl
@[simp] theorem writeResults_res0 (r : Results) : (s.writeResults r).res0 = resultWord s.draws 0 r.res0 := rfl
@[simp] theorem writeResults_res1 (r : Results) : (s.writeResults r).res1 = resultWord s.draws 1 r.res1 := rfl
@[simp] theorem writeResults_res2 (r : Results) : (s.writeResults r).res2 = resultWord s.draws 2 r.res2 := rfl
@[simp] theorem writeResults_isr (r : Results) : (s.writeResults r).isr = s.isr := rfl
@[simp] theorem writeResults_ier (r : Results) : (s.writeResults r).ier = s.ier := rfl
@[simp] theorem writeResults_edt (r : Results) : (s.writeResults r).edt = s.edt := rfl
@[simp] theorem writeResults_tdt (r : Results) : (s.writeResults r).tdt = s.tdt := rfl
@[simp] theorem writeResults_idxValid (r : Results) : (s.writeResults r).idxValid = s.idxValid := rfl
@[simp] theorem writeResults_place (r : Results) : (s.writeResults r).place = s.place := rfl
@[simp] theorem writeResults_compq (r : Results) : (s.writeResults r).compq = s.compq := rfl
@[simp] theorem writeResults_flog (r : Results) : (s.writeResults r).flog = s.flog := rfl
@[simp] theorem writeResults_faultCount (r : Results) : (s.writeResults r).faultCount = s.faultCount := rfl
@[simp] theorem writeResults_plock (r : Results) : (s.writeResults r).plock = s.plock := rfl
@[simp] theorem writeResults_seq (r : Results) : (s.writeResults r).seq = s.seq := rfl
@[simp] theorem writeResults_mem (r : Results) : (s.writeResults r).mem = s.mem := rfl
@[simp] theorem writeResults_cache (r : Results) : (s.writeResults r).cache = s.cache := rfl
@[simp] theorem writeResults_hc (r : Results) : (s.writeResults r).hc = s.hc := rfl
@[simp] theorem writeResults_sched (r : Results) : (s.writeResults r).sched = s.sched := rfl
@[simp] theorem writeResults_hostData (r : Results) : (s.writeResults r).hostData = s.hostData := rfl

/-! ### `State.logFault` -/

@[simp] theorem logFault_params (c : FaultCode) (i : Word) : (s.logFault c i).params = s.params := rfl
@[simp] theorem logFault_autoDrain (c : FaultCode) (i : Word) : (s.logFault c i).autoDrain = s.autoDrain := rfl
@[simp] theorem logFault_started (c : FaultCode) (i : Word) : (s.logFault c i).started = s.started := rfl
@[simp] theorem logFault_cmdLost (c : FaultCode) (i : Word) : (s.logFault c i).cmdLost = s.cmdLost := rfl
@[simp] theorem logFault_err (c : FaultCode) (i : Word) : (s.logFault c i).err = s.err := rfl
@[simp] theorem logFault_arg0 (c : FaultCode) (i : Word) : (s.logFault c i).arg0 = s.arg0 := rfl
@[simp] theorem logFault_arg1 (c : FaultCode) (i : Word) : (s.logFault c i).arg1 = s.arg1 := rfl
@[simp] theorem logFault_arg2 (c : FaultCode) (i : Word) : (s.logFault c i).arg2 = s.arg2 := rfl
@[simp] theorem logFault_arg3 (c : FaultCode) (i : Word) : (s.logFault c i).arg3 = s.arg3 := rfl
@[simp] theorem logFault_res0 (c : FaultCode) (i : Word) : (s.logFault c i).res0 = s.res0 := rfl
@[simp] theorem logFault_res1 (c : FaultCode) (i : Word) : (s.logFault c i).res1 = s.res1 := rfl
@[simp] theorem logFault_res2 (c : FaultCode) (i : Word) : (s.logFault c i).res2 = s.res2 := rfl
@[simp] theorem logFault_isr (c : FaultCode) (i : Word) : (s.logFault c i).isr = s.isr ||| faultBit := rfl
@[simp] theorem logFault_ier (c : FaultCode) (i : Word) : (s.logFault c i).ier = s.ier := rfl
@[simp] theorem logFault_edt (c : FaultCode) (i : Word) : (s.logFault c i).edt = s.edt := rfl
@[simp] theorem logFault_tdt (c : FaultCode) (i : Word) : (s.logFault c i).tdt = s.tdt := rfl
@[simp] theorem logFault_idxValid (c : FaultCode) (i : Word) : (s.logFault c i).idxValid = s.idxValid := rfl
@[simp] theorem logFault_place (c : FaultCode) (i : Word) : (s.logFault c i).place = s.place := rfl
@[simp] theorem logFault_compq (c : FaultCode) (i : Word) : (s.logFault c i).compq = s.compq := rfl
@[simp] theorem logFault_plock (c : FaultCode) (i : Word) : (s.logFault c i).plock = s.plock := rfl
@[simp] theorem logFault_seq (c : FaultCode) (i : Word) : (s.logFault c i).seq = s.seq := rfl
@[simp] theorem logFault_mem (c : FaultCode) (i : Word) : (s.logFault c i).mem = s.mem := rfl
@[simp] theorem logFault_cache (c : FaultCode) (i : Word) : (s.logFault c i).cache = s.cache := rfl
@[simp] theorem logFault_hc (c : FaultCode) (i : Word) : (s.logFault c i).hc = s.hc := rfl
@[simp] theorem logFault_sched (c : FaultCode) (i : Word) : (s.logFault c i).sched = s.sched := rfl
@[simp] theorem logFault_hostData (c : FaultCode) (i : Word) : (s.logFault c i).hostData = s.hostData := rfl
@[simp] theorem logFault_draws (c : FaultCode) (i : Word) : (s.logFault c i).draws = s.draws := rfl

/-! ### `State.endCommand` -/

@[simp] theorem endCommand_params (e : ErrCode) : (s.endCommand e).params = s.params := rfl
@[simp] theorem endCommand_autoDrain (e : ErrCode) : (s.endCommand e).autoDrain = s.autoDrain := rfl
@[simp] theorem endCommand_started (e : ErrCode) : (s.endCommand e).started = s.started := rfl
@[simp] theorem endCommand_faultOvf (e : ErrCode) : (s.endCommand e).faultOvf = s.faultOvf := rfl
@[simp] theorem endCommand_cmdLost (e : ErrCode) : (s.endCommand e).cmdLost = s.cmdLost := rfl
@[simp] theorem endCommand_err (e : ErrCode) : (s.endCommand e).err = e := rfl
@[simp] theorem endCommand_arg0 (e : ErrCode) : (s.endCommand e).arg0 = s.arg0 := rfl
@[simp] theorem endCommand_arg1 (e : ErrCode) : (s.endCommand e).arg1 = s.arg1 := rfl
@[simp] theorem endCommand_arg2 (e : ErrCode) : (s.endCommand e).arg2 = s.arg2 := rfl
@[simp] theorem endCommand_arg3 (e : ErrCode) : (s.endCommand e).arg3 = s.arg3 := rfl
@[simp] theorem endCommand_res0 (e : ErrCode) : (s.endCommand e).res0 = s.res0 := rfl
@[simp] theorem endCommand_res1 (e : ErrCode) : (s.endCommand e).res1 = s.res1 := rfl
@[simp] theorem endCommand_res2 (e : ErrCode) : (s.endCommand e).res2 = s.res2 := rfl
@[simp] theorem endCommand_isr (e : ErrCode) : (s.endCommand e).isr = s.isr ||| cmdDoneBit := rfl
@[simp] theorem endCommand_ier (e : ErrCode) : (s.endCommand e).ier = s.ier := rfl
@[simp] theorem endCommand_edt (e : ErrCode) : (s.endCommand e).edt = s.edt := rfl
@[simp] theorem endCommand_tdt (e : ErrCode) : (s.endCommand e).tdt = s.tdt := rfl
@[simp] theorem endCommand_idxValid (e : ErrCode) : (s.endCommand e).idxValid = s.idxValid := rfl
@[simp] theorem endCommand_place (e : ErrCode) : (s.endCommand e).place = s.place := rfl
@[simp] theorem endCommand_compq (e : ErrCode) : (s.endCommand e).compq = s.compq := rfl
@[simp] theorem endCommand_flog (e : ErrCode) : (s.endCommand e).flog = s.flog := rfl
@[simp] theorem endCommand_faultCount (e : ErrCode) : (s.endCommand e).faultCount = s.faultCount := rfl
@[simp] theorem endCommand_plock (e : ErrCode) : (s.endCommand e).plock = false := rfl
@[simp] theorem endCommand_seq (e : ErrCode) : (s.endCommand e).seq = .idle := rfl
@[simp] theorem endCommand_mem (e : ErrCode) : (s.endCommand e).mem = s.mem := rfl
@[simp] theorem endCommand_cache (e : ErrCode) : (s.endCommand e).cache = s.cache := rfl
@[simp] theorem endCommand_hc (e : ErrCode) : (s.endCommand e).hc = s.hc := rfl
@[simp] theorem endCommand_sched (e : ErrCode) : (s.endCommand e).sched = s.sched := rfl
@[simp] theorem endCommand_hostData (e : ErrCode) : (s.endCommand e).hostData = s.hostData := rfl
@[simp] theorem endCommand_draws (e : ErrCode) : (s.endCommand e).draws = s.draws := rfl

/-! ### The tables after an update -/

@[simp] theorem setEd_ed_self (e : Nat) (v : Ed) : (s.setEd e v).ed e = v := tableGet_put_self _ _ _ _

theorem setEd_ed_ne {e e' : Nat} (h : e' ≠ e) (v : Ed) : (s.setEd e v).ed e' = s.ed e' :=
  tableGet_put_ne _ _ h _

@[simp] theorem setTd_td_self (t : Nat) (v : Td) : (s.setTd t v).td t = v := tableGet_put_self _ _ _ _

theorem setTd_td_ne {t t' : Nat} (h : t' ≠ t) (v : Td) : (s.setTd t v).td t' = s.td t' :=
  tableGet_put_ne _ _ h _

@[simp] theorem setIndexed_indexed_self (t : Nat) (v : Bool) : (s.setIndexed t v).indexed t = v :=
  tableGet_put_self _ _ _ _

theorem setIndexed_indexed_ne {t t' : Nat} (h : t' ≠ t) (v : Bool) :
    (s.setIndexed t v).indexed t' = s.indexed t' := tableGet_put_ne _ _ h _

@[simp] theorem setList_list_self (k : Nat) (l : List Nat) : (s.setList k l).list k = l :=
  tableGet_put_self _ _ _ _

theorem setList_list_ne {k k' : Nat} (h : k' ≠ k) (l : List Nat) : (s.setList k l).list k' = s.list k' :=
  tableGet_put_ne _ _ h _

@[simp] theorem physWrite_ed (a v : Word) (e' : Nat) : (s.physWrite a v).ed e' = s.ed e' := rfl
@[simp] theorem physWrite_td (a v : Word) (t' : Nat) : (s.physWrite a v).td t' = s.td t' := rfl
@[simp] theorem physWrite_indexed (a v : Word) (t' : Nat) : (s.physWrite a v).indexed t' = s.indexed t' := rfl
@[simp] theorem physWrite_list (a v : Word) (k' : Nat) : (s.physWrite a v).list k' = s.list k' := rfl
@[simp] theorem setLine_ed (b : Nat) (l : Line) (e' : Nat) : (s.setLine b l).ed e' = s.ed e' := rfl
@[simp] theorem setLine_td (b : Nat) (l : Line) (t' : Nat) : (s.setLine b l).td t' = s.td t' := rfl
@[simp] theorem setLine_indexed (b : Nat) (l : Line) (t' : Nat) : (s.setLine b l).indexed t' = s.indexed t' := rfl
@[simp] theorem setLine_list (b : Nat) (l : Line) (k' : Nat) : (s.setLine b l).list k' = s.list k' := rfl
@[simp] theorem dropLine_ed (b : Nat) (e' : Nat) : (s.dropLine b).ed e' = s.ed e' := rfl
@[simp] theorem dropLine_td (b : Nat) (t' : Nat) : (s.dropLine b).td t' = s.td t' := rfl
@[simp] theorem dropLine_indexed (b : Nat) (t' : Nat) : (s.dropLine b).indexed t' = s.indexed t' := rfl
@[simp] theorem dropLine_list (b : Nat) (k' : Nat) : (s.dropLine b).list k' = s.list k' := rfl
@[simp] theorem setEd_td (e : Nat) (v : Ed) (t' : Nat) : (s.setEd e v).td t' = s.td t' := rfl
@[simp] theorem setEd_indexed (e : Nat) (v : Ed) (t' : Nat) : (s.setEd e v).indexed t' = s.indexed t' := rfl
@[simp] theorem setEd_list (e : Nat) (v : Ed) (k' : Nat) : (s.setEd e v).list k' = s.list k' := rfl
@[simp] theorem setTd_ed (t : Nat) (v : Td) (e' : Nat) : (s.setTd t v).ed e' = s.ed e' := rfl
@[simp] theorem setTd_indexed (t : Nat) (v : Td) (t' : Nat) : (s.setTd t v).indexed t' = s.indexed t' := rfl
@[simp] theorem setTd_list (t : Nat) (v : Td) (k' : Nat) : (s.setTd t v).list k' = s.list k' := rfl
@[simp] theorem setIndexed_ed (t : Nat) (v : Bool) (e' : Nat) : (s.setIndexed t v).ed e' = s.ed e' := rfl
@[simp] theorem setIndexed_td (t : Nat) (v : Bool) (t' : Nat) : (s.setIndexed t v).td t' = s.td t' := rfl
@[simp] theorem setIndexed_list (t : Nat) (v : Bool) (k' : Nat) : (s.setIndexed t v).list k' = s.list k' := rfl
@[simp] theorem setList_ed (k : Nat) (l : List Nat) (e' : Nat) : (s.setList k l).ed e' = s.ed e' := rfl
@[simp] theorem setList_td (k : Nat) (l : List Nat) (t' : Nat) : (s.setList k l).td t' = s.td t' := rfl
@[simp] theorem setList_indexed (k : Nat) (l : List Nat) (t' : Nat) : (s.setList k l).indexed t' = s.indexed t' := rfl
@[simp] theorem freeTd_ed (t : Nat) (e' : Nat) : (s.freeTd t).ed e' = s.ed e' := rfl
@[simp] theorem freeTd_list (t : Nat) (k' : Nat) : (s.freeTd t).list k' = s.list k' := rfl
@[simp] theorem freeEd_td (e : Nat) (t' : Nat) : (s.freeEd e).td t' = s.td t' := rfl
@[simp] theorem freeEd_indexed (e : Nat) (t' : Nat) : (s.freeEd e).indexed t' = s.indexed t' := rfl
@[simp] theorem freeEd_list (e : Nat) (k' : Nat) : (s.freeEd e).list k' = s.list k' := rfl
@[simp] theorem raiseIsr_ed (b : BitVec 4) (e' : Nat) : (s.raiseIsr b).ed e' = s.ed e' := rfl
@[simp] theorem raiseIsr_td (b : BitVec 4) (t' : Nat) : (s.raiseIsr b).td t' = s.td t' := rfl
@[simp] theorem raiseIsr_indexed (b : BitVec 4) (t' : Nat) : (s.raiseIsr b).indexed t' = s.indexed t' := rfl
@[simp] theorem raiseIsr_list (b : BitVec 4) (k' : Nat) : (s.raiseIsr b).list k' = s.list k' := rfl
@[simp] theorem accept_ed (w : Word) (e' : Nat) : (s.accept w).ed e' = s.ed e' := rfl
@[simp] theorem accept_td (w : Word) (t' : Nat) : (s.accept w).td t' = s.td t' := rfl
@[simp] theorem accept_indexed (w : Word) (t' : Nat) : (s.accept w).indexed t' = s.indexed t' := rfl
@[simp] theorem accept_list (w : Word) (k' : Nat) : (s.accept w).list k' = s.list k' := rfl
@[simp] theorem writeResults_ed (r : Results) (e' : Nat) : (s.writeResults r).ed e' = s.ed e' := rfl
@[simp] theorem writeResults_td (r : Results) (t' : Nat) : (s.writeResults r).td t' = s.td t' := rfl
@[simp] theorem writeResults_indexed (r : Results) (t' : Nat) : (s.writeResults r).indexed t' = s.indexed t' := rfl
@[simp] theorem writeResults_list (r : Results) (k' : Nat) : (s.writeResults r).list k' = s.list k' := rfl
@[simp] theorem logFault_ed (c : FaultCode) (i : Word) (e' : Nat) : (s.logFault c i).ed e' = s.ed e' := rfl
@[simp] theorem logFault_td (c : FaultCode) (i : Word) (t' : Nat) : (s.logFault c i).td t' = s.td t' := rfl
@[simp] theorem logFault_indexed (c : FaultCode) (i : Word) (t' : Nat) : (s.logFault c i).indexed t' = s.indexed t' := rfl
@[simp] theorem logFault_list (c : FaultCode) (i : Word) (k' : Nat) : (s.logFault c i).list k' = s.list k' := rfl
@[simp] theorem endCommand_ed (e : ErrCode) (e' : Nat) : (s.endCommand e).ed e' = s.ed e' := rfl
@[simp] theorem endCommand_td (e : ErrCode) (t' : Nat) : (s.endCommand e).td t' = s.td t' := rfl
@[simp] theorem endCommand_indexed (e : ErrCode) (t' : Nat) : (s.endCommand e).indexed t' = s.indexed t' := rfl
@[simp] theorem endCommand_list (e : ErrCode) (k' : Nat) : (s.endCommand e).list k' = s.list k' := rfl

/-- A free slot keeps what it held but for `alloc` (40_endpoint.md R219). -/
@[simp] theorem freeTd_td_self (t : Nat) :
    (s.freeTd t).td t = { s.td t with alloc := false } := setTd_td_self s t _

theorem freeTd_td_ne {t t' : Nat} (h : t' ≠ t) : (s.freeTd t).td t' = s.td t' := setTd_td_ne s h _

@[simp] theorem freeTd_indexed_self (t : Nat) : (s.freeTd t).indexed t = false :=
  setIndexed_indexed_self _ t _

theorem freeTd_indexed_ne {t t' : Nat} (h : t' ≠ t) : (s.freeTd t).indexed t' = s.indexed t' :=
  setIndexed_indexed_ne _ h _

@[simp] theorem freeEd_ed_self (e : Nat) :
    (s.freeEd e).ed e = { s.ed e with alloc := false } := setEd_ed_self s e _

theorem freeEd_ed_ne {e e' : Nat} (h : e' ≠ e) : (s.freeEd e).ed e' = s.ed e' := setEd_ed_ne s h _

/-- Freeing several slots changes the TD table and the index table alone. -/
theorem freeTds_frame (ts : List Nat) :
    s.freeTds ts = { s with tdt := (s.freeTds ts).tdt, idxValid := (s.freeTds ts).idxValid } := by
  induction ts generalizing s with
  | nil => rfl
  | cons t rest ih =>
    have h : s.freeTds (t :: rest) = (s.freeTd t).freeTds rest := rfl
    rw [h, ih (s.freeTd t)]
    rfl

/-- Each freed slot is free, every other slot is as before. -/
theorem freeTds_td (ts : List Nat) (t : Nat) :
    (s.freeTds ts).td t = if t ∈ ts then { s.td t with alloc := false } else s.td t := by
  induction ts generalizing s with
  | nil => rfl
  | cons u rest ih =>
    have h : s.freeTds (u :: rest) = (s.freeTd u).freeTds rest := rfl
    rw [h, ih (s.freeTd u)]
    by_cases hu : t = u
    · subst hu; simp
    · rw [freeTd_td_ne s hu]; simp [hu]

theorem freeTds_indexed (ts : List Nat) (t : Nat) :
    (s.freeTds ts).indexed t = if t ∈ ts then false else s.indexed t := by
  induction ts generalizing s with
  | nil => rfl
  | cons u rest ih =>
    have h : s.freeTds (u :: rest) = (s.freeTd u).freeTds rest := rfl
    rw [h, ih (s.freeTd u)]
    by_cases hu : t = u
    · subst hu; simp
    · rw [freeTd_indexed_ne s hu]; simp [hu]

/-! ### The fault log (60_exceptions.md R456) -/

/-- The record is appended where there is room. -/
theorem logFault_room {c : FaultCode} {i : Word} (h : s.flog.length < s.params.faultDepth) :
    (s.logFault c i).flog = s.flog ++ [⟨c, i⟩] ∧ (s.logFault c i).faultOvf = s.faultOvf := by
  simp [State.logFault, h]

/-- The record is lost where there is none. -/
theorem logFault_full {c : FaultCode} {i : Word} (h : ¬ s.flog.length < s.params.faultDepth) :
    (s.logFault c i).flog = s.flog ∧ (s.logFault c i).faultOvf = true := by
  simp [State.logFault, h]

/-! ### Result registers (10_state.md R26, log 8) -/

/-- A result that fits its register is written as it is. -/
@[simp] theorem resultWord_fits {n : Nat} (h : n < 2 ^ 32) (draws reg : Nat) :
    resultWord draws reg n = BitVec.ofNat 32 n := by simp only [resultWord, if_pos h]

/-- Results that fit draw no free value. -/
theorem writeResults_draws_fits {r : Results} (h0 : r.res0 < 2 ^ 32) (h1 : r.res1 < 2 ^ 32)
    (h2 : r.res2 < 2 ^ 32) : (s.writeResults r).draws = s.draws :=
  if_pos ⟨h0, h1, h2⟩

end Sys2Proof.Machine
end

