-- ==== Sys2Proof/Laws/Agents.lean ====
section
/-! SUPPORT. What the other agents can touch: one lemma per operation that says which fields it can change.
The HC reaches memory and itself; the cache reaches memory, itself and, through the HC steps between the
words of a write-back, the HC; the host reaches the registers it may write. -/

namespace Sys2Proof.Machine

/-! ### The HC -/

/-- Two HC-shaped updates in a row are one. -/
theorem hcShape_trans {s s' s'' : State} (h : ∃ m c, s' = { s with mem := m, hc := c })
    (h' : ∃ m c, s'' = { s' with mem := m, hc := c }) :
    ∃ m c, s'' = { s with mem := m, hc := c } := by
  obtain ⟨m, c, rfl⟩ := h
  obtain ⟨m', c', rfl⟩ := h'
  exact ⟨m', c', rfl⟩

theorem servePhase_shape (s : State) (v : Serve) (ph : Phase) :
    ∃ m c, servePhase s v ph = { s with mem := m, hc := c } := ⟨_, _, rfl⟩

theorem physWrite_shape (s : State) (a v : Word) :
    ∃ m c, s.physWrite a v = { s with mem := m, hc := c } := ⟨_, s.hc, rfl⟩

theorem hcFrame_shape (wb : Option Bool) (s : State) :
    ∃ m c, hcFrame wb s = { s with mem := m, hc := c } := by
  unfold hcFrame
  split
  · exact ⟨s.mem, s.hc, rfl⟩
  · split
    · exact ⟨_, _, rfl⟩
    · unfold writeBackDone
      split <;> exact ⟨_, _, rfl⟩

theorem hcRestart_shape (b : Bool) (s : State) :
    ∃ m c, hcRestart b s = { s with mem := m, hc := c } := by
  unfold hcRestart
  split_ifs <;> exact ⟨s.mem, _, rfl⟩

theorem hcServe_shape (p : Pos) (s : State) :
    ∃ m c, hcServe p s = { s with mem := m, hc := c } := by
  unfold hcServe
  split
  · exact ⟨s.mem, s.hc, rfl⟩
  · dsimp only
    split
    · exact ⟨_, _, rfl⟩
    · exact ⟨s.mem, s.hc, rfl⟩

theorem hcEvent_shape (s : State) : ∃ m c, hcEvent s = { s with mem := m, hc := c } := by
  unfold hcEvent
  split
  · exact ⟨s.mem, s.hc, rfl⟩
  · split <;> exact ⟨_, _, rfl⟩

theorem hcOutcome_shape (m : HcMove) (s : State) :
    ∃ w c, hcOutcome m s = { s with mem := w, hc := c } := by
  unfold hcOutcome
  split
  · exact ⟨s.mem, s.hc, rfl⟩
  · split
    · split
      · split
        · exact ⟨s.mem, s.hc, rfl⟩
        · exact ⟨_, _, rfl⟩
      · split
        · exact ⟨_, _, rfl⟩
        · exact ⟨s.mem, s.hc, rfl⟩
      · split
        · exact ⟨_, _, rfl⟩
        · exact ⟨s.mem, s.hc, rfl⟩
      · split
        · exact ⟨_, _, rfl⟩
        · exact ⟨s.mem, s.hc, rfl⟩
      · exact ⟨s.mem, s.hc, rfl⟩
    · exact ⟨s.mem, s.hc, rfl⟩

/-- An HC step changes memory and the HC alone (20_memory.md R120). -/
theorem hcMove_shape (m : HcMove) (s : State) :
    ∃ w c, hcMove m s = { s with mem := w, hc := c } := by
  cases m with
  | frame wb => exact hcFrame_shape wb s
  | restart b => exact hcRestart_shape b s
  | serve p => exact hcServe_shape p s
  | event => exact hcEvent_shape s
  | noProgress => exact hcOutcome_shape .noProgress s
  | progress cbp u => exact hcOutcome_shape (.progress cbp u) s
  | retire cc t ec cbp carry => exact hcOutcome_shape (.retire cc t ec cbp carry) s
  | data a b => exact hcOutcome_shape (.data a b) s
  | reserved off b =>
    simp only [hcMove]
    split
    · exact ⟨_, s.hc, rfl⟩
    · exact ⟨s.mem, s.hc, rfl⟩
  | status bits => exact ⟨s.mem, _, rfl⟩

theorem hcMoves_shape (ms : List HcMove) (s : State) :
    ∃ w c, hcMoves ms s = { s with mem := w, hc := c } := by
  induction ms generalizing s with
  | nil => exact ⟨s.mem, s.hc, rfl⟩
  | cons m rest ih => exact hcShape_trans (hcMove_shape m s) (ih (hcMove m s))

/-! ### The cache -/

theorem evictWords_shape (data : List Host.Cell) (ws : List Nat) (inter : List (List HcMove))
    (s : State) : ∃ w c, evictWords data ws inter s = { s with mem := w, hc := c } := by
  induction ws generalizing s inter with
  | nil => exact ⟨s.mem, s.hc, rfl⟩
  | cons a rest ih =>
    refine hcShape_trans (hcShape_trans (hcMoves_shape (inter.headD []) s) ?_) (ih inter.tail _)
    exact ⟨_, _, rfl⟩

/-- A step of the cache changes memory, the cache and the HC alone (20_memory.md R103, R104). -/
theorem cacheMove_shape (m : CacheMove) (s : State) :
    ∃ w k c, cacheMove m s = { s with mem := w, cache := k, hc := c } := by
  unfold cacheMove
  split
  · exact ⟨s.mem, s.cache, s.hc, rfl⟩
  · split
    · split
      · exact ⟨s.mem, s.cache, s.hc, rfl⟩
      · split
        · rename_i _ base inter _ l _ _
          obtain ⟨w, c, h⟩ := evictWords_shape l.data (writeBackWords s.params base l) inter s
          exact ⟨w, _, c, by rw [h]; rfl⟩
        · exact ⟨s.mem, s.cache, s.hc, rfl⟩
    · split
      · exact ⟨s.mem, s.cache, s.hc, rfl⟩
      · split
        · exact ⟨s.mem, s.cache, s.hc, rfl⟩
        · exact ⟨s.mem, _, s.hc, rfl⟩

/-! ### The block's accesses -/

/-- A read changes the cache alone. -/
theorem touch_shape (s : State) (a : Nat) : ∃ k, s.touch a = { s with cache := k } := by
  unfold State.touch
  split
  · exact ⟨s.cache, rfl⟩
  · exact ⟨_, rfl⟩

/-- A write changes the cache, or memory where there is no cache. -/
theorem cacheStore_shape (s : State) (a v : Word) :
    ∃ w k, s.cacheStore a v = { s with mem := w, cache := k } := by
  unfold State.cacheStore
  split
  · exact ⟨_, s.cache, rfl⟩
  · exact ⟨s.mem, _, rfl⟩

theorem cacheStoreByte_shape (s : State) (a : Nat) (b : Byte) :
    ∃ w k, s.cacheStoreByte a b = { s with mem := w, cache := k } := by
  unfold State.cacheStoreByte
  split
  · exact ⟨_, s.cache, rfl⟩
  · exact ⟨s.mem, _, rfl⟩

theorem invalLine_shape (s : State) (b : Nat) : ∃ k, s.invalLine b = { s with cache := k } := by
  unfold State.invalLine
  split
  · exact ⟨s.cache, rfl⟩
  · exact ⟨_, rfl⟩

theorem hcLead_shape (ms : List Move) (s : State) :
    ∃ w c ms', ms' <:+ ms ∧ hcLead ms s = { s with mem := w, hc := c, sched := ms' } := by
  induction ms generalizing s with
  | nil => exact ⟨s.mem, s.hc, [], List.suffix_rfl, rfl⟩
  | cons m rest ih =>
    cases m with
    | block => exact ⟨s.mem, s.hc, rest, List.suffix_cons _ _, rfl⟩
    | hc h =>
      obtain ⟨w, c, e⟩ := hcMove_shape h s
      obtain ⟨w', c', ms', hs, e'⟩ := ih (hcMove h s)
      exact ⟨w', c', ms', hs.trans (List.suffix_cons _ _), by simp only [hcLead]; rw [e', e]⟩
    | host h => exact ⟨s.mem, s.hc, _, List.suffix_rfl, rfl⟩
    | cache h => exact ⟨s.mem, s.hc, _, List.suffix_rfl, rfl⟩
    | timer => exact ⟨s.mem, s.hc, _, List.suffix_rfl, rfl⟩
    | reset => exact ⟨s.mem, s.hc, _, List.suffix_rfl, rfl⟩

theorem flushWords_shape (data : List Host.Cell) (ws : List Nat) (s : State) :
    ∃ w c ms', ms' <:+ s.sched ∧
      flushWords data ws s = { s with mem := w, hc := c, sched := ms' } := by
  induction ws generalizing s with
  | nil => exact ⟨s.mem, s.hc, s.sched, List.suffix_rfl, rfl⟩
  | cons a rest ih =>
    obtain ⟨w, c, ms, hs, e⟩ := hcLead_shape s.sched s
    simp only [flushWords]
    rw [e]
    obtain ⟨w', c', ms', hs', e'⟩ :=
      ih { s with mem := store32 w a (load32 data a), hc := c, sched := ms }
    exact ⟨w', c', ms', hs'.trans hs, e'⟩

/-- One line of a flush changes memory, the cache, the HC and the schedule alone; of the schedule it takes
a first part. -/
theorem flushLine_shape (s : State) (b : Nat) :
    ∃ w k c ms', ms' <:+ s.sched ∧
      s.flushLine b = { s with mem := w, cache := k, hc := c, sched := ms' } := by
  unfold State.flushLine
  split
  · exact ⟨s.mem, s.cache, s.hc, s.sched, List.suffix_rfl, rfl⟩
  · split
    · exact ⟨s.mem, s.cache, s.hc, s.sched, List.suffix_rfl, rfl⟩
    · split
      · rename_i l _ _
        obtain ⟨w, c, ms', hs, e⟩ := flushWords_shape l.data (writeBackWords s.params b l) s
        exact ⟨w, _, c, ms', hs, by rw [e]; rfl⟩
      · exact ⟨s.mem, s.cache, s.hc, s.sched, List.suffix_rfl, rfl⟩

/-! ### The host -/

/-- A host write of the block's registers reaches the registers the host may write, the two logs it pops,
and `CMDLOST`, alone (10_state.md R20). -/
theorem blockRegWrite_shape (s : State) (off : Nat) (v : Word) :
    ∃ ad cl a0 a1 a2 a3 i ie q f,
      blockRegWrite s off v =
        { s with
          autoDrain := ad, cmdLost := cl, arg0 := a0, arg1 := a1, arg2 := a2, arg3 := a3, isr := i
          ier := ie, compq := q, flog := f } := by
  have same : ∃ ad cl a0 a1 a2 a3 i ie q f,
      s = { s with
        autoDrain := ad, cmdLost := cl, arg0 := a0, arg1 := a1, arg2 := a2, arg3 := a3, isr := i
        ier := ie, compq := q, flog := f } :=
    ⟨s.autoDrain, s.cmdLost, s.arg0, s.arg1, s.arg2, s.arg3, s.isr, s.ier, s.compq, s.flog, rfl⟩
  unfold blockRegWrite
  split
  · exact ⟨_, s.cmdLost, s.arg0, s.arg1, s.arg2, s.arg3, s.isr, s.ier, s.compq, s.flog, rfl⟩
  · split
    · exact ⟨s.autoDrain, _, s.arg0, s.arg1, s.arg2, s.arg3, s.isr, s.ier, s.compq, s.flog, rfl⟩
    · exact same
  · exact ⟨s.autoDrain, s.cmdLost, _, s.arg1, s.arg2, s.arg3, s.isr, s.ier, s.compq, s.flog, rfl⟩
  · exact ⟨s.autoDrain, s.cmdLost, s.arg0, _, s.arg2, s.arg3, s.isr, s.ier, s.compq, s.flog, rfl⟩
  · exact ⟨s.autoDrain, s.cmdLost, s.arg0, s.arg1, _, s.arg3, s.isr, s.ier, s.compq, s.flog, rfl⟩
  · exact ⟨s.autoDrain, s.cmdLost, s.arg0, s.arg1, s.arg2, _, s.isr, s.ier, s.compq, s.flog, rfl⟩
  · exact ⟨s.autoDrain, s.cmdLost, s.arg0, s.arg1, s.arg2, s.arg3, _, s.ier, s.compq, s.flog, rfl⟩
  · exact ⟨s.autoDrain, s.cmdLost, s.arg0, s.arg1, s.arg2, s.arg3, s.isr, _, s.compq, s.flog, rfl⟩
  · exact ⟨s.autoDrain, s.cmdLost, s.arg0, s.arg1, s.arg2, s.arg3, s.isr, s.ier, _, s.flog, rfl⟩
  · exact ⟨s.autoDrain, s.cmdLost, s.arg0, s.arg1, s.arg2, s.arg3, s.isr, s.ier, s.compq, _, rfl⟩
  · exact same

/-- The fields no agent but the sequencer and the reset input changes (10_state.md R40: "Internal-state
updates are invisible to the HC"). -/
structure SameInternal (s s' : State) : Prop where
  params : s'.params = s.params
  started : s'.started = s.started
  faultOvf : s'.faultOvf = s.faultOvf
  err : s'.err = s.err
  res0 : s'.res0 = s.res0
  res1 : s'.res1 = s.res1
  res2 : s'.res2 = s.res2
  edt : s'.edt = s.edt
  tdt : s'.tdt = s.tdt
  idxValid : s'.idxValid = s.idxValid
  place : s'.place = s.place
  faultCount : s'.faultCount = s.faultCount
  plock : s'.plock = s.plock
  seq : s'.seq = s.seq
  sched : s'.sched = s.sched
  draws : s'.draws = s.draws

theorem SameInternal.refl (s : State) : SameInternal s s :=
  ⟨rfl, rfl, rfl, rfl, rfl, rfl, rfl, rfl, rfl, rfl, rfl, rfl, rfl, rfl, rfl, rfl⟩

theorem SameInternal.trans {a b c : State} (h : SameInternal a b) (h' : SameInternal b c) :
    SameInternal a c :=
  ⟨h'.params.trans h.params, h'.started.trans h.started, h'.faultOvf.trans h.faultOvf,
    h'.err.trans h.err, h'.res0.trans h.res0, h'.res1.trans h.res1, h'.res2.trans h.res2,
    h'.edt.trans h.edt, h'.tdt.trans h.tdt, h'.idxValid.trans h.idxValid, h'.place.trans h.place,
    h'.faultCount.trans h.faultCount, h'.plock.trans h.plock, h'.seq.trans h.seq,
    h'.sched.trans h.sched, h'.draws.trans h.draws⟩

theorem hostMove_internal {m : HostMove} {s s' : State} (h : hostMove m s = .ok s') :
    SameInternal s s' := by
  cases m with
  | blockRead off size =>
    simp only [hostMove] at h
    split at h
    · cases h; exact ⟨rfl, rfl, rfl, rfl, rfl, rfl, rfl, rfl, rfl, rfl, rfl, rfl, rfl, rfl, rfl, rfl⟩
    · cases h
  | blockWrite off size v =>
    simp only [hostMove] at h
    split at h
    · cases h
      obtain ⟨ad, cl, a0, a1, a2, a3, i, ie, q, f, e⟩ := blockRegWrite_shape s off.toNat v
      rw [e]
      exact ⟨rfl, rfl, rfl, rfl, rfl, rfl, rfl, rfl, rfl, rfl, rfl, rfl, rfl, rfl, rfl, rfl⟩
    · cases h
  | hcRead off =>
    cases h; exact ⟨rfl, rfl, rfl, rfl, rfl, rfl, rfl, rfl, rfl, rfl, rfl, rfl, rfl, rfl, rfl, rfl⟩
  | hcWrite off v =>
    cases h
    split
    · exact .refl s
    · exact ⟨rfl, rfl, rfl, rfl, rfl, rfl, rfl, rfl, rfl, rfl, rfl, rfl, rfl, rfl, rfl, rfl⟩
  | memRead a =>
    cases h
    split
    · exact .refl s
    · obtain ⟨k, e⟩ := touch_shape s a.toNat
      rw [e]
      exact ⟨rfl, rfl, rfl, rfl, rfl, rfl, rfl, rfl, rfl, rfl, rfl, rfl, rfl, rfl, rfl, rfl⟩
  | memWrite a b =>
    cases h
    split
    · exact .refl s
    · obtain ⟨w, k, e⟩ := cacheStoreByte_shape s a.toNat b
      rw [e]
      exact ⟨rfl, rfl, rfl, rfl, rfl, rfl, rfl, rfl, rfl, rfl, rfl, rfl, rfl, rfl, rfl, rfl⟩

/-- A move of another agent that lets the command go on leaves the block's own state alone. -/
theorem otherMove_internal {m : Move} {s s' : State} (h : otherMove m s = .on s') :
    SameInternal s s' := by
  cases m with
  | block => cases h; exact .refl s
  | timer => cases h; exact .refl s
  | reset => cases h
  | hc m =>
    cases h
    obtain ⟨w, c, e⟩ := hcMove_shape m s
    rw [e]
    exact ⟨rfl, rfl, rfl, rfl, rfl, rfl, rfl, rfl, rfl, rfl, rfl, rfl, rfl, rfl, rfl, rfl⟩
  | cache m =>
    cases h
    obtain ⟨w, k, c, e⟩ := cacheMove_shape m s
    rw [e]
    exact ⟨rfl, rfl, rfl, rfl, rfl, rfl, rfl, rfl, rfl, rfl, rfl, rfl, rfl, rfl, rfl, rfl⟩
  | host m =>
    simp only [otherMove] at h
    split at h
    · rename_i s1 e
      cases h
      exact hostMove_internal e
    · cases h

/-- The only move that abandons a command is the reset input (70_reset_and_hazards.md R500). -/
theorem otherMove_abandoned {m : Move} {s s' : State} (h : otherMove m s = .abandoned s') :
    m = .reset ∧ s' = s.blockReset := by
  cases m with
  | reset => cases h; exact ⟨rfl, rfl⟩
  | block => cases h
  | timer => cases h
  | hc m => cases h
  | cache m => cases h
  | host m =>
    simp only [otherMove] at h
    split at h <;> cases h

end Sys2Proof.Machine
end

