-- ==== Sys2Proof/Laws/Geometry.lean ====
section
/-! SUPPORT. What legal parameters give (00_scope.md R8, R9): line sizes, and where the descriptor slots
and the HCCA lie. -/

namespace Sys2Proof

open Sys2Proof.Machine

/-- What `Params.legal` says, as propositions. -/
structure Params.Good (p : Params) : Prop where
  ned : 1 ≤ p.ned ∧ p.ned ≤ 255
  ntd : 2 ≤ p.ntd ∧ p.ntd ≤ 65535
  line : p.cacheLine = 16 ∨ p.cacheLine = 32 ∨ p.cacheLine = 64 ∨ p.cacheLine = 128 ∨ p.cacheLine = 256
  stride : p.stride = p.cacheLine
  descAligned : p.descBase % p.cacheLine = 0
  tdAligned : p.tdBase % p.cacheLine = 0
  hccaAligned : p.hccaBase % 256 = 0
  faultDepth : 1 ≤ p.faultDepth ∧ p.faultDepth ≤ 255
  descTd : p.descBase + p.cacheLine * (p.ned + 1) ≤ p.tdBase ∨ p.tdBase + p.cacheLine * p.ntd ≤ p.descBase
  descHcca : p.descBase + p.cacheLine * (p.ned + 1) ≤ p.hccaBase ∨ p.hccaBase + 256 ≤ p.descBase
  tdHcca : p.tdBase + p.cacheLine * p.ntd ≤ p.hccaBase ∨ p.hccaBase + 256 ≤ p.tdBase
  descLow : p.descBase + p.cacheLine * (p.ned + 1) ≤ 2 ^ 32
  tdLow : p.tdBase + p.cacheLine * p.ntd ≤ 2 ^ 32
  hccaLow : p.hccaBase + 256 ≤ 2 ^ 32

theorem Params.legal_good {p : Params} (h : p.legal = true) : p.Good := by
  simp only [Params.legal, Bool.and_eq_true, decide_eq_true_eq, rangesDisjoint, Bool.or_eq_true,
    List.contains_eq_mem, List.mem_cons, List.not_mem_nil, or_false] at h
  obtain ⟨⟨⟨⟨⟨⟨⟨⟨⟨⟨⟨⟨⟨⟨h1, h2⟩, h3⟩, h4⟩, h5⟩, h6⟩, h7⟩, h8⟩, h9⟩, h10⟩, h11⟩, h12⟩, h13⟩, h14⟩, h15⟩ := h
  have hs : p.stride = p.cacheLine := by
    unfold Params.stride
    omega
  rw [hs] at h4 h5 h10 h11 h12 h13 h14
  exact ⟨h1, h2, h3, hs, h4, h5, h6, h9, h10, h11, h12, h13, h14, h15⟩

namespace Params.Good

variable {p : Params} (g : p.Good)
include g

theorem line_pos : 0 < p.cacheLine := by rcases g.line with h | h | h | h | h <;> omega

theorem line_dvd : p.cacheLine % 16 = 0 := by rcases g.line with h | h | h | h | h <;> omega

theorem line_ge : 16 ≤ p.cacheLine := by rcases g.line with h | h | h | h | h <;> omega

theorem line_le : p.cacheLine ≤ 256 := by rcases g.line with h | h | h | h | h <;> omega

/-- An ED slot's address as a number (R9). -/
theorem edAddr_toNat {e : Nat} (h : e ≤ p.ned) : (edAddr p e).toNat = p.descBase + p.cacheLine * e := by
  have h1 : p.cacheLine * e ≤ p.cacheLine * p.ned := Nat.mul_le_mul_left _ h
  have h2 := g.descLow
  have h3 := g.line_pos
  rw [Nat.mul_add] at h2
  rw [edAddr, g.stride, BitVec.toNat_ofNat, Nat.mod_eq_of_lt (by omega)]

/-- A TD slot's address as a number (R9). -/
theorem tdAddr_toNat {t : Nat} (h : t < p.ntd) : (tdAddr p t).toNat = p.tdBase + p.cacheLine * t := by
  have h1 : p.cacheLine * (t + 1) ≤ p.cacheLine * p.ntd := Nat.mul_le_mul_left _ h
  have h2 := g.tdLow
  have h3 := g.line_pos
  rw [Nat.mul_add] at h1
  rw [tdAddr, g.stride, BitVec.toNat_ofNat, Nat.mod_eq_of_lt (by omega)]

/-- The address of a table entry as a number (20_memory.md R80). -/
theorem tableAddr_toNat {i : Nat} (h : i < 64) : (tableAddr p i).toNat = p.hccaBase + 4 * i := by
  have := g.hccaLow
  rw [tableAddr, BitVec.toNat_ofNat, Nat.mod_eq_of_lt (by omega)]

theorem edAddr_aligned {e : Nat} (h : e ≤ p.ned) : (edAddr p e).toNat % p.cacheLine = 0 := by
  rw [g.edAddr_toNat h, Nat.add_mul_mod_self_left, g.descAligned]

theorem tdAddr_aligned {t : Nat} (h : t < p.ntd) : (tdAddr p t).toNat % p.cacheLine = 0 := by
  rw [g.tdAddr_toNat h, Nat.add_mul_mod_self_left, g.tdAligned]

/-- A word inside an ED slot. -/
theorem edWord_toNat {e : Nat} (h : e ≤ p.ned) (k : Word) (hk : k.toNat < p.cacheLine) :
    (edAddr p e + k).toNat = (edAddr p e).toNat + k.toNat := by
  have h1 : p.cacheLine * e ≤ p.cacheLine * p.ned := Nat.mul_le_mul_left _ h
  have h2 := g.descLow
  rw [Nat.mul_add] at h2
  rw [BitVec.toNat_add, g.edAddr_toNat h, Nat.mod_eq_of_lt (by omega)]

/-- A word inside a TD slot. -/
theorem tdWord_toNat {t : Nat} (h : t < p.ntd) (k : Word) (hk : k.toNat < p.cacheLine) :
    (tdAddr p t + k).toNat = (tdAddr p t).toNat + k.toNat := by
  have h1 : p.cacheLine * (t + 1) ≤ p.cacheLine * p.ntd := Nat.mul_le_mul_left _ h
  have h2 := g.tdLow
  rw [Nat.mul_add] at h1
  rw [BitVec.toNat_add, g.tdAddr_toNat h, Nat.mod_eq_of_lt (by omega)]

/-- Different ED slots lie at least a line apart. -/
theorem edAddr_apart {e e' : Nat} (h : e ≤ p.ned) (h' : e' ≤ p.ned) (hne : e ≠ e') :
    (edAddr p e).toNat + p.cacheLine ≤ (edAddr p e').toNat
      ∨ (edAddr p e').toNat + p.cacheLine ≤ (edAddr p e).toNat := by
  rw [g.edAddr_toNat h, g.edAddr_toNat h']
  rcases Nat.lt_or_gt_of_ne hne with hl | hl
  · left
    have := Nat.mul_le_mul_left p.cacheLine (show e + 1 ≤ e' from hl)
    rw [Nat.mul_add] at this
    omega
  · right
    have := Nat.mul_le_mul_left p.cacheLine (show e' + 1 ≤ e from hl)
    rw [Nat.mul_add] at this
    omega

/-- Different TD slots lie at least a line apart. -/
theorem tdAddr_apart {t t' : Nat} (h : t < p.ntd) (h' : t' < p.ntd) (hne : t ≠ t') :
    (tdAddr p t).toNat + p.cacheLine ≤ (tdAddr p t').toNat
      ∨ (tdAddr p t').toNat + p.cacheLine ≤ (tdAddr p t).toNat := by
  rw [g.tdAddr_toNat h, g.tdAddr_toNat h']
  rcases Nat.lt_or_gt_of_ne hne with hl | hl
  · left
    have := Nat.mul_le_mul_left p.cacheLine (show t + 1 ≤ t' from hl)
    rw [Nat.mul_add] at this
    omega
  · right
    have := Nat.mul_le_mul_left p.cacheLine (show t' + 1 ≤ t from hl)
    rw [Nat.mul_add] at this
    omega

/-- An ED slot, the dummy ED's among them, and a TD slot lie at least a line apart. -/
theorem ed_td_apart {e t : Nat} (h : e ≤ p.ned) (h' : t < p.ntd) :
    (edAddr p e).toNat + p.cacheLine ≤ (tdAddr p t).toNat
      ∨ (tdAddr p t).toNat + p.cacheLine ≤ (edAddr p e).toNat := by
  have h1 : p.cacheLine * e ≤ p.cacheLine * p.ned := Nat.mul_le_mul_left _ h
  have h2 : p.cacheLine * (t + 1) ≤ p.cacheLine * p.ntd := Nat.mul_le_mul_left _ h'
  have h3 := g.descTd
  rw [g.edAddr_toNat h, g.tdAddr_toNat h']
  rw [Nat.mul_add] at h2 h3
  omega

end Params.Good

theorem Machine.dummyEd_eq (p : Params) : dummyEd p = edAddr p p.ned := rfl

end Sys2Proof
end

