-- ==== Sys2Proof/Laws/Cache.lean ====
section
/-! SUPPORT. The cache as the block sees memory through it: what each operation does to the bytes the block
reads (`view`), to the bytes that wait for a write-back (`pending`), and to memory. -/

namespace Sys2Proof.Machine

/-! ### Lines -/

theorem lineBase_le (p : Params) (x : Nat) : lineBase p x ≤ x := Nat.div_mul_le_self _ _

theorem lt_lineBase_add {p : Params} (h : 0 < p.cacheLine) (x : Nat) :
    x < lineBase p x + p.cacheLine := by
  have := Nat.div_add_mod x p.cacheLine
  have := Nat.mod_lt x h
  rw [lineBase, Nat.mul_comm]
  omega

/-- An address lies in the line whose base is the multiple of the line size below it. -/
theorem lineBase_unique {p : Params} {b x : Nat} (hb : b % p.cacheLine = 0) (h1 : b ≤ x)
    (h2 : x < b + p.cacheLine) : lineBase p x = b := by
  obtain ⟨k, rfl⟩ := Nat.dvd_of_mod_eq_zero hb
  have hq : x / p.cacheLine = k := by
    refine Nat.div_eq_of_lt_le ?_ ?_
    · rw [Nat.mul_comm]; exact h1
    · rw [Nat.add_mul, Nat.mul_comm k]; omega
  rw [lineBase, hq, Nat.mul_comm]

theorem lineBase_mod (p : Params) (x : Nat) : lineBase p x % p.cacheLine = 0 := Nat.mul_mod_left _ _

theorem lineBase_self {p : Params} {b : Nat} (h : 0 < p.cacheLine) (hb : b % p.cacheLine = 0) :
    lineBase p b = b := lineBase_unique hb le_rfl (by omega)

/-- The bytes of an aligned word share a line. -/
theorem lineBase_word {p : Params} (g : p.Good) {a : Nat} (ha : a % 4 = 0) {i : Nat} (hi : i < 4) :
    lineBase p (a + i) = lineBase p a := by
  refine lineBase_unique (lineBase_mod p a) ?_ ?_
  · have := lineBase_le p a; omega
  · have h1 := lt_lineBase_add g.line_pos a
    have h2 := lineBase_mod p a
    have h3 := g.line_dvd
    have h4 : lineBase p a % 4 = 0 := by
      obtain ⟨k, hk⟩ := Nat.dvd_of_mod_eq_zero h2
      obtain ⟨j, hj⟩ := Nat.dvd_of_mod_eq_zero h3
      rw [hk, hj, Nat.mul_assoc]
      omega
    omega

/-! ### Lines found after an update -/

@[simp] theorem find_setLine_self (s : State) (b : Nat) (l : Line) :
    tableFind b (s.setLine b l).cache = some l := tableFind_replace_self _ _ _

theorem find_setLine_ne (s : State) {b b' : Nat} (h : b' ≠ b) (l : Line) :
    tableFind b' (s.setLine b l).cache = tableFind b' s.cache := tableFind_replace_ne h _ _

@[simp] theorem find_dropLine_self (s : State) (b : Nat) :
    tableFind b (s.dropLine b).cache = none := tableFind_erase_self _ _

theorem find_dropLine_ne (s : State) {b b' : Nat} (h : b' ≠ b) :
    tableFind b' (s.dropLine b).cache = tableFind b' s.cache := tableFind_erase_ne h _

theorem lineAt_setLine_self (s : State) (b : Nat) (l : Line) : lineAt (s.setLine b l) b = l := by
  simp [lineAt]

theorem lineAt_setLine_ne (s : State) {b b' : Nat} (h : b' ≠ b) (l : Line) :
    lineAt (s.setLine b l) b' = lineAt s b' := by
  simp only [lineAt, find_setLine_ne s h]
  rfl

/-! ### `view` -/

theorem view_coherent {s : State} (h : s.params.coherent = true) (x : Nat) :
    s.view x = loadByte s.mem x := by simp [State.view, State.cacheLoadByte, h]

theorem view_cached {s : State} (h : s.params.coherent = false) (x : Nat) :
    s.view x = loadByte (lineAt s (lineBase s.params x)).data x := by
  simp [State.view, State.cacheLoadByte, h]

/-- A byte of an absent line is memory's. -/
theorem view_absent {s : State} (g : s.params.Good) {x : Nat}
    (h : tableFind (lineBase s.params x) s.cache = none) : s.view x = loadByte s.mem x := by
  by_cases hc : s.params.coherent = true
  · exact view_coherent hc x
  · rw [view_cached (by simpa using hc)]
    simp only [lineAt, h, filledLine]
    exact loadByte_memRange ⟨lineBase_le _ _, lt_lineBase_add g.line_pos x⟩

/-- A 32-bit read is its four bytes as the block sees them. -/
theorem cacheLoad_eq_view {s : State} (g : s.params.Good) {a : Word} (ha : a.toNat % 4 = 0) :
    s.cacheLoad a = s.view (a.toNat + 3) ++ s.view (a.toNat + 2) ++ s.view (a.toNat + 1)
      ++ s.view a.toNat := by
  by_cases hc : s.params.coherent = true
  · simp only [view_coherent hc]
    simp [State.cacheLoad, hc, State.physRead, load32]
  · have hc' : s.params.coherent = false := by simpa using hc
    simp only [view_cached hc', lineBase_word g ha (i := 3) (by omega),
      lineBase_word g ha (i := 2) (by omega), lineBase_word g ha (i := 1) (by omega)]
    simp [State.cacheLoad, hc', load32]

/-- Where memory and the block agree on a word, a read returns memory's word. -/
theorem cacheLoad_of_view {s : State} (g : s.params.Good) {a : Word} (ha : a.toNat % 4 = 0)
    (h : ∀ x, a.toNat ≤ x → x < a.toNat + 4 → s.view x = loadByte s.mem x) :
    s.cacheLoad a = s.physRead a := by
  rw [cacheLoad_eq_view g ha, h _ (by omega) (by omega), h _ (by omega) (by omega),
    h _ (by omega) (by omega), h _ (by omega) (by omega)]
  rfl

/-! ### A read -/

@[simp] theorem touch_mem (s : State) (a : Nat) : (s.touch a).mem = s.mem := by
  obtain ⟨k, h⟩ := touch_shape s a
  rw [h]

@[simp] theorem touch_params (s : State) (a : Nat) : (s.touch a).params = s.params := by
  obtain ⟨k, h⟩ := touch_shape s a
  rw [h]

theorem lineAt_touch (s : State) (a b : Nat) : lineAt (s.touch a) b = lineAt s b := by
  unfold State.touch
  split
  · rfl
  · by_cases hb : b = lineBase s.params a
    · subst hb; exact lineAt_setLine_self _ _ _
    · exact lineAt_setLine_ne _ hb _

@[simp] theorem view_touch (s : State) (a x : Nat) : (s.touch a).view x = s.view x := by
  simp only [State.view, State.cacheLoadByte, touch_params, touch_mem, lineAt_touch]

@[simp] theorem pending_touch (s : State) (a x : Nat) : (s.touch a).pending x = s.pending x := by
  by_cases hc : s.params.coherent = true
  · simp [State.pending, hc]
  · by_cases hb : lineBase s.params x = lineBase s.params a
    · have ht : s.touch a = s.setLine (lineBase s.params a) (lineAt s (lineBase s.params a)) := by
        simp [State.touch, hc]
      rw [ht]
      simp only [State.pending, setLine_params, hb, find_setLine_self, lineAt]
      cases tableFind (lineBase s.params a) s.cache <;> simp [filledLine]
    · have ht : s.touch a = s.setLine (lineBase s.params a) (lineAt s (lineBase s.params a)) := by
        simp [State.touch, hc]
      rw [ht]
      simp only [State.pending, setLine_params, find_setLine_ne s hb]

/-! ### A write -/

@[simp] theorem cacheStore_params (s : State) (a v : Word) : (s.cacheStore a v).params = s.params := by
  obtain ⟨w, k, h⟩ := cacheStore_shape s a v
  rw [h]

/-- A write changes no byte of memory while there is a cache (20_memory.md R102). -/
theorem cacheStore_mem_cached {s : State} (h : s.params.coherent = false) (a v : Word) :
    (s.cacheStore a v).mem = s.mem := by simp [State.cacheStore, h]

theorem cacheStore_mem_coherent {s : State} (h : s.params.coherent = true) (a v : Word) :
    (s.cacheStore a v).mem = store32 s.mem a.toNat v := by simp [State.cacheStore, h]

/-- The byte of a word at an address inside it. -/
def wordByte (a : Nat) (v : Word) (x : Nat) : Byte := v.extractLsb' (8 * (x - a)) 8

theorem loadByte_store32_eq (m : List Host.Cell) (a : Nat) (v : Word) (x : Nat) :
    loadByte (store32 m a v) x = if a ≤ x ∧ x < a + 4 then wordByte a v x else loadByte m x := by
  rw [loadByte_store32]
  by_cases h : a ≤ x ∧ x < a + 4
  · rw [if_pos h]
    have hx : x = a ∨ x = a + 1 ∨ x = a + 2 ∨ x = a + 3 := by omega
    rcases hx with rfl | rfl | rfl | rfl <;> simp [wordByte]
  · rw [if_neg h, if_neg (by omega), if_neg (by omega), if_neg (by omega), if_neg (by omega)]

/-- What the block reads after a write. -/
theorem view_cacheStore {s : State} (g : s.params.Good) {a : Word} (ha : a.toNat % 4 = 0) (v : Word)
    (x : Nat) : (s.cacheStore a v).view x =
      if a.toNat ≤ x ∧ x < a.toNat + 4 then wordByte a.toNat v x else s.view x := by
  by_cases hc : s.params.coherent = true
  · rw [view_coherent (by simpa using hc), view_coherent hc, cacheStore_mem_coherent hc,
      loadByte_store32_eq]
  · have hc' : s.params.coherent = false := by simpa using hc
    rw [view_cached (by simpa using hc'), view_cached hc', cacheStore_params]
    have hs : s.cacheStore a v = s.setLine (lineBase s.params a.toNat)
        ((lineAt s (lineBase s.params a.toNat)).mark true (a.toNat - lineBase s.params a.toNat)
          (store32 (lineAt s (lineBase s.params a.toNat)).data a.toNat v)) := by
      simp [State.cacheStore, hc']
    rw [hs]
    by_cases hb : lineBase s.params x = lineBase s.params a.toNat
    · rw [hb, lineAt_setLine_self]
      simp only [Line.mark, loadByte_store32_eq]
    · rw [lineAt_setLine_ne s hb, if_neg]
      rintro ⟨h1, h2⟩
      apply hb
      have := lineBase_word g ha (i := x - a.toNat) (by omega)
      rwa [Nat.add_sub_cancel' h1] at this

/-- What waits for a write-back after a write. -/
theorem pending_cacheStore {s : State} (hc : s.params.coherent = false) (a v : Word) (x : Nat) :
    (s.cacheStore a v).pending x =
      if lineBase s.params x = lineBase s.params a.toNat then
        !s.params.wbMasked || ((lineAt s (lineBase s.params a.toNat)).words
          ||| (1#64 <<< ((a.toNat - lineBase s.params a.toNat) / 4))).getLsbD
            ((x - lineBase s.params x) / 4)
      else s.pending x := by
  have hs : s.cacheStore a v = s.setLine (lineBase s.params a.toNat)
      ((lineAt s (lineBase s.params a.toNat)).mark true (a.toNat - lineBase s.params a.toNat)
        (store32 (lineAt s (lineBase s.params a.toNat)).data a.toNat v)) := by
    simp [State.cacheStore, hc]
  rw [hs]
  by_cases hb : lineBase s.params x = lineBase s.params a.toNat
  · simp only [State.pending, setLine_params, hb, find_setLine_self, Line.mark, hc]
    simp
  · simp only [State.pending, setLine_params, find_setLine_ne s hb, if_neg hb]

/-! ### An invalidate -/

@[simp] theorem invalLine_mem (s : State) (b : Nat) : (s.invalLine b).mem = s.mem := by
  obtain ⟨k, h⟩ := invalLine_shape s b
  rw [h]

@[simp] theorem invalLine_params (s : State) (b : Nat) : (s.invalLine b).params = s.params := by
  obtain ⟨k, h⟩ := invalLine_shape s b
  rw [h]

theorem find_invalLine {s : State} (hc : s.params.coherent = false) (b b' : Nat) :
    tableFind b' (s.invalLine b).cache = if b' = b then none else tableFind b' s.cache := by
  have h : s.invalLine b = s.dropLine b := by simp [State.invalLine, hc]
  rw [h]
  by_cases hb : b' = b
  · subst hb; simp
  · rw [find_dropLine_ne s hb, if_neg hb]

/-- What the block reads after a line is invalidated (44_coherence.md R404). -/
theorem view_invalLine {s : State} (g : s.params.Good) (b x : Nat) :
    (s.invalLine b).view x = if lineBase s.params x = b then loadByte s.mem x else s.view x := by
  by_cases hc : s.params.coherent = true
  · rw [view_coherent (by simpa using hc), view_coherent hc, invalLine_mem]
    simp
  · have hc' : s.params.coherent = false := by simpa using hc
    by_cases hb : lineBase s.params x = b
    · rw [if_pos hb, view_absent (by simpa using g), invalLine_mem]
      rw [invalLine_params, find_invalLine hc', if_pos hb]
    · rw [if_neg hb, view_cached (by simpa using hc'), view_cached hc', invalLine_params]
      simp only [lineAt, find_invalLine hc', if_neg hb, filledLine, invalLine_mem, invalLine_params]

theorem pending_invalLine {s : State} (b x : Nat) :
    (s.invalLine b).pending x = (decide (lineBase s.params x ≠ b) && s.pending x) := by
  by_cases hc : s.params.coherent = true
  · simp [State.pending, hc]
  · have hc' : s.params.coherent = false := by simpa using hc
    simp only [State.pending, invalLine_params, find_invalLine hc']
    by_cases hb : lineBase s.params x = b <;> simp [hb]

/-! ### A write-back with no HC step between its words -/

/-- The writes of a write-back with nothing between them. -/
def writeWords (data : List Host.Cell) (ws : List Nat) (m : List Host.Cell) : List Host.Cell :=
  ws.foldl (fun m a => store32 m a (load32 data a)) m

theorem wordByte_load32 (data : List Host.Cell) {a x : Nat} (h : a ≤ x ∧ x < a + 4) :
    wordByte a (load32 data a) x = loadByte data x := by
  have hx : x = a ∨ x = a + 1 ∨ x = a + 2 ∨ x = a + 3 := by omega
  rcases hx with rfl | rfl | rfl | rfl
  · simpa [wordByte, load32] using byte0_of_word _ _ _ _
  · simpa [wordByte, load32] using byte1_of_word _ _ _ _
  · simpa [wordByte, load32] using byte2_of_word _ _ _ _
  · simpa [wordByte, load32] using byte3_of_word _ _ _ _

theorem loadByte_writeWords (data : List Host.Cell) (ws : List Nat) (m : List Host.Cell) (x : Nat) :
    loadByte (writeWords data ws m) x =
      if ∃ a ∈ ws, a ≤ x ∧ x < a + 4 then loadByte data x else loadByte m x := by
  induction ws generalizing m with
  | nil => simp [writeWords]
  | cons a rest ih =>
    have h : writeWords data (a :: rest) m = writeWords data rest (store32 m a (load32 data a)) := rfl
    rw [h, ih, loadByte_store32_eq]
    by_cases hr : ∃ b ∈ rest, b ≤ x ∧ x < b + 4
    · obtain ⟨b, hb, hx⟩ := hr
      rw [if_pos ⟨b, hb, hx⟩, if_pos ⟨b, by simp [hb], hx⟩]
    · rw [if_neg hr]
      by_cases ha : a ≤ x ∧ x < a + 4
      · rw [if_pos ha, if_pos ⟨a, by simp, ha⟩, wordByte_load32 data ha]
      · rw [if_neg ha, if_neg]
        rintro ⟨b, hb, hx⟩
        rcases List.mem_cons.1 hb with rfl | hb
        · exact ha hx
        · exact hr ⟨b, hb, hx⟩

theorem flushWords_quiet {s : State} (h : s.sched = []) (data : List Host.Cell) (ws : List Nat) :
    flushWords data ws s = { s with mem := writeWords data ws s.mem } := by
  induction ws generalizing s with
  | nil => rfl
  | cons a rest ih =>
    simp only [flushWords]
    have hl : hcLead s.sched s = s := by
      rw [h]
      cases s
      simp_all [hcLead]
    rw [hl, ih (by exact h)]
    rfl

/-- Which bytes the words of a write-back cover. -/
theorem mem_writeBackWords {p : Params} (g : p.Good) (l : Line) {b : Nat} (hb : b % p.cacheLine = 0)
    (x : Nat) : (∃ a ∈ writeBackWords p b l, a ≤ x ∧ x < a + 4) ↔
      lineBase p x = b ∧ (!p.wbMasked || l.words.getLsbD ((x - b) / 4)) = true := by
  have h4 : p.cacheLine % 4 = 0 := by have := g.line_dvd; omega
  constructor
  · rintro ⟨a, ha, hx⟩
    have key : ∀ {a}, a ∈ lineWords p b → a ≤ x → x < a + 4 →
        lineBase p x = b ∧ (a - b) / 4 = (x - b) / 4 := by
      intro a ha h1 h2
      simp only [lineWords, List.mem_map, List.mem_range] at ha
      obtain ⟨k, hk, rfl⟩ := ha
      exact ⟨lineBase_unique hb (by omega) (by omega), by omega⟩
    unfold writeBackWords at ha
    split at ha
    · rw [List.mem_filter] at ha
      obtain ⟨h1, h2⟩ := key ha.1 hx.1 hx.2
      exact ⟨h1, by rw [← h2]; simp [ha.2]⟩
    · rename_i hm
      exact ⟨(key ha hx.1 hx.2).1, by simp [hm]⟩
  · rintro ⟨hl, hw⟩
    have h1 := lineBase_le p x
    have h2 := lt_lineBase_add g.line_pos x
    rw [hl] at h1 h2
    have hk : b + 4 * ((x - b) / 4) ∈ lineWords p b := by
      simp only [lineWords, List.mem_map, List.mem_range]
      exact ⟨(x - b) / 4, by omega, rfl⟩
    refine ⟨b + 4 * ((x - b) / 4), ?_, by omega, by omega⟩
    unfold writeBackWords
    split
    · rename_i hm
      rw [List.mem_filter]
      refine ⟨hk, ?_⟩
      have : (b + 4 * ((x - b) / 4) - b) / 4 = (x - b) / 4 := by omega
      rw [this]
      simpa [hm] using hw
    · exact hk

/-- One line of a flush with no HC step inside it: pending bytes reach memory, the block's view stays, and
nothing of the line is pending (44_coherence.md R404). -/
theorem flushLine_quiet {s : State} (g : s.params.Good) (hq : s.sched = []) {b : Nat}
    (hb : b % s.params.cacheLine = 0) :
    ∃ m k, s.flushLine b = { s with mem := m, cache := k } ∧
      (∀ x, loadByte m x =
        if lineBase s.params x = b ∧ s.pending x = true then s.view x else loadByte s.mem x) ∧
      (∀ x, (s.flushLine b).view x = s.view x) ∧
      (∀ x, (s.flushLine b).pending x = (decide (lineBase s.params x ≠ b) && s.pending x)) := by
  by_cases hc : s.params.coherent = true
  · have e : s.flushLine b = s := by simp [State.flushLine, hc]
    refine ⟨s.mem, s.cache, by rw [e], fun x => ?_, fun x => by rw [e], fun x => ?_⟩
    · rw [if_neg]; simp [State.pending, hc]
    · rw [e]; simp [State.pending, hc]
  · have hc' : s.params.coherent = false := by simpa using hc
    by_cases hd : ∃ l, tableFind b s.cache = some l ∧ l.dirty = true
    · obtain ⟨l, hl, hdirty⟩ := hd
      have e : s.flushLine b =
          ({ s with mem := writeWords l.data (writeBackWords s.params b l) s.mem } : State).setLine b
            l.clean := by
        simp only [State.flushLine, hc', hl, hdirty]
        rw [flushWords_quiet hq]
        rfl
      have hv : ∀ x, lineBase s.params x = b → s.view x = loadByte l.data x := by
        intro x hx
        rw [view_cached hc', hx]
        simp [lineAt, hl]
      have hp : ∀ x, lineBase s.params x = b → s.pending x =
          (!s.params.wbMasked || l.words.getLsbD ((x - b) / 4)) := by
        intro x hx
        simp [State.pending, hc', hx, hl, hdirty]
      refine ⟨writeWords l.data (writeBackWords s.params b l) s.mem, _, by rw [e]; rfl,
        fun x => ?_, fun x => ?_, fun x => ?_⟩
      · rw [loadByte_writeWords]
        by_cases hx : lineBase s.params x = b
        · rw [hv x hx, hp x hx]
          have := mem_writeBackWords g l hb x
          by_cases hw : (!s.params.wbMasked || l.words.getLsbD ((x - b) / 4)) = true
          · rw [if_pos (this.2 ⟨hx, hw⟩), if_pos ⟨hx, hw⟩]
          · rw [if_neg (fun h => hw (this.1 h).2), if_neg (fun h => hw h.2)]
        · rw [if_neg (fun h => hx ((mem_writeBackWords g l hb x).1 h).1), if_neg (fun h => hx h.1)]
      · by_cases hx : lineBase s.params x = b
        · rw [hv x hx, e, view_cached (by exact hc')]
          simp only [setLine_params, hx, lineAt_setLine_self, Line.clean]
        · -- another line: present and unchanged, or absent, where memory has not changed either
          rw [e, view_cached (by exact hc'), view_cached hc']
          simp only [setLine_params]
          rw [lineAt_setLine_ne _ hx]
          simp only [lineAt]
          cases tableFind (lineBase s.params x) s.cache with
          | some l' => rfl
          | none =>
            simp only [filledLine]
            have h1 := lineBase_le s.params x
            have h2 := lt_lineBase_add g.line_pos x
            rw [loadByte_memRange ⟨h1, h2⟩, loadByte_memRange ⟨h1, h2⟩, loadByte_writeWords,
              if_neg (fun h => hx ((mem_writeBackWords g l hb x).1 h).1)]
      · by_cases hx : lineBase s.params x = b
        · rw [e]
          simp [State.pending, hx, Line.clean]
        · rw [e]
          simp only [State.pending, setLine_params]
          rw [find_setLine_ne _ hx]
          simp [hx]
    · have e : s.flushLine b = s := by
        simp only [State.flushLine, hc']
        cases hf : tableFind b s.cache with
        | none => simp
        | some l =>
          have : l.dirty = false := by
            by_contra h
            exact hd ⟨l, hf, by simpa using h⟩
          simp [this]
      have hp : ∀ x, lineBase s.params x = b → s.pending x = false := by
        intro x hx
        simp only [State.pending, hx]
        cases hf : tableFind b s.cache with
        | none => simp
        | some l =>
          have : l.dirty = false := by
            by_contra h
            exact hd ⟨l, hf, by simpa using h⟩
          simp [this]
      refine ⟨s.mem, s.cache, by rw [e], fun x => ?_, fun x => by rw [e], fun x => ?_⟩
      · rw [if_neg]
        rintro ⟨hx, h⟩
        rw [hp x hx] at h
        cases h
      · rw [e]
        by_cases hx : lineBase s.params x = b
        · simp [hx, hp x hx]
        · simp [hx]

end Sys2Proof.Machine
end

