-- ==== Sys2Proof/Laws/Canonical.lean ====
section
/-! SUPPORT. Every operation on memory and cache keeps their canonical form. -/

namespace Sys2Proof.Machine

/-- Memory, the cache's lines and the HC's plain registers are in canonical form. -/
def State.stored (s : State) : Prop :=
  Memory.wf s.mem = true ∧ cacheWf s.cache = true ∧ tableWf (0#32) s.hc.others = true

theorem State.stored.mem_hc {s : State} (h : s.stored) {m : List Host.Cell} {c : Hc}
    (hm : Memory.wf m = true) (hc : c.others = s.hc.others) :
    ({ s with mem := m, hc := c } : State).stored := ⟨hm, h.2.1, by rw [hc]; exact h.2.2⟩

/-! ### Lines -/

theorem cacheWf_line {c : List (Nat × Line)} (h : cacheWf c = true) {b : Nat} {l : Line}
    (hl : tableFind b c = some l) : Memory.wf l.data = true := by
  simp only [cacheWf, Bool.and_eq_true] at h
  have hmem : (b, l) ∈ c := by
    induction c with
    | nil => cases hl
    | cons p rest ih =>
      unfold tableFind at hl
      split at hl
      · rename_i hp
        cases hl
        simp [← hp]
      · have hr : keysRise rest = true ∧ (rest.all fun p => Memory.wf p.2.data) = true := by
          refine ⟨?_, List.all_eq_true.2 fun x hx => List.all_eq_true.1 h.2 x (by simp [hx])⟩
          have := (keysRise_iff _).1 h.1
          rw [List.pairwise_cons] at this
          exact (keysRise_iff _).2 this.2
        exact List.mem_cons_of_mem _ (ih hl hr)
  exact List.all_eq_true.1 h.2 _ hmem

theorem cacheWf_set {c : List (Nat × Line)} (h : cacheWf c = true) (b : Nat) {l : Line}
    (hl : Memory.wf l.data = true) : cacheWf (tableInsert b l (tableErase b c)) = true := by
  simp only [cacheWf, Bool.and_eq_true] at *
  refine ⟨keysRise_replace h.1, List.all_eq_true.2 fun p hp => ?_⟩
  rcases mem_tableInsert hp with rfl | hp
  · exact hl
  · rw [tableErase_eq_filter] at hp
    exact List.all_eq_true.1 h.2 p (List.mem_filter.1 hp).1

theorem cacheWf_drop {c : List (Nat × Line)} (h : cacheWf c = true) (b : Nat) :
    cacheWf (tableErase b c) = true := by
  simp only [cacheWf, Bool.and_eq_true] at *
  refine ⟨keysRise_erase h.1, List.all_eq_true.2 fun p hp => ?_⟩
  rw [tableErase_eq_filter] at hp
  exact List.all_eq_true.1 h.2 p (List.mem_filter.1 hp).1

theorem lineAt_wf {s : State} (h : s.stored) (b : Nat) : Memory.wf (lineAt s b).data = true := by
  unfold lineAt
  split
  · exact cacheWf_line h.2.1 (by assumption)
  · exact wf_memRange h.1 _ _

/-! ### Accesses -/

theorem stored_touch {s : State} (h : s.stored) (a : Nat) : (s.touch a).stored := by
  unfold State.touch
  split
  · exact h
  · exact ⟨h.1, cacheWf_set h.2.1 _ (lineAt_wf h _), h.2.2⟩

theorem stored_cacheStore {s : State} (h : s.stored) (a v : Word) : (s.cacheStore a v).stored := by
  unfold State.cacheStore
  split
  · exact ⟨wf_store32 h.1 _ _, h.2⟩
  · exact ⟨h.1, cacheWf_set h.2.1 _ (wf_store32 (lineAt_wf h _) _ _), h.2.2⟩

theorem stored_cacheStoreByte {s : State} (h : s.stored) (a : Nat) (b : Byte) :
    (s.cacheStoreByte a b).stored := by
  unfold State.cacheStoreByte
  split
  · exact ⟨wf_storeByte h.1 _ _, h.2⟩
  · exact ⟨h.1, cacheWf_set h.2.1 _ (wf_storeByte (lineAt_wf h _) _ _), h.2.2⟩

theorem stored_invalLine {s : State} (h : s.stored) (b : Nat) : (s.invalLine b).stored := by
  unfold State.invalLine
  split
  · exact h
  · exact ⟨h.1, cacheWf_drop h.2.1 b, h.2.2⟩

theorem stored_mmio {s : State} (h : s.stored) (off : Nat) (v : Word) :
    ({ s with hc := hcRegWrite s.hc off v } : State).stored := by
  refine ⟨h.1, h.2.1, ?_⟩
  show tableWf (0#32) (hcRegWrite s.hc off v).others = true
  unfold hcRegWrite
  split <;> first | exact h.2.2 | exact tableWf_put h.2.2 _ _

/-! ### The HC's steps -/

theorem stored_physWrite {s : State} (h : s.stored) (a v : Word) : (s.physWrite a v).stored :=
  ⟨wf_store32 h.1 _ _, h.2⟩

theorem stored_frameStart {s : State} (h : s.stored) : (frameStart s).stored :=
  h.mem_hc (wf_store16 h.1 _ _) rfl

theorem stored_hcMove {s : State} (h : s.stored) (m : HcMove) : (hcMove m s).stored := by
  have outcome : ∀ m, (hcOutcome m s).stored := by
    intro m
    unfold hcOutcome
    split
    · exact h
    · split
      · split
        · split
          · exact h
          · exact h.mem_hc h.1 rfl
        · split
          · exact h.mem_hc (wf_store32 h.1 _ _) rfl
          · exact h
        · split
          · exact h.mem_hc (wf_store32 h.1 _ _) rfl
          · exact h
        · split
          · exact ⟨wf_storeByte h.1 _ _, h.2⟩
          · exact h
        · exact h
      · exact h
  cases m with
  | frame wb =>
    simp only [hcMove]
    unfold hcFrame
    split
    · exact h
    · split
      · exact stored_frameStart h
      · unfold writeBackDone
        split
        · exact (stored_frameStart h).mem_hc (wf_store32 (stored_frameStart h).1 _ _) rfl
        · exact stored_frameStart h
  | restart b =>
    simp only [hcMove]
    unfold hcRestart
    split_ifs <;> exact ⟨h.1, h.2.1, h.2.2⟩
  | serve p =>
    simp only [hcMove]
    unfold hcServe
    split
    · exact h
    · dsimp only
      split
      · exact h.mem_hc h.1 rfl
      · exact h
  | event =>
    simp only [hcMove]
    unfold hcEvent
    split
    · exact h
    · split
      · exact h.mem_hc h.1 rfl
      · exact h.mem_hc h.1 rfl
      · exact h.mem_hc h.1 rfl
      · exact h.mem_hc h.1 rfl
      · exact h.mem_hc h.1 rfl
      · exact h.mem_hc h.1 rfl
      · exact h
      · exact h.mem_hc (wf_store32 h.1 _ _) rfl
      · exact h.mem_hc (wf_store32 h.1 _ _) rfl
      · exact h.mem_hc (wf_store32 h.1 _ _) rfl
      · exact h.mem_hc (wf_store32 h.1 _ _) rfl
      · rename_i v _ _ _
        refine h.mem_hc h.1 ?_
        cases v.pos <;> rfl
  | noProgress => exact outcome .noProgress
  | progress cbp u => exact outcome (.progress cbp u)
  | retire cc t ec cbp carry => exact outcome (.retire cc t ec cbp carry)
  | data a b => exact outcome (.data a b)
  | reserved off b =>
    simp only [hcMove]
    split
    · exact ⟨wf_storeByte h.1 _ _, h.2⟩
    · exact h
  | status bits => exact ⟨h.1, h.2.1, h.2.2⟩

theorem stored_hcMoves {s : State} (h : s.stored) (ms : List HcMove) : (hcMoves ms s).stored := by
  induction ms generalizing s with
  | nil => exact h
  | cons m rest ih => exact ih (stored_hcMove h m)

/-! ### Write-backs -/

theorem stored_hcLead {s : State} (h : s.stored) (ms : List Move) : (hcLead ms s).stored := by
  induction ms generalizing s with
  | nil => exact h
  | cons m rest ih => cases m <;> first | exact h | exact ih (stored_hcMove h _)

theorem stored_flushWords {s : State} (h : s.stored) (data : List Host.Cell) (ws : List Nat) :
    (flushWords data ws s).stored := by
  induction ws generalizing s with
  | nil => exact h
  | cons a rest ih =>
    have h1 := stored_hcLead h s.sched
    exact ih ⟨wf_store32 h1.1 _ _, h1.2⟩

theorem stored_flushLine {s : State} (h : s.stored) (b : Nat) : (s.flushLine b).stored := by
  unfold State.flushLine
  split
  · exact h
  · split
    · exact h
    · split
      · rename_i l hl _
        have h1 := stored_flushWords h l.data (writeBackWords s.params b l)
        exact ⟨h1.1, cacheWf_set h1.2.1 _ (l := l.clean) (show Memory.wf l.data = true from cacheWf_line h.2.1 hl),
          h1.2.2⟩
      · exact h

theorem stored_evictWords {s : State} (h : s.stored) (data : List Host.Cell) (ws : List Nat)
    (inter : List (List HcMove)) : (evictWords data ws inter s).stored := by
  induction ws generalizing s inter with
  | nil => exact h
  | cons a rest ih =>
    have h1 := stored_hcMoves h (inter.headD [])
    exact ih (s := { hcMoves (inter.headD []) s with
      mem := store32 (hcMoves (inter.headD []) s).mem a (load32 data a) })
      ⟨wf_store32 h1.1 _ _, h1.2⟩ _

theorem stored_cacheMove {s : State} (h : s.stored) (m : CacheMove) : (cacheMove m s).stored := by
  unfold cacheMove
  split
  · exact h
  · split
    · split
      · exact h
      · split
        · rename_i _ base inter _ l hl _
          have h1 := stored_evictWords h l.data (writeBackWords s.params base l) inter
          exact ⟨h1.1, cacheWf_set h1.2.1 _ (l := l.clean) (show Memory.wf l.data = true from cacheWf_line h.2.1 hl),
          h1.2.2⟩
        · exact h
    · split
      · exact h
      · split
        · exact h
        · exact ⟨h.1, cacheWf_drop h.2.1 _, h.2.2⟩

/-! ### The host and the reset -/

theorem stored_hostMove {m : HostMove} {s s' : State} (h : s.stored) (e : hostMove m s = .ok s') :
    s'.stored := by
  cases m with
  | blockRead off size =>
    simp only [hostMove] at e
    split at e <;> cases e
    exact h
  | blockWrite off size v =>
    simp only [hostMove] at e
    split at e <;> cases e
    obtain ⟨ad, cl, a0, a1, a2, a3, i, ie, q, f, e⟩ := blockRegWrite_shape s off.toNat v
    rw [e]
    exact h
  | hcRead off => cases e; exact h
  | hcWrite off v =>
    cases e
    split
    · exact h
    · exact stored_mmio h _ _
  | memRead a =>
    cases e
    split
    · exact h
    · exact stored_touch h _
  | memWrite a b =>
    cases e
    split
    · exact h
    · exact stored_cacheStoreByte h _ _

/-- Every move of another agent keeps the canonical form of what is stored outside the block. -/
theorem stored_otherMove {m : Move} {s s' : State} (h : s.stored) (e : otherMove m s = .on s') :
    s'.stored := by
  cases m with
  | block => cases e; exact h
  | timer => cases e; exact h
  | hc m => cases e; exact stored_hcMove h m
  | cache m => cases e; exact stored_cacheMove h m
  | reset => cases e
  | host m =>
    simp only [otherMove] at e
    split at e
    · rename_i s1 he
      cases e
      exact stored_hostMove h he
    · cases e

theorem stored_blockReset {s : State} (h : s.stored) : s.blockReset.stored := ⟨h.1, rfl, h.2.2⟩

theorem stored_reset : State.reset.stored := ⟨rfl, rfl, rfl⟩

end Sys2Proof.Machine
end

