-- ==== Sys2Proof/Laws/Checks.lean ====
section
/-! SUPPORT. Computed checks that imply the invariants of Safety.lean on a state written out, for the tests:
each check looks only at what the tables list. -/

namespace Sys2Proof.Machine

/-- What a table answers for a key is listed under it. -/
theorem mem_of_tableFind {α : Type} {k : Nat} {v : α} {m : List (Nat × α)} (h : tableFind k m = some v) :
    (k, v) ∈ m := by
  induction m with
  | nil => cases h
  | cons p rest ih =>
    unfold tableFind at h
    split at h
    · rename_i hk
      cases h; subst hk; exact List.mem_cons_self
    · exact List.mem_cons_of_mem _ (ih h)

/-- An entry that is not the default is listed. -/
theorem mem_of_tableGet_ne {α : Type} {d : α} {k : Nat} {m : List (Nat × α)} (h : tableGet d m k ≠ d) :
    (k, tableGet d m k) ∈ m := by
  unfold tableGet at h ⊢
  cases hf : tableFind k m with
  | none => simp [hf] at h
  | some v => simpa using mem_of_tableFind hf

theorem mem_edt {s : State} {e : Nat} (h : (s.ed e).alloc = true) : (e, s.ed e) ∈ s.edt :=
  mem_of_tableGet_ne (by intro hd; rw [State.ed, hd] at h; cases h)

theorem mem_tdt {s : State} {t : Nat} (h : (s.td t).alloc = true) : (t, s.td t) ∈ s.tdt :=
  mem_of_tableGet_ne (by intro hd; rw [State.td, hd] at h; cases h)

theorem mem_idxValid {s : State} {t : Nat} (h : s.indexed t = true) : (t, true) ∈ s.idxValid := by
  have := mem_of_tableGet_ne (d := false) (k := t) (m := s.idxValid) (by
    intro hd; rw [State.indexed, hd] at h; cases h)
  rwa [show tableGet false s.idxValid t = true from h] at this

theorem mem_place {s : State} {k : Nat} (h : s.list k ≠ []) : (k, s.list k) ∈ s.place :=
  mem_of_tableGet_ne h

/-! ### Placement -/

/-- The check of `State.placed`. -/
def State.placedCheck (s : State) : Bool :=
  s.place.all (fun p => decide p.2.Nodup && p.2.all (fun e => s.validEd e && (s.ed e).slot == p.1))
    && s.edt.all (fun p => !p.2.alloc || (decide (p.1 < s.params.ned) && decide (p.1 ∈ s.list p.2.slot)))

theorem placed_of_check {s : State} (h : s.placedCheck = true) : s.placed := by
  simp only [State.placedCheck, Bool.and_eq_true, List.all_eq_true, decide_eq_true_eq, Bool.or_eq_true,
    Bool.not_eq_true', beq_iff_eq] at h
  refine ⟨fun k e he => (h.1 _ (mem_place (List.ne_nil_of_mem he))).2 e he, fun e he => ?_, fun k => ?_⟩
  · rcases h.2 _ (mem_edt he) with hf | hr
    · simp [he] at hf
    · exact hr
  · by_cases hk : s.list k = []
    · rw [hk]; exact List.nodup_nil
    · exact (h.1 _ (mem_place hk)).1

/-! ### Slots -/

/-- The check of `State.slotsSuit`. -/
def State.slotsCheck (s : State) : Bool := s.edt.all (fun p => !p.2.alloc || s.slotSuits p.1)

theorem slotsSuit_of_check {s : State} (h : s.slotsCheck = true) : s.slotsSuit := by
  intro e he
  simp only [State.slotsCheck, List.all_eq_true, Bool.or_eq_true, Bool.not_eq_true'] at h
  rcases h _ (mem_edt he) with hf | hr
  · simp [he] at hf
  · exact hr

/-! ### Queues -/

/-- The check of `Chain`. -/
def chainCheck (s : State) : Nat → List Nat → Nat → Bool
  | u, [], v => u == v
  | u, x :: l, v => u == x && match (s.td x).next with
    | none => false
    | some nx => chainCheck s nx l v

theorem chain_of_check {s : State} {l : List Nat} : ∀ {u v : Nat}, chainCheck s u l v = true → Chain s u l v := by
  induction l with
  | nil => intro u v h; simpa [chainCheck, Chain] using h
  | cons x l ih =>
    intro u v h
    simp only [chainCheck, Bool.and_eq_true, beq_iff_eq] at h
    cases hn : (s.td x).next with
    | none => rw [hn] at h; simp at h
    | some nx => rw [hn] at h; exact ⟨h.1, nx, hn, ih h.2⟩

/-- The check of `State.queueIs`. -/
def State.queueCheck (s : State) (e : Nat) (q : List Nat) : Bool :=
  chainCheck s (s.ed e).head q (s.ed e).tail && decide (q ++ [(s.ed e).tail]).Nodup
    && (q ++ [(s.ed e).tail]).all
      (fun t => decide (t < s.params.ntd) && (s.td t).alloc && (s.td t).owner == e)
    && (s.td (s.ed e).tail).status == 0#32 && !s.indexed (s.ed e).tail

theorem queueIs_of_check {s : State} {e : Nat} {q : List Nat} (h : s.queueCheck e q = true) : s.queueIs e q := by
  simp only [State.queueCheck, Bool.and_eq_true, List.all_eq_true, decide_eq_true_eq, beq_iff_eq,
    Bool.not_eq_true'] at h
  obtain ⟨⟨⟨⟨h1, h2⟩, h3⟩, h4⟩, h5⟩ := h
  exact ⟨chain_of_check h1, h2, fun t ht => ⟨(h3 t ht).1.1, (h3 t ht).1.2, (h3 t ht).2⟩, h4, h5⟩

/-- What a waiting command has checked. -/
def State.waitCheck (s : State) : Bool :=
  match s.seq with
  | .idle => true
  | .exec _ => true
  | .wait _ _ _ _ (.quiesce _) => true
  | .wait _ _ _ _ (.close e) => (s.ed e).alloc
  | .wait _ _ _ _ (.abort e t) =>
    (s.ed e).alloc && (s.td t).alloc && (s.td t).owner == e && t != (s.ed e).tail

/-- The check of `State.queuesOk`, the queue of each endpoint given. -/
def State.queuesCheck (s : State) (q : Nat → List Nat) : Bool :=
  s.edt.all (fun p => !p.2.alloc || s.queueCheck p.1 (q p.1))
    && s.tdt.all (fun p => !p.2.alloc || ((s.ed p.2.owner).alloc
      && decide (p.1 ∈ q p.2.owner ++ [(s.ed p.2.owner).tail])))
    && s.idxValid.all (fun p => !p.2 || (s.td p.1).alloc) && s.waitCheck

theorem queuesOk_of_check {s : State} (q : Nat → List Nat) (h : s.queuesCheck q = true) : s.queuesOk := by
  simp only [State.queuesCheck, Bool.and_eq_true, List.all_eq_true, decide_eq_true_eq, Bool.or_eq_true,
    Bool.not_eq_true'] at h
  obtain ⟨⟨⟨h1, h2⟩, h3⟩, h4⟩ := h
  have shaped : ∀ e, (s.ed e).alloc = true → s.queueIs e (q e) := by
    intro e he
    rcases h1 _ (mem_edt he) with hf | hr
    · simp [he] at hf
    · exact queueIs_of_check hr
  refine ⟨fun e he => ⟨q e, shaped e he⟩, fun t ht => ?_, fun t ht => ?_, ?_⟩
  · rcases h2 _ (mem_tdt ht) with hf | hr
    · simp [ht] at hf
    · exact ⟨hr.1, q _, shaped _ hr.1, hr.2⟩
  · rcases h3 _ (mem_idxValid ht) with hf | hr
    · simp at hf
    · exact hr
  · unfold State.waitOwned
    unfold State.waitCheck at h4
    split <;> simp_all

/-- Where `next` leads from one TD to another it leads over one list of TDs. -/
theorem chain_unique {s : State} {l l' : List Nat} : ∀ {u v : Nat}, Chain s u l v → v ∉ l → Chain s u l' v →
    v ∉ l' → l = l' := by
  induction l generalizing l' with
  | nil =>
    intro u v h _ h' hv'
    cases l' with
    | nil => rfl
    | cons x l' => cases h; exact absurd (h'.1 ▸ List.mem_cons_self) hv'
  | cons x l ih =>
    intro u v h hv h' hv'
    obtain ⟨rfl, nx, hn, hc⟩ := h
    cases l' with
    | nil => cases h'; exact absurd List.mem_cons_self hv
    | cons y l' =>
      obtain ⟨rfl, nx', hn', hc'⟩ := h'
      rw [hn] at hn'
      cases hn'
      rw [ih hc (fun h => hv (List.mem_cons_of_mem _ h)) hc' (fun h => hv' (List.mem_cons_of_mem _ h))]

theorem queueIs_unique {s : State} {e : Nat} {q q' : List Nat} (h : s.queueIs e q) (h' : s.queueIs e q') :
    q = q' := by
  have notMem : ∀ {l : List Nat}, (l ++ [(s.ed e).tail]).Nodup → (s.ed e).tail ∉ l := fun h hm =>
    (List.nodup_append.1 h).2.2 _ hm _ List.mem_cons_self rfl
  exact chain_unique h.chain (notMem h.once) h'.chain (notMem h'.once)

/-- The check of `State.finishedFirst`, the queue of each endpoint given. -/
def State.finishedFirstCheck (s : State) (q : Nat → List Nat) : Bool :=
  s.edt.all (fun p => !p.2.alloc ||
    ((q p.1).dropWhile (fun t => (s.td t).finished) ++ [(s.ed p.1).tail]).all (fun t => !(s.td t).finished))

theorem finishedFirst_of_check {s : State} (q : Nat → List Nat) (hq : s.queuesCheck q = true)
    (h : s.finishedFirstCheck q = true) : s.finishedFirst := by
  intro e q' he hq'
  have hqe : s.queueIs e (q e) := by
    simp only [State.queuesCheck, Bool.and_eq_true, List.all_eq_true, Bool.or_eq_true, Bool.not_eq_true'] at hq
    rcases hq.1.1.1 _ (mem_edt he) with hf | hr
    · simp [he] at hf
    · exact queueIs_of_check hr
  cases queueIs_unique hqe hq'
  simp only [State.finishedFirstCheck, List.all_eq_true, Bool.or_eq_true, Bool.not_eq_true'] at h
  refine ⟨_, _, List.takeWhile_append_dropWhile.symm, fun t ht =>
    List.mem_takeWhile_imp (p := fun t => (s.td t).finished) ht, fun t ht => ?_⟩
  rcases h _ (mem_edt he) with hf | hr
  · simp [he] at hf
  · exact hr t ht

/-! ### The HC's view of a queue -/

/-- The check of `State.hardwareAgrees`. -/
def State.agreesCheck (s : State) (e : Nat) (retired waiting : List Nat) : Bool :=
  s.queueCheck e (retired ++ waiting) && waiting.all (fun t => !(s.td t).finished)
    && ptrOf (s.physRead (edHeadAddr s.params e)) == tdAddr s.params ((waiting ++ [(s.ed e).tail]).headD 0)
    && waiting.all (fun t => (s.td t).next.all (fun nx =>
      s.physRead (tdAddr s.params t + 8#32) == tdAddr s.params nx))
    && s.physRead (edTailAddr s.params e) == tdAddr s.params (s.ed e).tail

theorem hardwareAgrees_of_check {s : State} {e : Nat} {retired waiting : List Nat}
    (h : s.agreesCheck e retired waiting = true) : s.hardwareAgrees e retired waiting := by
  simp only [State.agreesCheck, Bool.and_eq_true, List.all_eq_true, beq_iff_eq, Bool.not_eq_true'] at h
  obtain ⟨⟨⟨⟨h1, h2⟩, h3⟩, h4⟩, h5⟩ := h
  refine ⟨queueIs_of_check h1, h2, fun t ht => ?_, fun t ht nx hn => ?_, h5⟩
  · rw [h3, List.headD_eq_head?_getD, ht]; rfl
  · have := h4 t ht
    rw [hn] at this
    simpa using this

/-! ### Groups -/

/-- The check of `State.headGroup`. -/
def State.groupCheck (s : State) (e : Nat) (g : List Nat) (after : Nat) : Bool :=
  chainCheck s (s.ed e).head g after && decide (g ≠ []) && decide ((s.ed e).tail ∉ g)
    && g.all (fun t => (s.td t).finished) && g.dropLast.all (fun t => (s.td t).more)
    && g.getLast?.all (fun t => !(s.td t).more)

theorem headGroup_of_check {s : State} {e : Nat} {g : List Nat} {after : Nat}
    (h : s.groupCheck e g after = true) : s.headGroup e g after := by
  simp only [State.groupCheck, Bool.and_eq_true, List.all_eq_true, decide_eq_true_eq] at h
  obtain ⟨⟨⟨⟨⟨h1, h2⟩, h3⟩, h4⟩, h5⟩, h6⟩ := h
  refine ⟨chain_of_check h1, h2, h3, h4, h5, fun t ht => ?_⟩
  rw [ht] at h6
  simpa using h6

/-! ### Outcomes -/

/-- The next state an outcome holds, as a value that computes. -/
def nextOf : Host.Outcome State Fault Refusal → Option State
  | .next s => some s
  | .fault _ => none
  | .refused _ => none

theorem next_of_check {o : Host.Outcome State Fault Refusal} (h : (nextOf o).isSome = true) :
    ∃ t, o = .next t := by
  cases o with
  | next t => exact ⟨t, rfl⟩
  | fault f => cases h
  | refused r => cases h

end Sys2Proof.Machine
end

