-- ==== Sys2Proof/Laws/Run.lean ====
section
/-! SUPPORT. How a piece of a command's pseudocode runs: one lemma per way two pieces are put together, and
the acceptance and end of a command. -/

namespace Sys2Proof.Machine

variable {α β : Type}

theorem run_bind_ok {x : Cmd α} {f : α → Cmd β} {s s' : State} {a : α} (h : x s = .ok a s') :
    (x >>= f) s = f a s' := by
  show EStateM.bind x f s = f a s'
  simp only [EStateM.bind, h]

theorem run_bind_error {x : Cmd α} {f : α → Cmd β} {s s' : State} {e : Stop} (h : x s = .error e s') :
    (x >>= f) s = .error e s' := by
  show EStateM.bind x f s = .error e s'
  simp only [EStateM.bind, h]

/-- A sequence that answers ran its first piece to an answer. -/
theorem run_bind_inv {x : Cmd α} {f : α → Cmd β} {s s'' : State} {b : β}
    (h : (x >>= f) s = .ok b s'') : ∃ a s', x s = .ok a s' ∧ f a s' = .ok b s'' := by
  change EStateM.bind x f s = _ at h
  simp only [EStateM.bind] at h
  split at h
  · rename_i a s' e
    exact ⟨a, s', e, h⟩
  · cases h

@[simp] theorem run_pure (a : α) (s : State) : (pure a : Cmd α) s = .ok a s := rfl

@[simp] theorem run_get (s : State) : (get : Cmd State) s = .ok s s := rfl

@[simp] theorem run_set (s s' : State) : (set s' : Cmd PUnit) s = .ok ⟨⟩ s' := rfl

@[simp] theorem run_modify (f : State → State) (s : State) :
    (modify f : Cmd PUnit) s = .ok ⟨⟩ (f s) := rfl

@[simp] theorem run_raise (e : ErrCode) (s : State) : (raise e : Cmd α) s = .error (.err e) s := rfl

@[simp] theorem run_stop (f : Fault) (s : State) : (stop f : Cmd α) s = .error (.stuck f) s := rfl

@[simp] theorem run_orStop_some (f : Fault) (a : α) (s : State) : orStop f (some a) s = .ok a s := rfl

@[simp] theorem run_orStop_none (f : Fault) (s : State) :
    (orStop f none : Cmd α) s = .error (.stuck f) s := rfl

@[simp] theorem run_logFault (c : FaultCode) (i : Word) (s : State) :
    logFault c i s = .ok ⟨⟩ (s.logFault c i) := rfl

/-- `f <$> x` on a piece that answers. -/
theorem run_map_ok {x : Cmd α} {f : α → β} {s s' : State} {a : α} (h : x s = .ok a s') :
    (f <$> x) s = .ok (f a) s' := by
  show EStateM.map f x s = _
  simp only [EStateM.map, h]

/-- The common checks pass where the gate is open and the context allows the command
(30_encoding.md R144 (3), (4)). -/
theorem run_commonChecks_ok {i : Instr} {s : State} (hg : gateOpen s.started (startGate i) = true)
    (hc : (blocking i && i.ctx == .interrupt) = false) : commonChecks i s = .ok ⟨⟩ s := by
  unfold commonChecks
  rw [run_bind_ok (run_get s)]
  simp only [hg, hc, if_true]
  rfl

theorem run_commonChecks_gate {i : Instr} {s : State} (hg : gateOpen s.started (startGate i) = false) :
    commonChecks i s = .error (.err .badState) s := by
  unfold commonChecks
  rw [run_bind_ok (run_get s)]
  simp only [hg]
  rfl

theorem run_commonChecks_context {i : Instr} {s : State}
    (hg : gateOpen s.started (startGate i) = true)
    (hc : (blocking i && i.ctx == .interrupt) = true) :
    commonChecks i s = .error (.err .context) s := by
  unfold commonChecks
  rw [run_bind_ok (run_get s)]
  simp only [hg, hc, if_true]
  rfl

/-- The handle names an allocated endpoint (40_endpoint.md R219). -/
theorem run_checkEd_ok {e : Nat} {s : State} (h : s.validEd e = true) : checkEd e s = .ok ⟨⟩ s := by
  unfold checkEd
  rw [run_bind_ok (run_get s)]
  simp only [h, if_true]
  rfl

theorem run_checkEd_notFound {e : Nat} {s : State} (h : s.validEd e = false) :
    checkEd e s = .error (.err .notFound) s := by
  unfold checkEd
  rw [run_bind_ok (run_get s)]
  simp only [h]
  rfl

/-- A busy block drops the command (10_state.md R24). -/
theorem runCommand_busy {i : Instr} {b : Args → Cmd Results} {s : State} (h : s.seq.busy = true) :
    runCommand i b s = .next { s with cmdLost := true } := by simp [runCommand, h]

end Sys2Proof.Machine
end

