-- ==== Sys2Proof/Laws/Keeps.lean ====
section
/-! SUPPORT. Properties that hold through a command whatever the other agents do: what a property must
survive (`Carried`), and that every shared operation then keeps it. With `step_keeps` an invariant of every
step is: survive the moves and accesses, survive the bookkeeping, and be kept by each command's own updates. -/

namespace Sys2Proof.Machine

variable {α β : Type} {P : State → Prop} {A : Move → Prop}

/-! ### Keeping a property -/

/-- A property of the state a run leaves, however it ends. -/
def Leaves (P : State → Prop) : EStateM.Result Stop State α → Prop
  | .ok _ s => P s
  | .error _ s => P s

/-- The run from `s` leaves a state with the property. -/
def KeepsAt (P : State → Prop) (c : Cmd α) (s : State) : Prop := Leaves P (c s)

/-- Every run from a state with the property leaves one. -/
def Keeps (P : State → Prop) (c : Cmd α) : Prop := ∀ s, P s → KeepsAt P c s

theorem KeepsAt.ok {c : Cmd α} {s s' : State} {a : α} (h : KeepsAt P c s) (e : c s = .ok a s') : P s' := by
  simpa only [KeepsAt, e, Leaves] using h

theorem keepsAt_bind {x : Cmd α} {f : α → Cmd β} {s : State} (hx : KeepsAt P x s)
    (hf : ∀ a s', x s = .ok a s' → P s' → KeepsAt P (f a) s') : KeepsAt P (x >>= f) s := by
  cases e : x s with
  | ok a s' =>
    have := hf a s' e (hx.ok e)
    simpa only [KeepsAt, run_bind_ok e] using this
  | error st s' =>
    have hs' : P s' := by simpa only [KeepsAt, e, Leaves] using hx
    simpa only [KeepsAt, run_bind_error e, Leaves] using hs'

theorem keeps_bind {x : Cmd α} {f : α → Cmd β} (hx : Keeps P x) (hf : ∀ a, Keeps P (f a)) :
    Keeps P (x >>= f) := fun s h => keepsAt_bind (hx s h) fun a s' _ h' => hf a s' h'

/-- The state read is the state the rest runs from. -/
theorem keeps_get_bind {f : State → Cmd β} (h : ∀ s, P s → KeepsAt P (f s) s) :
    Keeps P (get >>= f) := fun s hs => by
  simpa only [KeepsAt, run_bind_ok (run_get s)] using h s hs

theorem keeps_pure (a : α) : Keeps P (pure a : Cmd α) := fun _ h => h

theorem keeps_raise (e : ErrCode) : Keeps P (raise e : Cmd α) := fun _ h => h

theorem keeps_stop (f : Fault) : Keeps P (stop f : Cmd α) := fun _ h => h

theorem keeps_orStop (f : Fault) (o : Option α) : Keeps P (orStop f o) := by
  cases o
  · exact keeps_stop f
  · exact keeps_pure _

theorem keeps_get : Keeps P (get : Cmd State) := fun _ h => h

theorem keeps_modify {f : State → State} (h : ∀ s, P s → P (f s)) : Keeps P (modify f : Cmd PUnit) :=
  fun s hs => h s hs

theorem keepsAt_set {s s' : State} (h : P s') : KeepsAt P (set s' : Cmd PUnit) s := h

theorem keeps_commonChecks (i : Instr) : Keeps P (commonChecks i) := fun s h => by
  cases hg : gateOpen s.started (startGate i)
  · simpa only [KeepsAt, run_commonChecks_gate hg, Leaves] using h
  · cases hc : blocking i && i.ctx == .interrupt
    · simpa only [KeepsAt, run_commonChecks_ok hg hc, Leaves] using h
    · simpa only [KeepsAt, run_commonChecks_context hg hc, Leaves] using h

theorem keeps_checkEd (e : Nat) : Keeps P (checkEd e) :=
  keeps_get_bind fun s hs => by split <;> exact hs

/-! ### What a property must survive -/

/-- `P` survives the moves of the kind `A`, the accesses, and the sequencer's own position; it says of the
moves to come that they are of that kind. -/
structure Carried (A : Move → Prop) (P : State → Prop) : Prop where
  moves : ∀ s, P s → ∀ m ∈ s.sched, A m
  seq : ∀ s q, P s → P { s with seq := q }
  sched : ∀ s ms, ms <:+ s.sched → P s → P { s with sched := ms }
  move : ∀ m s s', A m → otherMove m s = .on s' → P s → P s'
  reset : ∀ s, A .reset → P s → P s.blockReset
  touched : ∀ s a, P s → P (s.touch a)
  stored : ∀ s a v, P s → P (s.cacheStore a v)
  flushed : ∀ s b, P s → P (s.flushLine b)
  invalidated : ∀ s b, P s → P (s.invalLine b)
  mmio : ∀ s off v, P s → P { s with hc := hcRegWrite s.hc off v }

/-! ### The steps of the sequencer -/

theorem interfere_keeps (c : Carried A P) (l : List Move) (s : State) (hl : l <:+ s.sched) (h : P s) :
    Leaves P (interfere l s) := by
  induction l generalizing s with
  | nil => exact c.seq _ _ (c.sched s [] (List.nil_suffix) h)
  | cons m ms ih =>
    have hms : ms <:+ s.sched := (List.suffix_cons m ms).trans hl
    have hm : A m := c.moves s h m (hl.subset (by simp))
    by_cases hb : m = .block
    · subst hb
      exact c.seq _ _ (c.sched s ms hms h)
    · have e : interfere (m :: ms) s =
          (match otherMove m s with
            | .on s' => interfere ms s'
            | .abandoned s' => .error .gone { s' with sched := ms }
            | .stuck f => .error (.stuck f) s) := by
        cases m <;> first | exact absurd rfl hb | rfl
      rw [e]
      cases ho : otherMove m s with
      | on s' =>
        exact ih s' (by rw [(otherMove_internal ho).sched]; exact hms) (c.move m s s' hm ho h)
      | abandoned s' =>
        obtain ⟨rfl, rfl⟩ := otherMove_abandoned ho
        exact c.sched _ ms hms (c.reset s hm h)
      | stuck f => exact h

theorem Carried.keeps_turn (c : Carried A P) : Keeps P turn := fun s h =>
  interfere_keeps c s.sched s List.suffix_rfl h

theorem Carried.keeps_memRead (c : Carried A P) (a : Word) : Keeps P (memRead a) := by
  refine keeps_bind c.keeps_turn fun _ => keeps_get_bind fun s hs => ?_
  exact keepsAt_bind (keepsAt_set (c.touched s _ hs)) fun _ s' _ h' => keeps_pure _ s' h'

theorem Carried.keeps_memWrite (c : Carried A P) (a v : Word) : Keeps P (memWrite a v) :=
  keeps_bind c.keeps_turn fun _ => keeps_modify fun s h => c.stored s a v h

theorem Carried.keeps_flushLines (c : Carried A P) (bs : List Nat) : Keeps P (flushLines bs) := by
  induction bs with
  | nil => exact keeps_pure _
  | cons b rest ih =>
    exact keeps_bind c.keeps_turn fun _ =>
      keeps_bind (keeps_modify fun s h => c.flushed s b h) fun _ => ih

theorem Carried.keeps_flush (c : Carried A P) (a : Word) (n : Nat) : Keeps P (flush a n) :=
  keeps_get_bind fun s hs => c.keeps_flushLines _ s hs

theorem Carried.keeps_invalLines (c : Carried A P) (bs : List Nat) : Keeps P (invalLines bs) := by
  induction bs with
  | nil => exact keeps_pure _
  | cons b rest ih =>
    exact keeps_bind c.keeps_turn fun _ =>
      keeps_bind (keeps_modify fun s h => c.invalidated s b h) fun _ => ih

theorem Carried.keeps_inval (c : Carried A P) (a : Word) (n : Nat) : Keeps P (inval a n) :=
  keeps_get_bind fun s hs => c.keeps_invalLines _ s hs

theorem Carried.keeps_rmw (c : Carried A P) (a : Word) (f : Word → Word) : Keeps P (rmw a f) :=
  keeps_bind (c.keeps_inval a 4) fun _ => keeps_bind (c.keeps_memRead a) fun v =>
    keeps_bind (c.keeps_memWrite a (f v)) fun _ => c.keeps_flush a 4

theorem Carried.keeps_mmioRead (c : Carried A P) (off : Nat) : Keeps P (mmioRead off) :=
  keeps_bind c.keeps_turn fun _ => keeps_get_bind fun s hs => keeps_pure _ s hs

theorem Carried.keeps_mmioWrite (c : Carried A P) (off : Nat) (v : Word) : Keeps P (mmioWrite off v) :=
  keeps_bind c.keeps_turn fun _ => keeps_modify fun s h => c.mmio s off v h

theorem Carried.keeps_listFilled (c : Carried A P) (t : EdType) : Keeps P (listFilled t) := by
  cases t
  · exact c.keeps_mmioWrite _ _
  · exact c.keeps_mmioWrite _ _
  · exact keeps_pure _

theorem Carried.keeps_writeTd (c : Carried A P) (a w0 w1 w2 w3 : Word) : Keeps P (writeTd a w0 w1 w2 w3) :=
  keeps_bind (c.keeps_memWrite _ _) fun _ => keeps_bind (c.keeps_memWrite _ _) fun _ =>
    keeps_bind (c.keeps_memWrite _ _) fun _ => c.keeps_memWrite _ _

theorem Carried.keeps_fillTable (c : Carried A P) (p : Params) (is : List Nat) : Keeps P (fillTable p is) := by
  induction is with
  | nil => exact keeps_pure _
  | cons i rest ih => exact keeps_bind (c.keeps_memWrite _ _) fun _ => ih

theorem Carried.keeps_buildEndpoint (c : Carried A P) (p : Params) (e t : Nat) (w : Word) :
    Keeps P (buildEndpoint p e t w) :=
  keeps_bind (c.keeps_writeTd _ _ _ _ _) fun _ => keeps_bind (c.keeps_memWrite _ _) fun _ =>
    keeps_bind (c.keeps_memWrite _ _) fun _ => keeps_bind (c.keeps_memWrite _ _) fun _ =>
      keeps_bind (c.keeps_memWrite _ _) fun _ => keeps_bind (c.keeps_flush _ _) fun _ => c.keeps_flush _ _

theorem Carried.keeps_clearHalt (c : Carried A P) (e : Nat) (clrtog : Bool) : Keeps P (clearHalt e clrtog) := by
  refine keeps_get_bind fun s hs => ?_
  refine (keeps_bind (c.keeps_inval _ _) fun _ => keeps_bind (c.keeps_memRead _) fun _ =>
    keeps_bind (c.keeps_memWrite _ _) fun _ => keeps_bind (c.keeps_memRead _) fun _ =>
      keeps_bind (c.keeps_memWrite _ _) fun _ => c.keeps_flush _ _) s hs

theorem Carried.keeps_classDisable (c : Carried A P) (k : Nat) : Keeps P (classDisable k) :=
  keeps_bind (c.keeps_mmioRead _) fun _ => keeps_bind (c.keeps_mmioWrite _ _) fun _ => keeps_pure _

theorem Carried.keeps_classRestore (c : Carried A P) (k : Nat) (was : Bool) :
    Keeps P (classRestore k was) := by
  unfold classRestore
  split
  · exact keeps_bind (c.keeps_mmioRead _) fun _ => c.keeps_mmioWrite _ _
  · exact keeps_pure _

theorem Carried.keeps_repoint (c : Carried A P) (d : Nat) (link entry : Word) (ps done : List Nat) :
    Keeps P (repoint d link entry ps done) := by
  induction ps generalizing done with
  | nil => exact keeps_pure _
  | cons p rest ih =>
    refine keeps_get_bind fun s hs => ?_
    split
    · split
      · exact ih _ s hs
      · exact (keeps_bind (c.keeps_rmw _ _) fun _ => ih _) s hs
    · exact (keeps_bind (c.keeps_memWrite _ _) fun _ => keeps_bind (c.keeps_flush _ _) fun _ => ih _) s hs

theorem Carried.keeps_readGroup (c : Carried A P) (us : List Nat) (n : Nat) (w : Word) :
    Keeps P (readGroup us n w) := by
  induction us generalizing n w with
  | nil => exact keeps_pure _
  | cons u rest ih =>
    refine keeps_get_bind fun s hs => ?_
    refine (keeps_bind (c.keeps_inval _ _) fun _ => keeps_bind (c.keeps_memRead _) fun _ =>
      keeps_bind (c.keeps_memRead _) fun _ => keeps_bind (c.keeps_memRead _) fun _ =>
        keeps_get_bind fun s' hs' => ih _ _ s' hs') s hs

theorem Carried.keeps_relink (c : Carried A P) (e : Nat) (h : Word) (b grp : List Nat) (n : Nat) :
    Keeps P (relink e h b grp n) := by
  refine keeps_get_bind fun s hs => ?_
  dsimp only
  split
  · exact (keeps_bind (c.keeps_memWrite _ _) fun _ => c.keeps_flush _ _) s hs
  · split
    · exact c.keeps_rmw _ _ s hs
    · exact hs

theorem Carried.keeps_reverseDone (c : Carried A P) (n : Nat) (prev a : Word) :
    Keeps P (reverseDone n prev a) := by
  induction n generalizing prev a with
  | zero => unfold reverseDone; split <;> exact keeps_pure _
  | succ n ih =>
    unfold reverseDone
    split
    · exact keeps_pure _
    · exact keeps_bind (c.keeps_inval _ _) fun _ => keeps_bind (c.keeps_memRead _) fun _ =>
        keeps_bind (c.keeps_memWrite _ _) fun _ => keeps_bind (c.keeps_flush _ _) fun _ => ih _ _

/-! ### The frame wait -/

theorem waitSteps_keeps (c : Carried A P) (f0 : BitVec 16) (l : List Move) (r : Nat) (s : State)
    (hl : l <:+ s.sched) (h : P s) : Leaves P (waitSteps f0 l r s) := by
  induction l generalizing r s with
  | nil =>
    unfold waitSteps
    split <;> exact c.sched s [] List.nil_suffix h
  | cons m ms ih =>
    have hms : ms <:+ s.sched := (List.suffix_cons m ms).trans hl
    have hm : A m := c.moves s h m (hl.subset (by simp))
    have other : ∀ x : MoveEnd, x = otherMove m s →
        Leaves P (match x with
          | .on s' => waitSteps f0 ms r s'
          | .abandoned s' => .error .gone { s' with sched := ms }
          | .stuck f => .error (.stuck f) s) := by
      intro x hx
      cases x with
      | on s' =>
        exact ih r s' (by rw [(otherMove_internal hx.symm).sched]; exact hms) (c.move m s s' hm hx.symm h)
      | abandoned s' =>
        obtain ⟨rfl, rfl⟩ := otherMove_abandoned hx.symm
        exact c.sched _ ms hms (c.reset s hm h)
      | stuck f => exact h
    cases m with
    | block =>
      unfold waitSteps
      split
      · exact c.sched s ms hms h
      · exact ih r s hms h
    | timer =>
      unfold waitSteps
      split
      · exact ih _ _ hms (c.seq s _ h)
      · exact c.sched s ms hms h
    | host m => exact other _ rfl
    | hc m => exact other _ rfl
    | cache m => exact other _ rfl
    | reset => exact other _ rfl

theorem Carried.keeps_waitFrom (c : Carried A P) (f0 : BitVec 16) (r : Nat) : Keeps P (waitFrom f0 r) := by
  unfold waitFrom
  refine keeps_bind (fun s h => waitSteps_keeps c f0 s.sched r s List.suffix_rfl h) fun q => ?_
  exact keeps_bind (keeps_modify fun s h => c.seq s _ h) fun _ => keeps_pure _

theorem Carried.keeps_waitFrame (c : Carried A P) (e : Nat) (f0 : BitVec 16) (k : Cont) :
    Keeps P (waitFrame e f0 k) :=
  keeps_bind (keeps_modify fun s h => c.seq s _ h) fun _ => c.keeps_waitFrom _ _

theorem Carried.keeps_quiesce (c : Carried A P) (e : Nat) (k : Cont) : Keeps P (quiesce e k) := by
  refine keeps_get_bind fun s hs => ?_
  refine (keeps_bind (c.keeps_inval _ _) fun _ => keeps_bind (c.keeps_memRead _) fun h => ?_) s hs
  split
  · exact keeps_pure _
  · exact keeps_bind (c.keeps_rmw _ _) fun _ =>
      keeps_bind (c.keeps_mmioRead _) fun _ => c.keeps_waitFrame _ _ _

end Sys2Proof.Machine
end

