-- ==== Sys2Proof/Laws/Exec.lean ====
section
/-! SUPPORT. What a command and a step can do, said once: every meaning is `runCommand` of its body; how a
command runs while nothing else moves; and that a property which survives the moves, the bookkeeping and each
command's own updates is kept by every step. -/

namespace Sys2Proof.Machine

/-- The pseudocode of a command. -/
def bodyOf : Instr → Args → Cmd Results
  | .nop _ => nopBody
  | .schedStart _ => schedStartBody
  | .edOpen _ => edOpenBody
  | .edClose _ e => edCloseBody e
  | .edSuspend _ e => edSuspendBody e
  | .edResume _ e => edResumeBody e
  | .edClearHalt _ e clrtog => edClearHaltBody e clrtog
  | .edQuiesce _ e => edQuiesceBody e
  | .schedBitpos _ d n => schedBitposBody d n
  | .schedIdepth _ iv => schedIdepthBody iv
  | .schedLoad _ i => schedLoadBody i
  | .tdQueue _ e more r di dp => tdQueueBody e more r di dp
  | .xferComplete _ e => xferCompleteBody e
  | .xferAbort _ e => xferAbortBody e
  | .ccClassify _ cc => ccClassifyBody cc
  | .dqDrain _ => dqDrainBody
  | .cflush _ => cflushBody
  | .cinval _ => cinvalBody

/-- Every meaning is the run of its body. -/
theorem exec_eq (i : Instr) (s : State) : exec i s = runCommand i (bodyOf i) s := by cases i <;> rfl

/-- The state in which a command's own pseudocode begins, when no move came before it. -/
def State.begun (s : State) (w : Word) : State :=
  { s with cmdLost := false, seq := .exec { word := w, ctx := ctxField w, args := s.args, point := 1 } }

theorem accept_turn_quiet {s : State} (hq : s.sched = []) (w : Word) :
    turn (s.accept w) = .ok ⟨⟩ (s.begun w) := by
  have h : turn (s.accept w) = interfere s.sched (s.accept w) := rfl
  rw [h, hq]
  cases s
  simp_all [interfere, State.begun, State.accept, State.args, Seq.advance]

/-- A command on an idle block while nothing else moves. -/
theorem exec_quiet {s : State} (hi : s.seq = .idle) (hq : s.sched = []) (i : Instr) :
    exec i s = finish ((do commonChecks i; bodyOf i s.args) (s.begun (encode i))) := by
  have hb : s.seq.busy = false := by rw [hi]; rfl
  rw [exec_eq, runCommand, if_neg (by simp [hb])]
  rw [run_bind_ok (accept_turn_quiet hq (encode i))]

/-- The same where the common checks pass: the outcome is that of the command's own pseudocode. -/
theorem exec_quiet_body {s : State} (hi : s.seq = .idle) (hq : s.sched = []) {i : Instr}
    (hg : gateOpen s.started (startGate i) = true) (hc : (blocking i && i.ctx == .interrupt) = false) :
    exec i s = finish (bodyOf i s.args (s.begun (encode i))) := by
  have hck : commonChecks i (s.begun (encode i)) = .ok ⟨⟩ (s.begun (encode i)) :=
    run_commonChecks_ok (s := s.begun (encode i)) hg hc
  rw [exec_quiet hi hq, run_bind_ok hck]

/-! ### Invariants of every step -/

variable {P : State → Prop} {A : Move → Prop}

/-- `P` survives the bookkeeping of commands: `CMDLOST`, the end of a command, results, `ISR` bits. -/
structure Booked (P : State → Prop) : Prop where
  lost : ∀ s b, P s → P { s with cmdLost := b }
  ended : ∀ s e, P s → P (s.endCommand e)
  results : ∀ s r, P s → P (s.writeResults r)
  raised : ∀ s b, P s → P (s.raiseIsr b)
  unlocked : ∀ s, P s → P { s with plock := false }

theorem finish_keeps (b : Booked P) {r : EStateM.Result Stop State Results} (h : Leaves P r) {t : State}
    (e : finish r = .next t) : P t := by
  cases r with
  | ok v s => cases e; exact b.ended _ _ (b.results _ _ h)
  | error st s =>
    cases st with
    | err c => cases e; exact b.ended _ _ h
    | gone => cases e; exact h
    | stuck f => cases e

theorem accept_keeps (c : Carried A P) (b : Booked P) {s : State} (h : P s) (w : Word) : P (s.accept w) :=
  c.seq _ _ (b.lost s false h)

theorem exec_keeps (c : Carried A P) (b : Booked P) {i : Instr} (hbody : ∀ args, Keeps P (bodyOf i args))
    {s t : State} (h : P s) (e : exec i s = .next t) : P t := by
  rw [exec_eq, runCommand] at e
  split at e
  · cases e; exact b.lost s true h
  · refine finish_keeps b ?_ e
    exact (keeps_bind c.keeps_turn fun _ => keeps_bind (keeps_commonChecks i) fun _ => hbody s.args) _
      (accept_keeps c b h _)

theorem runReserved_keeps (c : Carried A P) (b : Booked P) {w : Word} {s t : State} (h : P s)
    (e : runReserved w s = .next t) : P t :=
  finish_keeps b ((keeps_bind c.keeps_turn fun _ => keeps_raise _) _ (accept_keeps c b h w)) e

theorem runAutoDrain_keeps (c : Carried A P) (b : Booked P) (hdrain : Keeps P drain) {s t : State} (h : P s)
    (e : runAutoDrain s = .next t) : P t := by
  have hl : Leaves P (drain { s with seq := .exec { auto := true, ctx := .interrupt } }) := hdrain _ (c.seq s _ h)
  unfold runAutoDrain at e
  revert hl e
  cases drain { s with seq := .exec { auto := true, ctx := .interrupt } } with
  | ok n u => intro e hl; cases e; exact c.seq _ _ (b.unlocked _ (b.raised _ _ hl))
  | error st u =>
    intro e hl
    cases st with
    | err ec => cases e; exact c.seq _ _ (b.unlocked _ (b.raised _ _ hl))
    | gone => cases e; exact hl
    | stuck f => cases e

/-- A property that survives the moves of the kind `A`, the accesses, the bookkeeping and each command's
own updates is kept by every step. -/
theorem step_keeps (c : Carried A P) (b : Booked P) (hbody : ∀ i args, Keeps P (bodyOf i args))
    (hafter : ∀ k q, Keeps P (afterWait k q)) (hdrain : Keeps P drain) {s t : State} (h : P s)
    (e : step s = .next t) : P t := by
  have hidle : ∀ u : State, P u → idleTurn u = .next t → P t := by
    intro u hu e
    unfold idleTurn at e
    split at e
    · exact runAutoDrain_keeps c b hdrain hu e
    · cases e; exact hu
  unfold step at e
  split at e
  · unfold idleStep at e
    split at e
    · exact hidle s h e
    · rename_i m ms hs
      have hms : ms <:+ s.sched := by rw [hs]; exact List.suffix_cons m ms
      have hu : P { s with sched := ms } := c.sched s ms hms h
      have hm : A m := c.moves s h m (by rw [hs]; simp)
      split at e
      · unfold runWord at e
        split at e
        · exact exec_keeps c b (hbody _) hu e
        · exact runReserved_keeps c b hu e
      · split at e
        · exact hidle _ hu e
        · unfold idleMove at e
          split at e
          · rename_i s' ho; cases e; exact c.move m _ _ hm ho hu
          · rename_i s' ho
            cases e
            obtain ⟨rfl, rfl⟩ := otherMove_abandoned ho
            exact c.reset _ hm hu
          · cases e
  · refine finish_keeps b ?_ e
    exact (keeps_bind (c.keeps_waitFrom _ _) fun q => hafter _ q) s h
  · cases e

/-! ### Properties of the block's own state -/

/-- What no agent but the sequencer and the reset input changes, the position of the sequencer and the
schedule left aside. -/
structure SameBlock (s s' : State) : Prop where
  params : s'.params = s.params
  started : s'.started = s.started
  faultOvf : s'.faultOvf = s.faultOvf
  err : s'.err = s.err
  res0 : s'.res0 = s.res0
  res1 : s'.res1 = s.res1
  res2 : s'.res2 = s.res2
  edt : s'.edt = s.edt
  tdt : s'.tdt = s.tdt
  idxValid : s'.idxValid = s.idxValid
  place : s'.place = s.place
  faultCount : s'.faultCount = s.faultCount
  plock : s'.plock = s.plock
  draws : s'.draws = s.draws

theorem SameInternal.block {s s' : State} (h : SameInternal s s') : SameBlock s s' :=
  ⟨h.params, h.started, h.faultOvf, h.err, h.res0, h.res1, h.res2, h.edt, h.tdt, h.idxValid, h.place,
    h.faultCount, h.plock, h.draws⟩

/-- A property of the block's own state is carried through the moves and accesses, if it survives a reset
where resets may come. -/
theorem carried_of_block {Q : State → Prop} (hQ : ∀ s s', SameBlock s s' → Q s → Q s')
    (hreset : A .reset → ∀ s, Q s → Q s.blockReset) :
    Carried A (fun s => (∀ m ∈ s.sched, A m) ∧ Q s) where
  moves s h := h.1
  seq s q h := ⟨h.1, hQ s _ ⟨rfl, rfl, rfl, rfl, rfl, rfl, rfl, rfl, rfl, rfl, rfl, rfl, rfl, rfl⟩ h.2⟩
  sched s ms hms h := ⟨fun m hm => h.1 m (hms.subset hm),
    hQ s _ ⟨rfl, rfl, rfl, rfl, rfl, rfl, rfl, rfl, rfl, rfl, rfl, rfl, rfl, rfl⟩ h.2⟩
  move m s s' hm ho h := by
    have hi := otherMove_internal ho
    exact ⟨by rw [hi.sched]; exact h.1, hQ s s' hi.block h.2⟩
  reset s hA h := ⟨h.1, hreset hA s h.2⟩
  touched s a h := by
    obtain ⟨k, e⟩ := touch_shape s a
    rw [e]
    exact ⟨h.1, hQ s _ ⟨rfl, rfl, rfl, rfl, rfl, rfl, rfl, rfl, rfl, rfl, rfl, rfl, rfl, rfl⟩ h.2⟩
  stored s a v h := by
    obtain ⟨w, k, e⟩ := cacheStore_shape s a v
    rw [e]
    exact ⟨h.1, hQ s _ ⟨rfl, rfl, rfl, rfl, rfl, rfl, rfl, rfl, rfl, rfl, rfl, rfl, rfl, rfl⟩ h.2⟩
  flushed s b h := by
    obtain ⟨w, k, c, ms, hms, e⟩ := flushLine_shape s b
    rw [e]
    exact ⟨fun m hm => h.1 m (hms.subset hm),
      hQ s _ ⟨rfl, rfl, rfl, rfl, rfl, rfl, rfl, rfl, rfl, rfl, rfl, rfl, rfl, rfl⟩ h.2⟩
  invalidated s b h := by
    obtain ⟨k, e⟩ := invalLine_shape s b
    rw [e]
    exact ⟨h.1, hQ s _ ⟨rfl, rfl, rfl, rfl, rfl, rfl, rfl, rfl, rfl, rfl, rfl, rfl, rfl, rfl⟩ h.2⟩
  mmio s off v h := ⟨h.1, hQ s _ ⟨rfl, rfl, rfl, rfl, rfl, rfl, rfl, rfl, rfl, rfl, rfl, rfl, rfl, rfl⟩ h.2⟩

end Sys2Proof.Machine
end

