-- ==== Sys2Proof/Laws/PerInstr.lean ====
section
/-! SUPPORT. Statements about every command, one lemma per constructor: the fields of a command's word are
those of the command (30_encoding.md R140). -/

namespace Sys2Proof.Laws

/-- The five fields of a command's word, each in its place. -/
def EncodeFields.Statement (i : Instr) : Prop :=
  opField (encode i) = i.opcode ∧ ctxField (encode i) = i.ctx ∧ rsvField (encode i) = 0#7 ∧
    aField (encode i) = i.fieldA ∧ bField (encode i) = i.fieldB

/-- A word put together from the five fields has them. -/
theorem fields_of_word (b a : BitVec 8) (r : BitVec 7) (c : BitVec 1) (op : BitVec 8) :
    opField (b ++ a ++ r ++ c ++ op) = op ∧ (b ++ a ++ r ++ c ++ op).extractLsb' 8 1 = c ∧
      rsvField (b ++ a ++ r ++ c ++ op) = r ∧ aField (b ++ a ++ r ++ c ++ op) = a ∧
      bField (b ++ a ++ r ++ c ++ op) = b := by
  refine ⟨?_, ?_, ?_, ?_, ?_⟩ <;> apply BitVec.eq_of_getLsbD_eq <;> intro k hk <;>
    simp only [opField, rsvField, aField, bField, BitVec.getLsbD_extractLsb', BitVec.getLsbD_append]
  · simp [hk]
  · simp [hk, show ¬ (8 + k < 8) by omega, show 8 + k - 8 = k by omega]
  · simp [hk, show ¬ (9 + k < 8) by omega, show ¬ (9 + k - 8 < 1) by omega,
      show 9 + k - 8 - 1 = k by omega]
  · simp [hk, show ¬ (16 + k < 8) by omega, show ¬ (16 + k - 8 < 1) by omega,
      show ¬ (16 + k - 8 - 1 < 7) by omega, show 16 + k - 8 - 1 - 7 = k by omega]
  · simp [hk, show ¬ (24 + k < 8) by omega, show ¬ (24 + k - 8 < 1) by omega,
      show ¬ (24 + k - 8 - 1 < 7) by omega, show ¬ (24 + k - 8 - 1 - 7 < 8) by omega,
      show 24 + k - 8 - 1 - 7 - 8 = k by omega]

/-- The context bit of a word whose bit 8 is the command's. -/
theorem ctxField_of_bit {w : Word} {c : Ctx} (h : w.extractLsb' 8 1 = c.bit) : ctxField w = c := by
  have hb : w.getLsbD 8 = c.bit.getLsbD 0 := by
    have := congrArg (fun v => v.getLsbD 0) h
    simpa using this
  unfold ctxField
  rw [hb]
  cases c <;> rfl

theorem encode_fields (i : Instr) : EncodeFields.Statement i := by
  obtain ⟨h1, h2, h3, h4, h5⟩ := fields_of_word i.fieldB i.fieldA 0#7 i.ctx.bit i.opcode
  exact ⟨h1, ctxField_of_bit h2, h3, h4, h5⟩

theorem EncodeFields.nop (c : Ctx) : EncodeFields.Statement (.nop c) := encode_fields _
theorem EncodeFields.schedStart (c : Ctx) : EncodeFields.Statement (.schedStart c) := encode_fields _
theorem EncodeFields.edOpen (c : Ctx) : EncodeFields.Statement (.edOpen c) := encode_fields _
theorem EncodeFields.edClose (c : Ctx) (e : Nat) : EncodeFields.Statement (.edClose c e) :=
  encode_fields _
theorem EncodeFields.edSuspend (c : Ctx) (e : Nat) : EncodeFields.Statement (.edSuspend c e) :=
  encode_fields _
theorem EncodeFields.edResume (c : Ctx) (e : Nat) : EncodeFields.Statement (.edResume c e) :=
  encode_fields _
theorem EncodeFields.edClearHalt (c : Ctx) (e : Nat) (t : Bool) :
    EncodeFields.Statement (.edClearHalt c e t) := encode_fields _
theorem EncodeFields.edQuiesce (c : Ctx) (e : Nat) : EncodeFields.Statement (.edQuiesce c e) :=
  encode_fields _
theorem EncodeFields.schedBitpos (c : Ctx) (d n : Nat) : EncodeFields.Statement (.schedBitpos c d n) :=
  encode_fields _
theorem EncodeFields.schedIdepth (c : Ctx) (iv : Nat) : EncodeFields.Statement (.schedIdepth c iv) :=
  encode_fields _
theorem EncodeFields.schedLoad (c : Ctx) (i : Nat) : EncodeFields.Statement (.schedLoad c i) :=
  encode_fields _
theorem EncodeFields.tdQueue (c : Ctx) (e : Nat) (more r : Bool) (di : BitVec 3) (dp : BitVec 2) :
    EncodeFields.Statement (.tdQueue c e more r di dp) := encode_fields _
theorem EncodeFields.xferComplete (c : Ctx) (e : Nat) : EncodeFields.Statement (.xferComplete c e) :=
  encode_fields _
theorem EncodeFields.xferAbort (c : Ctx) (e : Nat) : EncodeFields.Statement (.xferAbort c e) :=
  encode_fields _
theorem EncodeFields.ccClassify (c : Ctx) (cc : BitVec 4) :
    EncodeFields.Statement (.ccClassify c cc) := encode_fields _
theorem EncodeFields.dqDrain (c : Ctx) : EncodeFields.Statement (.dqDrain c) := encode_fields _
theorem EncodeFields.cflush (c : Ctx) : EncodeFields.Statement (.cflush c) := encode_fields _
theorem EncodeFields.cinval (c : Ctx) : EncodeFields.Statement (.cinval c) := encode_fields _

end Sys2Proof.Laws
end

