-- ==== Sys2Proof/Laws/Quiet.lean ====
section
/-! SUPPORT. What the accesses of the sequencer do while no other agent moves (`sched = []`): one lemma per
shared operation, in terms of memory, of what the block reads (`view`) and of what waits for a write-back
(`pending`). -/

namespace Sys2Proof.Machine

variable {s : State}

/-- With no moves to come a step of the sequencer moves only its position on. -/
theorem turn_quiet (hq : s.sched = []) : turn s = .ok ⟨⟩ { s with seq := s.seq.advance } := by
  have h : turn s = interfere s.sched s := rfl
  rw [h, hq]
  cases s
  simp_all [interfere]

theorem view_congr {s s' : State} (hp : s'.params = s.params) (hm : s'.mem = s.mem)
    (hk : s'.cache = s.cache) (x : Nat) : s'.view x = s.view x := by
  simp only [State.view, State.cacheLoadByte, lineAt, filledLine, hp, hm, hk]

theorem pending_congr {s s' : State} (hp : s'.params = s.params) (hk : s'.cache = s.cache) (x : Nat) :
    s'.pending x = s.pending x := by simp only [State.pending, hp, hk]

/-- `MemRead`: the word as the block sees it; memory, what the block reads and what is pending stay. -/
theorem memRead_quiet (hq : s.sched = []) (a : Word) :
    ∃ k q, memRead a s = .ok (s.cacheLoad a) { s with cache := k, seq := q } ∧
      (∀ x, ({ s with cache := k, seq := q } : State).view x = s.view x) ∧
      (∀ x, ({ s with cache := k, seq := q } : State).pending x = s.pending x) := by
  obtain ⟨k, hk⟩ := touch_shape s a.toNat
  have ht : ({ s with seq := s.seq.advance } : State).touch a.toNat
      = { s with cache := k, seq := s.seq.advance } := by
    have : ({ s with seq := s.seq.advance } : State).touch a.toNat
        = { s.touch a.toNat with seq := s.seq.advance } := by
      unfold State.touch
      split <;> rfl
    rw [this, hk]
  refine ⟨k, s.seq.advance, ?_, fun x => ?_, fun x => ?_⟩
  · unfold memRead
    rw [run_bind_ok (turn_quiet hq), run_bind_ok (run_get _), run_bind_ok (run_set _ _), ht]
    rfl
  · rw [← view_touch s a.toNat x]
    exact view_congr (by rw [hk]) (by rw [hk]) (by rw [hk]) x
  · rw [← pending_touch s a.toNat x]
    exact pending_congr (by rw [hk]) (by rw [hk]) x

/-- `MemWrite`: what the block reads changes in the word's four bytes; memory changes only where there is
no cache; the word's line has its bytes pending (all of them, or the word's, with `WB_MASKED`). -/
theorem memWrite_quiet (g : s.params.Good) (hq : s.sched = []) {a : Word} (ha : a.toNat % 4 = 0)
    (v : Word) :
    ∃ m k q, memWrite a v s = .ok ⟨⟩ { s with mem := m, cache := k, seq := q } ∧
      (∀ x, ({ s with mem := m, cache := k, seq := q } : State).view x =
        if a.toNat ≤ x ∧ x < a.toNat + 4 then wordByte a.toNat v x else s.view x) ∧
      (∀ x, loadByte m x = if s.params.coherent = true ∧ a.toNat ≤ x ∧ x < a.toNat + 4 then
        wordByte a.toNat v x else loadByte s.mem x) ∧
      (∀ x, ({ s with mem := m, cache := k, seq := q } : State).pending x =
        (s.cacheStore a v).pending x) := by
  obtain ⟨m, k, hk⟩ := cacheStore_shape s a v
  have ht : ({ s with seq := s.seq.advance } : State).cacheStore a v
      = { s with mem := m, cache := k, seq := s.seq.advance } := by
    have : ({ s with seq := s.seq.advance } : State).cacheStore a v
        = { s.cacheStore a v with seq := s.seq.advance } := by
      unfold State.cacheStore
      split <;> rfl
    rw [this, hk]
  have hm : (s.cacheStore a v).mem = m := by rw [hk]
  refine ⟨m, k, s.seq.advance, ?_, fun x => ?_, fun x => ?_, fun x => ?_⟩
  · unfold memWrite
    rw [run_bind_ok (turn_quiet hq), run_modify, ht]
  · rw [← view_cacheStore g ha v x]
    exact view_congr (by rw [hk]) (by rw [hk]) (by rw [hk]) x
  · rw [← hm]
    by_cases hc : s.params.coherent = true
    · rw [cacheStore_mem_coherent hc, loadByte_store32_eq]
      simp [hc]
    · rw [cacheStore_mem_cached (by simpa using hc), if_neg (fun h => hc h.1)]
  · exact pending_congr (by rw [hk]) (by rw [hk]) x

/-- The one line of an aligned word. -/
theorem rangeLines_word {p : Params} (g : p.Good) {a : Nat} (ha : a % 4 = 0) :
    rangeLines p a 4 = [lineBase p a] := by
  have h := lineBase_word g ha (i := 3) (by omega)
  have hd : (a + 3) / p.cacheLine = a / p.cacheLine := Nat.eq_of_mul_eq_mul_right g.line_pos h
  have hn : lineCount p a 4 = 1 := by simp [lineCount, hd]
  simp only [rangeLines, hn, List.range_one, List.map_cons, List.map_nil, Nat.add_zero]
  rfl

/-- The one line of the 16 bytes at a line's base. -/
theorem rangeLines_slot {p : Params} (g : p.Good) {a : Nat} (ha : a % p.cacheLine = 0) :
    rangeLines p a 16 = [a] := by
  have h : lineBase p (a + 15) = a := lineBase_unique ha (by omega) (by have := g.line_ge; omega)
  have h0 : lineBase p a = a := lineBase_self g.line_pos ha
  have hd : (a + 15) / p.cacheLine = a / p.cacheLine :=
    Nat.eq_of_mul_eq_mul_right g.line_pos (h.trans h0.symm)
  have hn : lineCount p a 16 = 1 := by simp [lineCount, hd]
  simp only [rangeLines, hn, List.range_one, List.map_cons, List.map_nil, Nat.add_zero]
  rw [show a / p.cacheLine * p.cacheLine = a from h0]

/-- `Inval` of one line. -/
theorem inval_quiet (g : s.params.Good) (hq : s.sched = []) {a : Word} {n b : Nat}
    (hl : rangeLines s.params a.toNat n = [b]) :
    ∃ k q, inval a n s = .ok ⟨⟩ { s with cache := k, seq := q } ∧
      (∀ x, ({ s with cache := k, seq := q } : State).view x =
        if lineBase s.params x = b then loadByte s.mem x else s.view x) ∧
      (∀ x, ({ s with cache := k, seq := q } : State).pending x =
        (decide (lineBase s.params x ≠ b) && s.pending x)) ∧
      (s.params.coherent = false → tableFind b k = none) := by
  obtain ⟨k, hk⟩ := invalLine_shape s b
  have ht : ({ s with seq := s.seq.advance } : State).invalLine b
      = { s with cache := k, seq := s.seq.advance } := by
    have : ({ s with seq := s.seq.advance } : State).invalLine b
        = { s.invalLine b with seq := s.seq.advance } := by
      unfold State.invalLine
      split <;> rfl
    rw [this, hk]
  refine ⟨k, s.seq.advance, ?_, fun x => ?_, fun x => ?_, fun hc => ?_⟩
  · unfold inval
    rw [run_bind_ok (run_get _), hl]
    unfold invalLines
    rw [run_bind_ok (turn_quiet hq), run_bind_ok (run_modify _ _), ht]
    rfl
  · rw [← view_invalLine g b x]
    exact view_congr (by rw [hk]) (by rw [hk]) (by rw [hk]) x
  · rw [← pending_invalLine b x]
    exact pending_congr (by rw [hk]) (by rw [hk]) x
  · have := find_invalLine hc b b
    rw [hk, if_pos rfl] at this
    exact this

/-- `Flush` of one line. -/
theorem flush_quiet (g : s.params.Good) (hq : s.sched = []) {a : Word} {n b : Nat}
    (hl : rangeLines s.params a.toNat n = [b]) (hb : b % s.params.cacheLine = 0) :
    ∃ m k q, flush a n s = .ok ⟨⟩ { s with mem := m, cache := k, seq := q } ∧
      (∀ x, loadByte m x =
        if lineBase s.params x = b ∧ s.pending x = true then s.view x else loadByte s.mem x) ∧
      (∀ x, ({ s with mem := m, cache := k, seq := q } : State).view x = s.view x) ∧
      (∀ x, ({ s with mem := m, cache := k, seq := q } : State).pending x =
        (decide (lineBase s.params x ≠ b) && s.pending x)) := by
  obtain ⟨m, k, hk, hm, hv, hp⟩ :=
    flushLine_quiet (s := { s with seq := s.seq.advance }) g hq hb
  refine ⟨m, k, s.seq.advance, ?_, fun x => ?_, fun x => ?_, fun x => ?_⟩
  · unfold flush
    rw [run_bind_ok (run_get _), hl]
    unfold flushLines
    rw [run_bind_ok (turn_quiet hq), run_bind_ok (run_modify _ _), hk]
    rfl
  · exact hm x
  · rw [← hk]; exact hv x
  · rw [← hk]; exact hp x

/-- The block sees memory, and nothing is pending, in the line of an address. -/
def State.fresh (s : State) (a : Nat) : Prop :=
  ∀ x, lineBase s.params x = lineBase s.params a → s.view x = loadByte s.mem x ∧ s.pending x = false

/-- `RMW(a, f)` (00_scope.md R12): the word at `a` becomes `f` of what memory holds there, every other byte
of memory stays, and the word's line is as memory has it. -/
theorem rmw_quiet (g : s.params.Good) (hq : s.sched = []) {a : Word} (ha : a.toNat % 4 = 0)
    (f : Word → Word) :
    ∃ m k q, rmw a f s = .ok ⟨⟩ { s with mem := m, cache := k, seq := q } ∧
      (∀ x, loadByte m x = loadByte (store32 s.mem a.toNat (f (s.physRead a))) x) ∧
      ({ s with mem := m, cache := k, seq := q } : State).fresh a.toNat ∧
      (∀ x, lineBase s.params x ≠ lineBase s.params a.toNat →
        ({ s with mem := m, cache := k, seq := q } : State).view x = s.view x ∧
        ({ s with mem := m, cache := k, seq := q } : State).pending x = s.pending x) := by
  have hl := rangeLines_word g ha
  obtain ⟨k1, q1, e1, v1, p1, f1⟩ := inval_quiet g hq hl
  obtain ⟨k2, q2, e2, v2, p2⟩ := memRead_quiet (s := { s with cache := k1, seq := q1 }) hq a
  have hread : ({ s with cache := k1, seq := q1 } : State).cacheLoad a = s.physRead a := by
    rw [cacheLoad_of_view (s := { s with cache := k1, seq := q1 }) g ha (fun x h1 h2 => ?_)]
    · rfl
    · rw [v1, if_pos]
      have := lineBase_word g ha (i := x - a.toNat) (by omega)
      rwa [Nat.add_sub_cancel' h1] at this
  rw [hread] at e2
  obtain ⟨m3, k3, q3, e3, v3, m3', p3⟩ :=
    memWrite_quiet (s := { s with cache := k2, seq := q2 }) g hq ha (f (s.physRead a))
  obtain ⟨m4, k4, q4, e4, m4', v4, p4⟩ :=
    flush_quiet (s := { s with mem := m3, cache := k3, seq := q3 }) g hq hl (lineBase_mod _ _)
  have hin : ∀ x, a.toNat ≤ x ∧ x < a.toNat + 4 → lineBase s.params x = lineBase s.params a.toNat := by
    intro x h
    have := lineBase_word g ha (i := x - a.toNat) (by omega)
    rwa [Nat.add_sub_cancel' h.1] at this
  -- what the block reads before the flush
  have hview : ∀ x, lineBase s.params x = lineBase s.params a.toNat →
      ({ s with mem := m3, cache := k3, seq := q3 } : State).view x
        = loadByte (store32 s.mem a.toNat (f (s.physRead a))) x := by
    intro x hx
    rw [v3, loadByte_store32_eq]
    by_cases h : a.toNat ≤ x ∧ x < a.toNat + 4
    · rw [if_pos h, if_pos h]
    · rw [if_neg h, if_neg h, v2, v1, if_pos hx]
  -- where nothing is pending before the flush, memory holds it already
  have hmem : ∀ x, loadByte m4 x = loadByte (store32 s.mem a.toNat (f (s.physRead a))) x := by
    intro x
    rw [m4']
    by_cases hx : lineBase s.params x = lineBase s.params a.toNat
    · by_cases hp : ({ s with mem := m3, cache := k3, seq := q3 } : State).pending x = true
      · rw [if_pos ⟨hx, hp⟩, hview x hx]
      · rw [if_neg (fun h => hp h.2), m3', loadByte_store32_eq]
        by_cases h : a.toNat ≤ x ∧ x < a.toNat + 4
        · rw [if_pos h]
          by_cases hc : s.params.coherent = true
          · rw [if_pos ⟨hc, h⟩]
          · exfalso
            apply hp
            rw [p3, pending_cacheStore (by simpa using hc), if_pos hx]
            have hk : (x - lineBase s.params x) / 4 = (a.toNat - lineBase s.params a.toNat) / 4 := by
              rw [hx]
              have h1 := lineBase_le s.params a.toNat
              have h2 : lineBase s.params a.toNat % 4 = 0 := by
                obtain ⟨k, hk⟩ := Nat.dvd_of_mod_eq_zero (lineBase_mod s.params a.toNat)
                obtain ⟨j, hj⟩ := Nat.dvd_of_mod_eq_zero g.line_dvd
                rw [hk, hj, Nat.mul_assoc]
                omega
              omega
            have hlt : (a.toNat - lineBase s.params a.toNat) / 4 < 64 := by
              have := lt_lineBase_add g.line_pos a.toNat
              have := g.line_le
              omega
            rw [hk]
            simp only [Bool.or_eq_true, BitVec.getLsbD_or, BitVec.getLsbD_shiftLeft]
            right; right
            simp [hlt]
        · rw [if_neg h, if_neg (fun h' => h h'.2)]
    · rw [if_neg (fun h => hx h.1), m3', loadByte_store32_eq, if_neg (fun h => hx (hin x h)),
        if_neg (fun h => hx (hin x h.2))]
  refine ⟨m4, k4, q4, ?_, hmem, ?_, ?_⟩
  · unfold rmw
    rw [run_bind_ok e1, run_bind_ok e2, run_bind_ok e3, e4]
  · intro x hx
    constructor
    · show _ = loadByte m4 x
      rw [v4, hview x hx, hmem]
    · rw [p4]
      have : lineBase s.params x = lineBase s.params a.toNat := hx
      simp [this]
  · intro x hx
    constructor
    · rw [v4, v3, if_neg (fun h => hx (hin x h)), v2, v1, if_neg hx]
    · rw [p4]
      by_cases hc : s.params.coherent = true
      · simp [State.pending, hc]
      · rw [p3, pending_cacheStore (by simpa using hc), if_neg hx, p2, p1]
        simp [hx]

/-- `MmioRead` (00_scope.md R12). -/
theorem mmioRead_quiet (hq : s.sched = []) (off : Nat) :
    mmioRead off s = .ok (hcRegRead s.hc off) { s with seq := s.seq.advance } := by
  unfold mmioRead
  rw [run_bind_ok (turn_quiet hq), run_bind_ok (run_get _)]
  rfl

/-- `MmioWrite` (00_scope.md R12). -/
theorem mmioWrite_quiet (hq : s.sched = []) (off : Nat) (v : Word) :
    mmioWrite off v s = .ok ⟨⟩ { s with hc := hcRegWrite s.hc off v, seq := s.seq.advance } := by
  unfold mmioWrite
  rw [run_bind_ok (turn_quiet hq), run_modify]

/-- The HC after the list-filled write of a class (40_endpoint.md R216). -/
def Hc.filled (h : Hc) : EdType → Hc
  | .control => { h with commandStatus := h.commandStatus ||| clfBit }
  | .bulk => { h with commandStatus := h.commandStatus ||| blfBit }
  | .interrupt => h

/-- The list-filled write sets its bit and leaves the rest of the HC alone. -/
theorem listFilled_quiet (hq : s.sched = []) (t : EdType) :
    ∃ q, listFilled t s = .ok ⟨⟩ { s with hc := s.hc.filled t, seq := q } := by
  cases t with
  | control => exact ⟨_, mmioWrite_quiet hq _ _⟩
  | bulk => exact ⟨_, mmioWrite_quiet hq _ _⟩
  | interrupt => exact ⟨s.seq, rfl⟩

end Sys2Proof.Machine
end

