-- ==== Sys2Proof/Laws/Publish.lean ====
section
/-! SUPPORT. Several words written into one line and then flushed, while no other agent moves: what memory
holds afterwards (44_coherence.md R402, the publish discipline). -/

namespace Sys2Proof.Machine

variable {s : State}

/-- `s'` is `s` after writes into the line based at `b`, not flushed yet; `w` gives the bytes written. -/
structure Staged (s s' : State) (b : Nat) (w : Nat → Option Byte) : Prop where
  shape : ∃ m k q, s' = { s with mem := m, cache := k, seq := q }
  view : ∀ x, s'.view x = (w x).getD (s.view x)
  mem : ∀ x, loadByte s'.mem x =
    if s.params.coherent = true then (w x).getD (loadByte s.mem x) else loadByte s.mem x
  inside : ∀ x, w x ≠ none → lineBase s.params x = b
  pending : s.params.coherent = false → ∀ x, w x ≠ none → s'.pending x = true
  outside : ∀ x, lineBase s.params x ≠ b → s'.pending x = s.pending x

theorem Staged.refl (s : State) (b : Nat) : Staged s s b (fun _ => none) where
  shape := ⟨s.mem, s.cache, s.seq, rfl⟩
  view _ := rfl
  mem x := by simp
  inside x h := absurd rfl h
  pending _ x h := absurd rfl h
  outside _ _ := rfl

/-- The bytes of one more word written. -/
def wordOver (w : Nat → Option Byte) (a : Nat) (v : Word) : Nat → Option Byte :=
  fun x => if a ≤ x ∧ x < a + 4 then some (wordByte a v x) else w x

theorem Staged.params {s' : State} {b : Nat} {w : Nat → Option Byte} (h : Staged s s' b w) :
    s'.params = s.params := by
  obtain ⟨m, k, q, e⟩ := h.shape
  rw [e]

theorem Staged.sched {s' : State} {b : Nat} {w : Nat → Option Byte} (h : Staged s s' b w) :
    s'.sched = s.sched := by
  obtain ⟨m, k, q, e⟩ := h.shape
  rw [e]

/-- A read leaves the stage as it is. -/
theorem Staged.read {s' : State} {b : Nat} {w : Nat → Option Byte} (h : Staged s s' b w)
    (hq : s.sched = []) (a : Word) :
    ∃ s'', memRead a s' = .ok (s'.cacheLoad a) s'' ∧ Staged s s'' b w := by
  obtain ⟨k, q, e, v, p⟩ := memRead_quiet (h.sched.trans hq) a
  refine ⟨_, e, ?_, fun x => ?_, h.mem, h.inside, fun hc x hx => ?_, fun x hx => ?_⟩
  · obtain ⟨m, k', q', e'⟩ := h.shape
    exact ⟨m, k, q, by rw [e']⟩
  · rw [v, h.view]
  · rw [p]; exact h.pending hc x hx
  · rw [p]; exact h.outside x hx

/-- A write adds its word to the stage. -/
theorem Staged.write {s' : State} {b : Nat} {w : Nat → Option Byte} (h : Staged s s' b w)
    (g : s.params.Good) (hq : s.sched = []) {a : Word} (ha : a.toNat % 4 = 0)
    (hb : lineBase s.params a.toNat = b) (v : Word) :
    ∃ s'', memWrite a v s' = .ok ⟨⟩ s'' ∧ Staged s s'' b (wordOver w a.toNat v) := by
  have g' : s'.params.Good := by rw [h.params]; exact g
  obtain ⟨m, k, q, e, hv, hm, hp⟩ := memWrite_quiet g' (h.sched.trans hq) ha v
  have hin : ∀ x, a.toNat ≤ x ∧ x < a.toNat + 4 → lineBase s.params x = b := by
    intro x hx
    have := lineBase_word g ha (i := x - a.toNat) (by omega)
    rw [Nat.add_sub_cancel' hx.1] at this
    exact this.trans hb
  refine ⟨_, e, ?_, fun x => ?_, fun x => ?_, fun x hx => ?_, fun hc x hx => ?_, fun x hx => ?_⟩
  · obtain ⟨m', k', q', e'⟩ := h.shape
    exact ⟨m, k, q, by rw [e']⟩
  · rw [hv, h.view, wordOver]
    by_cases hx : a.toNat ≤ x ∧ x < a.toNat + 4
    · rw [if_pos hx, if_pos hx]; rfl
    · rw [if_neg hx, if_neg hx]
  · show loadByte m x = _
    rw [hm, h.mem, h.params, wordOver]
    by_cases hc : s.params.coherent = true
    · by_cases hx : a.toNat ≤ x ∧ x < a.toNat + 4
      · rw [if_pos ⟨hc, hx⟩, if_pos hc, if_pos hx]; rfl
      · rw [if_neg (fun h => hx h.2), if_pos hc, if_pos hc, if_neg hx]
    · rw [if_neg (fun h => hc h.1), if_neg hc, if_neg hc]
  · by_cases hw : a.toNat ≤ x ∧ x < a.toNat + 4
    · exact hin x hw
    · rw [wordOver, if_neg hw] at hx
      exact h.inside x hx
  · have hc' : s'.params.coherent = false := by rw [h.params]; exact hc
    rw [hp, pending_cacheStore hc', h.params]
    have hxb : lineBase s.params x = b := by
      by_cases hw : a.toNat ≤ x ∧ x < a.toNat + 4
      · exact hin x hw
      · rw [wordOver, if_neg hw] at hx
        exact h.inside x hx
    rw [if_pos (hxb.trans hb.symm), hb, hxb]
    by_cases hw : a.toNat ≤ x ∧ x < a.toNat + 4
    · have hk : (x - b) / 4 = (a.toNat - b) / 4 := by
        have h1 := lineBase_le s.params a.toNat
        have h2 : lineBase s.params a.toNat % 4 = 0 := by
          obtain ⟨k, hk⟩ := Nat.dvd_of_mod_eq_zero (lineBase_mod s.params a.toNat)
          obtain ⟨j, hj⟩ := Nat.dvd_of_mod_eq_zero g.line_dvd
          rw [hk, hj, Nat.mul_assoc]
          omega
        rw [hb] at h1 h2
        omega
      have hlt : (a.toNat - b) / 4 < 64 := by
        have := lt_lineBase_add g.line_pos a.toNat
        rw [hb] at this
        have := g.line_le
        omega
      rw [hk]
      simp only [Bool.or_eq_true, BitVec.getLsbD_or, BitVec.getLsbD_shiftLeft]
      right; right
      simp [hlt]
    · rw [wordOver, if_neg hw] at hx
      have hold := h.pending hc x hx
      simp only [State.pending, h.params, hc, hxb] at hold
      simp only [lineAt]
      cases hf : tableFind b s'.cache with
      | none => rw [hf] at hold; simp at hold
      | some l =>
        rw [hf] at hold
        simp only [BitVec.getLsbD_or]
        simp only [Bool.not_false, Bool.true_and, Bool.and_eq_true, Bool.or_eq_true] at hold
        rcases hold.2 with h1 | h1
        · simp [h1]
        · simp [h1]
  · rw [hp]
    by_cases hc : s'.params.coherent = true
    · simp only [State.pending, cacheStore_params, hc]
      rw [h.params] at hc
      simp [hc]
    · rw [pending_cacheStore (by simpa using hc), h.params, if_neg (fun e => hx (e.trans hb))]
      exact h.outside x hx

/-- A flush of the line publishes the stage: the bytes written reach memory, no byte outside the line
changes, and where the line was fresh before the writes no other byte of it changes either. -/
theorem Staged.publish {s' : State} {b : Nat} {w : Nat → Option Byte} (h : Staged s s' b w)
    (g : s.params.Good) (hq : s.sched = []) (hb : b % s.params.cacheLine = 0) {a : Word} {n : Nat}
    (hl : rangeLines s.params a.toNat n = [b]) :
    ∃ m k q, flush a n s' = .ok ⟨⟩ { s with mem := m, cache := k, seq := q } ∧
      (∀ x v, w x = some v → loadByte m x = v) ∧
      (∀ x, lineBase s.params x ≠ b → loadByte m x = loadByte s.mem x) ∧
      (s.fresh b → (∀ x, loadByte m x = (w x).getD (loadByte s.mem x)) ∧
        ({ s with mem := m, cache := k, seq := q } : State).fresh b) ∧
      (∀ x, lineBase s.params x ≠ b →
        ({ s with mem := m, cache := k, seq := q } : State).view x = s.view x ∧
        ({ s with mem := m, cache := k, seq := q } : State).pending x = s.pending x) := by
  have g' : s'.params.Good := by rw [h.params]; exact g
  obtain ⟨m, k, q, e, hm, hv, hp⟩ :=
    flush_quiet g' (h.sched.trans hq) (by rw [h.params]; exact hl) (by rw [h.params]; exact hb)
  obtain ⟨m', k', q', e'⟩ := h.shape
  have es : ({ s' with mem := m, cache := k, seq := q } : State)
      = { s with mem := m, cache := k, seq := q } := by rw [e']
  rw [es] at e hv hp
  rw [h.params] at hm hp
  have hnone : ∀ x, lineBase s.params x ≠ b → w x = none := by
    intro x hx
    by_contra hw
    exact hx (h.inside x hw)
  have hw : ∀ x v, w x = some v → loadByte m x = v := by
    intro x v hx
    have hx' : w x ≠ none := by rw [hx]; simp
    rw [hm]
    by_cases hp' : s'.pending x = true
    · rw [if_pos ⟨h.inside x hx', hp'⟩, h.view, hx]; rfl
    · rw [if_neg (fun h => hp' h.2), h.mem, hx]
      by_cases hc : s.params.coherent = true
      · rw [if_pos hc]; rfl
      · exact absurd (h.pending (by simpa using hc) x hx') hp'
  refine ⟨m, k, q, e, hw, fun x hx => ?_, fun hf => ?_, fun x hx => ⟨?_, ?_⟩⟩
  · rw [hm, if_neg (fun h => hx h.1), h.mem, hnone x hx]
    simp
  · have hb0 : lineBase s.params b = b := lineBase_self g.line_pos hb
    have hall : ∀ x, loadByte m x = (w x).getD (loadByte s.mem x) := by
      intro x
      cases hx : w x with
      | some v => rw [hw x v hx]; rfl
      | none =>
        rw [hm]
        by_cases hp' : lineBase s.params x = b ∧ s'.pending x = true
        · rw [if_pos hp', h.view, hx]
          exact (hf x (hp'.1.trans hb0.symm)).1
        · rw [if_neg hp', h.mem, hx]
          simp
    refine ⟨hall, fun x hx => ⟨?_, ?_⟩⟩
    · show _ = loadByte m x
      rw [hv, h.view, hall]
      have := (hf x hx).1
      rw [this]
    · rw [hp]
      have : lineBase s.params x = b := Eq.trans hx hb0
      simp [this]
  · rw [hv, h.view, hnone x hx]; rfl
  · rw [hp, h.outside x hx]
    simp [hx]

/-- The four words of a slot written and flushed (40_endpoint.md R200, 42_transfer.md R300): memory holds
them, and no byte outside the slot's line changes. -/
theorem writeTd_publish (g : s.params.Good) (hq : s.sched = []) {a : Word}
    (ha : a.toNat % s.params.cacheLine = 0) (hlow : a.toNat + 16 ≤ 2 ^ 32) (w0 w1 w2 w3 : Word) :
    ∃ m k q, (do writeTd a w0 w1 w2 w3; flush a 16 : Cmd Unit) s
        = .ok ⟨⟩ { s with mem := m, cache := k, seq := q } ∧
      load32 m a.toNat = w0 ∧ load32 m (a.toNat + 4) = w1 ∧ load32 m (a.toNat + 8) = w2 ∧
      load32 m (a.toNat + 12) = w3 ∧
      (∀ x, lineBase s.params x ≠ a.toNat → loadByte m x = loadByte s.mem x) ∧
      (∀ x, lineBase s.params x ≠ a.toNat →
        ({ s with mem := m, cache := k, seq := q } : State).view x = s.view x ∧
        ({ s with mem := m, cache := k, seq := q } : State).pending x = s.pending x) := by
  have hline := g.line_ge
  have ha4 : a.toNat % 4 = 0 := by
    obtain ⟨k, hk⟩ := Nat.dvd_of_mod_eq_zero ha
    obtain ⟨j, hj⟩ := Nat.dvd_of_mod_eq_zero g.line_dvd
    rw [hk, hj, Nat.mul_assoc]
    omega
  have n4 : (a + 4#32).toNat = a.toNat + 4 := by
    rw [BitVec.toNat_add]; exact Nat.mod_eq_of_lt (by simp; omega)
  have n8 : (a + 8#32).toNat = a.toNat + 8 := by
    rw [BitVec.toNat_add]; exact Nat.mod_eq_of_lt (by simp; omega)
  have n12 : (a + 0xC#32).toNat = a.toNat + 12 := by
    rw [BitVec.toNat_add]; exact Nat.mod_eq_of_lt (by simp; omega)
  have hlb : ∀ i, i < 16 → lineBase s.params (a.toNat + i) = a.toNat := fun i hi =>
    lineBase_unique ha (by omega) (by omega)
  obtain ⟨s1, e1, S1⟩ := (Staged.refl s a.toNat).write g hq ha4 (hlb 0 (by omega)) w0
  obtain ⟨s2, e2, S2⟩ := S1.write g hq (a := a + 4#32) (by rw [n4]; omega)
    (by rw [n4]; exact hlb 4 (by omega)) w1
  obtain ⟨s3, e3, S3⟩ := S2.write g hq (a := a + 8#32) (by rw [n8]; omega)
    (by rw [n8]; exact hlb 8 (by omega)) w2
  obtain ⟨s4, e4, S4⟩ := S3.write g hq (a := a + 0xC#32) (by rw [n12]; omega)
    (by rw [n12]; exact hlb 12 (by omega)) w3
  obtain ⟨m, k, q, e5, hw, ho, -, hv⟩ := S4.publish g hq ha (rangeLines_slot g ha)
  rw [n4, n8, n12] at hw
  -- a word whose bytes are the staged ones
  have key : ∀ i v, (∀ x, a.toNat + i ≤ x → x < a.toNat + i + 4 →
      loadByte m x = wordByte (a.toNat + i) v x) → load32 m (a.toNat + i) = v := by
    intro i v hx
    have : load32 m (a.toNat + i) = load32 (store32 m (a.toNat + i) v) (a.toNat + i) :=
      (load32_congr fun x h1 h2 => by
        rw [loadByte_store32_eq, if_pos ⟨h1, h2⟩, hx x h1 h2]).symm
    rw [this, load32_store32_self]
  refine ⟨m, k, q, ?_, ?_, ?_, ?_, ?_, ho, hv⟩
  · have hW : writeTd a w0 w1 w2 w3 s = .ok ⟨⟩ s4 := by
      unfold writeTd
      rw [run_bind_ok e1, run_bind_ok e2, run_bind_ok e3, e4]
    rw [run_bind_ok hW, e5]
  · refine key 0 w0 fun x h1 h2 => hw x _ ?_
    simp only [wordOver]
    rw [if_neg (by omega), if_neg (by omega), if_neg (by omega), if_pos (by omega)]
    rfl
  · refine key 4 w1 fun x h1 h2 => hw x _ ?_
    simp only [wordOver]
    rw [if_neg (by omega), if_neg (by omega), if_pos (by omega)]
  · refine key 8 w2 fun x h1 h2 => hw x _ ?_
    simp only [wordOver]
    rw [if_neg (by omega), if_pos (by omega)]
  · refine key 12 w3 fun x h1 h2 => hw x _ ?_
    simp only [wordOver]
    rw [if_pos (by omega)]

/-- `CLEAR_HALT(e, clrtog)` (40_endpoint.md R218): the two words become what the rule says of the words
memory held, every other byte of memory stays. -/
theorem clearHalt_quiet (g : s.params.Good) (hq : s.sched = []) {e : Nat} (he : e ≤ s.params.ned)
    (clrtog : Bool) :
    ∃ m k q, clearHalt e clrtog s = .ok ⟨⟩ { s with mem := m, cache := k, seq := q } ∧
      (∀ x, loadByte m x = loadByte
        (store32 (store32 s.mem (edHeadAddr s.params e).toNat
            (clearHaltBit (if clrtog then clearCarry (s.physRead (edHeadAddr s.params e))
              else s.physRead (edHeadAddr s.params e))))
          (edControlAddr s.params e).toNat (clearSkip (s.physRead (edControlAddr s.params e)))) x) := by
  have hline := g.line_ge
  have hb := g.edAddr_aligned he
  have n8 : (edHeadAddr s.params e).toNat = (edAddr s.params e).toNat + 8 :=
    g.edWord_toNat he 8#32 (by simp; omega)
  have ha4 : (edAddr s.params e).toNat % 4 = 0 := by
    obtain ⟨k, hk⟩ := Nat.dvd_of_mod_eq_zero hb
    obtain ⟨j, hj⟩ := Nat.dvd_of_mod_eq_zero g.line_dvd
    rw [hk, hj, Nat.mul_assoc]
    omega
  have hlb : ∀ i, i < 16 → lineBase s.params ((edAddr s.params e).toNat + i) = (edAddr s.params e).toNat :=
    fun i hi => lineBase_unique hb (by omega) (by omega)
  have h8 : lineBase s.params (edHeadAddr s.params e).toNat = (edAddr s.params e).toNat := by
    rw [n8]; exact hlb 8 (by omega)
  have h84 : (edHeadAddr s.params e).toNat % 4 = 0 := by rw [n8]; omega
  obtain ⟨k1, q1, e1, v1, p1, -⟩ := inval_quiet g hq (rangeLines_word g h84)
  have hs1 : ∀ a, ({ s with cache := k1, seq := q1 } : State).physRead a = s.physRead a := fun _ => rfl
  obtain ⟨s2, e2, S2⟩ := (Staged.refl { s with cache := k1, seq := q1 } (edAddr s.params e).toNat).read hq
    (edHeadAddr s.params e)
  have hr2 : ({ s with cache := k1, seq := q1 } : State).cacheLoad (edHeadAddr s.params e)
      = s.physRead (edHeadAddr s.params e) := by
    rw [cacheLoad_of_view (s := { s with cache := k1, seq := q1 }) g h84, hs1]
    intro x hx1 hx2
    rw [v1, if_pos]
    rw [h8, show x = (edAddr s.params e).toNat + (x - (edAddr s.params e).toNat) by omega]
    exact hlb _ (by omega)
  rw [hr2] at e2
  obtain ⟨s3, e3, S3⟩ := S2.write g hq h84 h8 (clearHaltBit
    (if clrtog then clearCarry (s.physRead (edHeadAddr s.params e))
      else s.physRead (edHeadAddr s.params e)))
  obtain ⟨s4, e4, S4⟩ := S3.read hq (edControlAddr s.params e)
  have hr4 : s3.cacheLoad (edControlAddr s.params e) = s.physRead (edControlAddr s.params e) := by
    have g3 : s3.params.Good := by rw [S3.params]; exact g
    rw [cacheLoad_eq_view g3 (a := edControlAddr s.params e) ha4]
    have hx : ∀ i, i < 4 → s3.view ((edAddr s.params e).toNat + i)
        = loadByte s.mem ((edAddr s.params e).toNat + i) := by
      intro i hi
      rw [S3.view, wordOver, if_neg (by omega)]
      show ({ s with cache := k1, seq := q1 } : State).view _ = _
      rw [v1, if_pos (by rw [h8]; exact hlb i (by omega))]
    exact congrArg₂ (· ++ ·) (congrArg₂ (· ++ ·) (congrArg₂ (· ++ ·) (hx 3 (by omega)) (hx 2 (by omega)))
      (hx 1 (by omega))) (hx 0 (by omega))
  rw [hr4] at e4
  obtain ⟨s5, e5, S5⟩ := S4.write g hq (a := edControlAddr s.params e) ha4 (hlb 0 (by omega))
    (clearSkip (s.physRead (edControlAddr s.params e)))
  obtain ⟨m, k, q, e6, hw, ho, hf, -⟩ := S5.publish g hq hb (rangeLines_slot g hb)
  have hfresh : ({ s with cache := k1, seq := q1 } : State).fresh (edAddr s.params e).toNat := by
    intro x hx
    have hx' : lineBase s.params x = lineBase s.params (edHeadAddr s.params e).toNat :=
      hx.trans ((lineBase_self g.line_pos hb).trans h8.symm)
    exact ⟨by rw [v1, if_pos hx'], by rw [p1]; simp [hx']⟩
  refine ⟨m, k, q, ?_, fun x => ?_⟩
  · unfold clearHalt
    rw [run_bind_ok (run_get s), run_bind_ok e1, run_bind_ok e2, run_bind_ok e3, run_bind_ok e4,
      run_bind_ok e5, e6]
  · rw [(hf hfresh).1 x, loadByte_store32_eq, loadByte_store32_eq]
    simp only [wordOver]
    split_ifs <;> rfl

end Sys2Proof.Machine
end

