-- ==== Sys2Proof/Laws/Walks.lean ====
section
/-! SUPPORT. What the searches and the queue walks answer: the lowest free slot, the chain of `next` links a
walk has followed, the first of the best groups. -/

namespace Sys2Proof.Machine

/-! ### Free slots (40_endpoint.md R219) -/

theorem find_range_some {n k : Nat} {q : Nat → Bool} (h : (List.range n).find? q = some k) :
    k < n ∧ q k = true ∧ ∀ j < k, q j = false := by
  rw [List.find?_range_eq_some] at h
  exact ⟨List.mem_range.1 h.2.1, h.1, fun j hj => by simpa using h.2.2 j hj⟩

theorem allocEd_some {s : State} {e : Nat} (h : s.allocEd = some e) :
    e < s.params.ned ∧ (s.ed e).alloc = false ∧ ∀ j < e, (s.ed j).alloc = true := by
  obtain ⟨h1, h2, h3⟩ := find_range_some h
  exact ⟨h1, by simpa using h2, fun j hj => by simpa using h3 j hj⟩

theorem allocTd_some {s : State} {t : Nat} (h : s.allocTd = some t) :
    t < s.params.ntd ∧ (s.td t).alloc = false ∧ ∀ j < t, (s.td j).alloc = true := by
  obtain ⟨h1, h2, h3⟩ := find_range_some h
  exact ⟨h1, by simpa using h2, fun j hj => by simpa using h3 j hj⟩

theorem allocEd_none {s : State} (h : s.allocEd = none) : ∀ e < s.params.ned, (s.ed e).alloc = true := by
  intro e he
  have := List.find?_eq_none.1 h e (List.mem_range.2 he)
  simpa using this

theorem allocTd_none {s : State} (h : s.allocTd = none) : ∀ t < s.params.ntd, (s.td t).alloc = true := by
  intro t ht
  have := List.find?_eq_none.1 h t (List.mem_range.2 ht)
  simpa using this

/-! ### Chains of `next` links -/

/-- What a walk answers: the chain up to the first TD where it halts. -/
theorem walkUntil_some {s : State} {halt : Nat → Bool} {n u v : Nat} {l : List Nat}
    (h : walkUntil s halt n u = some (l, v)) :
    Chain s u l v ∧ halt v = true ∧ (∀ x ∈ l, halt x = false) ∧ l.length ≤ n := by
  induction n generalizing u l with
  | zero =>
    unfold walkUntil at h
    split at h
    · cases h; exact ⟨rfl, by assumption, by simp, by simp⟩
    · cases h
  | succ n ih =>
    unfold walkUntil at h
    split at h
    · cases h; exact ⟨rfl, by assumption, by simp, by simp⟩
    · rename_i hu
      split at h
      · cases h
      · rename_i nx hn
        obtain ⟨⟨l', v'⟩, h', e⟩ := Option.map_eq_some_iff.1 h
        cases e
        obtain ⟨h1, h2, h3, h4⟩ := ih h'
        refine ⟨⟨rfl, nx, hn, h1⟩, h2, ?_, by simpa using h4⟩
        intro x hx
        rcases List.mem_cons.1 hx with rfl | hx
        · simpa using hu
        · exact h3 x hx

/-- A walk answers every chain that is short enough and halts only at its end. -/
theorem walkUntil_of_chain {s : State} {halt : Nat → Bool} {n u v : Nat} {l : List Nat}
    (hc : Chain s u l v) (hv : halt v = true) (hl : ∀ x ∈ l, halt x = false) (hn : l.length ≤ n) :
    walkUntil s halt n u = some (l, v) := by
  induction l generalizing n u with
  | nil =>
    cases hc
    cases n <;> simp [walkUntil, hv]
  | cons x l ih =>
    obtain ⟨rfl, nx, h1, h2⟩ := hc
    cases n with
    | zero => simp at hn
    | succ n =>
      have hx := hl u (by simp)
      simp only [walkUntil, hx, h1]
      rw [ih h2 (fun y hy => hl y (by simp [hy])) (by simpa using hn)]
      rfl

/-- The queue of an endpoint is the chain from its head to its placeholder. -/
theorem queue_some {s : State} {e : Nat} {l : List Nat} (h : s.queue e = some l) :
    Chain s (s.ed e).head l (s.ed e).tail ∧ (s.ed e).tail ∉ l ∧ l.length ≤ s.params.ntd := by
  obtain ⟨⟨l', v⟩, h', e'⟩ := Option.map_eq_some_iff.1 h
  cases e'
  obtain ⟨h1, h2, h3, h4⟩ := walkUntil_some h'
  have hv : v = (s.ed e).tail := by simpa using h2
  subst hv
  exact ⟨h1, fun hm => by simpa using h3 _ hm, h4⟩

/-- What the walk over the rest of a group answers: a chain without the placeholder, all of it with `MORE`
but perhaps the last, which ends at the placeholder or at a TD without `MORE`. -/
theorem walkGroup_some {s : State} {tail n u v : Nat} {l : List Nat}
    (h : walkGroup s tail n u = some (l, v)) :
    Chain s u l v ∧ tail ∉ l ∧ (∀ x ∈ l.dropLast, (s.td x).more = true) ∧
      (v = tail ∨ ∃ x, l.getLast? = some x ∧ (s.td x).more = false) := by
  induction n generalizing u l with
  | zero =>
    unfold walkGroup at h
    split at h
    · cases h; exact ⟨rfl, by simp, by simp, .inl (by assumption)⟩
    · cases h
  | succ n ih =>
    unfold walkGroup at h
    split at h
    · cases h; exact ⟨rfl, by simp, by simp, .inl (by assumption)⟩
    · rename_i hu
      split at h
      · cases h
      · rename_i nx hn
        split at h
        · rename_i hm
          obtain ⟨⟨l', v'⟩, h', e⟩ := Option.map_eq_some_iff.1 h
          cases e
          obtain ⟨h1, h2, h3, h4⟩ := ih h'
          refine ⟨⟨rfl, nx, hn, h1⟩, ?_, ?_, ?_⟩
          · intro ht
            rcases List.mem_cons.1 ht with rfl | ht
            · exact hu rfl
            · exact h2 ht
          · intro x hx
            cases l' with
            | nil => simp at hx
            | cons y l'' =>
              rw [List.dropLast_cons_of_ne_nil (by simp)] at hx
              rcases List.mem_cons.1 hx with rfl | hx
              · exact hm
              · exact h3 x hx
          · rcases h4 with h4 | ⟨x, hx, hx'⟩
            · exact .inl h4
            · refine .inr ⟨x, ?_, hx'⟩
              cases l' with
              | nil => simp at hx
              | cons y l'' => simpa [List.getLast?_cons_cons] using hx
        · rename_i hm
          cases h
          exact ⟨⟨rfl, v, hn, rfl⟩, fun ht => hu (List.mem_singleton.1 ht).symm, by simp,
            .inr ⟨u, rfl, by simpa using hm⟩⟩

/-- What the check of a group answers: a chain of finished TDs with `MORE` up to a last one without it, and
the TD after it; or the first TD that is the placeholder or unfinished (42_transfer.md R305). -/
theorem checkGroup_some {s : State} {tail n u : Nat} {c : GroupCheck} (h : checkGroup s tail n u = some c) :
    (∃ g v, c = .finished g v ∧ g ≠ [] ∧ Chain s u g v ∧ tail ∉ g ∧
      (∀ x ∈ g, (s.td x).finished = true) ∧ (∀ x ∈ g.dropLast, (s.td x).more = true) ∧
      (∀ x, g.getLast? = some x → (s.td x).more = false)) ∨
    (∃ l v, c = .unfinished v ∧ Chain s u l v ∧ (v = tail ∨ (s.td v).finished = false)) := by
  induction n generalizing u c with
  | zero =>
    unfold checkGroup at h
    split at h
    · cases h; exact .inr ⟨[], u, rfl, rfl, by assumption⟩
    · cases h
  | succ n ih =>
    unfold checkGroup at h
    split at h
    · cases h; exact .inr ⟨[], u, rfl, rfl, by assumption⟩
    · rename_i hu
      have hu' : u ≠ tail ∧ (s.td u).finished = true := by
        constructor
        · exact fun e => hu (.inl e)
        · cases hf : (s.td u).finished
          · exact absurd (.inr hf) hu
          · rfl
      split at h
      · cases h
      · rename_i nx hn
        split at h
        · rename_i hm
          obtain ⟨c', h', e⟩ := Option.map_eq_some_iff.1 h
          rcases ih h' with ⟨g, v, rfl, h1, h2, h3, h4, h5, h6⟩ | ⟨l, v, rfl, h1, h2⟩
          · cases e
            refine .inl ⟨u :: g, v, rfl, by simp, ⟨rfl, nx, hn, h2⟩, ?_, ?_, ?_, ?_⟩
            · intro ht
              rcases List.mem_cons.1 ht with rfl | ht
              · exact hu'.1 rfl
              · exact h3 ht
            · intro x hx
              rcases List.mem_cons.1 hx with rfl | hx
              · exact hu'.2
              · exact h4 x hx
            · intro x hx
              rw [List.dropLast_cons_of_ne_nil h1] at hx
              rcases List.mem_cons.1 hx with rfl | hx
              · exact hm
              · exact h5 x hx
            · intro x hx
              cases g with
              | nil => exact absurd rfl h1
              | cons y g' => exact h6 x (by simpa [List.getLast?_cons_cons] using hx)
          · cases e
            exact .inr ⟨u :: l, v, rfl, ⟨rfl, nx, hn, h1⟩, h2⟩
        · rename_i hm
          cases h
          refine .inl ⟨[u], nx, rfl, by simp, ⟨rfl, nx, hn, rfl⟩, fun ht => hu'.1 (List.mem_singleton.1 ht).symm,
            ?_, by simp, ?_⟩
          · intro x hx
            rw [List.mem_singleton.1 hx]
            exact hu'.2
          · intro x hx
            cases hx
            simpa using hm

/-! ### The placement search (41_scheduler.md R255) -/

/-- The answer is one of the groups, no group is better, and an earlier one is worse. -/
theorem bestOf_some {l : List (Nat × Nat)} {x : Nat × Nat} (h : bestOf l = some x) :
    ∃ l1 l2, l = l1 ++ x :: l2 ∧ (∀ y ∈ l1, x.2 < y.2) ∧ (∀ y ∈ l2, x.2 ≤ y.2) := by
  induction l generalizing x with
  | nil => cases h
  | cons y rest ih =>
    unfold bestOf at h
    split at h
    · cases h
      rename_i hr
      refine ⟨[], rest, rfl, by simp, ?_⟩
      cases rest with
      | nil => simp
      | cons z r =>
        exfalso
        unfold bestOf at hr
        split at hr
        · cases hr
        · split at hr <;> cases hr
    · rename_i z hz
      obtain ⟨l1, l2, rfl, h1, h2⟩ := ih hz
      split at h
      · rename_i hle
        cases h
        refine ⟨[], _, rfl, by simp, ?_⟩
        intro w hw
        rcases List.mem_append.1 hw with hw | hw
        · exact le_of_lt (lt_of_le_of_lt hle (h1 w hw))
        · rcases List.mem_cons.1 hw with rfl | hw
          · exact hle
          · exact hle.trans (h2 w hw)
      · rename_i hlt
        cases h
        refine ⟨y :: l1, l2, rfl, ?_, h2⟩
        intro w hw
        rcases List.mem_cons.1 hw with rfl | hw
        · exact Nat.lt_of_not_le hlt
        · exact h1 w hw

theorem bestOf_none {l : List (Nat × Nat)} (h : bestOf l = none) : l = [] := by
  cases l with
  | nil => rfl
  | cons y rest =>
    unfold bestOf at h
    split at h
    · cases h
    · split at h <;> cases h

/-- The worst case of a group is the load of one of its branches, and no branch is above it. -/
theorem foldl_max_spec (l : List Nat) (m : Nat) :
    (∀ x ∈ l, x ≤ l.foldl max m) ∧ m ≤ l.foldl max m ∧ (l.foldl max m = m ∨ l.foldl max m ∈ l) := by
  induction l generalizing m with
  | nil => simp
  | cons y rest ih =>
    obtain ⟨h1, h2, h3⟩ := ih (max m y)
    refine ⟨?_, (Nat.le_max_left m y).trans h2, ?_⟩
    · intro x hx
      rcases List.mem_cons.1 hx with rfl | hx
      · exact (Nat.le_max_right m x).trans h2
      · exact h1 x hx
    · simp only [List.foldl_cons]
      rcases h3 with h3 | h3
      · rcases Nat.le_total m y with hy | hy
        · rw [Nat.max_eq_right hy] at h3
          exact .inr (by rw [Nat.max_eq_right hy, h3]; simp)
        · rw [Nat.max_eq_left hy] at h3
          exact .inl (by rw [Nat.max_eq_left hy, h3])
      · exact .inr (by simp [h3])

end Sys2Proof.Machine
end

