-- ==== Sys2Proof/Tests/Slice0.lean ====
section
/-! SUPPORT. Tests of the model's author: operands that have no word, words written out from
30_encoding.md R142 and R143, one step of each command on a small state with the results of
95_test_vectors.md, and for every statement with hypotheses a state and operands that meet them. -/

namespace Sys2Proof.Tests

open Sys2Proof.Machine

-- One theorem at a time: a thread for each at once takes more memory than a check allows.
set_option Elab.async false

/-! ### WellFormed: operands that fit no field are refused (30_encoding.md R141) -/

theorem test_wf_edClose : (Instr.edClose .thread 256).wf = false := by decide
theorem test_wf_edSuspend : (Instr.edSuspend .thread 256).wf = false := by decide
theorem test_wf_edResume : (Instr.edResume .thread 256).wf = false := by decide
theorem test_wf_edClearHalt : (Instr.edClearHalt .thread 256 true).wf = false := by decide
theorem test_wf_edQuiesce : (Instr.edQuiesce .thread 256).wf = false := by decide
theorem test_wf_schedBitpos_depth : (Instr.schedBitpos .thread 256 0).wf = false := by decide
theorem test_wf_schedBitpos_index : (Instr.schedBitpos .thread 0 256).wf = false := by decide
theorem test_wf_schedIdepth : (Instr.schedIdepth .thread 256).wf = false := by decide
theorem test_wf_schedLoad : (Instr.schedLoad .thread 256).wf = false := by decide
theorem test_wf_tdQueue : (Instr.tdQueue .thread 256 true true 0#3 0#2).wf = false := by decide
theorem test_wf_xferComplete : (Instr.xferComplete .thread 256).wf = false := by decide
theorem test_wf_xferAbort : (Instr.xferAbort .thread 256).wf = false := by decide

/-! ### Decode: words written out from R140, R142, R143 and the vectors -/

theorem test_decode_nop : decode 0x00000000#32 = .ok (.nop .thread) := by decide
theorem test_decode_schedStart : decode 0x00000101#32 = .ok (.schedStart .interrupt) := by decide
theorem test_decode_edOpen : decode 0x00000010#32 = .ok (.edOpen .thread) := by decide
theorem test_decode_edClose : decode 0x00050011#32 = .ok (.edClose .thread 5) := by decide
theorem test_decode_edSuspend : decode 0x00FF0012#32 = .ok (.edSuspend .thread 255) := by decide
theorem test_decode_edResume : decode 0x00000013#32 = .ok (.edResume .thread 0) := by decide
theorem test_decode_edClearHalt : decode 0x01020014#32 = .ok (.edClearHalt .thread 2 true) := by decide
theorem test_decode_edQuiesce : decode 0x00000115#32 = .ok (.edQuiesce .interrupt 0) := by decide
theorem test_decode_schedBitpos : decode 0x01040020#32 = .ok (.schedBitpos .thread 4 1) := by decide
theorem test_decode_schedIdepth : decode 0x00100021#32 = .ok (.schedIdepth .thread 16) := by decide
theorem test_decode_schedLoad : decode 0x001F0022#32 = .ok (.schedLoad .thread 31) := by decide
theorem test_decode_tdQueue :
    decode 0x5F000030#32 = .ok (.tdQueue .thread 0 true true 7#3 2#2) := by decide
theorem test_decode_xferComplete : decode 0x00010031#32 = .ok (.xferComplete .thread 1) := by decide
theorem test_decode_xferAbort : decode 0x00000032#32 = .ok (.xferAbort .thread 0) := by decide
theorem test_decode_ccClassify : decode 0x00040033#32 = .ok (.ccClassify .thread 4#4) := by decide
theorem test_decode_dqDrain : decode 0x00000038#32 = .ok (.dqDrain .thread) := by decide
theorem test_decode_cflush : decode 0x00000040#32 = .ok (.cflush .thread) := by decide
theorem test_decode_cinval : decode 0x00000041#32 = .ok (.cinval .thread) := by decide

theorem test_decode_reserved :
    [0x00000002#32, 0x00000102#32, 0x00000042#32, 0x000000FF#32].map decode
      = List.replicate 4 (.error .reservedOpcode) := by decide

theorem test_decode_reserved_fields :
    [0x00000210#32, 0x02000014#32, 0x00100033#32, 0x80000030#32, 0x01000011#32, 0x00010001#32].map decode
      = List.replicate 6 (.error .reservedField) := by decide

/-! ### A small world

The state of program 2 of 95_test_vectors.md after its three TD_QUEUE commands (bulk endpoint 0, TDs 0, 1
and 2, placeholder 3), with an interrupt endpoint 1 (interval 32, bandwidth 40, group 0, placeholder 4) and a
control endpoint 2 (placeholder 5). -/

/-- Memory that holds the words. -/
def words (l : List (Nat × Word)) (m : List Host.Cell) : List Host.Cell :=
  l.foldl (fun m p => store32 m p.1 p.2) m

/-- The words of the world's descriptors. -/
def worldWords : List (Nat × Word) :=
  [(0x20000000, 0x10400082#32), (0x20000004, 0x20001060#32), (0x20000008, 0x20001000#32),
   (0x20000020, 0x18281081#32), (0x20000024, 0x20001080#32), (0x20000028, 0x20001080#32),
   (0x20000040, 0x00400003#32), (0x20000044, 0x200010A0#32), (0x20000048, 0x200010A0#32),
   (0x20000100, 0x00004000#32),
   (0x20001000, 0xF0F00000#32), (0x20001004, 0x20004000#32), (0x20001008, 0x20001020#32),
   (0x2000100C, 0x2000403F#32),
   (0x20001020, 0xF0F00001#32), (0x20001024, 0x20004040#32), (0x20001028, 0x20001040#32),
   (0x2000102C, 0x2000407F#32),
   (0x20001040, 0xF0F00002#32), (0x20001044, 0x20004080#32), (0x20001048, 0x20001060#32),
   (0x2000104C, 0x200040BF#32), (0x20002000, 0x20000020#32)]

/-- The world. -/
def world : State :=
  { State.reset with
    started := true
    edt := [(0, { alloc := true, key := 0x20001#32, type := .bulk, slot := 64, head := 0, tail := 3 }),
      (1, { alloc := true, key := 0x10000#32, type := .interrupt, interval := 32, bw := 40, head := 4,
            tail := 4 }),
      (2, { alloc := true, key := 0x30000#32, slot := 63, head := 5, tail := 5 })]
    tdt := [(0, { alloc := true, status := 0x40000040#32, next := some 1 }),
      (1, { alloc := true, status := 0x40000040#32, next := some 2 }),
      (2, { alloc := true, status := 0x40#32, next := some 3 }), (3, { alloc := true }),
      (4, { alloc := true, owner := 1 }), (5, { alloc := true, owner := 2 })]
    idxValid := [(0, true), (1, true), (2, true)]
    place := [(0, [1]), (63, [2]), (64, [0])]
    mem := words worldWords []
    hc := { control := 0xB4#32, hcca := 0x20002000#32, controlHead := 0x20000040#32
            bulkHead := 0x20000000#32 } }

/-- The queues of the world. -/
def worldQueues (e : Nat) : List Nat := if e = 0 then [0, 1, 2] else []

/-- The world with words of memory replaced. -/
def worldWith (l : List (Nat × Word)) : State := { world with mem := words l world.mem }

/-- The world with endpoint 0 halted. -/
def halted : State := worldWith [(0x20000008, 0x20001001#32)]

/-- The world with endpoint 1 halted. -/
def haltedInterrupt : State := worldWith [(0x20000028, 0x20001081#32)]

/-- The world with the statuses of the TDs 0, 1 and 2 of endpoint 0 replaced. -/
def worldStatus (s0 s1 s2 : Word) : State :=
  { world with
    tdt := [(0, { alloc := true, status := s0, next := some 1 }),
      (1, { alloc := true, status := s1, next := some 2 }),
      (2, { alloc := true, status := s2, next := some 3 }), (3, { alloc := true }),
      (4, { alloc := true, owner := 1 }), (5, { alloc := true, owner := 2 })] }

/-- A state with operands in `ARG0..ARG2`. -/
def args (s : State) (a0 a1 a2 : Word) : State := { s with arg0 := a0, arg1 := a1, arg2 := a2 }

/-- The next state satisfies a check. -/
def after (o : Host.Outcome State Fault Refusal) (check : State → Bool) : Bool :=
  match o with
  | .next u => check u
  | .fault _ => false
  | .refused _ => false

/-- The state has these results and this `STATUS.ERR`, and `ISR.CMD_DONE`. -/
def results (u : State) (r0 r1 r2 : Nat) (e : ErrCode) : Bool :=
  u.res0.toNat == r0 && u.res1.toNat == r1 && u.res2.toNat == r2 && u.err == e && u.isr.getLsbD 0

/-- The word at an address. -/
def at32 (u : State) (a : Nat) : Word := load32 u.mem a

/-- The four words of a descriptor. -/
def desc (u : State) (a : Nat) : List Word := (List.range 4).map (fun k => at32 u (a + 4 * k))

theorem world_placed : world.placed := placed_of_check (by decide +kernel)
theorem world_slotsSuit : world.slotsSuit := slotsSuit_of_check (by decide +kernel)
theorem world_queuesOk : world.queuesOk := queuesOk_of_check worldQueues (by decide +kernel)
theorem world_legal : world.params.legal = true := by decide +kernel

/-! ### One step of each command (95_test_vectors.md) -/

/-- Section 2.7, `NOP`. -/
theorem test_nop : after (exec (.nop .interrupt) State.reset) (fun u => results u 0 0 0 .ok) = true := by
  decide +kernel

/-- V10. -/
theorem test_schedStart :
    after (exec (.schedStart .thread) State.reset) (fun u => results u 0 0 0 .ok && u.status == 0x2#32
      && desc u 0x20000100 == [0x4000#32, 0#32, 0#32, 0#32] && at32 u 0x20002000 == 0x20000100#32
      && at32 u 0x2000207C == 0x20000100#32) = true := by decide +kernel

/-- V10: a second SCHED_START. -/
theorem test_schedStart_again :
    after (exec (.schedStart .thread) world) (fun u => results u 0 0 0 .badState) = true := by decide +kernel

/-- V20: the first interrupt endpoint, at `T[0]`. -/
theorem test_edOpen_interrupt :
    after (exec (.edOpen .thread) (args { State.reset with started := true } 0x1234#32 0x18281081#32 32#32))
      (fun u => results u 0 0 40 .ok
        && desc u 0x20000000 == [0x18281081#32, 0x20001000#32, 0x20001000#32, 0#32]
        && desc u 0x20001000 == [0#32, 0#32, 0#32, 0#32] && at32 u 0x20002000 == 0x20000000#32) = true := by
  decide +kernel

/-- V21: a second bulk endpoint is linked behind the first. -/
theorem test_edOpen_bulk :
    after (exec (.edOpen .thread) (args world 0x20002#32 0x10400083#32 0#32))
      (fun u => results u 3 64 0 .ok && at32 u 0x2000000C == 0x20000060#32
        && u.hc.bulkHead == 0x20000000#32 && u.hc.control == 0xB4#32) = true := by decide +kernel

/-- V28: an interrupt endpoint with only its placeholder. -/
theorem test_edClose :
    after (exec (.edClose .thread 1) haltedInterrupt)
      (fun u => results u 1 0 0 .ok && at32 u 0x20002000 == 0x20000100#32 && u.list 0 == []) = true := by
  decide +kernel

/-- V28: a free slot. -/
theorem test_edClose_free :
    after (exec (.edClose .thread 7) world) (fun u => results u 0 0 0 .notFound) = true := by decide +kernel

/-- V24. -/
theorem test_edSuspend :
    after (exec (.edSuspend .thread 1) world)
      (fun u => results u 0 0 0 .ok && at32 u 0x20000020 == 0x18285081#32) = true := by decide +kernel

/-- V25: a bulk endpoint. -/
theorem test_edResume :
    after (exec (.edResume .thread 0) (worldWith [(0x20000000, 0x10404082#32)]))
      (fun u => at32 u 0x20000000 == 0x10400082#32 && u.hc.commandStatus == 0x4#32) = true := by
  decide +kernel

/-- V26 with `CLRTOG`. -/
theorem test_edClearHalt :
    after (exec (.edClearHalt .thread 0 true)
        (worldWith [(0x20000000, 0x18285081#32), (0x20000008, 0x20001023#32)]))
      (fun u => at32 u 0x20000008 == 0x20001020#32 && at32 u 0x20000000 == 0x18281081#32) = true := by
  decide +kernel

/-- V26 without `CLRTOG`. -/
theorem test_edClearHalt_keeps_toggle :
    after (exec (.edClearHalt .thread 0 false)
        (worldWith [(0x20000000, 0x18285081#32), (0x20000008, 0x20001023#32)]))
      (fun u => at32 u 0x20000008 == 0x20001022#32 && at32 u 0x20000000 == 0x18281081#32) = true := by
  decide +kernel

/-- V27: a halted endpoint. -/
theorem test_edQuiesce_halted :
    after (exec (.edQuiesce .thread 0) halted)
      (fun u => results u 1 0 0 .ok && at32 u 0x20000000 == 0x10400082#32) = true := by decide +kernel

/-- V27: three timer events before any frame change. -/
theorem test_edQuiesce_timeout :
    after (exec (.edQuiesce .thread 0)
        { world with sched := List.replicate 16 .block ++ [.timer, .timer, .timer] })
      (fun u => results u 0 0 0 .quiesceTimeout && at32 u 0x20000000 == 0x10404082#32) = true := by
  decide +kernel

/-- V5: the node that serves `T[4]` and `T[20]`. -/
theorem test_schedBitpos :
    after (exec (.schedBitpos .thread 1 4) State.reset) (fun u => results u 4 34 2 .ok) = true := by
  decide +kernel

/-- V5: a depth outside the tree. -/
theorem test_schedBitpos_depth :
    after (exec (.schedBitpos .thread 6 0) State.reset) (fun u => results u 0 0 0 .badArg) = true := by
  decide +kernel

/-- V3: the tie at 12 goes to the shorter interval. -/
theorem test_schedIdepth :
    after (exec (.schedIdepth .thread 12) State.reset) (fun u => results u 2 8 0 .ok) = true := by
  decide +kernel

/-- V3: an interval of 0 is taken as 1. -/
theorem test_schedIdepth_zero :
    after (exec (.schedIdepth .thread 0) State.reset) (fun u => results u 5 1 0 .ok) = true := by
  decide +kernel

/-- Rule R254: only the branch of `T[0]` carries the endpoint at `node(0, 0)`. -/
theorem test_schedLoad :
    after (exec (.schedLoad .thread 0) world) (fun u => results u 40 0 0 .ok) = true := by decide +kernel

/-- V6: an index of 32. -/
theorem test_schedLoad_index :
    after (exec (.schedLoad .thread 32) world) (fun u => results u 0 0 0 .badArg) = true := by
  decide +kernel

/-- Program 5, step 3: the SETUP TD of a control endpoint. -/
theorem test_tdQueue :
    after (exec (.tdQueue .thread 2 true false 7#3 0#2) (args world 0x20004000#32 8#32 0#32))
      (fun u => results u 5 6 0 .ok
        && desc u 0x200010A0 == [0xF2E00005#32, 0x20004000#32, 0x200010C0#32, 0x20004007#32]
        && desc u 0x200010C0 == [0#32, 0#32, 0#32, 0#32] && at32 u 0x20000044 == 0x200010C0#32
        && u.hc.commandStatus == 0x2#32 && (u.ed 2).afterSetup) = true := by decide +kernel

/-- V44: 4095 + 4098 > 8192. -/
theorem test_tdQueue_pages :
    after (exec (.tdQueue .thread 0 true false 7#3 2#2) (args world 0x20004FFF#32 4098#32 0#32))
      (fun u => results u 0 0 0 .badArg) = true := by decide +kernel

/-- Program 3, step 7: a short packet on the first TD, the others freed by the drain. -/
theorem test_xferComplete :
    after (exec (.xferComplete .thread 0)
        { worldWith [(0x20001000, 0x90F00000#32), (0x20001004, 0x20004014#32), (0x20000008, 0x20001062#32)] with
          tdt := [(0, { alloc := true, status := 0x80000040#32, next := some 3 }), (3, { alloc := true })] })
      (fun u => results u 20 0 9 .ok && (u.ed 0).head == 3 && !(u.td 0).alloc
        && desc u 0x20000000 == [0x10400082#32, 0x20001060#32, 0x20001062#32, 0#32]) = true := by
  decide +kernel

/-- V45, first row. -/
theorem test_xferComplete_unfinished :
    after (exec (.xferComplete .thread 0) world)
      (fun u => results u 0 0 0 .fault && u.flog == [⟨.notFinished, 0#32⟩] && u.isr.getLsbD 2
        && blockRegRead u 0x4C == 0x80000004#32) = true := by decide +kernel

/-- V46 (a), the endpoint halted, so that the command does not wait. -/
theorem test_xferAbort :
    after (exec (.xferAbort .thread 0) halted)
      (fun u => results u 3 0 0 .ok && at32 u 0x20000008 == 0x20001060#32 && (u.ed 0).head == 3) = true := by
  decide +kernel

/-- V46 (d): a transfer behind another one. -/
theorem test_xferAbort_second :
    after (exec (.xferAbort .thread 0)
        { args halted 1#32 0#32 0#32 with
          tdt := (worldStatus 0x40#32 0x40000040#32 0x40#32).tdt })
      (fun u => results u 2 0 0 .ok && at32 u 0x20001008 == 0x20001060#32
        && (u.td 0).next == some 3 && (u.td 0).alloc) = true := by decide +kernel

/-- V40: code 4 is a stall. -/
theorem test_ccClassify :
    after (exec (.ccClassify .thread 4#4) State.reset) (fun u => results u 3 0 0 .ok) = true := by
  decide +kernel

/-- V40: code 0xE is unspecific. -/
theorem test_ccClassify_0xE :
    after (exec (.ccClassify .thread 0xE#4) State.reset) (fun u => results u 4 0 0 .ok) = true := by
  decide +kernel

/-- Program 3, step 6: the drain of a short packet frees the rest of the transfer. -/
def shortPacket : State :=
  { worldWith [(0x20001000, 0x90F00000#32), (0x20001004, 0x20004014#32), (0x20001008, 0#32),
      (0x20000008, 0x20001023#32), (0x20002084, 0x20001000#32)] with
    hc := { world.hc with interruptStatus := 0x2#32 } }

theorem test_dqDrain_short :
    after (exec (.dqDrain .thread) shortPacket)
      (fun u => results u 1 1 0 .ok && u.compq.map CompRec.word0 == [0x89000000#32]
        && at32 u 0x20000008 == 0x20001062#32 && u.hc.commandStatus == 0x4#32 && !(u.td 1).alloc
        && !(u.td 2).alloc && !u.wdhIn) = true := by decide +kernel

/-- Program 2, step 6: the drain of a whole transfer, newest first in the done list. -/
theorem test_dqDrain_order :
    after (exec (.dqDrain .thread)
        { worldWith [(0x20001000, 0x00F00000#32), (0x20001008, 0#32), (0x20001020, 0x00F00001#32),
            (0x20001028, 0x20001000#32), (0x20001040, 0x00F00002#32), (0x20001048, 0x20001020#32),
            (0x20002084, 0x20001041#32)] with
          hc := { world.hc with interruptStatus := 0x2#32 } })
      (fun u => results u 3 1 0 .ok && u.compq.map CompRec.word0 == [0x80000000#32]
        && u.compq.map (fun c => c.key) == [0x20001#32] && at32 u 0x20001048 == 0#32
        && at32 u 0x20001028 == 0x20001040#32 && at32 u 0x20001008 == 0x20001020#32
        && u.isr == 0xB#4) = true := by decide +kernel

/-- Section 2.7: three lines. -/
theorem test_cflush :
    after (exec (.cflush .thread) (args State.reset 0x20004010#32 0x40#32 0#32))
      (fun u => results u 3 0 0 .ok) = true := by decide +kernel

/-- Section 2.7: a range that passes 2^32. -/
theorem test_cflush_range :
    after (exec (.cflush .thread) (args State.reset 0xFFFFFFF0#32 0x11#32 0#32))
      (fun u => results u 0 0 0 .badArg) = true := by decide +kernel

/-- Section 2.7: dirty data invalidated is lost. -/
theorem test_cinval :
    after (exec (.cinval .thread)
        (args (State.reset.cacheStore 0x20004000#32 5#32) 0x20004000#32 4#32 0#32))
      (fun u => results u 1 0 0 .ok && u.cacheLoad 0x20004000#32 == 0#32) = true := by decide +kernel

/-- Section 2.8: ED_CLOSE.irq before SCHED_START. -/
theorem test_priority :
    after (exec (.edClose .interrupt 0) State.reset) (fun u => results u 0 0 0 .badState) = true := by
  decide +kernel

/-! ### Witnesses: states and operands that meet the hypotheses of the statements

`witness_<Name>` is about `Obligations.<Name>`; where a statement has several clauses, each has its own. -/

/-- The next state of an outcome that computes to one. -/
theorem next_of_after {o : Host.Outcome State Fault Refusal} {check : State → Bool} (h : after o check = true) :
    ∃ t, o = .next t ∧ check t = true := by
  cases o with
  | next t => exact ⟨t, rfl, h⟩
  | fault f => cases h
  | refused r => cases h

theorem witness_DecodeOfEncode :
    (Instr.tdQueue .interrupt 255 true true 7#3 3#2).wf = true ∧ (Instr.schedBitpos .thread 0 255).wf = true := by
  decide

theorem witness_EncodeOfDecode :
    decode 0x7FFF0130#32 = .ok (.tdQueue .interrupt 255 true true 7#3 3#2) := by decide

/-- A reserved opcode, and a nonzero `RSV` under an opcode that is one. -/
theorem witness_ReservedWordsEnd :
    ∀ w ∈ [0x00000002#32, 0x00000200#32],
      ({ world with sched := [commandMove w] } : State).seq = .idle ∧
      ∀ i : Instr, i.wf = true → encode i ≠ w := by
  intro w hw
  refine ⟨rfl, fun i _ he => ?_⟩
  obtain ⟨h1, -, h3, -, -⟩ := Laws.encode_fields i
  rw [he] at h1 h3
  rcases List.mem_cons.1 hw with rfl | hw
  · revert h1; cases i <;> simp only [Instr.opcode] <;> decide
  · rcases List.mem_cons.1 hw with rfl | hw
    · revert h3; decide
    · cases hw

theorem witness_StepRunsCommand :
    ({ world with sched := [commandMove 0x00FF0112#32, .timer] } : State).seq = .idle ∧
      decode 0x00FF0112#32 = .ok (.edSuspend .interrupt 255) ∧
      ({ world with seq := .wait {} 0 0#16 0 (.quiesce 0) } : State).seq.busy = true := by decide

/-- ED_OPEN before SCHED_START, a second SCHED_START; ED_CLOSE with `CTX = 1`; a handle past the last slot, and a
free one. -/
theorem witness_CommonChecksStop :
    State.reset.quiet ∧ State.reset.started = false ∧ world.quiet ∧ world.started = true ∧
      world.params.ned ≤ 8 ∧ (world.ed 7).alloc = false := by decide +kernel

theorem witness_ErrorsKeepResults :
    ∃ t, exec (.edOpen .thread) State.reset = .next t ∧ (t.err != .ok) = true :=
  next_of_after (by decide +kernel)

/-- One state for the invariants (CanonicalKept, LockFreeKept, LogsBoundedKept, PointersAlignedKept and
the others below): in the middle of a wait, the HC moving. -/
def busyWorld : State :=
  { world with
    seq := .wait { word := 0x00000032#32 } 0 0#16 2 (.abort 0 2)
    sched := [.hc (.restart true), .hc (.serve .bulk), .hc .event, .block] }

theorem witness_invariants :
    busyWorld.canonical = true ∧ busyWorld.lockFree = true ∧ busyWorld.logsBounded = true ∧
      busyWorld.pointersAligned = true ∧ (∃ t, step busyWorld = .next t ∧ true = true) ∧
      Move.reset ∉ busyWorld.sched :=
  ⟨by decide +kernel, by decide +kernel, by decide +kernel, by decide +kernel,
    next_of_after (check := fun _ => true) (by decide +kernel), by decide +kernel⟩

theorem witness_PlacementKept : busyWorld.placed ∧ busyWorld.slotsSuit :=
  ⟨placed_of_check (by decide +kernel), slotsSuit_of_check (by decide +kernel)⟩

theorem witness_QueuesKept : busyWorld.queuesOk ∧ busyWorld.finishedFirst :=
  ⟨queuesOk_of_check worldQueues (by decide +kernel),
    finishedFirst_of_check worldQueues (by decide +kernel) (by decide +kernel)⟩

/-- A dirty line of the host's is no line the block wrote; and a program that ends. -/
theorem witness_LockFreeKept :
    (world.cacheStoreByte 0x20004000 1#8).blockClean = true ∧ (world.cacheStore 0x20004000#32 1#32).blockClean = false ∧
      busyWorld.params.legal = true ∧ busyWorld.blockClean = true ∧
      ∃ t, world.programEnds [commandMove 0#32] t := by
  refine ⟨by decide +kernel, by decide +kernel, by decide +kernel, by decide +kernel, ?_⟩
  obtain ⟨t, ht, hc⟩ := next_of_after (o := step { world with sched := [commandMove 0#32] })
    (check := fun t => decide (t.sched = []) && !t.seq.busy && !t.autoDrainEnabled && t.blockClean)
    (by decide +kernel)
  simp only [Bool.and_eq_true, decide_eq_true_eq, Bool.not_eq_true'] at hc
  exact ⟨t, .next ht (.refl t), hc.1.1.1, hc.1.1.2, hc.1.2, hc.2⟩

/-- A state in which the block has lost faults. -/
theorem witness_StickyUntilReset :
    ∃ t, step { busyWorld with faultOvf := true, faultCount := 0xFFFFFFFF#32 } = .next t ∧ t.faultOvf = true :=
  next_of_after (by decide +kernel)

theorem witness_BlockNeverWritesOperands :
    (∀ m ∈ ({ world with sched := [commandMove 0#32, .hc (.frame none), .timer] } : State).sched,
        m ≠ .reset ∧ ∀ h, m = .host h → ∃ w, m = commandMove w) ∧
      ∃ t, step { world with sched := [commandMove 0#32, .hc (.frame none), .timer] } = .next t ∧ true = true := by
  refine ⟨?_, next_of_after (check := fun _ => true) (by decide +kernel)⟩
  simp [commandMove]

/-- A late `ARG0`, three steps into a command; and a wait beside which the HC and the timer move. -/
theorem witness_BlockNeverWritesOperands_snapshot :
    0x10#8 ∈ [0x10#8, 0x14#8, 0x18#8, 0x1C#8] ∧ world.seq = .idle ∧
      (∃ t, exec (.edSuspend .thread 0) { world with sched := List.replicate 3 .block } = .next t ∧
        (t.err == .ok) = true) ∧
      busyWorld.seq = .wait { word := 0x00000032#32 } 0 0#16 2 (.abort 0 2) ∧
      (∀ m ∈ busyWorld.sched, m ≠ .reset ∧ ∀ off size v, m ≠ .host (.blockRead off size) ∧
        m ≠ .host (.blockWrite off size v)) ∧
      ∃ t, step busyWorld = .next t ∧ true = true := by
  refine ⟨by decide, by decide, next_of_after (by decide +kernel), by decide, ?_,
    next_of_after (check := fun _ => true) (by decide +kernel)⟩
  simp [busyWorld]

theorem witness_ResetValues : (0x00#8).toNat % 4 = 0 ∧ (0xFC#8).toNat % 4 = 0 := by decide

/-- A reset before the first step, in a wait, and three steps into a command, which it abandons. -/
theorem witness_ResetAbandons :
    ({ world with sched := [.reset, .timer] } : State).sched = .reset :: [.timer] ∧ world.seq = .idle ∧
      ({ busyWorld with sched := [.reset] } : State).seq
        = .wait { word := 0x00000032#32 } 0 0#16 2 (.abort 0 2) ∧
      ∃ u, exec (.edSuspend .thread 0) { world with sched := List.replicate 3 .block ++ .reset :: [.timer] } = .next u ∧
        (u.sched == [.timer] && !u.started) = true :=
  ⟨by decide, by decide, by decide, next_of_after (by decide +kernel)⟩

theorem witness_CompletionPort :
    world.compq = [] ∧
      ({ world with compq := [⟨254, 65535, 0xF#4, 1#32⟩] } : State).compq = ⟨254, 65535, 0xF#4, 1#32⟩ :: [] ∧
      65535 < 65536 ∧ 254 < 256 ∧ world.compq.length < world.params.ntd ∧
      ({ Params.tc with ntd := 2 } : Params).ntd
        ≤ ({ world with compq := List.replicate 2 ⟨0, 0, 0#4, 0#32⟩ } : State).compq.length := by decide

theorem witness_FaultLog :
    ({ world with flog := List.replicate 7 ⟨.order, 0#32⟩ } : State).flog.length < world.params.faultDepth ∧
      world.params.faultDepth ≤ ({ world with flog := List.replicate 8 ⟨.order, 0#32⟩ } : State).flog.length ∧
      world.flog = [] := by decide

theorem witness_NarrowHostAccessIsStuck :
    ((0x02#8).toNat % 4 ≠ 0 ∧
      ({ world with sched := [.host (.blockRead 0x02#8 4)] } : State).sched
        = .host (.blockRead 0x02#8 4) :: []) ∧
      (2 ≠ 4 ∧ ({ world with sched := [.host (.blockWrite 0x0C#8 2 0#32)] } : State).sched
        = .host (.blockWrite 0x0C#8 2 0#32) :: []) ∧ world.seq = .idle ∧
      busyWorld.seq = .wait { word := 0x00000032#32 } 0 0#16 2 (.abort 0 2) := by decide

/-- The coherent block, and the last word of the address space. -/
theorem witness_CacheAccesses :
    ({ Params.tc with coherent := true } : Params).coherent = true ∧ world.params.legal = true ∧
      world.params.coherent = false ∧ (0xFFFFFFFC#32).toNat % 4 = 0 ∧ (0#32).toNat % 4 = 0 ∧
      0#32 ≠ 0xFFFFFFFC#32 ∧ tableFind (lineBase world.params (0xFFFFFFFC#32).toNat) world.cache = none ∧
      (tableFind ((0x20000008#32).toNat / 32 * 32) (world.touch 0x20000000).cache).isSome = true := by
  decide +kernel

/-- The HC between two serves, with a done list to write back, the frame number about to wrap. -/
def frameWorld : State := { world with hc := { world.hc with fmNumber := 0xFFFF#16, dq := 0x20001000#32 } }

theorem witness_FrameStep :
    frameWorld.params.legal = true ∧ frameWorld.hc.serve = none ∧ frameWorld.hc.dq ≠ 0#32 ∧
      frameWorld.hc.wdh = false ∧ world.hc.dq = 0#32 ∧
      ({ frameWorld.hc with interruptStatus := 0x2#32 } : Hc).wdh = true ∧
      (hcMove (.serve .bulk) (hcMove (.restart true) world)).hc.serve ≠ none := by decide +kernel

/-- The HC about to serve endpoint 0: as it is, skipped, and halted; the buffer of TD 0 is 0x20004000 to
0x2000403F. -/
def serving (s : State) : State := { s with hc := { s.hc with bpos := 0x20000000#32 } }

theorem witness_FrameStep_serve :
    (serving world).hc.serve = none ∧ (serving world).hc.bpos ≠ 0#32 ∧ world.hc.bpos = 0#32 ∧
      world.hc.control.getLsbD 5 = true ∧ world.hc.control.getLsbD 4 = true ∧
      (world.physRead 0x20000000#32).getLsbD 14 = false ∧ (world.physRead 0x20000008#32).getLsbD 0 = false ∧
      ptrOf (world.physRead 0x20000008#32) ≠ ptrOf (world.physRead 0x20000004#32) ∧
      world.physRead 0x20001004#32 = 0x20004000#32 ∧ world.physRead 0x2000100C#32 = 0x2000403F#32 ∧
      ((worldWith [(0x20000000, 0x10404082#32)]).physRead 0x20000000#32).getLsbD 14 = true ∧
      (halted.physRead 0x20000008#32).getLsbD 0 = true := by decide +kernel

/-- A byte of IN data lands in the buffer of the TD the HC processes; with `WDH = 1` a frame step still writes
the HCCA's frame number. -/
theorem witness_HcLeavesTheBlockAlone :
    (0x7#32).getLsbD 2 = true ∧ world.params.legal = true ∧
      (let s := hcMoves (.serve .bulk :: List.replicate 6 .event) (serving world)
       loadByte (hcMove (.data 0x2000403F#32 1#8) s).mem 0x2000403F ≠ loadByte s.mem 0x2000403F) ∧
      (let s := { world with hc := { world.hc with interruptStatus := 0x2#32 } }
       s.hc.interruptStatus.getLsbD 1 = true ∧
       loadByte (hcMove (.frame (some true)) s).mem 0x20002080 ≠ loadByte s.mem 0x20002080) := by decide +kernel

/-- 20_memory.md R126, R127: an IN buffer that overlaps the HCCA, from `T[0]` to `HccaDoneHead` and on, takes no
data there. -/
theorem test_data_spares_the_block :
    (let s := hcMoves (.serve .bulk :: List.replicate 6 .event)
       (serving (worldWith [(0x20001004, 0x20001FFF#32), (0x2000100C, 0x20002100#32)]))
     (hcMove (.data 0x20002087#32 1#8) s == s) && (hcMove (.data 0x20002000#32 1#8) s == s)
       && (loadByte (hcMove (.data 0x20002100#32 1#8) s).mem 0x20002100 == 1#8)) = true := by decide +kernel

theorem witness_NopCompletes : world.quiet := by decide +kernel

theorem witness_CcClassifyCompletes :
    0xF#4 ∈ [0x0#4, 0x9#4, 0xF#4] ∧ 0xD#4 ∈ [0x1#4, 0x2#4, 0x3#4, 0x5#4, 0x6#4, 0x7#4, 0xC#4, 0xD#4] ∧
      0xE#4 ∈ [0xA#4, 0xB#4, 0xE#4] ∧ world.quiet := by decide +kernel

theorem witness_SchedBitposCompletes :
    (5 ≤ 5 ∧ 0 < 2 ^ (5 - 5)) ∧ (0 ≤ 5 ∧ 31 < 2 ^ (5 - 0)) ∧ 5 < 6 ∧ 2 ^ (5 - 0) ≤ 32 ∧
      (4 < 5 ∧ 0 < 2 ^ (4 - 4)) ∧ world.quiet := by decide +kernel

theorem witness_SchedIdepthCompletes : State.reset.quiet := by decide

theorem witness_SchedLoadCompletes :
    world.quiet ∧ world.started = true ∧ 31 ≤ 31 ∧ 31 < 32 ∧
      ((List.range 6).map (fun d =>
        ((world.list (nodeBase d + bitrev 5 0 / 2 ^ d)).map (fun e => (world.ed e).bw)).sum)).sum < 2 ^ 32 := by
  decide +kernel

theorem witness_IntervalDepth : 32 ≤ max 32 1 ∧ max 31 1 < 32 ∧ max 0 1 < 32 := by decide

theorem witness_BitReversal : 31 < 2 ^ 5 ∧ 4 < 5 ∧ 5 ≤ 5 ∧ 0 < 2 ^ (5 - 5) ∧ 31 < 32 := by decide

theorem witness_PlacementSearch :
    (world.ed 1).depth ≤ 5 ∧ world.placementGroup 1 = some 1 ∧
      ({ world with params := { Params.tc with maxPeriodicBw := ⟨39, 39⟩ } } : State).placementGroup 1 = none ∧
      ({ world with edt := [(1, { alloc := true, depth := 5 })] } : State).placementGroup 1 = some 0 := by
  decide +kernel

theorem witness_SchedStartCompletes :
    ({ world with started := false } : State).quiet ∧ world.params.legal = true ∧ ∀ k, State.reset.list k = [] :=
  ⟨by decide +kernel, by decide +kernel, fun _ => rfl⟩

/-- The three kinds of open. -/
theorem witness_EdOpenRefused :
    world.quiet ∧ world.started = true ∧ (0x4000#32).extractLsb' 14 2 ≠ 0#2 ∧
      (0x20000000#32).extractLsb' 29 3 ≠ 0#3 ∧ (0x100#32).extractLsb' 8 24 ≠ 0#24 ∧
      ((0x08000000#32).extractLsb' 14 2 = 0#2 ∧ (0x08000000#32).extractLsb' 29 3 = 0#3 ∧
        (0xFF#32).extractLsb' 8 24 = 0#24 ∧ (0x08000000#32).extractLsb' 27 2 = 1#2) ∧
      ((0x1FFF3FFF#32).extractLsb' 14 2 = 0#2 ∧ (0x1FFF3FFF#32).extractLsb' 29 3 = 0#3 ∧
        (0x1FFF3FFF#32).extractLsb' 27 2 ≠ 1#2) ∧
      (∀ e < 3, (({ world with params := { Params.tc with ned := 3 } } : State).ed e).alloc = true) ∧
      (∀ t < 6, (({ world with params := { Params.tc with ntd := 6 } } : State).td t).alloc = true) := by
  decide +kernel

/-- The world about to open an endpoint. -/
def opening (template interval : Word) : State := args world 0x77#32 template interval

/-- The reserved bits of a template and of an interval operand are clear. -/
def reservedClear (template interval : Word) : Bool :=
  interval.extractLsb' 8 24 == 0#24 && template.extractLsb' 14 2 == 0#2 && template.extractLsb' 29 3 == 0#3

theorem witness_EdOpenClassCompletes :
    (opening 0x00400003#32 0#32).placed ∧ (opening 0x00400003#32 0#32).queuesOk ∧
      ((opening 0x00400003#32 0#32).quiet ∧ reservedClear 0x00400003#32 0#32 = true ∧
        reservedClear 0x10400082#32 0#32 = true ∧ (0x00400003#32).extractLsb' 27 2 = 0#2 ∧
        (0x10400082#32).extractLsb' 27 2 = 2#2 ∧
        (opening 0x00400003#32 0#32).allocEd = some 3 ∧ (opening 0x00400003#32 0#32).allocTd = some 6) :=
  ⟨placed_of_check (by decide +kernel), queuesOk_of_check worldQueues (by decide +kernel), by decide +kernel⟩

theorem witness_EdOpenInterruptCompletes :
    (opening 0x18281081#32 32#32).placed ∧
      ((opening 0x18281081#32 32#32).quiet ∧ reservedClear 0x18281081#32 32#32 = true ∧
        (0x18281081#32).extractLsb' 27 2 = 3#2 ∧ (opening 0x18281081#32 32#32).allocEd = some 3 ∧
        (opening 0x18281081#32 32#32).allocTd = some 6) ∧
      ∃ g < 2 ^ (5 - (idepth Params.tc.intervalRound 32).2),
        ((0x18281081#32).extractLsb' 16 11).toNat + perSpeed Params.tc.overheadInterrupt .full
          + (opening 0x18281081#32 32#32).groupWorst (idepth Params.tc.intervalRound 32).2 g
          ≤ perSpeed Params.tc.maxPeriodicBw .full :=
  ⟨placed_of_check (by decide +kernel), by decide +kernel, 0, by decide +kernel, by decide +kernel⟩

/-- 861 units at an interval of 1 ms, beside a branch of 40. -/
theorem witness_EdOpenOverBudget :
    (opening 0x1B5D1301#32 1#32).placed ∧
      ((opening 0x1B5D1301#32 1#32).quiet ∧ reservedClear 0x1B5D1301#32 1#32 = true ∧
        (0x1B5D1301#32).extractLsb' 27 2 = 3#2 ∧ (opening 0x1B5D1301#32 1#32).allocEd = some 3 ∧
        (opening 0x1B5D1301#32 1#32).allocTd = some 6 ∧
        (∀ g < 2 ^ (5 - (idepth Params.tc.intervalRound 1).2),
          perSpeed Params.tc.maxPeriodicBw .full
            < ((0x1B5D1301#32).extractLsb' 16 11).toNat + perSpeed Params.tc.overheadInterrupt .full
              + (opening 0x1B5D1301#32 1#32).groupWorst (idepth Params.tc.intervalRound 1).2 g)) :=
  ⟨placed_of_check (by decide +kernel), by decide +kernel⟩

theorem witness_EdQuiesceCompletes :
    halted.quiet ∧ halted.params.legal = true ∧ halted.started = true ∧ halted.validEd 0 = true ∧
      (halted.physRead (edHeadAddr halted.params 0)).getLsbD 0 = true ∧
      ({ world with seq := .wait {} 0 0xFFFF#16 2 (.quiesce 0) } : State).hc.fmNumber ≠ 0xFFFF#16 ∧
      ({ world with seq := .wait {} 0 0#16 0 (.quiesce 0) } : State).hc.fmNumber = 0#16 ∧
      world.sched = [] := by decide +kernel

theorem witness_BlockingCommandsWait :
    world.quiet ∧ world.params.legal = true ∧ world.started = true ∧ world.validEd 0 = true ∧
      (world.physRead (edHeadAddr world.params 0)).getLsbD 0 = false ∧
      (args world 2#32 0#32 0#32).arg0 = BitVec.ofNat 32 2 ∧ 2 < world.params.ntd ∧
      (world.td 2).alloc = true ∧ (world.td 2).owner = 0 ∧ 2 ≠ (world.ed 0).tail := by decide +kernel

theorem witness_ThirdTimeoutEnds :
    ({ world with seq := .wait {} 0 0#16 0 (.close 0), sched := [.timer, .timer, .timer, .reset] } : State).sched
        = List.replicate (3 - 0) .timer ++ [.reset] ∧
      ({ world with seq := .wait {} 0 0#16 2 (.close 0), sched := [.timer] } : State).sched
        = List.replicate (3 - 2) .timer ++ [] ∧ 2 < 3 := by decide +kernel

theorem witness_EdCloseCompletes :
    halted.placed ∧ halted.slotsSuit ∧ halted.queueIs 0 [0, 1, 2] ∧
      (halted.seq = .idle ∧ halted.sched = [] ∧ halted.started = true ∧ halted.params.legal = true ∧
        halted.validEd 0 = true ∧ (halted.physRead (edHeadAddr halted.params 0)).getLsbD 0 = true ∧
        (halted.list 64).head? = some 0 ∧ (halted.ed 0).slot = 64 ∧ (halted.ed 0).type ≠ .interrupt) :=
  ⟨placed_of_check (by decide +kernel), slotsSuit_of_check (by decide +kernel),
    queueIs_of_check (by decide +kernel), by decide +kernel⟩

/-- The same of an interrupt endpoint, and of the wait. -/
theorem witness_EdCloseCompletes_interrupt :
    haltedInterrupt.placed ∧ haltedInterrupt.slotsSuit ∧ haltedInterrupt.queueIs 1 [] ∧
      (haltedInterrupt.validEd 1 = true ∧ (haltedInterrupt.ed 1).type = .interrupt ∧
        (haltedInterrupt.physRead (edHeadAddr haltedInterrupt.params 1)).getLsbD 0 = true ∧
        ({ haltedInterrupt with seq := .wait {} 1 0xFFFF#16 2 (.close 1) } : State).hc.fmNumber ≠ 0xFFFF#16) :=
  ⟨placed_of_check (by decide +kernel), slotsSuit_of_check (by decide +kernel),
    queueIs_of_check (by decide +kernel), by decide +kernel⟩

/-- Two endpoints on one class list: endpoint 2 made the second bulk one. -/
def twoBulk : State :=
  { worldWith [(0x2000000C, 0x20000040#32), (0x20000048, 0x200010A1#32)] with
    edt := [(0, world.ed 0), (1, world.ed 1), (2, { world.ed 2 with type := .bulk, slot := 64 })]
    place := [(0, [1]), (64, [0, 2])] }

theorem witness_EdCloseCompletes_second :
    twoBulk.placed ∧ twoBulk.slotsSuit ∧ twoBulk.queueIs 2 [] ∧
      (twoBulk.validEd 2 = true ∧ (twoBulk.list 64)[0 + 1]? = some 2 ∧ (twoBulk.list 64)[0]? = some 0 ∧
        (twoBulk.list 64).head? ≠ some 2 ∧
        (twoBulk.physRead (edHeadAddr twoBulk.params 2)).getLsbD 0 = true) :=
  ⟨placed_of_check (by decide +kernel), slotsSuit_of_check (by decide +kernel),
    queueIs_of_check (by decide +kernel), by decide +kernel⟩

/-- The world with the rest of its interrupt table, endpoint 1 halted. -/
def tree : State :=
  { haltedInterrupt with
    mem := words ((List.range 31).map (fun k => (0x20002004 + 4 * k, 0x20000100#32))) haltedInterrupt.mem }

theorem witness_TreeLayoutKept :
    tree.placed ∧ tree.slotsSuit ∧
      (tree.quiet ∧ tree.params.legal = true ∧ 0 < tree.params.descBase ∧ tree.tableSeen = true ∧
        tree.treeLayout = true) ∧
      (∃ u, exec (.edClose .thread 1) tree = .next u ∧ (u.err == .ok) = true) ∧
      ∃ u, exec (.edOpen .thread) (args tree 1#32 0x18281081#32 32#32) = .next u ∧ (u.err == .ok) = true :=
  ⟨placed_of_check (by decide +kernel), slotsSuit_of_check (by decide +kernel), by decide +kernel,
    next_of_after (by decide +kernel), next_of_after (by decide +kernel)⟩

/-- The tree's world between two commands, with the next command placed; and endpoint 1's close at the end of
its wait. -/
theorem witness_TreeLayoutKept_step :
    ({ tree with sched := [commandMove 0x00000010#32] } : State).treeReady ∧
      (∃ u, step { args tree 1#32 0x18281081#32 32#32 with sched := [commandMove 0x00000010#32] } = .next u ∧
        (u.err == .ok) = true) ∧
      tree.validEd 1 = true ∧
      ∃ u, step { tree with seq := .wait {} 1 0xFFFF#16 0 (.close 1) } = .next u ∧ (u.list 0 == []) = true :=
  ⟨⟨by decide +kernel, placed_of_check (by decide +kernel), slotsSuit_of_check (by decide +kernel),
      queuesOk_of_check worldQueues (by decide +kernel), by decide +kernel, by decide +kernel, by decide +kernel,
      by decide +kernel, by decide +kernel, by decide +kernel, .inr ⟨_, rfl⟩⟩,
    next_of_after (by decide +kernel), by decide +kernel, next_of_after (by decide +kernel)⟩

theorem witness_ClassLayoutKept_wait :
    halted.validEd 0 = true ∧
      ∃ u, step { halted with seq := .wait {} 0 0xFFFF#16 0 (.close 0) } = .next u ∧ (u.list 64 == []) = true :=
  ⟨by decide +kernel, next_of_after (by decide +kernel)⟩

theorem witness_ClassLayoutKept :
    halted.placed ∧ halted.slotsSuit ∧
      (halted.quiet ∧ halted.params.legal = true ∧ halted.classLayout 63 = true ∧
        halted.classLayout 64 = true) ∧
      ∃ u, exec (.edClose .thread 0) halted = .next u ∧ (u.err == .ok) = true :=
  ⟨placed_of_check (by decide +kernel), slotsSuit_of_check (by decide +kernel), by decide +kernel,
    next_of_after (by decide +kernel)⟩

/-- EdSuspendCompletes, EdResumeCompletes and EdClearHaltCompletes, for the last endpoint slot there is. -/
theorem witness_EdSuspendCompletes :
    ({ world with params := { Params.tc with ned := 3 } } : State).quiet ∧
      ({ Params.tc with ned := 3 } : Params).legal = true ∧ world.started = true ∧
      ({ world with params := { Params.tc with ned := 3 } } : State).validEd 2 = true := by decide +kernel

theorem witness_EdResumeCompletes :
    world.quiet ∧ world.params.legal = true ∧ world.started = true ∧ world.validEd 0 = true ∧
      world.validEd 1 = true ∧ world.validEd 2 = true := by decide +kernel

theorem witness_EdClearHaltCompletes :
    halted.quiet ∧ halted.params.legal = true ∧ halted.started = true ∧ halted.validEd 0 = true := by
  decide +kernel

/-- A buffer that fills two pages to their last byte, and an empty one. -/
theorem witness_TdQueueCompletes :
    (args world 0xFFFFE000#32 0x2000#32 0#32).queuesOk ∧
      (args world 0xFFFFE000#32 0x2000#32 0#32).hardwareAgrees 0 [] [0, 1, 2] ∧
      (world.quiet ∧ world.params.legal = true ∧ world.started = true ∧ world.validEd 0 = true ∧
        world.allocTd = some 6 ∧ 2#2 ≠ 3#2 ∧ (0x2000#32).toNat ≤ 8192 ∧
        (0xFFFFE000#32).toNat % 4096 + (0x2000#32).toNat ≤ 8192 ∧
        (0xFFFFE000#32).toNat + (0x2000#32).toNat - 1 < 2 ^ 32 ∧ ¬ 0 < (0#32).toNat) :=
  ⟨queuesOk_of_check worldQueues (by decide +kernel), hardwareAgrees_of_check (by decide +kernel),
    by decide +kernel⟩

theorem witness_TransferOperandErrors :
    world.quiet ∧ world.started = true ∧ world.validEd 0 = true ∧
      8192 < (0x20004FFF#32).toNat % 4096 + (4098#32).toNat ∧
      ¬ (8192 < (4097#32).toNat ∨ 8192 < (0x20004FFF#32).toNat % 4096 + (4097#32).toNat ∨
        (0 < (4097#32).toNat ∧ 2 ^ 32 ≤ (0x20004FFF#32).toNat + (4097#32).toNat - 1)) ∧
      8192 < (8193#32).toNat ∧ 2 ^ 32 ≤ (0xFFFFFFFF#32).toNat + (2#32).toNat - 1 ∧
      (∀ t < 6, (({ world with params := { Params.tc with ntd := 6 } } : State).td t).alloc = true) ∧
      (0x10000#32).extractLsb' 16 16 ≠ 0#16 ∧ world.params.ntd ≤ (32#32).toNat ∧
      (world.td (31#32).toNat).alloc = false ∧ (world.td (4#32).toNat).owner ≠ 0 ∧
      (3#32).toNat = (world.ed 0).tail := by decide +kernel

theorem witness_ActualBytes :
    (64 ≠ 0 ∧ (0x20004040#32 : Word) ≠ 0#32 ∧
      (0 : Int) ≤ ((0x2000403F#32 : Word).toNat : Int) - (0x20004040#32 : Word).toNat + 1) ∧
    ((64 : Int) < ((0x2000403F#32 : Word).toNat : Int) - (0x20003FFF#32 : Word).toNat + 1) ∧
    (((0x2000403F#32 : Word).toNat : Int) - (0x20004041#32 : Word).toNat + 1 < 0) := by decide

/-- All three TDs finished. -/
def finishedWorld : State := worldStatus 0xC0000040#32 0xC0000040#32 0x80000040#32

theorem witness_XferCompleteCompletes :
    finishedWorld.queuesOk ∧ finishedWorld.headGroup 0 [0, 1, 2] 3 ∧
      (finishedWorld.quiet ∧ finishedWorld.params.legal = true ∧ finishedWorld.started = true ∧
        finishedWorld.validEd 0 = true ∧ [0, 1, 2].getLast? = some 2 ∧
        finishedWorld.arg0 = BitVec.ofNat 32 (finishedWorld.ed 0).head ∧
        ([0, 1, 2].map (fun t => actualBytes (finishedWorld.td t).len
          (finishedWorld.physRead (tdAddr finishedWorld.params t + 4#32))
          (finishedWorld.physRead (tdAddr finishedWorld.params t + 12#32)))).sum < 2 ^ 32) :=
  ⟨queuesOk_of_check worldQueues (by decide +kernel), headGroup_of_check (by decide +kernel), by decide +kernel⟩

/-- The HC has retired all three. -/
theorem witness_XferCompleteCompletes_agrees :
    ({ finishedWorld with mem := store32 world.mem 0x20000008 0x20001061#32 } : State).hardwareAgrees 0 [0, 1, 2] [] :=
  hardwareAgrees_of_check (by decide +kernel)

/-- The first transfer that ends in a stall, which leaves the endpoint halted. -/
theorem witness_XferCompleteCompletes_halted :
    ccClass (((worldWith [(0x20001040, 0x40F00002#32)]).physRead
      (tdAddr Params.tc 2)).extractLsb' 28 4) = .stall := by decide +kernel

/-- A group whose second TD is unfinished, and one that runs into the placeholder. -/
theorem witness_XferCompleteFaults :
    (world.quiet ∧ world.started = true ∧ world.validEd 0 = true ∧ 3 < 65536 ∧ 3 < world.params.ntd ∧
      (world.td 3).alloc = true ∧ (world.td 3).owner = 0 ∧ 3 ≠ (world.ed 0).head) ∧
    (Chain (worldStatus 0xC0000040#32 0x40000040#32 0x40#32) 0 [0] 1 ∧
      ((worldStatus 0xC0000040#32 0x40000040#32 0x40#32).td 1).finished = false ∧
      ∀ x ∈ [0], x ≠ 3 ∧ ((worldStatus 0xC0000040#32 0x40000040#32 0x40#32).td x).finished = true ∧
        ((worldStatus 0xC0000040#32 0x40000040#32 0x40#32).td x).more = true) ∧
    (Chain (worldStatus 0xC0000040#32 0xC0000040#32 0xC0000040#32) 0 [0, 1, 2] 3 ∧
      ∀ x ∈ [0, 1, 2], x ≠ 3 ∧ ((worldStatus 0xC0000040#32 0xC0000040#32 0xC0000040#32).td x).finished = true ∧
        ((worldStatus 0xC0000040#32 0xC0000040#32 0xC0000040#32).td x).more = true) :=
  ⟨by decide +kernel, ⟨chain_of_check (by decide +kernel), by decide +kernel⟩,
    chain_of_check (by decide +kernel), by decide +kernel⟩

/-- The whole queue as one group; the HC stands in it. -/
theorem witness_XferAbortCompletes :
    halted.queuesOk ∧ halted.queueIs 0 ([] ++ 0 :: [1, 2] ++ []) ∧
      (halted.params.legal = true ∧ halted.validEd 0 = true ∧ halted.sched = [] ∧
        ([] ++ [(halted.ed 0).tail]).head? = some 3 ∧
        (∀ x ∈ (0 :: [1, 2] : List Nat).dropLast, (halted.td x).more = true) ∧
        halted.seq = .idle ∧ halted.started = true ∧ halted.arg0 = BitVec.ofNat 32 0 ∧
        (halted.physRead (edHeadAddr halted.params 0)).getLsbD 0 = true ∧
        ptrOf (halted.physRead (edHeadAddr halted.params 0)) ∈ [0, 1, 2].map (tdAddr halted.params)) :=
  ⟨queuesOk_of_check worldQueues (by decide +kernel), queueIs_of_check (by decide +kernel), by decide +kernel⟩

/-- Three transfers of one TD each; the middle one is aborted after the wait, the HC stands before it. -/
def threeTransfers : State :=
  { worldStatus 0x40#32 0x40#32 0x40#32 with seq := .wait {} 0 0xFFFF#16 2 (.abort 0 1) }

theorem witness_XferAbortCompletes_middle :
    threeTransfers.queuesOk ∧ threeTransfers.queueIs 0 ([0] ++ 1 :: [] ++ [2]) ∧
      (([2] ++ [(threeTransfers.ed 0).tail]).head? = some 2 ∧ (threeTransfers.td 1).more = false ∧
        threeTransfers.hc.fmNumber ≠ 0xFFFF#16 ∧
        ptrOf (threeTransfers.physRead (edHeadAddr threeTransfers.params 0))
          ∈ [0].map (tdAddr threeTransfers.params)) :=
  ⟨queuesOk_of_check worldQueues (by decide +kernel), queueIs_of_check (by decide +kernel), by decide +kernel⟩

theorem witness_XferAbortCompletes_agrees :
    halted.hardwareAgrees 0 [] [0, 1, 2] ∧ threeTransfers.hardwareAgrees 0 [] [0, 1, 2] :=
  ⟨hardwareAgrees_of_check (by decide +kernel), hardwareAgrees_of_check (by decide +kernel)⟩

/-- The last TD of program 2's transfer on the done list, the other two finished before. -/
def lastDone : State :=
  { worldWith [(0x20001040, 0x00F00002#32), (0x20001048, 0#32), (0x20002084, 0x20001041#32)] with
    tdt := (worldStatus 0xC0000040#32 0xC0000040#32 0x40#32).tdt
    hc := { world.hc with interruptStatus := 0x2#32 } }

theorem witness_DqDrainCompletes :
    (world.quiet ∧ world.started = true ∧ world.wdhIn = false) ∧
    lastDone.queuesOk ∧ lastDone.queueIs 0 ([] ++ [0, 1] ++ ([] ++ [2]) ++ []) ∧
      (lastDone.quiet ∧ lastDone.params.legal = true ∧ lastDone.started = true ∧ lastDone.wdhIn = true ∧
        lastDone.validEd 0 = true ∧ (lastDone.td 2).owner = 0 ∧
        (∀ x ∈ ([] ++ [0, 1] : List Nat), (lastDone.td x).finished = true) ∧
        (lastDone.td 2).finished = false ∧ (∀ x ∈ ([0, 1] : List Nat), (lastDone.td x).more = true) ∧
        (lastDone.td 2).more = false ∧ lastDone.indexed 2 = true ∧
        (lastDone.physRead (tdAddr lastDone.params 2)).extractLsb' 0 16 = BitVec.ofNat 16 2 ∧
        ptrOf (lastDone.physRead (doneHeadAddr lastDone.params)) = tdAddr lastDone.params 2 ∧
        tdAddr lastDone.params 2 ≠ 0#32 ∧
        ptrOf (lastDone.physRead (tdAddr lastDone.params 2 + 8#32)) = 0#32 ∧
        lastDone.compq.length < lastDone.params.ntd) :=
  ⟨by decide +kernel, queuesOk_of_check worldQueues (by decide +kernel), queueIs_of_check (by decide +kernel),
    by decide +kernel⟩

/-- The address of the first TD of a list, or 0. -/
def firstAddr (p : Params) (l : List Nat) : Word :=
  match l with
  | [] => 0#32
  | t :: _ => tdAddr p t

/-- Each TD's `NextTD` leads to the next. -/
def linked (s : State) : List Nat → Bool
  | [] => true
  | t :: post => ptrOf (s.physRead (tdAddr s.params t + 8#32)) == firstAddr s.params post && linked s post

theorem linked_split {s : State} {ts : List Nat} (h : linked s ts = true) :
    ∀ pre t post, ts = pre ++ t :: post →
      ptrOf (s.physRead (tdAddr s.params t + 8#32)) = firstAddr s.params post := by
  intro pre
  induction pre generalizing ts with
  | nil =>
    intro t post he
    subst he
    simp only [linked, List.nil_append, Bool.and_eq_true, beq_iff_eq] at h
    exact h.1
  | cons a pre ih =>
    intro t post he
    subst he
    simp only [linked, List.cons_append, Bool.and_eq_true] at h
    exact ih h.2 t post rfl

/-- The done list of program 2, newest first. -/
def doneList : State :=
  worldWith [(0x20001048, 0x20001020#32), (0x20001028, 0x20001000#32), (0x20001008, 0#32)]

theorem witness_ReversalReverses :
    (doneList.sched = [] ∧ doneList.params.legal = true ∧ [2, 1, 0].Nodup ∧
      (∀ t ∈ [2, 1, 0], t < doneList.params.ntd ∧ tdAddr doneList.params t ≠ 0#32) ∧
      [2, 1, 0].length ≤ doneList.params.ntd) ∧
    ∀ pre t post, [2, 1, 0] = pre ++ t :: post →
      ptrOf (doneList.physRead (tdAddr doneList.params t + 8#32)) = firstAddr doneList.params post :=
  ⟨by decide +kernel, linked_split (by decide +kernel)⟩

/-- The whole transfer of program 2 on the done list, none of its TDs finished: `mids` are the TDs 0 and 1. -/
def allDone : State :=
  { worldWith [(0x20001000, 0x00F00000#32), (0x20001008, 0#32), (0x20001020, 0x00F00001#32),
      (0x20001028, 0x20001000#32), (0x20001040, 0x80F00002#32), (0x20001048, 0x20001020#32),
      (0x20002084, 0x20001041#32), (0x20000008, 0x20001061#32)] with
    hc := { world.hc with interruptStatus := 0x2#32 } }

theorem witness_DqDrainCompletes_list :
    allDone.queuesOk ∧ allDone.hardwareAgrees 0 [0, 1, 2] [] ∧
      (allDone.queueCheck 0 ([] ++ [] ++ ([0, 1] ++ [2]) ++ []) = true ∧
        (∀ x ∈ ([0, 1] ++ [2] : List Nat), (allDone.td x).finished = false ∧ allDone.indexed x = true ∧
          tdAddr allDone.params x ≠ 0#32 ∧
          (allDone.physRead (tdAddr allDone.params x)).extractLsb' 0 16 = BitVec.ofNat 16 x) ∧
        (∀ x ∈ ([] ++ [0, 1] : List Nat), (allDone.td x).more = true) ∧ (allDone.td 2).more = false ∧
        (∀ x ∈ ([0, 1] : List Nat), (allDone.physRead (tdAddr allDone.params x)).extractLsb' 28 4 = 0#4) ∧
        ptrOf (allDone.physRead (doneHeadAddr allDone.params)) = tdAddr allDone.params 2) ∧
      ∀ pre t post, [2, 1, 0] = pre ++ t :: post →
        ptrOf (allDone.physRead (tdAddr allDone.params t + 8#32)) = firstAddr allDone.params post :=
  ⟨queuesOk_of_check worldQueues (by decide +kernel), hardwareAgrees_of_check (by decide +kernel),
    by decide +kernel, linked_split (by decide +kernel)⟩

/-- A done list of three TDs where there are two slots. -/
def longList : State :=
  { worldWith [(0x20001048, 0x20001020#32), (0x20001028, 0x20001000#32), (0x20002084, 0x20001041#32)] with
    params := { Params.tc with ntd := 2 }
    hc := { world.hc with interruptStatus := 0x2#32 } }

theorem witness_DqDrainCompletes_loop :
    longList.quiet ∧ longList.params.legal = true ∧ longList.started = true ∧ longList.wdhIn = true ∧
      ([1, 0].map (tdAddr longList.params)).length = longList.params.ntd ∧
      ([2, 1, 0].map (tdAddr longList.params)).Nodup ∧
      ([2, 1, 0].map (tdAddr longList.params)).all (fun a => a != 0#32 && ptrOf a == a) = true ∧
      ptrOf (longList.physRead (doneHeadAddr longList.params)) = tdAddr longList.params 2 ∧
      ptrOf (longList.physRead (tdAddr longList.params 2 + 8#32)) = tdAddr longList.params 1 ∧
      ptrOf (longList.physRead (tdAddr longList.params 1 + 8#32)) = tdAddr longList.params 0 := by decide +kernel

theorem witness_IndexResolves :
    world.params.corrMode = .index ∧ world.params.ntd ≤ ((0x20#32).extractLsb' 0 16).toNat ∧
      ((0x1F#32).extractLsb' 0 16).toNat < world.params.ntd ∧ world.indexed 31 = false ∧
      world.indexed 2 = true ∧ tdAddr world.params 2 = 0x20001040#32 := by decide +kernel

/-- The world with the scan. -/
def scanning : State := { world with params := { Params.tc with corrMode := .scan } }

/-- TD 2 is found at its address; no TD of a queue lies at the placeholder's. -/
theorem witness_IndexResolves_scan :
    scanning.queuesOk ∧
      (scanning.params.corrMode = .scan ∧ scanning.params.legal = true ∧
        scanning.validEd (scanning.td 2).owner = true ∧ (scanning.td 2).alloc = true ∧
        2 ≠ (scanning.ed (scanning.td 2).owner).tail ∧ tdAddr scanning.params 2 = 0x20001040#32) ∧
      ∀ t, ¬ (scanning.validEd (scanning.td t).owner = true ∧ (scanning.td t).alloc = true ∧
        t ≠ (scanning.ed (scanning.td t).owner).tail ∧ tdAddr scanning.params t = 0x20001060#32) := by
  refine ⟨queuesOk_of_check worldQueues (by decide +kernel), by decide +kernel, fun t h => ?_⟩
  have all : scanning.tdt.all (fun p => p.1 == (scanning.ed (scanning.td p.1).owner).tail
    || tdAddr scanning.params p.1 != 0x20001060#32) = true := by decide +kernel
  have := List.all_eq_true.1 all _ (mem_tdt h.2.1)
  simp [h.2.2.1, h.2.2.2] at this

/-- The first unfinished TD of a queue, one behind it, and a finished one. -/
theorem witness_IndexResolves_process :
    world.queueIs 0 [0, 1, 2] ∧
      ((world.td 0).owner = 0 ∧ [0, 1, 2] ++ [(world.ed 0).tail] = [] ++ 0 :: [1, 2, 3] ∧
        (world.td 0).finished = false ∧ (world.td 0).more = true ∧ (world.td 1).finished = false ∧ 0 ≠ 1 ∧
        (finishedWorld.td 0).finished = true) :=
  ⟨queueIs_of_check (by decide +kernel), by decide +kernel⟩

/-- The first TD of the transfer ends it; and the second of three transfers, with one left behind it. -/
theorem witness_UnwindFreesTheRest :
    world.queuesOk ∧ world.queueIs 0 ([] ++ 0 :: [1, 2] ++ []) ∧
      (world.sched = [] ∧ world.params.legal = true ∧ world.validEd 0 = true ∧
        ([] ++ [(world.ed 0).tail]).head? = some 3 ∧
        (∀ x ∈ ([1, 2] : List Nat).dropLast, (world.td x).more = true)) ∧
      ((worldStatus 0x40000040#32 0x40#32 0x40#32).queueIs 0 ([] ++ 0 :: [1] ++ [2]) ∧
        ([1].getLast? = some 1 ∧ ((worldStatus 0x40000040#32 0x40#32 0x40#32).td 1).more = false)) :=
  ⟨queuesOk_of_check worldQueues (by decide +kernel), queueIs_of_check (by decide +kernel), by decide +kernel,
    queueIs_of_check (by decide +kernel), by decide +kernel⟩

/-- TD 0 ended its transfer early; the HC stands at TD 1. -/
theorem witness_UnwindFreesTheRest_agrees : shortPacket.hardwareAgrees 0 ([] ++ [0]) ([1, 2] ++ []) :=
  hardwareAgrees_of_check (by decide +kernel)

/-- A world whose automatic drain is enabled. -/
theorem witness_AutoDrainBookkeeping :
    world.quiet ∧ world.autoDrain = false ∧
      ∃ t, step { lastDone with autoDrain := true } = .next t ∧ (!t.wdhIn) = true :=
  ⟨by decide +kernel, by decide +kernel, next_of_after (by decide +kernel)⟩

/-- CflushCompletes and CinvalCompletes, at the end of the address space and past it. -/
theorem witness_CflushCompletes :
    world.quiet ∧ world.params.legal = true ∧ 2 ^ 32 < (0xFFFFFFF0#32).toNat + (0x11#32).toNat ∧
      (0xFFFFFFF0#32).toNat + (0x10#32).toNat ≤ 2 ^ 32 := by decide +kernel

theorem witness_CinvalCompletes :
    world.quiet ∧ world.params.legal = true ∧ 2 ^ 32 < (0xFFFFFFFF#32).toNat + (0x2#32).toNat ∧
      (0xFFFFFFFF#32).toNat + (0x1#32).toNat ≤ 2 ^ 32 := by decide +kernel

end Sys2Proof.Tests
end

section
/-! SUPPORT. Properties that survive every update of the block's own state: what such a property must
survive (`Updates`), and that every command, every continuation of a frame wait and the drain then keep it.
With `step_keeps_of_updates` an invariant over every schedule is one `Carried` and one `Updates`. -/

namespace Sys2Proof.Machine

variable {α β : Type} {P : State → Prop} {A : Move → Prop}

/-! ### Pieces put together -/

theorem keeps_ite {c : Prop} [Decidable c] {x y : Cmd α} (hx : Keeps P x) (hy : Keeps P y) :
    Keeps P (if c then x else y) := by
  split
  · exact hx
  · exact hy

/-- A piece run on a condition only, before the rest: the shape of `if c then x` in a `do` block. -/
theorem keeps_when {c : Prop} [Decidable c] {x : Cmd Unit} {f : Unit → Cmd β} (hx : Keeps P x)
    (hf : ∀ a, Keeps P (f a)) : Keeps P (if c then x >>= f else f ()) :=
  keeps_ite (keeps_bind hx hf) (hf ())

/-- The same where two pieces, the second built on the first, come before the rest. -/
theorem keeps_whenThen {c : Prop} [Decidable c] {x : Cmd α} {y : α → Cmd Unit} {f : Unit → Cmd β}
    (hx : Keeps P x) (hy : ∀ a, Keeps P (y a)) (hf : ∀ a, Keeps P (f a)) :
    Keeps P (if c then x >>= fun a => y a >>= f else f ()) :=
  keeps_ite (keeps_bind hx fun a => keeps_bind (hy a) hf) (hf ())

/-- What was read of the state has the property, for the updates that are computed from it later. -/
theorem keeps_read {f : State → Cmd β} (h : ∀ s, P s → Keeps P (f s)) : Keeps P (get >>= f) :=
  keeps_get_bind fun s hs => h s hs s hs

theorem keeps_set {s' : State} (h : P s') : Keeps P (set s' : Cmd PUnit) := fun _ _ => h

/-! ### What a property must survive -/

/-- `P` survives the bookkeeping and each update a command makes of the block's own state. -/
structure Updates (P : State → Prop) : Prop extends Booked P where
  start : ∀ s, P s → P { s with started := true }
  lock : ∀ s, P s → P { s with plock := true }
  setEd : ∀ s e v, P s → P (s.setEd e v)
  setTd : ∀ s t v, P s → P (s.setTd t v)
  setIndexed : ∀ s t v, P s → P (s.setIndexed t v)
  setList : ∀ s k l, P s → P (s.setList k l)
  fault : ∀ s c i, P s → P (s.logFault c i)
  record : ∀ s r, s.compq.length < s.params.compDepth → P s → P { s with compq := s.compq ++ [r] }

namespace Updates

theorem freeTd (u : Updates P) {s : State} (t : Nat) (h : P s) : P (s.freeTd t) :=
  u.setIndexed _ t _ (u.setTd s t _ h)

theorem freeTds (u : Updates P) {s : State} (ts : List Nat) (h : P s) : P (s.freeTds ts) :=
  List.foldlRecOn ts _ h fun _ h t _ => u.freeTd t h

theorem freeEd (u : Updates P) {s : State} (e : Nat) (h : P s) : P (s.freeEd e) := u.setEd s e _ h

theorem unwindGroup (u : Updates P) {s : State} (j : Nat) (grp : List Nat) (after : Nat) (h : P s) :
    P (s.unwindGroup j grp after) := u.setTd _ j _ (u.freeTds grp h)

theorem cutGroup (u : Updates P) {s : State} (e : Nat) (before grp : List Nat) (after : Nat) (h : P s) :
    P (s.cutGroup e before grp after) := by
  unfold State.cutGroup
  split
  · exact u.setEd _ e _ (u.freeTds grp h)
  · exact u.setTd _ _ _ (u.freeTds grp h)

theorem keeps_logFault (u : Updates P) (c : FaultCode) (i : Word) : Keeps P (logFault c i) :=
  keeps_modify fun s h => u.fault s c i h

/-! ### The lists and the tree (40_endpoint.md R212 to R214, 41_scheduler.md R256, R259) -/

theorem keeps_classInsert (c : Carried A P) (u : Updates P) (k e : Nat) : Keeps P (classInsert k e) := by
  refine keeps_read fun s _ => keeps_bind (c.keeps_classDisable k) fun was => ?_
  dsimp only
  split
  · exact keeps_bind (c.keeps_mmioWrite _ _) fun _ =>
      keeps_bind (keeps_modify fun s h => u.setEd _ e _ (u.setList s k _ h)) fun _ => c.keeps_classRestore k was
  · exact keeps_bind (c.keeps_rmw _ _) fun _ =>
      keeps_bind (keeps_modify fun s h => u.setEd _ e _ (u.setList s k _ h)) fun _ => c.keeps_classRestore k was

theorem keeps_classRemove (c : Carried A P) (u : Updates P) (k e : Nat) : Keeps P (classRemove k e) := by
  refine keeps_read fun s _ => keeps_bind (keeps_orStop _ _) fun i =>
    keeps_bind (c.keeps_classDisable k) fun was => ?_
  refine keeps_ite (keeps_bind (c.keeps_mmioWrite _ _) ?rest) (keeps_bind (c.keeps_rmw _ _) ?rest)
  exact fun _ => keeps_bind (keeps_modify fun s h => u.setList s k _ h) fun _ => c.keeps_classRestore k was

theorem keeps_periodicInsert (c : Carried A P) (u : Updates P) (x : Nat) : Keeps P (periodicInsert x) := by
  refine keeps_read fun s _ => ?_
  dsimp only
  split
  · exact keeps_pure _
  · refine keeps_bind (keeps_modify u.lock) fun _ => keeps_bind (c.keeps_memWrite _ _) fun _ =>
      keeps_bind (c.keeps_flush _ _) fun _ => ?_
    split
    · exact keeps_bind (c.keeps_rmw _ _) fun _ => keeps_bind
        (keeps_modify fun s h => u.unlocked _ (u.setEd _ x _ (u.setList s _ _ h))) fun _ => keeps_pure _
    · exact keeps_bind (c.keeps_repoint _ _ _ _ _) fun _ => keeps_bind
        (keeps_modify fun s h => u.unlocked _ (u.setEd _ x _ (u.setList s _ _ h))) fun _ => keeps_pure _

theorem keeps_periodicRemove (c : Carried A P) (u : Updates P) (x : Nat) : Keeps P (periodicRemove x) := by
  refine keeps_read fun s _ => keeps_bind (keeps_orStop _ _) fun i =>
    keeps_bind (keeps_modify u.lock) fun _ => ?_
  refine keeps_ite (keeps_bind (c.keeps_rmw _ _) ?rest) (keeps_bind (c.keeps_repoint _ _ _ _ _) ?rest)
  exact fun _ => keeps_modify fun s h => u.unlocked _ (u.setList s _ _ h)

theorem keeps_linkEndpoint (c : Carried A P) (u : Updates P) (e : Nat) (t : EdType) :
    Keeps P (linkEndpoint e t) := by
  cases t with
  | control => exact keeps_bind (u.keeps_classInsert c 63 e) fun _ => keeps_pure _
  | bulk => exact keeps_bind (u.keeps_classInsert c 64 e) fun _ => keeps_pure _
  | interrupt => exact u.keeps_periodicInsert c e

theorem keeps_unlinkEndpoint (c : Carried A P) (u : Updates P) (e : Nat) (t : EdType) :
    Keeps P (unlinkEndpoint e t) := by
  cases t with
  | control => exact u.keeps_classRemove c 63 e
  | bulk => exact u.keeps_classRemove c 64 e
  | interrupt => exact u.keeps_periodicRemove c e

/-! ### The drain (43_done_queue.md) -/

theorem keeps_drainFault (u : Updates P) (n : Tally) (code : FaultCode) (i : Word) :
    Keeps P (drainFault n code i) := keeps_bind (u.keeps_logFault code i) fun _ => keeps_pure _

theorem keeps_resolve (u : Updates P) (n : Tally) (a w : Word) : Keeps P (resolve n a w) := by
  have lost : ∀ code, Keeps P (do return ((none : Option Nat), ← drainFault n code a)) := fun code =>
    keeps_bind (u.keeps_drainFault n code a) fun _ => keeps_pure _
  refine keeps_read fun s _ => ?_
  split
  · exact keeps_ite (lost _) (keeps_ite (lost _) (keeps_pure _))
  · refine keeps_bind (keeps_orStop _ _) fun found => ?_
    cases found with
    | some t => exact keeps_pure _
    | none => exact lost _

theorem keeps_post (u : Updates P) (n : Tally) (e g : Nat) (cc : BitVec 4) : Keeps P (post n e g cc) :=
  keeps_read fun s hs => by
    split
    · rename_i room
      exact keeps_bind (keeps_set (u.raised _ _ (u.record s _ room hs))) fun _ => keeps_pure _
    · exact u.keeps_drainFault n _ _

theorem keeps_unwind (c : Carried A P) (u : Updates P) (e j : Nat) (cc : BitVec 4) :
    Keeps P (unwind e j cc) :=
  keeps_read fun _ hs => keeps_bind (keeps_orStop _ _) fun _ => keeps_bind (keeps_orStop _ _) fun _ =>
    keeps_bind (keeps_set (u.unwindGroup j _ _ hs)) fun _ => keeps_bind (c.keeps_inval _ _) fun _ =>
      keeps_bind (c.keeps_memRead _) fun _ => keeps_bind (c.keeps_memWrite _ _) fun _ =>
        keeps_whenThen (c.keeps_memRead _) (fun _ => c.keeps_memWrite _ _) fun _ =>
          keeps_bind (c.keeps_flush _ _) fun _ => keeps_ite (c.keeps_listFilled _) (keeps_pure _)

theorem keeps_process (c : Carried A P) (u : Updates P) (n : Tally) (t : Nat) (cc : BitVec 4) :
    Keeps P (process n t cc) := by
  refine keeps_read fun s hs => keeps_ite (u.keeps_drainFault n _ _) <|
    keeps_bind (keeps_orStop _ _) fun _ => keeps_ite (u.keeps_drainFault n _ _) <|
      keeps_bind (keeps_set (u.setTd s t _ hs)) fun _ => ?_
  refine keeps_ite (keeps_ite (keeps_pure _) (keeps_bind (u.keeps_unwind c _ t cc) ?report)) (?report ())
  exact fun _ => keeps_read fun _ _ => keeps_bind (keeps_orStop _ _) fun _ => u.keeps_post n _ _ cc

theorem keeps_visitDone (c : Carried A P) (u : Updates P) (n : Tally) (a w : Word) :
    Keeps P (visitDone n a w) := by
  refine keeps_bind (u.keeps_resolve _ a w) fun r => ?_
  split
  · exact keeps_pure _
  · exact u.keeps_process c _ _ _

theorem keeps_forwardDone (c : Carried A P) (u : Updates P) (fuel : Nat) (n : Tally) (a : Word) :
    Keeps P (forwardDone fuel n a) := by
  induction fuel generalizing n a with
  | zero => exact keeps_pure _
  | succ fuel ih =>
    exact keeps_ite (keeps_pure _) <| keeps_bind (c.keeps_memRead _) fun _ =>
      keeps_bind (c.keeps_memRead _) fun _ => keeps_bind (u.keeps_visitDone c n a _) fun _ => ih _ _

theorem keeps_drain (c : Carried A P) (u : Updates P) : Keeps P drain := by
  refine keeps_bind (c.keeps_mmioRead _) fun _ => keeps_ite ?_ (keeps_pure _)
  refine keeps_read fun _ _ => keeps_bind (c.keeps_inval _ _) fun _ => keeps_bind (c.keeps_memRead _) fun _ =>
    keeps_bind (c.keeps_reverseDone _ _ _) fun first => ?_
  have clearWdh : ∀ n, Keeps P (do mmioWrite 0x0C wdhBit; return n : Cmd Tally) := fun n =>
    keeps_bind (c.keeps_mmioWrite _ _) fun _ => keeps_pure n
  cases first with
  | none => exact keeps_bind (u.keeps_drainFault _ _ _) clearWdh
  | some a => exact keeps_bind (u.keeps_forwardDone c _ _ a) clearWdh

/-! ### After the frame wait (10_state.md R38) -/

theorem keeps_quiesceRest (q : Quiesced) : Keeps P (quiesceRest q) := by
  cases q with
  | timeout => exact keeps_raise _
  | already => exact keeps_pure _
  | ok => exact keeps_pure _

theorem keeps_closeRest (c : Carried A P) (u : Updates P) (e : Nat) (q : Quiesced) :
    Keeps P (closeRest e q) := by
  unfold closeRest
  exact keeps_when (keeps_raise _) fun _ => keeps_read fun _ _ =>
    keeps_bind (u.keeps_unlinkEndpoint c e _) fun _ => keeps_read fun _ hs =>
      keeps_bind (keeps_orStop _ _) fun _ => keeps_bind (keeps_set (u.freeEd e (u.freeTds _ hs))) fun _ =>
        keeps_pure _

theorem keeps_abortRest (c : Carried A P) (u : Updates P) (e t : Nat) (q : Quiesced) :
    Keeps P (abortRest e t q) := by
  unfold abortRest
  exact keeps_when (keeps_raise _) fun _ => keeps_read fun _ _ => keeps_bind (keeps_orStop _ _) fun _ =>
    keeps_when (u.keeps_logFault _ _) fun _ => keeps_bind (c.keeps_inval _ _) fun _ =>
      keeps_bind (c.keeps_memRead _) fun _ => keeps_read fun _ hs => keeps_bind (keeps_orStop _ _) fun _ =>
        keeps_bind (keeps_set (u.cutGroup e _ _ _ hs)) fun _ =>
          keeps_bind (c.keeps_relink _ _ _ _ _) fun _ => keeps_bind (c.keeps_clearHalt _ _) fun _ =>
            keeps_pure _

theorem keeps_afterWait (c : Carried A P) (u : Updates P) (k : Cont) (q : Quiesced) :
    Keeps P (afterWait k q) := by
  cases k with
  | quiesce e => exact keeps_quiesceRest q
  | close e => exact u.keeps_closeRest c e q
  | abort e t => exact u.keeps_abortRest c e t q

/-! ### The commands -/

theorem keeps_schedStartBody (c : Carried A P) (u : Updates P) (args : Args) :
    Keeps P (schedStartBody args) :=
  keeps_read fun _ _ => keeps_bind (c.keeps_memWrite _ _) fun _ => keeps_bind (c.keeps_memWrite _ _) fun _ =>
    keeps_bind (c.keeps_memWrite _ _) fun _ => keeps_bind (c.keeps_memWrite _ _) fun _ =>
      keeps_bind (c.keeps_flush _ _) fun _ => keeps_bind (c.keeps_fillTable _ _) fun _ =>
        keeps_bind (c.keeps_flush _ _) fun _ => keeps_bind (keeps_modify u.start) fun _ => keeps_pure _

theorem keeps_edOpenBody (c : Carried A P) (u : Updates P) (args : Args) : Keeps P (edOpenBody args) := by
  unfold edOpenBody
  refine keeps_when (keeps_raise _) fun _ => ?_
  split
  · exact keeps_raise _
  · refine keeps_read fun _ _ => ?_
    split
    · exact keeps_bind (keeps_modify fun s h => u.setTd _ _ _ (u.setEd s _ _ h)) fun _ =>
        keeps_bind (c.keeps_buildEndpoint _ _ _ _) fun _ => keeps_bind (u.keeps_linkEndpoint c _ _) fun _ =>
          keeps_whenThen (keeps_modify fun _ h => u.freeEd _ (u.freeTd _ h)) (fun _ => keeps_raise _) fun _ =>
            keeps_read fun _ _ => keeps_pure _
    · exact keeps_raise _

theorem keeps_tdQueueBody (c : Carried A P) (u : Updates P) (e : Nat) (more r : Bool) (di : BitVec 3)
    (dp : BitVec 2) (args : Args) : Keeps P (tdQueueBody e more r di dp args) := by
  refine keeps_bind (keeps_checkEd e) fun _ => keeps_when (keeps_raise _) fun _ => keeps_read fun _ _ => ?_
  split
  · exact keeps_raise _
  · exact keeps_bind (keeps_modify fun s h => u.setTd _ _ _ (u.setEd s _ _ h)) fun _ =>
      keeps_bind (c.keeps_writeTd _ _ _ _ _) fun _ => keeps_bind (c.keeps_flush _ _) fun _ =>
        keeps_bind (c.keeps_writeTd _ _ _ _ _) fun _ => keeps_bind (c.keeps_flush _ _) fun _ =>
          keeps_bind (keeps_modify fun s h => u.setEd _ _ _ (u.setIndexed _ _ _ (u.setTd s _ _ h))) fun _ =>
            keeps_bind (c.keeps_rmw _ _) fun _ => keeps_bind (c.keeps_listFilled _) fun _ => keeps_pure _

theorem keeps_xferCompleteBody (c : Carried A P) (u : Updates P) (e : Nat) (args : Args) :
    Keeps P (xferCompleteBody e args) := by
  refine keeps_bind (keeps_checkEd e) fun _ => keeps_read fun s _ => ?_
  split
  · exact keeps_raise _
  · refine keeps_whenThen (u.keeps_logFault _ _) (fun _ => keeps_raise _) fun _ =>
      keeps_bind (keeps_orStop _ _) fun check => ?_
    cases check with
    | unfinished t => exact keeps_bind (u.keeps_logFault _ _) fun _ => keeps_raise _
    | finished g after =>
      exact keeps_bind (c.keeps_readGroup _ _ _) fun _ =>
        keeps_bind (keeps_modify fun s h => u.setEd _ _ _ (u.freeTds _ h)) fun _ =>
          keeps_when (c.keeps_clearHalt _ _) fun _ => keeps_pure _

theorem keeps_xferAbortBody (c : Carried A P) (u : Updates P) (e : Nat) (args : Args) :
    Keeps P (xferAbortBody e args) := by
  refine keeps_bind (keeps_checkEd e) fun _ => keeps_read fun s _ => ?_
  split
  · exact keeps_raise _
  · exact keeps_when (keeps_raise _) fun _ => keeps_bind (c.keeps_quiesce _ _) fun q =>
      u.keeps_abortRest c e _ q

theorem keeps_bodyOf (c : Carried A P) (u : Updates P) (i : Instr) (args : Args) :
    Keeps P (bodyOf i args) := by
  cases i with
  | nop => exact keeps_pure _
  | schedStart => exact u.keeps_schedStartBody c args
  | edOpen => exact u.keeps_edOpenBody c args
  | edClose _ e =>
    exact keeps_bind (keeps_checkEd e) fun _ => keeps_bind (c.keeps_quiesce e _) fun q =>
      u.keeps_closeRest c e q
  | edSuspend _ e =>
    exact keeps_bind (keeps_checkEd e) fun _ => keeps_read fun _ _ => keeps_bind (c.keeps_rmw _ _) fun _ =>
      keeps_pure _
  | edResume _ e =>
    exact keeps_bind (keeps_checkEd e) fun _ => keeps_read fun _ _ => keeps_bind (c.keeps_rmw _ _) fun _ =>
      keeps_bind (c.keeps_listFilled _) fun _ => keeps_pure _
  | edClearHalt _ e clrtog =>
    exact keeps_bind (keeps_checkEd e) fun _ => keeps_bind (c.keeps_clearHalt e clrtog) fun _ => keeps_pure _
  | edQuiesce _ e =>
    exact keeps_bind (keeps_checkEd e) fun _ => keeps_bind (c.keeps_quiesce e _) keeps_quiesceRest
  | schedBitpos _ d n =>
    simp only [bodyOf, schedBitposBody]
    split
    · exact keeps_raise _
    · exact keeps_pure _
  | schedIdepth => exact keeps_read fun _ _ => keeps_pure _
  | schedLoad => exact keeps_read fun _ _ => keeps_ite (keeps_raise _) (keeps_pure _)
  | tdQueue _ e more r di dp => exact u.keeps_tdQueueBody c e more r di dp args
  | xferComplete _ e => exact u.keeps_xferCompleteBody c e args
  | xferAbort _ e => exact u.keeps_xferAbortBody c e args
  | ccClassify => exact keeps_pure _
  | dqDrain =>
    exact keeps_bind (u.keeps_drain c) fun _ => keeps_bind (keeps_modify fun s h => u.raised s _ h) fun _ =>
      keeps_pure _
  | cflush =>
    simp only [bodyOf, cflushBody]
    exact keeps_when (keeps_raise _) fun _ => keeps_read fun _ _ => keeps_bind (c.keeps_flush _ _) fun _ =>
      keeps_pure _
  | cinval =>
    simp only [bodyOf, cinvalBody]
    exact keeps_when (keeps_raise _) fun _ => keeps_read fun _ _ => keeps_bind (c.keeps_inval _ _) fun _ =>
      keeps_pure _

end Updates

/-- A property that survives the moves of the kind `A`, the accesses, the bookkeeping and the updates of the
block's own state is kept by every step. -/
theorem step_keeps_of_updates (c : Carried A P) (u : Updates P) {s t : State} (h : P s)
    (e : step s = .next t) : P t :=
  step_keeps c u.toBooked (u.keeps_bodyOf c) (u.keeps_afterWait c) (u.keeps_drain c) h e

end Sys2Proof.Machine
end

section
/-! SUPPORT. The two logs: the host can only pop them, the sequencer appends a record only where there is
room, a reset empties them (10_state.md R35, R36); and the parameters never change (00_scope.md R8). -/

namespace Sys2Proof.Machine

theorem logsBounded_iff {s : State} : s.logsBounded = true ↔
    s.compq.length ≤ s.params.compDepth ∧ s.flog.length ≤ s.params.faultDepth := by
  simp only [State.logsBounded, Bool.and_eq_true, decide_eq_true_eq]

/-! ### Updates that append no record -/

/-- The parameters are the same and neither log has grown. -/
structure LogsNotGrown (s t : State) : Prop where
  params : t.params = s.params
  compq : t.compq.length ≤ s.compq.length
  flog : t.flog.length ≤ s.flog.length

theorem LogsNotGrown.same {s t : State} (hp : t.params = s.params) (hc : t.compq = s.compq)
    (hf : t.flog = s.flog) : LogsNotGrown s t :=
  ⟨hp, by rw [hc], by rw [hf]⟩

/-- A host write pops a log at `COMP_POP` and `FAULT_POP`, and leaves both alone elsewhere. -/
theorem blockRegWrite_logs (s : State) (off : Nat) (v : Word) : LogsNotGrown s (blockRegWrite s off v) := by
  unfold blockRegWrite
  split
  · exact .same rfl rfl rfl
  · split <;> exact .same rfl rfl rfl
  · exact .same rfl rfl rfl
  · exact .same rfl rfl rfl
  · exact .same rfl rfl rfl
  · exact .same rfl rfl rfl
  · exact .same rfl rfl rfl
  · exact .same rfl rfl rfl
  · exact ⟨rfl, by simp, le_rfl⟩
  · exact ⟨rfl, le_rfl, by simp⟩
  · exact .same rfl rfl rfl

theorem hostMove_logs {m : HostMove} {s t : State} (h : hostMove m s = .ok t) : LogsNotGrown s t := by
  cases m with
  | blockRead off size =>
    simp only [hostMove] at h
    split at h
    · cases h; exact .same rfl rfl rfl
    · cases h
  | blockWrite off size v =>
    simp only [hostMove] at h
    split at h
    · cases h; exact blockRegWrite_logs s off.toNat v
    · cases h
  | hcRead off => cases h; exact .same rfl rfl rfl
  | hcWrite off v =>
    cases h
    split <;> exact .same rfl rfl rfl
  | memRead a =>
    cases h
    split
    · exact .same rfl rfl rfl
    · obtain ⟨k, e⟩ := touch_shape s a.toNat
      rw [e]
      exact .same rfl rfl rfl
  | memWrite a b =>
    cases h
    split
    · exact .same rfl rfl rfl
    · obtain ⟨w, k, e⟩ := cacheStoreByte_shape s a.toNat b
      rw [e]
      exact .same rfl rfl rfl

theorem otherMove_logs {m : Move} {s t : State} (h : otherMove m s = .on t) : LogsNotGrown s t := by
  cases m with
  | block => cases h; exact .same rfl rfl rfl
  | timer => cases h; exact .same rfl rfl rfl
  | reset => cases h
  | hc m =>
    cases h
    obtain ⟨w, c, e⟩ := hcMove_shape m s
    rw [e]
    exact .same rfl rfl rfl
  | cache m =>
    cases h
    obtain ⟨w, k, c, e⟩ := cacheMove_shape m s
    rw [e]
    exact .same rfl rfl rfl
  | host m =>
    simp only [otherMove] at h
    split at h
    · rename_i e
      cases h
      exact hostMove_logs e
    · cases h

/-! ### The invariant -/

/-- The parameters are `p`; and, where the logs began within their capacities, they are within them. -/
def LogsWithin (p : Params) (began : Prop) (s : State) : Prop :=
  s.params = p ∧ (began → s.logsBounded = true)

variable {p : Params} {began : Prop}

theorem LogsWithin.notGrown {s t : State} (h : LogsWithin p began s) (g : LogsNotGrown s t) :
    LogsWithin p began t := by
  refine ⟨g.params.trans h.1, fun hb => ?_⟩
  obtain ⟨hc, hf⟩ := logsBounded_iff.1 (h.2 hb)
  exact logsBounded_iff.2 (by rw [g.params]; exact ⟨g.compq.trans hc, g.flog.trans hf⟩)

/-- A completion record is appended where there is room for it (43_done_queue.md R362). -/
theorem LogsWithin.record {s : State} {r : CompRec} (room : s.compq.length < s.params.compDepth)
    (h : LogsWithin p began s) : LogsWithin p began { s with compq := s.compq ++ [r] } := by
  refine ⟨h.1, fun hb => ?_⟩
  obtain ⟨_, hf⟩ := logsBounded_iff.1 (h.2 hb)
  exact logsBounded_iff.2 ⟨by simpa using room, hf⟩

/-- A fault record is appended where there is room for it, and lost where there is none
(60_exceptions.md R456). -/
theorem LogsWithin.logFault {s : State} (c : FaultCode) (i : Word) (h : LogsWithin p began s) :
    LogsWithin p began (s.logFault c i) := by
  by_cases room : s.flog.length < s.params.faultDepth
  · refine ⟨h.1, fun hb => ?_⟩
    obtain ⟨hc, _⟩ := logsBounded_iff.1 (h.2 hb)
    exact logsBounded_iff.2 ⟨hc, by simpa [(logFault_room s room).1] using room⟩
  · exact h.notGrown (.same rfl rfl (logFault_full s room).1)

/-- No move of another agent and no access of the block appends a record; a reset empties both logs. -/
theorem logsWithin_carried : Carried (fun _ => True) (LogsWithin p began) where
  moves _ _ _ _ := trivial
  seq _ _ h := h.notGrown (.same rfl rfl rfl)
  sched _ _ _ h := h.notGrown (.same rfl rfl rfl)
  move _ _ _ _ e h := h.notGrown (otherMove_logs e)
  reset _ _ h := h.notGrown ⟨rfl, Nat.zero_le _, Nat.zero_le _⟩
  touched s a h := by
    obtain ⟨k, e⟩ := touch_shape s a
    exact h.notGrown (by rw [e]; exact .same rfl rfl rfl)
  stored s a v h := by
    obtain ⟨w, k, e⟩ := cacheStore_shape s a v
    exact h.notGrown (by rw [e]; exact .same rfl rfl rfl)
  flushed s b h := by
    obtain ⟨w, k, c, ms, _, e⟩ := flushLine_shape s b
    exact h.notGrown (by rw [e]; exact .same rfl rfl rfl)
  invalidated s b h := by
    obtain ⟨k, e⟩ := invalLine_shape s b
    exact h.notGrown (by rw [e]; exact .same rfl rfl rfl)
  mmio _ _ _ h := h.notGrown (.same rfl rfl rfl)

/-- Of the block's own updates only a completion and a developer fault append a record. -/
theorem logsWithin_updates : Updates (LogsWithin p began) where
  lost _ _ h := h.notGrown (.same rfl rfl rfl)
  ended _ _ h := h.notGrown (.same rfl rfl rfl)
  results _ _ h := h.notGrown (.same rfl rfl rfl)
  raised _ _ h := h.notGrown (.same rfl rfl rfl)
  unlocked _ h := h.notGrown (.same rfl rfl rfl)
  start _ h := h.notGrown (.same rfl rfl rfl)
  lock _ h := h.notGrown (.same rfl rfl rfl)
  setEd _ _ _ h := h.notGrown (.same rfl rfl rfl)
  setTd _ _ _ h := h.notGrown (.same rfl rfl rfl)
  setIndexed _ _ _ h := h.notGrown (.same rfl rfl rfl)
  setList _ _ _ h := h.notGrown (.same rfl rfl rfl)
  fault _ c i := .logFault c i
  record _ _ := .record

/-- Settles O10: `LogsWithin` is carried by the moves and accesses and survives every update of the block's own
state, so every step keeps it, over every schedule. -/
theorem logsBoundedKept : Obligations.LogsBoundedKept := by
  intro s t e
  have within : LogsWithin s.params (s.logsBounded = true) s := ⟨rfl, id⟩
  exact step_keeps_of_updates logsWithin_carried logsWithin_updates within e

end Sys2Proof.Machine
end

section
/-! SUPPORT. The block's registers and logs as the host reads and writes them (10_state.md R20 to R29, R36), the
values of a reset (R43), and the command a host write runs (R24). -/

namespace Sys2Proof

open Machine

/-! ### The command a word stands for -/

/-- Every operand the decoder reads fits its field (30_encoding.md R141). -/
theorem fitsByte_toNat (b : BitVec 8) : fitsByte b.toNat = true := by
  simpa [fitsByte] using b.isLt

theorem whenZero_ok {c : Bool} {i j : Instr} (h : whenZero c i = .ok j) : j = i := by
  cases c <;> cases h
  rfl

/-- A word that decodes gives a well-formed command. -/
theorem wf_of_decode {w : Word} {i : Instr} (h : decode w = .ok i) : i.wf = true := by
  unfold decode at h
  dsimp only at h
  split at h
  case h_19 => cases h
  all_goals
    cases whenZero_ok h
    simp [Instr.wf, fitsByte_toNat]

namespace Machine

@[simp] theorem commandWord_commandMove (w : Word) : commandWord (commandMove w) = some w := rfl

theorem runWord_ok {w : Word} {i : Instr} (h : decode w = .ok i) (s : State) : runWord w s = exec i s := by
  simp only [runWord, h]

/-- An idle block whose next move is a write of a command word runs it, the schedule past the write. -/
theorem step_command {s : State} {ms : List Move} {w : Word} (hi : s.seq = .idle)
    (hs : s.sched = commandMove w :: ms) : step s = runWord w { s with sched := ms } := by
  simp only [step, hi, idleStep, hs, commandWord_commandMove]

/-- A busy block drops a command (10_state.md R24; log 22). -/
theorem exec_busy {s : State} (h : s.seq.busy = true) (i : Instr) : exec i s = .next { s with cmdLost := true } := by
  rw [exec_eq, runCommand_busy h]

/-- Settles O5: a write of `CMD` next is what `step_command` runs, and a busy block drops the command. -/
theorem stepRunsCommand : Obligations.StepRunsCommand := by
  refine ⟨fun s ms w i hi hs hd => ⟨wf_of_decode hd, ?_⟩, fun s w i hd => ?_, fun i w s hb => ⟨exec_busy hb i, ?_⟩⟩
  · rw [step_command hi hs, runWord_ok hd]
  · have hw : BitVec.ofNat 32 (w.toNat % 2 ^ 32) = w := by rw [Nat.mod_eq_of_lt w.isLt, BitVec.ofNat_toNat]; simp
    rw [step_command (s := s.withFetchWord 32 w.toNat) rfl rfl, hw, runWord_ok hd]
    rfl
  · have : (0x0C#8).toNat = 0x0C := rfl
    simp [hostMove, alignedWordAccess, blockRegWrite, hb]

/-! ### The values of a reset -/

/-- No read register but `ID` holds anything after reset (10_state.md R43). -/
theorem blockRegRead_reset (off : Nat) :
    blockRegRead State.reset off = if off = 0 then 0x50540001#32 else 0#32 := by
  unfold blockRegRead
  split
  case h_1 => rfl
  case h_19 h0 _ _ _ _ _ _ _ _ _ _ _ _ _ _ _ _ _ => rw [if_neg h0]
  all_goals rfl

/-- Settles O17: the registers by `blockRegRead_reset`, the tables because an empty one reads as its default. -/
theorem resetValues : Obligations.ResetValues := by
  refine ⟨fun off _ => ?_, fun _ => rfl, fun _ => rfl, fun _ => rfl, fun _ => rfl, rfl, rfl, rfl, rfl, rfl, rfl⟩
  rw [blockRegRead_reset]
  by_cases h : off = 0#8
  · simp [h]
  · rw [if_neg h, if_neg (show off.toNat ≠ 0 from fun e => h (BitVec.eq_of_toNat_eq e))]

theorem alloc_reset (e : Nat) : (State.reset.ed e).alloc ≠ true := Bool.false_ne_true

theorem placed_reset : State.reset.placed where
  member _ _ h := absurd h List.not_mem_nil
  listed e h := absurd h (alloc_reset e)
  once _ := List.nodup_nil

theorem queuesOk_reset : State.reset.queuesOk where
  shaped e h := absurd h (alloc_reset e)
  onQueue _ h := absurd h Bool.false_ne_true
  indexOwned _ h := absurd h Bool.false_ne_true
  waiting := trivial

/-- Settles O16: the tables, the logs and the cache are empty, and the block is idle. -/
theorem invariantsAtReset : Obligations.InvariantsAtReset :=
  ⟨rfl, rfl, rfl, rfl, placed_reset, queuesOk_reset, fun e _ h => absurd h (alloc_reset e),
    fun e h => absurd h (alloc_reset e), rfl, rfl, rfl, rfl⟩

/-! ### The registers -/

/-- A write of an offset that holds no register the host may write changes nothing (R20). -/
theorem blockRegWrite_reserved {s : State} {off : Nat} (v : Word)
    (h : off ∉ [0x04, 0x0C, 0x10, 0x14, 0x18, 0x1C, 0x30, 0x34, 0x44, 0x54]) : blockRegWrite s off v = s := by
  unfold blockRegWrite
  split
  case h_11 => rfl
  all_goals exact absurd (by decide) h

/-- A read of an offset that holds no register the host may read returns 0 (R20). -/
theorem blockRegRead_reserved {s : State} {off : Nat}
    (h : off ∉ [0x00, 0x04, 0x08, 0x10, 0x14, 0x18, 0x1C, 0x20, 0x24, 0x28, 0x30, 0x34, 0x38, 0x3C, 0x40, 0x48,
      0x4C, 0x50]) : blockRegRead s off = 0#32 := by
  unfold blockRegRead
  split
  case h_19 => rfl
  all_goals exact absurd (by decide) h

theorem hostMove_blockRead {s : State} {off : BitVec 8} (h : off.toNat % 4 = 0) :
    hostMove (.blockRead off 4) s = .ok { s with hostData := blockRegRead s off.toNat } := by
  simp [hostMove, alignedWordAccess, h]

theorem hostMove_blockWrite {s : State} {off : BitVec 8} (h : off.toNat % 4 = 0) (v : Word) :
    hostMove (.blockWrite off 4 v) s = .ok (blockRegWrite s off.toNat v) := by
  simp [hostMove, alignedWordAccess, h]

/-! ### `STATUS`, `ISR` and `IRQ` -/

/-- A bit of `STATUS`: its five flags, three zeros, `ERR`, zeros (R23). -/
theorem status_getLsbD (s : State) (k : Nat) : s.status.getLsbD k =
    if k = 0 then s.seq.busy else if k = 1 then s.started else if k = 2 then s.seq.waiting
    else if k = 3 then s.faultOvf else if k = 4 then s.cmdLost
    else if 8 ≤ k ∧ k < 16 then s.err.code.getLsbD (k - 8) else false := by
  simp only [State.status, BitVec.getLsbD_append, BitVec.getLsbD_ofBool, BitVec.getLsbD_zero]
  rcases k with _ | _ | _ | _ | _ | k
  · simp
  · simp
  · simp
  · simp
  · simp
  · by_cases h3 : k < 3
    · simp [h3]
    · by_cases h8 : k < 11
      · simp [h3, show k - 3 < 8 by omega, show 3 ≤ k by omega, show k + 5 < 16 by omega]
      · simp [show ¬ k - 3 < 8 by omega, show ¬ k + 5 < 16 by omega]

theorem status_reserved (s : State) :
    s.status.extractLsb' 5 3 = 0#3 ∧ s.status.extractLsb' 16 16 = 0#16 := by
  constructor <;> apply BitVec.eq_of_getLsbD_eq <;> intro k hk <;>
    rw [BitVec.getLsbD_extractLsb', status_getLsbD, if_neg (by omega), if_neg (by omega), if_neg (by omega),
      if_neg (by omega), if_neg (by omega), if_neg (by omega), Bool.and_false, BitVec.getLsbD_zero]

theorem status_err (s : State) : s.status.extractLsb' 8 8 = s.err.code := by
  apply BitVec.eq_of_getLsbD_eq
  intro k hk
  rw [BitVec.getLsbD_extractLsb', status_getLsbD, if_neg (by omega), if_neg (by omega), if_neg (by omega),
    if_neg (by omega), if_neg (by omega), if_pos (by omega), Nat.add_sub_cancel_left, decide_eq_true hk,
    Bool.true_and]

/-- `IRQ` is 1 exactly where an enabled `ISR` bit is set (R28). -/
theorem irq_iff (s : State) : s.irq = true ↔ ∃ k < 4, s.isr.getLsbD k = true ∧ s.ier.getLsbD k = true := by
  have zero : s.isr &&& s.ier = 0#4 ↔ ∀ k < 4, (s.isr.getLsbD k && s.ier.getLsbD k) = false := by
    rw [BitVec.eq_of_getLsbD_eq_iff]
    simp
  simp only [State.irq, bne_iff_ne, ne_eq, zero, not_forall, exists_prop, Bool.not_eq_false, Bool.and_eq_true]

/-- Settles O19: the offsets that hold a register by their equation, the others by `blockRegRead_reserved` and
`blockRegWrite_reserved`. -/
theorem statusAndInterruptRegisters : Obligations.StatusAndInterruptRegisters := by
  intro s v
  refine ⟨rfl, status_getLsbD s 0, status_getLsbD s 1, status_getLsbD s 2, status_getLsbD s 3, status_getLsbD s 4, (status_reserved s).1, (status_reserved s).2, ?_, ?_, ?_, rfl, rfl, irq_iff s,
    rfl, rfl, ?_, rfl, rfl, rfl, rfl, rfl, rfl, rfl, rfl, rfl, rfl, rfl, ?_, ?_,
    fun off h => ⟨hostMove_blockRead h, hostMove_blockWrite h v⟩⟩
  · rw [status_err]
    intro p hp he
    rw [he]
    clear he
    revert p
    decide
  · refine ⟨_, rfl, fun k hk => ?_⟩
    simp [hk]
  · rfl
  · show (BitVec.ofBool s.autoDrain).setWidth 32 = _
    cases s.autoDrain <;> rfl
  · intro off h
    refine blockRegRead_reserved ?_
    rcases h with h | h
    · revert off; decide
    · simp only [List.mem_cons, List.not_mem_nil, or_false]; omega
  · intro off h
    refine blockRegWrite_reserved v ?_
    rcases h with h | h
    · revert off; decide
    · simp only [List.mem_cons, List.not_mem_nil, or_false]; omega

/-! ### The two logs as the host reads them -/

/-- A bit of `COMP_W0`: `ED`, `TD`, `CC`, zeros, `VALID` (R29). -/
theorem compRec_getLsbD (c : CompRec) (k : Nat) : c.word0.getLsbD k =
    if k < 8 then (BitVec.ofNat 8 c.ed).getLsbD k else if k < 24 then (BitVec.ofNat 16 c.td).getLsbD (k - 8)
    else if k < 28 then c.cc.getLsbD (k - 24) else decide (k = 31) := by
  simp only [CompRec.word0, BitVec.getLsbD_append, Nat.sub_sub]
  by_cases h8 : k < 8
  · simp only [h8, if_true]
  by_cases h24 : k < 24
  · simp only [h8, h24, if_false, if_true, show k - 8 < 16 by omega]
  by_cases h28 : k < 28
  · simp only [h8, h24, h28, if_false, if_true, show ¬ k - 8 < 16 by omega, show k - (8 + 16) < 4 by omega]
  rcases Nat.lt_trichotomy k 31 with h31 | rfl | h31
  · simp [h8, h24, h28, show ¬ k - 8 < 16 by omega, show ¬ k - 24 < 4 by omega, show k - 28 < 3 by omega]
    omega
  · rfl
  · simp [h8, h24, h28, show ¬ k - 8 < 16 by omega, show ¬ k - 24 < 4 by omega, show ¬ k - 28 < 3 by omega]
    omega

/-- The fields of `COMP_W0`, for a TD and an ED that fit theirs (R29). -/
theorem compRec_word0 {c : CompRec} (ht : c.td < 65536) (he : c.ed < 256) :
    c.word0.getLsbD 31 = true ∧ c.word0.extractLsb' 28 3 = 0#3 ∧ c.word0.extractLsb' 24 4 = c.cc ∧
      (c.word0.extractLsb' 8 16).toNat = c.td ∧ (c.word0.extractLsb' 0 8).toNat = c.ed := by
  have zero : c.word0.extractLsb' 28 3 = 0#3 := by
    apply BitVec.eq_of_getLsbD_eq
    intro k hk
    rw [BitVec.getLsbD_extractLsb', compRec_getLsbD, if_neg (by omega), if_neg (by omega), if_neg (by omega),
      decide_eq_false (p := 28 + k = 31) (by omega), Bool.and_false, BitVec.getLsbD_zero]
  have cc : c.word0.extractLsb' 24 4 = c.cc := by
    apply BitVec.eq_of_getLsbD_eq
    intro k hk
    rw [BitVec.getLsbD_extractLsb', compRec_getLsbD, if_neg (by omega), if_neg (by omega), if_pos (by omega),
      decide_eq_true hk, Bool.true_and, Nat.add_sub_cancel_left]
  have td : c.word0.extractLsb' 8 16 = BitVec.ofNat 16 c.td := by
    apply BitVec.eq_of_getLsbD_eq
    intro k hk
    rw [BitVec.getLsbD_extractLsb', compRec_getLsbD, if_neg (by omega), if_pos (by omega), decide_eq_true hk,
      Bool.true_and, Nat.add_sub_cancel_left]
  have ed : c.word0.extractLsb' 0 8 = BitVec.ofNat 8 c.ed := by
    apply BitVec.eq_of_getLsbD_eq
    intro k hk
    rw [BitVec.getLsbD_extractLsb', compRec_getLsbD, if_pos (by omega), decide_eq_true hk, Bool.true_and,
      Nat.zero_add]
  refine ⟨compRec_getLsbD c 31, zero, cc, ?_, ?_⟩
  · rw [td, BitVec.toNat_ofNat, Nat.mod_eq_of_lt ht]
  · rw [ed, BitVec.toNat_ofNat, Nat.mod_eq_of_lt he]

/-- The fields of `FAULT_W0` (R36). -/
theorem faultRec_word0 (f : FaultRec) :
    f.word0.getLsbD 31 = true ∧ f.word0.extractLsb' 8 23 = 0#23 ∧ f.word0.extractLsb' 0 8 = f.code.code := by
  cases f with
  | mk code info =>
    simp only [FaultRec.word0]
    cases code <;> decide

/-- A record posted where the FIFO has room for it (43_done_queue.md R362). -/
theorem post_room {s : State} (h : s.compq.length < s.params.ntd) (n : Tally) (e g : Nat) (cc : BitVec 4) :
    post n e g cc s = .ok { n with posted := n.posted + 1 }
      { s with compq := s.compq ++ [⟨e, g, cc, (s.ed e).key⟩], isr := s.isr ||| compAvailBit } := by
  have room : s.compq.length < s.params.compDepth := h
  rw [post, run_bind_ok (run_get s)]
  simp only [room, if_true]
  rfl

/-- A record lost where the FIFO is full, with a developer fault (60_exceptions.md R455). -/
theorem post_full {s : State} (h : s.params.ntd ≤ s.compq.length) (n : Tally) (e g : Nat) (cc : BitVec 4) :
    post n e g cc s = .ok { n with faults := n.faults + 1 } (s.logFault .compOverflow (infoWord e g)) := by
  have full : ¬ s.compq.length < s.params.compDepth := Nat.not_lt.2 h
  rw [post, run_bind_ok (run_get s)]
  simp only [full, if_false]
  rfl

/-- Settles O20: a read of the port shows the fields of the oldest record, `post` appends one or logs a fault. -/
theorem completionPort : Obligations.CompletionPort := by
  intro s
  refine ⟨fun h => ?_, fun c rest h ht he => ?_, fun off h => hostMove_blockRead ?_, fun v => ?_, rfl,
    fun n e g cc => ⟨fun h => post_room h n e g cc, fun h => post_full h n e g cc⟩⟩
  · simp [blockRegRead, h]
  · have w0 : blockRegRead s 0x3C = c.word0 := by simp [blockRegRead, h]
    have w1 : blockRegRead s 0x40 = c.key := by simp [blockRegRead, h]
    obtain ⟨valid, zero, cc, td, ed⟩ := compRec_word0 ht he
    rw [w0, w1]
    exact ⟨valid, zero, cc, td, ed, rfl⟩
  · revert off; decide
  · rw [List.drop_one]; rfl

/-- The count goes up by one and stays at its greatest value (60_exceptions.md R456). -/
theorem logFault_faultCount (s : State) (code : FaultCode) (info : Word) :
    (s.logFault code info).faultCount.toNat = min (s.faultCount.toNat + 1) 0xFFFFFFFF := by
  simp only [State.logFault]
  split
  · rename_i h
    rw [h]; rfl
  · rename_i h
    have lt : s.faultCount.toNat < 2 ^ 32 - 1 := by
      have ne : s.faultCount.toNat ≠ 0xFFFFFFFF := fun e => h (BitVec.eq_of_toNat_eq e)
      have := s.faultCount.isLt
      omega
    rw [BitVec.toNat_add, show (1#32).toNat = 1 from rfl]
    omega

/-- Settles O21: what `logFault` writes, with and without room; and the port shows the fields of the oldest
record. -/
theorem faultLog : Obligations.FaultLog := by
  refine ⟨fun s code info => ?_, fun s => ⟨fun h => ?_, fun f rest h => ?_, fun v => ?_, rfl⟩⟩
  · exact ⟨rfl, logFault_faultCount s code info, fun h => logFault_room s h,
      fun h => logFault_full s (Nat.not_lt.2 h)⟩
  · simp [blockRegRead, h]
  · have w0 : blockRegRead s 0x4C = f.word0 := by simp [blockRegRead, h]
    have w1 : blockRegRead s 0x50 = f.info := by simp [blockRegRead, h]
    obtain ⟨valid, zero, code⟩ := faultRec_word0 f
    rw [w0, w1]
    refine ⟨valid, zero, ?_, rfl⟩
    rw [code]
    intro p hp he
    rw [he]
    clear he
    revert p
    decide
  · rw [List.drop_one]; rfl

end Machine
end Sys2Proof
end

section
/-! SUPPORT. What only a reset, or only the host, takes away: the sticky bits of `STATUS` and the fault count
(10_state.md R23, 60_exceptions.md R456); `CFG`, `IER` and `ARG0..ARG3`, which the block never writes (R22, R25,
R28). -/

namespace Sys2Proof.Machine

/-! ### Sticky bits -/

/-- The sticky bits are as high as they were in `s`, and the count of faults is not lower. -/
structure Sticks (s t : State) : Prop where
  started : s.started = true → t.started = true
  faultOvf : s.faultOvf = true → t.faultOvf = true
  faultCount : s.faultCount.toNat ≤ t.faultCount.toNat

theorem Sticks.refl (s : State) : Sticks s s := ⟨id, id, le_rfl⟩

theorem Sticks.trans {s t u : State} (h : Sticks s t) (h' : Sticks t u) : Sticks s u :=
  ⟨h'.started ∘ h.started, h'.faultOvf ∘ h.faultOvf, h.faultCount.trans h'.faultCount⟩

/-- An update that leaves the sticky bits and the count alone. -/
theorem Sticks.same {s t : State} (hs : t.started = s.started) (ho : t.faultOvf = s.faultOvf)
    (hc : t.faultCount = s.faultCount) : Sticks s t :=
  ⟨fun h => hs.trans h, fun h => ho.trans h, by rw [hc]⟩

/-- A fault logged never lowers the count, which saturates (60_exceptions.md R456). -/
theorem sticks_logFault (s : State) (c : FaultCode) (i : Word) : Sticks s (s.logFault c i) where
  started := id
  faultOvf h := by
    by_cases room : s.flog.length < s.params.faultDepth
    · rw [(logFault_room s room).2, h]
    · exact (logFault_full s room).2
  faultCount := by
    rw [logFault_faultCount]
    have := s.faultCount.isLt
    omega

variable {s₀ : State}

/-- No reset is to come, and the sticky bits are as high as they were. -/
def NoResetSticks (s₀ s : State) : Prop := (∀ m ∈ s.sched, m ≠ .reset) ∧ Sticks s₀ s

theorem noResetSticks_carried : Carried (· ≠ .reset) (NoResetSticks s₀) :=
  carried_of_block (fun _ _ b h => h.trans (.same b.started b.faultOvf b.faultCount)) (fun no => absurd rfl no)

theorem NoResetSticks.step {s t : State} (h : NoResetSticks s₀ s) (hm : t.sched = s.sched) (hs : Sticks s t) :
    NoResetSticks s₀ t :=
  ⟨by rw [hm]; exact h.1, h.2.trans hs⟩

theorem noResetSticks_updates : Updates (NoResetSticks s₀) where
  lost _ _ h := h.step rfl (.same rfl rfl rfl)
  ended _ _ h := h.step rfl (.same rfl rfl rfl)
  results _ _ h := h.step rfl (.same rfl rfl rfl)
  raised _ _ h := h.step rfl (.same rfl rfl rfl)
  unlocked _ h := h.step rfl (.same rfl rfl rfl)
  start _ h := h.step rfl ⟨fun _ => rfl, id, le_rfl⟩
  lock _ h := h.step rfl (.same rfl rfl rfl)
  setEd _ _ _ h := h.step rfl (.same rfl rfl rfl)
  setTd _ _ _ h := h.step rfl (.same rfl rfl rfl)
  setIndexed _ _ _ h := h.step rfl (.same rfl rfl rfl)
  setList _ _ _ h := h.step rfl (.same rfl rfl rfl)
  fault s c i h := h.step rfl (sticks_logFault s c i)
  record _ _ _ h := h.step rfl (.same rfl rfl rfl)

/-- Settles O14: of the block's own updates only `SCHED_START` and a fault touch these fields, and they raise
them. -/
theorem stickyUntilReset : Obligations.StickyUntilReset := by
  intro s t no e
  have start : NoResetSticks s s := ⟨fun m hm h => no (h ▸ hm), .refl s⟩
  obtain ⟨_, hs⟩ := step_keeps_of_updates noResetSticks_carried noResetSticks_updates start e
  exact ⟨hs.started, hs.faultOvf, hs.faultCount⟩

/-! ### What the block never writes -/

/-- `ARG0..ARG3`, `CFG` and `IER` are as in `s`. -/
structure SameOperands (s t : State) : Prop where
  arg0 : t.arg0 = s.arg0
  arg1 : t.arg1 = s.arg1
  arg2 : t.arg2 = s.arg2
  arg3 : t.arg3 = s.arg3
  autoDrain : t.autoDrain = s.autoDrain
  ier : t.ier = s.ier

theorem SameOperands.refl (s : State) : SameOperands s s := ⟨rfl, rfl, rfl, rfl, rfl, rfl⟩

theorem SameOperands.trans {s t u : State} (h : SameOperands s t) (h' : SameOperands t u) : SameOperands s u :=
  ⟨h'.arg0.trans h.arg0, h'.arg1.trans h.arg1, h'.arg2.trans h.arg2, h'.arg3.trans h.arg3,
    h'.autoDrain.trans h.autoDrain, h'.ier.trans h.ier⟩

/-- The moves of an environment in which the host writes commands only and no reset comes. -/
def onlyCommands (m : Move) : Prop := m ≠ .reset ∧ ∀ h, m = .host h → ∃ w, m = commandMove w

theorem otherMove_operands {m : Move} {s t : State} (hm : onlyCommands m) (h : otherMove m s = .on t) :
    SameOperands s t := by
  cases m with
  | block => cases h; exact .refl s
  | timer => cases h; exact .refl s
  | reset => cases h
  | hc m =>
    cases h
    obtain ⟨w, c, e⟩ := hcMove_shape m s
    rw [e]
    exact ⟨rfl, rfl, rfl, rfl, rfl, rfl⟩
  | cache m =>
    cases h
    obtain ⟨w, k, c, e⟩ := cacheMove_shape m s
    rw [e]
    exact ⟨rfl, rfl, rfl, rfl, rfl, rfl⟩
  | host m =>
    obtain ⟨w, hw⟩ := hm.2 m rfl
    rw [hw] at h
    have write : otherMove (commandMove w) s = .on (blockRegWrite s 0x0C w) := rfl
    rw [write] at h
    cases h
    simp only [blockRegWrite]
    split
    · exact ⟨rfl, rfl, rfl, rfl, rfl, rfl⟩
    · exact .refl s

/-- Only commands are to come from the host, and its operands are as in `s₀`. -/
def OperandsStay (s₀ s : State) : Prop := (∀ m ∈ s.sched, onlyCommands m) ∧ SameOperands s₀ s

theorem OperandsStay.step {s t : State} (h : OperandsStay s₀ s) (hm : t.sched <:+ s.sched)
    (hs : SameOperands s t) : OperandsStay s₀ t :=
  ⟨fun m h' => h.1 m (hm.subset h'), h.2.trans hs⟩

theorem OperandsStay.same {s t : State} (h : OperandsStay s₀ s) (hm : t.sched = s.sched)
    (hs : SameOperands s t) : OperandsStay s₀ t := h.step (by rw [hm]) hs

theorem operandsStay_carried : Carried onlyCommands (OperandsStay s₀) where
  moves _ h := h.1
  seq _ _ h := h.same rfl ⟨rfl, rfl, rfl, rfl, rfl, rfl⟩
  sched _ _ hms h := h.step hms ⟨rfl, rfl, rfl, rfl, rfl, rfl⟩
  move _ _ _ hm e h := h.same (otherMove_internal e).sched (otherMove_operands hm e)
  reset _ no _ := absurd rfl no.1
  touched s a h := by
    obtain ⟨k, e⟩ := touch_shape s a
    exact h.same (by rw [e]) (by rw [e]; exact ⟨rfl, rfl, rfl, rfl, rfl, rfl⟩)
  stored s a v h := by
    obtain ⟨w, k, e⟩ := cacheStore_shape s a v
    exact h.same (by rw [e]) (by rw [e]; exact ⟨rfl, rfl, rfl, rfl, rfl, rfl⟩)
  flushed s b h := by
    obtain ⟨w, k, c, ms, hms, e⟩ := flushLine_shape s b
    exact h.step (by rw [e]; exact hms) (by rw [e]; exact ⟨rfl, rfl, rfl, rfl, rfl, rfl⟩)
  invalidated s b h := by
    obtain ⟨k, e⟩ := invalLine_shape s b
    exact h.same (by rw [e]) (by rw [e]; exact ⟨rfl, rfl, rfl, rfl, rfl, rfl⟩)
  mmio _ _ _ h := h.same rfl ⟨rfl, rfl, rfl, rfl, rfl, rfl⟩

theorem operandsStay_updates : Updates (OperandsStay s₀) where
  lost _ _ h := h.same rfl ⟨rfl, rfl, rfl, rfl, rfl, rfl⟩
  ended _ _ h := h.same rfl ⟨rfl, rfl, rfl, rfl, rfl, rfl⟩
  results _ _ h := h.same rfl ⟨rfl, rfl, rfl, rfl, rfl, rfl⟩
  raised _ _ h := h.same rfl ⟨rfl, rfl, rfl, rfl, rfl, rfl⟩
  unlocked _ h := h.same rfl ⟨rfl, rfl, rfl, rfl, rfl, rfl⟩
  start _ h := h.same rfl ⟨rfl, rfl, rfl, rfl, rfl, rfl⟩
  lock _ h := h.same rfl ⟨rfl, rfl, rfl, rfl, rfl, rfl⟩
  setEd _ _ _ h := h.same rfl ⟨rfl, rfl, rfl, rfl, rfl, rfl⟩
  setTd _ _ _ h := h.same rfl ⟨rfl, rfl, rfl, rfl, rfl, rfl⟩
  setIndexed _ _ _ h := h.same rfl ⟨rfl, rfl, rfl, rfl, rfl, rfl⟩
  setList _ _ _ h := h.same rfl ⟨rfl, rfl, rfl, rfl, rfl, rfl⟩
  fault _ _ _ h := h.same rfl ⟨rfl, rfl, rfl, rfl, rfl, rfl⟩
  record _ _ _ h := h.same rfl ⟨rfl, rfl, rfl, rfl, rfl, rfl⟩

/-- The block never writes the host's operands (10_state.md R22, R25, R28). -/
theorem step_operands {s t : State} (hm : ∀ m ∈ s.sched, onlyCommands m) (e : step s = .next t) :
    SameOperands s t :=
  (step_keeps_of_updates operandsStay_carried operandsStay_updates ⟨hm, .refl s⟩ e).2

end Sys2Proof.Machine
end

section
/-! SUPPORT. Two runs of the sequencer side by side: a relation between the states of the two that survives every
access and every update of the block's own state (`Tracked`) is kept by every command, continuation and drain.
The relation may depend on whether `PLOCK` is held and on the cache lines that the block has written and not
yet flushed: both are free, and no line is left, at every end of a command. On the diagonal it is an invariant. -/

/-! ### Lines and slots -/

namespace Sys2Proof

open Machine

namespace Params.Good

variable {p : Params} (g : p.Good)
include g

/-- The line size divides 2^32. -/
theorem line_dvd_wrap : p.cacheLine ∣ 2 ^ 32 := by
  rcases g.line with h | h | h | h | h <;> rw [h] <;> decide

/-- Every ED slot's address, taken modulo 2^32 (log 28), begins a line. -/
theorem edAddr_slot (e : Nat) : (edAddr p e).toNat % p.cacheLine = 0 := by
  rw [edAddr, g.stride, BitVec.toNat_ofNat, Nat.mod_mod_of_dvd _ g.line_dvd_wrap, Nat.add_mul_mod_self_left,
    g.descAligned]

/-- Every TD slot's address begins a line. -/
theorem tdAddr_slot (t : Nat) : (tdAddr p t).toNat % p.cacheLine = 0 := by
  rw [tdAddr, g.stride, BitVec.toNat_ofNat, Nat.mod_mod_of_dvd _ g.line_dvd_wrap, Nat.add_mul_mod_self_left,
    g.tdAligned]

end Params.Good

namespace Machine

variable {p : Params}

/-- A line that begins below 2^32 ends there. -/
theorem slot_fits (g : p.Good) {a : Word} (ha : a.toNat % p.cacheLine = 0) : a.toNat + p.cacheLine ≤ 2 ^ 32 := by
  obtain ⟨q, hq⟩ := Nat.dvd_of_mod_eq_zero ha
  obtain ⟨r, hr⟩ := g.line_dvd_wrap
  have lt : p.cacheLine * q < p.cacheLine * r := by rw [← hq, ← hr]; exact a.isLt
  have le : p.cacheLine * (q + 1) ≤ p.cacheLine * r :=
    Nat.mul_le_mul_left _ (lt_of_mul_lt_mul_left lt (Nat.zero_le _))
  rw [Nat.mul_add, Nat.mul_one] at le
  omega

/-- A word of a slot lies in the slot's line. -/
theorem slotWord_line (g : p.Good) {a k : Word} (ha : a.toNat % p.cacheLine = 0) (hk : k.toNat < 16) :
    lineBase p (a + k).toNat = a.toNat := by
  have fits := slot_fits g ha
  have ge := g.line_ge
  rw [BitVec.toNat_add, Nat.mod_eq_of_lt (by omega)]
  exact lineBase_unique ha (by omega) (by omega)

/-- The line of an address inside a range is one of the range's lines (44_coherence.md R403). -/
theorem lineBase_mem_rangeLines {a n x : Nat} (h1 : a ≤ x) (h2 : x < a + n) :
    lineBase p x ∈ rangeLines p a n := by
  have lo : a / p.cacheLine ≤ x / p.cacheLine := Nat.div_le_div_right h1
  have hi : x / p.cacheLine ≤ (a + n - 1) / p.cacheLine := Nat.div_le_div_right (by omega)
  simp only [rangeLines, List.mem_map, List.mem_range, lineCount]
  refine ⟨x / p.cacheLine - a / p.cacheLine, ?_, ?_⟩
  · rw [if_neg (by omega)]; omega
  · rw [Nat.add_sub_cancel' lo]; rfl

theorem slot_mem_rangeLines (g : p.Good) {a : Nat} (ha : a % p.cacheLine = 0) : a ∈ rangeLines p a 16 := by
  have h := lineBase_mem_rangeLines (p := p) (a := a) (n := 16) le_rfl (by omega)
  rwa [lineBase_self g.line_pos ha] at h

/-- The interrupt table's lines (41_scheduler.md R250). -/
theorem table_mem_rangeLines (g : p.Good) {i : Nat} (hi : i < 32) :
    lineBase p (tableAddr p i).toNat ∈ rangeLines p (tableAddr p 0).toNat 128 := by
  rw [g.tableAddr_toNat (i := i) (by omega), g.tableAddr_toNat (i := 0) (by omega)]
  exact lineBase_mem_rangeLines (by omega) (by omega)

end Machine
end Sys2Proof

namespace Sys2Proof.Machine

variable {α β : Type}

/-! ### Reading the state -/

/-- The parameters and the block's tables are the same (10_state.md R30 to R34). -/
structure SameTables (s s' : State) : Prop where
  params : s'.params = s.params
  edt : s'.edt = s.edt
  tdt : s'.tdt = s.tdt
  idxValid : s'.idxValid = s.idxValid
  place : s'.place = s.place

theorem SameTables.refl (s : State) : SameTables s s := ⟨rfl, rfl, rfl, rfl, rfl⟩

theorem SameTables.trans {s t u : State} (h : SameTables s t) (h' : SameTables t u) : SameTables s u :=
  ⟨h'.params.trans h.params, h'.edt.trans h.edt, h'.tdt.trans h.tdt, h'.idxValid.trans h.idxValid,
    h'.place.trans h.place⟩

/-- The fields a command's pseudocode reads are the same. -/
structure SameReads (s s' : State) : Prop extends SameTables s s' where
  started : s'.started = s.started
  compq : s'.compq = s.compq
  mem : s'.mem = s.mem
  cache : s'.cache = s.cache
  hc : s'.hc = s.hc

theorem SameReads.refl (s : State) : SameReads s s := ⟨.refl s, rfl, rfl, rfl, rfl, rfl⟩

/-- A walk along `next` reads the TD table alone. -/
theorem walkUntil_congr {s s' : State} (h : s'.td = s.td) (halt : Nat → Bool) (n u : Nat) :
    walkUntil s' halt n u = walkUntil s halt n u := by
  induction n generalizing u with
  | zero => rfl
  | succ n ih => simp only [walkUntil, h, ih]

theorem walkGroup_congr {s s' : State} (h : s'.td = s.td) (tail n u : Nat) :
    walkGroup s' tail n u = walkGroup s tail n u := by
  induction n generalizing u with
  | zero => rfl
  | succ n ih => simp only [walkGroup, h, ih]

theorem checkGroup_congr {s s' : State} (h : s'.td = s.td) (tail n u : Nat) :
    checkGroup s' tail n u = checkGroup s tail n u := by
  induction n generalizing u with
  | zero => simp only [checkGroup, h]
  | succ n ih => simp only [checkGroup, h, ih]

theorem groupStart_congr {s s' : State} (h : s'.td = s.td) (g : Nat) (l : List Nat) :
    groupStart s' g l = groupStart s g l := by
  induction l generalizing g with
  | nil => rfl
  | cons u l ih => simp only [groupStart, h, ih]

namespace SameTables

variable {s s' : State} (h : SameTables s s')
include h

theorem ed : s'.ed = s.ed := by funext e; simp only [State.ed, h.edt]

theorem td : s'.td = s.td := by funext t; simp only [State.td, h.tdt]

theorem indexed : s'.indexed = s.indexed := by funext t; simp only [State.indexed, h.idxValid]

theorem list : s'.list = s.list := by funext k; simp only [State.list, h.place]

theorem validEd : s'.validEd = s.validEd := by funext e; simp only [State.validEd, h.params, h.ed]

theorem allocEd : s'.allocEd = s.allocEd := by simp only [State.allocEd, h.params, h.ed]

theorem allocTd : s'.allocTd = s.allocTd := by simp only [State.allocTd, h.params, h.td]

theorem ownedTd (e : Nat) (w : Word) : s'.ownedTd e w = s.ownedTd e w := by
  simp only [State.ownedTd, h.params, h.td]

theorem hop (p d : Nat) : s'.hop p d = s.hop p d := by simp only [State.hop, h.list]

theorem shallower (p d : Nat) : s'.shallower p d = s.shallower p d := by
  simp only [State.shallower, h.list]

theorem load (i : Nat) : s'.load i = s.load i := by
  simp only [State.load, State.posLoad, State.listLoad, h.list, h.ed]

theorem placementGroup (x : Nat) : s'.placementGroup x = s.placementGroup x := by
  simp only [State.placementGroup, State.bestGroup, State.groupWorst, h.load, h.ed, h.params]

theorem queue (e : Nat) : s'.queue e = s.queue e := by
  simp only [State.queue, walkUntil_congr h.td, h.ed, h.params]

theorem before (e t : Nat) : s'.before e t = s.before e t := by
  simp only [State.before, walkUntil_congr h.td, h.ed, h.params]

theorem gstart (e t : Nat) : s'.gstart e t = s.gstart e t := by
  simp only [State.gstart, walkUntil_congr h.td, groupStart_congr h.td, h.ed, h.params]

theorem scanQueues (a : Word) (es : List Nat) : scanQueues s' a es = scanQueues s a es := by
  induction es with
  | nil => rfl
  | cons e es ih => simp only [Machine.scanQueues, walkUntil_congr h.td, h.ed, h.params, ih]

end SameTables

theorem SameReads.cacheLoad {s s' : State} (h : SameReads s s') (a : Word) : s'.cacheLoad a = s.cacheLoad a := by
  simp only [State.cacheLoad, State.physRead, lineAt, filledLine, h.params, h.mem, h.cache]

/-! ### Runs that end alike -/

/-- The two runs end in the same way, the states they leave related by `Q` or, where they stop, by `X`. -/
def Alike (Q : State → State → Prop) (X : Stop → State → State → Prop) :
    EStateM.Result Stop State α → EStateM.Result Stop State α → Prop
  | .ok a s, .ok a' s' => a = a' ∧ Q s s'
  | .error e s, .error e' s' => e = e' ∧ X e s s'
  | _, _ => False

/-- How a command may stop: with an error where `E` holds, abandoned or waiting where `G` holds, or stuck. -/
def Stops (E G : State → State → Prop) : Stop → State → State → Prop
  | .err _, s, s' => E s s'
  | .gone, s, s' => G s s'
  | .stuck _, _, _ => True

/-- A relation between two states, given whether `PLOCK` is held and which lines the block may have left dirty. -/
abbrev Tracking : Type := Bool → List Nat → State → State → Prop

/-- From states related by `R` the two pieces end alike; `PLOCK` goes from `l` to `l'`, the dirty lines from `bs`
to `bs'`. -/
def Tracks (R : Tracking) (G : State → State → Prop) (l : Bool) (bs : List Nat) (c c' : Cmd α) (l' : Bool)
    (bs' : List Nat) : Prop :=
  ∀ s s', R l bs s s' → Alike (R l' bs') (Stops (R false []) G) (c s) (c' s')

section
variable {R : Tracking} {G : State → State → Prop} {l l₁ l₂ : Bool} {bs bs₁ bs₂ : List Nat}

theorem alike_bind {Q Q' : State → State → Prop} {X : Stop → State → State → Prop} {x x' : Cmd α}
    {f f' : α → Cmd β} {s s' : State} (hx : Alike Q X (x s) (x' s'))
    (hf : ∀ a t t', Q t t' → Alike Q' X (f a t) (f' a t')) : Alike Q' X ((x >>= f) s) ((x' >>= f') s') := by
  cases e : x s with
  | ok a t =>
    cases e' : x' s' with
    | ok a' t' =>
      rw [e, e'] at hx
      obtain ⟨rfl, ht⟩ := hx
      rw [run_bind_ok e, run_bind_ok e']
      exact hf a t t' ht
    | error st' t' => rw [e, e'] at hx; exact hx.elim
  | error st t =>
    cases e' : x' s' with
    | ok a' t' => rw [e, e'] at hx; exact hx.elim
    | error st' t' =>
      rw [e, e'] at hx
      rw [run_bind_error e, run_bind_error e']
      exact hx

theorem tracks_bind {x x' : Cmd α} {f f' : α → Cmd β} (hx : Tracks R G l bs x x' l₁ bs₁)
    (hf : ∀ a, Tracks R G l₁ bs₁ (f a) (f' a) l₂ bs₂) : Tracks R G l bs (x >>= f) (x' >>= f') l₂ bs₂ :=
  fun s s' h => alike_bind (hx s s' h) hf

theorem tracks_pure (a : α) : Tracks R G l bs (pure a) (pure a) l bs := fun _ _ h => ⟨rfl, h⟩

theorem tracks_raise (e : ErrCode) : Tracks R G false [] (raise e : Cmd α) (raise e) l₁ bs₁ := fun _ _ h => ⟨rfl, h⟩

theorem tracks_orStop (f : Fault) (o : Option α) : Tracks R G l bs (orStop f o) (orStop f o) l bs := by
  cases o with
  | none => exact fun _ _ _ => ⟨rfl, trivial⟩
  | some a => exact tracks_pure a

theorem tracks_modify {f : State → State} (h : ∀ s s', R l bs s s' → R l₁ bs₁ (f s) (f s')) :
    Tracks R G l bs (modify f : Cmd PUnit) (modify f) l₁ bs₁ := fun s s' hs => ⟨rfl, h s s' hs⟩

theorem tracks_set {t t' : State} (h : R l₁ bs₁ t t') : Tracks R G l bs (set t : Cmd PUnit) (set t') l₁ bs₁ :=
  fun _ _ _ => ⟨rfl, h⟩

theorem tracks_read {f : State → Cmd β} (h : ∀ s s', R l bs s s' → Tracks R G l bs (f s) (f s') l₁ bs₁) :
    Tracks R G l bs (get >>= f) (get >>= f) l₁ bs₁ := by
  intro s s' hs
  rw [run_bind_ok (run_get s), run_bind_ok (run_get s')]
  exact h s s' hs s s' hs

theorem tracks_ite {c : Prop} [Decidable c] {x x' y y' : Cmd α} (hx : Tracks R G l bs x x' l₁ bs₁)
    (hy : Tracks R G l bs y y' l₁ bs₁) : Tracks R G l bs (if c then x else y) (if c then x' else y') l₁ bs₁ := by
  split
  · exact hx
  · exact hy

/-- A piece run on a condition only, before the rest. -/
theorem tracks_when {c : Prop} [Decidable c] {x x' : Cmd Unit} {f f' : Unit → Cmd β}
    (hx : Tracks R G l bs x x' l bs) (hf : ∀ a, Tracks R G l bs (f a) (f' a) l₁ bs₁) :
    Tracks R G l bs (if c then x >>= f else f ()) (if c then x' >>= f' else f' ()) l₁ bs₁ :=
  tracks_ite (tracks_bind hx hf) (hf ())

/-- The same where two pieces, the second built on the first, come before the rest. -/
theorem tracks_whenThen {c : Prop} [Decidable c] {x x' : Cmd α} {y y' : α → Cmd Unit} {f f' : Unit → Cmd β}
    (hx : Tracks R G l bs x x' l bs) (hy : ∀ a, Tracks R G l bs (y a) (y' a) l bs)
    (hf : ∀ a, Tracks R G l bs (f a) (f' a) l₁ bs₁) :
    Tracks R G l bs (if c then x >>= fun a => y a >>= f else f ()) (if c then x' >>= fun a => y' a >>= f' else f' ())
      l₁ bs₁ :=
  tracks_ite (tracks_bind hx fun a => tracks_bind (hy a) hf) (hf ())

theorem tracks_quiesceRest (q : Quiesced) : Tracks R G false [] (quiesceRest q) (quiesceRest q) false [] := by
  cases q with
  | timeout => exact tracks_raise _
  | already => exact tracks_pure _
  | ok => exact tracks_pure _

end

/-! ### What the relation must survive -/

/-- `R` relates states with the parameters `p` that read alike, and survives each step and each access, made on
both sides. A write leaves its line among the dirty ones, a flush takes it away. What is said of the dirty lines
needs to hold for legal parameters only. -/
structure Accesses (p : Params) (R : Tracking) (G : State → State → Prop) : Prop where
  params : ∀ {l bs s s'}, R l bs s s' → s.params = p
  reads : ∀ {l bs s s'}, R l bs s s' → SameReads s s'
  widen : ∀ {l bs bs' s s'}, (p.Good → ∀ b ∈ bs, b ∈ bs') → R l bs s s' → R l bs' s s'
  turn : ∀ l bs, Tracks R G l bs turn turn l bs
  touched : ∀ {l bs s s'} a, R l bs s s' → R l bs (s.touch a) (s'.touch a)
  stored : ∀ {l bs s s'} a v, (p.Good → lineBase p a.toNat ∈ bs) → R l bs s s' →
    R l bs (s.cacheStore a v) (s'.cacheStore a v)
  flushed : ∀ {l bs bs' s s'} b, (p.Good → ∀ b' ∈ bs, b' = b ∨ b' ∈ bs') → R l bs s s' →
    R l bs' (s.flushLine b) (s'.flushLine b)
  invalidated : ∀ {l bs s s'} b, R l bs s s' → R l bs (s.invalLine b) (s'.invalLine b)
  mmio : ∀ {l bs s s'} off v, R l bs s s' →
    R l bs { s with hc := hcRegWrite s.hc off v } { s' with hc := hcRegWrite s'.hc off v }

/-- `R` survives also the frame wait, which begins with `PLOCK` free and nothing dirty and in which the block may
stay where `G` holds, and each update of the block's own state, made on both sides. -/
structure Tracked (p : Params) (R : Tracking) (G : State → State → Prop) : Prop extends Accesses p R G where
  waitFrame : ∀ e f0 k, Tracks R G false [] (waitFrame e f0 k) (waitFrame e f0 k) false []
  lock : ∀ {l bs s s'}, R l bs s s' → R true bs { s with plock := true } { s' with plock := true }
  unlock : ∀ {l bs s s'}, R l bs s s' → R false bs { s with plock := false } { s' with plock := false }
  start : ∀ {l bs s s'}, R l bs s s' → R l bs { s with started := true } { s' with started := true }
  raised : ∀ {l bs s s'} b, R l bs s s' → R l bs (s.raiseIsr b) (s'.raiseIsr b)
  fault : ∀ {l bs s s'} c i, R l bs s s' → R l bs (s.logFault c i) (s'.logFault c i)
  record : ∀ {l bs s s'} r, R l bs s s' →
    R l bs { s with compq := s.compq ++ [r] } { s' with compq := s'.compq ++ [r] }
  setEd : ∀ {l bs s s'} e v, R l bs s s' → R l bs (s.setEd e v) (s'.setEd e v)
  setTd : ∀ {l bs s s'} t v, R l bs s s' → R l bs (s.setTd t v) (s'.setTd t v)
  setIndexed : ∀ {l bs s s'} t v, R l bs s s' → R l bs (s.setIndexed t v) (s'.setIndexed t v)
  setList : ∀ {l bs s s'} k v, R l bs s s' → R l bs (s.setList k v) (s'.setList k v)

namespace Accesses

variable {p : Params} {R : Tracking} {G : State → State → Prop} (T : Accesses p R G) {l l₁ : Bool}
  {bs bs₁ bs₂ : List Nat}
include T

/-! ### Accesses -/

/-- A read whose rest depends on what is read alike: the rest runs with what one side has read. -/
theorem tracks_get {f : State → Cmd β} (same : ∀ s s', SameReads s s' → f s' = f s)
    (h : ∀ s, s.params = p → Tracks R G l bs (f s) (f s) l₁ bs₁) :
    Tracks R G l bs (get >>= f) (get >>= f) l₁ bs₁ :=
  tracks_read fun s s' hs => by
    rw [same s s' (T.reads hs)]
    exact h s (T.params hs)

theorem tracks_widen {c c' : Cmd α} (hb : p.Good → ∀ b ∈ bs, b ∈ bs₂) (h : Tracks R G l bs₂ c c' l₁ bs₁) :
    Tracks R G l bs c c' l₁ bs₁ := fun s s' hs => h s s' (T.widen hb hs)

/-- A piece may begin where one more line counts as dirty than is. -/
theorem tracks_dirtying {c c' : Cmd α} (b : Nat) (h : Tracks R G l [b] c c' l₁ bs₁) :
    Tracks R G l [] c c' l₁ bs₁ := T.tracks_widen (fun _ _ hb => absurd hb List.not_mem_nil) h

theorem tracks_memRead (a : Word) : Tracks R G l bs (memRead a) (memRead a) l bs := by
  refine tracks_bind (T.turn l bs) fun _ => tracks_read fun s s' hs => ?_
  rw [(T.reads hs).cacheLoad]
  exact tracks_bind (tracks_set (T.touched _ hs)) fun _ => tracks_pure _

theorem tracks_memWrite {a : Word} (v : Word) (ha : p.Good → lineBase p a.toNat ∈ bs) :
    Tracks R G l bs (memWrite a v) (memWrite a v) l bs :=
  tracks_bind (T.turn l bs) fun _ => tracks_modify fun _ _ h => T.stored a v ha h

theorem tracks_flushLines (ls : List Nat) (h : p.Good → ∀ b ∈ bs, b ∈ ls ∨ b ∈ bs₁) :
    Tracks R G l bs (flushLines ls) (flushLines ls) l bs₁ := by
  induction ls generalizing bs with
  | nil =>
    refine T.tracks_widen (fun g b hb => ?_) (tracks_pure ())
    simpa using h g b hb
  | cons b ls ih =>
    refine tracks_bind (T.turn l bs) fun _ => tracks_bind
      (tracks_modify fun _ _ hs => T.flushed (bs' := ls ++ bs₁) b (fun g b' hb' => ?_) hs) fun _ =>
        ih fun g b' hb' => List.mem_append.1 hb'
    simpa [or_assoc] using h g b' hb'

/-- A flush of lines among which are the dirty ones. -/
theorem tracks_flush {a : Word} {n : Nat} (h : p.Good → ∀ b ∈ bs, b ∈ rangeLines p a.toNat n ∨ b ∈ bs₁) :
    Tracks R G l bs (flush a n) (flush a n) l bs₁ :=
  T.tracks_get (fun s s' r => by simp only [r.params]) fun s hp => T.tracks_flushLines _ (by rw [hp]; exact h)

/-- A flush of a range takes away the line of an address inside the range. -/
theorem tracks_flush_line {a : Word} {n b : Nat} (h : p.Good → b ∈ rangeLines p a.toNat n) :
    Tracks R G l [b] (flush a n) (flush a n) l [] :=
  T.tracks_flush fun g _ hb' => .inl (List.mem_singleton.1 hb' ▸ h g)

theorem tracks_invalLines (ls : List Nat) : Tracks R G l bs (invalLines ls) (invalLines ls) l bs := by
  induction ls with
  | nil => exact tracks_pure ()
  | cons b ls ih =>
    exact tracks_bind (T.turn l bs) fun _ => tracks_bind (tracks_modify fun _ _ h => T.invalidated b h) fun _ => ih

theorem tracks_inval (a : Word) (n : Nat) : Tracks R G l bs (inval a n) (inval a n) l bs :=
  T.tracks_get (fun s s' r => by simp only [r.params]) fun _ _ => T.tracks_invalLines _

theorem tracks_mmioRead (off : Nat) : Tracks R G l bs (mmioRead off) (mmioRead off) l bs :=
  tracks_bind (T.turn l bs) fun _ => T.tracks_get (fun s s' r => by simp only [r.hc]) fun _ _ => tracks_pure _

theorem tracks_mmioWrite (off : Nat) (v : Word) : Tracks R G l bs (mmioWrite off v) (mmioWrite off v) l bs :=
  tracks_bind (T.turn l bs) fun _ => tracks_modify fun _ _ h => T.mmio off v h

theorem tracks_checkEd (e : Nat) : Tracks R G false [] (checkEd e) (checkEd e) false [] :=
  T.tracks_get (fun s s' r => by simp only [r.validEd]) fun _ _ => tracks_ite (tracks_pure _) (tracks_raise _)

theorem tracks_commonChecks (i : Instr) : Tracks R G false [] (commonChecks i) (commonChecks i) false [] := by
  have context : Tracks R G false [] (if blocking i && i.ctx == .interrupt then raise .context else pure () : Cmd Unit)
      (if blocking i && i.ctx == .interrupt then raise .context else pure ()) false [] :=
    tracks_ite (tracks_raise _) (tracks_pure _)
  unfold commonChecks
  exact T.tracks_get (fun s s' r => by simp only [r.started]) fun _ _ =>
    tracks_ite context (tracks_bind (tracks_raise _) fun _ => context)

/-! ### Shared pieces -/

/-- A word written and its line flushed, before the rest. -/
theorem tracks_writeFlush {a v : Word} {f f' : Unit → Cmd β} (hf : ∀ u, Tracks R G l [] (f u) (f' u) l₁ bs₁) :
    Tracks R G l [] (memWrite a v >>= fun _ => flush a 4 >>= f) (memWrite a v >>= fun _ => flush a 4 >>= f') l₁ bs₁ :=
  T.tracks_dirtying (lineBase p a.toNat) <|
    tracks_bind (T.tracks_memWrite v fun _ => List.mem_singleton_self _) fun _ =>
      tracks_bind (T.tracks_flush_line fun _ => lineBase_mem_rangeLines le_rfl (by omega)) hf

theorem tracks_rmw (a : Word) (f : Word → Word) : Tracks R G l [] (rmw a f) (rmw a f) l [] :=
  tracks_bind (T.tracks_inval a 4) fun _ => tracks_bind (T.tracks_memRead a) fun v =>
    T.tracks_dirtying (lineBase p a.toNat) <|
      tracks_bind (T.tracks_memWrite _ fun _ => List.mem_singleton_self _) fun _ =>
        T.tracks_flush_line fun _ => lineBase_mem_rangeLines le_rfl (by omega)

theorem tracks_listFilled (t : EdType) : Tracks R G l bs (listFilled t) (listFilled t) l bs := by
  cases t with
  | control => exact T.tracks_mmioWrite _ _
  | bulk => exact T.tracks_mmioWrite _ _
  | interrupt => exact tracks_pure _

/-- The four words of a slot go into its one line. -/
theorem tracks_writeTd {a : Word} (ha : p.Good → a.toNat % p.cacheLine = 0) (hb : a.toNat ∈ bs)
    (w0 w1 w2 w3 : Word) : Tracks R G l bs (writeTd a w0 w1 w2 w3) (writeTd a w0 w1 w2 w3) l bs := by
  have word : ∀ k v, k.toNat < 16 → Tracks R G l bs (memWrite (a + k) v) (memWrite (a + k) v) l bs := fun k v hk =>
    T.tracks_memWrite v fun g => by rw [slotWord_line g (ha g) hk]; exact hb
  have first := word 0#32 w0 (by decide)
  rw [BitVec.add_zero] at first
  exact tracks_bind first fun _ => tracks_bind (word 4#32 w1 (by decide)) fun _ =>
    tracks_bind (word 8#32 w2 (by decide)) fun _ => word 0xC#32 w3 (by decide)

theorem tracks_edWrite {e : Nat} {k : Word} (v : Word) (hk : k.toNat < 16) (hb : (edAddr p e).toNat ∈ bs) :
    Tracks R G l bs (memWrite (edAddr p e + k) v) (memWrite (edAddr p e + k) v) l bs :=
  T.tracks_memWrite v fun g => by rw [slotWord_line g (g.edAddr_slot e) hk]; exact hb

theorem tracks_edControlWrite {e : Nat} (v : Word) (hb : (edAddr p e).toNat ∈ bs) :
    Tracks R G l bs (memWrite (edControlAddr p e) v) (memWrite (edControlAddr p e) v) l bs := by
  have h := T.tracks_edWrite (R := R) (l := l) (k := 0#32) v (by decide) hb
  rwa [BitVec.add_zero] at h

theorem tracks_edFlush (e : Nat) :
    Tracks R G l [(edAddr p e).toNat] (flush (edAddr p e) 16) (flush (edAddr p e) 16) l [] :=
  T.tracks_flush_line fun g => slot_mem_rangeLines g (g.edAddr_slot e)

theorem tracks_tdFlush (t : Nat) :
    Tracks R G l [(tdAddr p t).toNat] (flush (tdAddr p t) 16) (flush (tdAddr p t) 16) l [] :=
  T.tracks_flush_line fun g => slot_mem_rangeLines g (g.tdAddr_slot t)

theorem tracks_buildEndpoint (e t : Nat) (w : Word) :
    Tracks R G l [] (buildEndpoint p e t w) (buildEndpoint p e t w) l [] := by
  refine T.tracks_widen (bs₂ := [(edAddr p e).toNat, (tdAddr p t).toNat])
    (fun _ _ hb => absurd hb List.not_mem_nil) ?_
  have ed : (edAddr p e).toNat ∈ [(edAddr p e).toNat, (tdAddr p t).toNat] := by simp
  refine tracks_bind (T.tracks_writeTd (fun g => g.tdAddr_slot t) (by simp) _ _ _ _) fun _ =>
    tracks_bind (T.tracks_edControlWrite _ ed) fun _ => tracks_bind (T.tracks_edWrite _ (by decide) ed) fun _ =>
      tracks_bind (T.tracks_edWrite _ (by decide) ed) fun _ => tracks_bind (T.tracks_edWrite _ (by decide) ed) fun _ =>
        tracks_bind (T.tracks_flush (bs₁ := [(tdAddr p t).toNat]) fun g b hb => ?_) fun _ => T.tracks_tdFlush t
  rcases List.mem_cons.1 hb with rfl | hb
  · exact .inl (slot_mem_rangeLines g (g.edAddr_slot e))
  · exact .inr hb

theorem tracks_clearHalt (e : Nat) (clrtog : Bool) :
    Tracks R G l [] (clearHalt e clrtog) (clearHalt e clrtog) l [] := by
  refine T.tracks_get (fun s s' r => by simp only [r.params]) fun s hp => ?_
  rw [hp]
  exact T.tracks_dirtying (edAddr p e).toNat <| tracks_bind (T.tracks_inval _ _) fun _ =>
    tracks_bind (T.tracks_memRead _) fun _ =>
      tracks_bind (T.tracks_edWrite _ (by decide) (List.mem_singleton_self _)) fun _ =>
        tracks_bind (T.tracks_memRead _) fun _ =>
          tracks_bind (T.tracks_edControlWrite _ (List.mem_singleton_self _)) fun _ => T.tracks_edFlush e

theorem tracks_fillTable (is : List Nat) (h : p.Good → ∀ i ∈ is, lineBase p (tableAddr p i).toNat ∈ bs) :
    Tracks R G l bs (fillTable p is) (fillTable p is) l bs := by
  induction is with
  | nil => exact tracks_pure _
  | cons i is ih =>
    exact tracks_bind (T.tracks_memWrite _ fun g => h g i List.mem_cons_self) fun _ =>
      ih fun g j hj => h g j (List.mem_cons_of_mem _ hj)

theorem tracks_classDisable (k : Nat) : Tracks R G l bs (classDisable k) (classDisable k) l bs :=
  tracks_bind (T.tracks_mmioRead _) fun _ => tracks_bind (T.tracks_mmioWrite _ _) fun _ => tracks_pure _

theorem tracks_classRestore (k : Nat) (was : Bool) :
    Tracks R G l bs (classRestore k was) (classRestore k was) l bs :=
  tracks_ite (tracks_bind (T.tracks_mmioRead _) fun _ => T.tracks_mmioWrite _ _) (tracks_pure _)

theorem tracks_repoint (d : Nat) (link entry : Word) (ps done : List Nat) :
    Tracks R G l [] (repoint d link entry ps done) (repoint d link entry ps done) l [] := by
  induction ps generalizing done with
  | nil => exact tracks_pure _
  | cons i ps ih =>
    refine T.tracks_get (fun s s' r => by simp only [r.shallower, r.list, r.params]) fun s _ => ?_
    split
    · exact tracks_ite (ih _) (tracks_bind (T.tracks_rmw _ _) fun _ => ih _)
    · exact T.tracks_writeFlush fun _ => ih _

theorem tracks_readGroup (us : List Nat) (n : Nat) (w : Word) :
    Tracks R G l bs (readGroup us n w) (readGroup us n w) l bs := by
  induction us generalizing n w with
  | nil => exact tracks_pure _
  | cons u us ih =>
    exact T.tracks_get (fun s s' r => by simp only [r.params]) fun _ _ => tracks_bind (T.tracks_inval _ _) fun _ =>
      tracks_bind (T.tracks_memRead _) fun _ => tracks_bind (T.tracks_memRead _) fun _ =>
        tracks_bind (T.tracks_memRead _) fun _ =>
          T.tracks_get (fun s s' r => by simp only [r.td]) fun _ _ => ih _ _

theorem tracks_relink (e : Nat) (h : Word) (b grp : List Nat) (n : Nat) :
    Tracks R G l [] (relink e h b grp n) (relink e h b grp n) l [] := by
  refine T.tracks_get (fun s s' r => by simp only [r.params]) fun s _ => ?_
  refine tracks_ite ?_ (tracks_ite (T.tracks_rmw _ _) (tracks_pure _))
  have := T.tracks_writeFlush (R := R) (l := l) (a := edHeadAddr s.params e)
    (v := tdAddr s.params n ||| (h &&& carryBit)) fun _ => tracks_pure (G := G) ()
  simpa using this

theorem tracks_reverseDone (n : Nat) (prev a : Word) :
    Tracks R G l [] (reverseDone n prev a) (reverseDone n prev a) l [] := by
  induction n generalizing prev a with
  | zero => exact tracks_ite (tracks_pure _) (tracks_pure _)
  | succ n ih =>
    exact tracks_ite (tracks_pure _) <| tracks_bind (T.tracks_inval _ _) fun _ =>
      tracks_bind (T.tracks_memRead _) fun _ => T.tracks_writeFlush fun _ => ih _ _

end Accesses

namespace Tracked

variable {p : Params} {R : Tracking} {G : State → State → Prop} (T : Tracked p R G) {l l₁ : Bool}
  {bs bs₁ bs₂ : List Nat}
include T

/-! ### The frame wait and the fault log -/

theorem tracks_quiesce (e : Nat) (k : Cont) : Tracks R G false [] (quiesce e k) (quiesce e k) false [] := by
  refine T.tracks_get (fun s s' r => by simp only [r.params]) fun s _ => tracks_bind (T.tracks_inval _ _) fun _ =>
    tracks_bind (T.tracks_memRead _) fun h => tracks_ite (tracks_pure _) ?_
  exact tracks_bind (T.tracks_rmw _ _) fun _ => tracks_bind (T.tracks_mmioRead _) fun _ => T.waitFrame _ _ _

theorem tracks_logFault (c : FaultCode) (i : Word) : Tracks R G l bs (logFault c i) (logFault c i) l bs :=
  tracks_modify fun _ _ h => T.fault c i h

/-! ### The block's own updates -/

theorem freeTd {s s' : State} (t : Nat) (h : R l bs s s') : R l bs (s.freeTd t) (s'.freeTd t) := by
  have same : s'.freeTd t = (s'.setTd t { s.td t with alloc := false }).setIndexed t false := by
    rw [State.freeTd, (T.reads h).td]
  rw [same]
  exact T.setIndexed t _ (T.setTd t _ h)

theorem freeTds {s s' : State} (ts : List Nat) (h : R l bs s s') : R l bs (s.freeTds ts) (s'.freeTds ts) := by
  induction ts generalizing s s' with
  | nil => exact h
  | cons t ts ih => exact ih (T.freeTd t h)

theorem freeEd {s s' : State} (e : Nat) (h : R l bs s s') : R l bs (s.freeEd e) (s'.freeEd e) := by
  have same : s'.freeEd e = s'.setEd e { s.ed e with alloc := false } := by rw [State.freeEd, (T.reads h).ed]
  rw [same]
  exact T.setEd e _ h

/-- An entry of the ED table written, computed from what it holds. -/
theorem updateEd {s s' : State} (e : Nat) (f : Ed → Ed) (h : R l bs s s') :
    R l bs (s.setEd e (f (s.ed e))) (s'.setEd e (f (s'.ed e))) := by
  rw [(T.reads h).ed]
  exact T.setEd e _ h

theorem updateTd {s s' : State} (t : Nat) (f : Td → Td) (h : R l bs s s') :
    R l bs (s.setTd t (f (s.td t))) (s'.setTd t (f (s'.td t))) := by
  rw [(T.reads h).td]
  exact T.setTd t _ h

theorem updateList {s s' : State} (k : Nat) (f : List Nat → List Nat) (h : R l bs s s') :
    R l bs (s.setList k (f (s.list k))) (s'.setList k (f (s'.list k))) := by
  rw [(T.reads h).list]
  exact T.setList k _ h

theorem unwindGroup {s s' : State} (j : Nat) (grp : List Nat) (after : Nat) (h : R l bs s s') :
    R l bs (s.unwindGroup j grp after) (s'.unwindGroup j grp after) :=
  T.updateTd j (fun v => { v with next := some after, status := clearMore v.status }) (T.freeTds grp h)

theorem cutGroup {s s' : State} (e : Nat) (before grp : List Nat) (after : Nat) (h : R l bs s s') :
    R l bs (s.cutGroup e before grp after) (s'.cutGroup e before grp after) := by
  unfold State.cutGroup
  cases before.getLast? with
  | none => exact T.updateEd e (fun v => { v with head := after }) (T.freeTds grp h)
  | some prev => exact T.updateTd prev (fun v => { v with next := some after }) (T.freeTds grp h)

/-- A completed group taken off the front of the queue (42_transfer.md R305). -/
theorem advanceHead {s s' : State} (e : Nat) (g : List Nat) (after : Nat) (h : R l bs s s') :
    R l bs ((s.freeTds g).setEd e { s.ed e with head := after })
      ((s'.freeTds g).setEd e { s'.ed e with head := after }) := by
  rw [(T.reads h).ed]
  exact T.setEd e _ (T.freeTds g h)

/-- An endpoint appended to a list, its slot set (40_endpoint.md R212, 41_scheduler.md R256). -/
theorem appendSlot {s s' : State} (k e : Nat) (h : R l bs s s') :
    R l bs ((s.setList k (s.list k ++ [e])).setEd e { s.ed e with slot := k })
      ((s'.setList k (s'.list k ++ [e])).setEd e { s'.ed e with slot := k }) :=
  T.updateEd e (fun v => { v with slot := k }) (T.updateList k (· ++ [e]) h)

/-! ### The lists and the tree -/

theorem tracks_classInsert (k e : Nat) : Tracks R G l [] (classInsert k e) (classInsert k e) l [] := by
  refine T.tracks_get (fun s s' r => by simp only [r.params, r.list]) fun s _ =>
    tracks_bind (T.tracks_classDisable k) fun was => ?_
  have place : Tracks R G l []
      (do modify fun s => (s.setList k (s.list k ++ [e])).setEd e { s.ed e with slot := k }
          classRestore k was : Cmd Unit)
      (do modify fun s => (s.setList k (s.list k ++ [e])).setEd e { s.ed e with slot := k }
          classRestore k was) l [] :=
    tracks_bind (tracks_modify fun _ _ h => T.appendSlot k e h) fun _ => T.tracks_classRestore k was
  dsimp only
  split
  · exact tracks_bind (T.tracks_mmioWrite _ _) fun _ => place
  · exact tracks_bind (T.tracks_rmw _ _) fun _ => place

theorem tracks_classRemove (k e : Nat) : Tracks R G l [] (classRemove k e) (classRemove k e) l [] := by
  refine T.tracks_get (fun s s' r => by simp only [r.params, r.list]) fun s _ =>
    tracks_bind (tracks_orStop _ _) fun i => tracks_bind (T.tracks_classDisable k) fun was =>
      tracks_ite (tracks_bind (T.tracks_mmioWrite _ _) ?rest) (tracks_bind (T.tracks_rmw _ _) ?rest)
  exact fun _ => tracks_bind (tracks_modify fun _ _ h => T.updateList k (·.erase e) h) fun _ =>
    T.tracks_classRestore k was

theorem tracks_periodicInsert (x : Nat) :
    Tracks R G false [] (periodicInsert x) (periodicInsert x) false [] := by
  refine T.tracks_get (fun s s' r => by simp only [r.params, r.list, r.ed, r.hop, r.placementGroup]) fun s _ => ?_
  dsimp only
  split
  · exact tracks_pure _
  · have place : ∀ k, Tracks R G true []
        (do modify fun s => { (s.setList k (s.list k ++ [x])).setEd x { s.ed x with slot := k } with plock := false }
            return true : Cmd Bool)
        (do modify fun s => { (s.setList k (s.list k ++ [x])).setEd x { s.ed x with slot := k } with plock := false }
            return true) false [] := fun k =>
      tracks_bind (tracks_modify fun _ _ h => T.unlock (T.appendSlot k x h)) fun _ => tracks_pure _
    refine tracks_bind (tracks_modify fun _ _ h => T.lock h) fun _ => T.tracks_writeFlush fun _ => ?_
    split
    · exact tracks_bind (T.tracks_rmw _ _) fun _ => place _
    · exact tracks_bind (T.tracks_repoint _ _ _ _ _) fun _ => place _

theorem tracks_periodicRemove (x : Nat) :
    Tracks R G false [] (periodicRemove x) (periodicRemove x) false [] := by
  refine T.tracks_get (fun s s' r => by simp only [r.params, r.list, r.ed, r.hop]) fun s _ =>
    tracks_bind (tracks_orStop _ _) fun i => tracks_bind (tracks_modify fun _ _ h => T.lock h) fun _ =>
      tracks_ite (tracks_bind (T.tracks_rmw _ _) ?rest) (tracks_bind (T.tracks_repoint _ _ _ _ _) ?rest)
  exact fun _ => tracks_modify fun _ _ h => T.unlock (T.updateList _ (·.erase x) h)

theorem tracks_linkEndpoint (e : Nat) (t : EdType) :
    Tracks R G false [] (linkEndpoint e t) (linkEndpoint e t) false [] := by
  cases t with
  | control => exact tracks_bind (T.tracks_classInsert 63 e) fun _ => tracks_pure _
  | bulk => exact tracks_bind (T.tracks_classInsert 64 e) fun _ => tracks_pure _
  | interrupt => exact T.tracks_periodicInsert e

theorem tracks_unlinkEndpoint (e : Nat) (t : EdType) :
    Tracks R G false [] (unlinkEndpoint e t) (unlinkEndpoint e t) false [] := by
  cases t with
  | control => exact T.tracks_classRemove 63 e
  | bulk => exact T.tracks_classRemove 64 e
  | interrupt => exact T.tracks_periodicRemove e

/-! ### The drain (43_done_queue.md) -/

theorem tracks_drainFault (n : Tally) (code : FaultCode) (i : Word) :
    Tracks R G l bs (drainFault n code i) (drainFault n code i) l bs :=
  tracks_bind (T.tracks_logFault code i) fun _ => tracks_pure _

theorem tracks_resolve (n : Tally) (a w : Word) : Tracks R G l bs (resolve n a w) (resolve n a w) l bs := by
  have lost : ∀ code, Tracks R G l bs (do return ((none : Option Nat), ← drainFault n code a))
      (do return (none, ← drainFault n code a)) l bs := fun code =>
    tracks_bind (T.tracks_drainFault n code a) fun _ => tracks_pure _
  refine T.tracks_get (fun s s' r => by simp only [r.params, r.indexed, r.scanQueues]) fun s _ => ?_
  split
  · exact tracks_ite (lost _) (tracks_ite (lost _) (tracks_pure _))
  · refine tracks_bind (tracks_orStop _ _) fun found => ?_
    cases found with
    | some t => exact tracks_pure _
    | none => exact lost _

theorem tracks_post (n : Tally) (e g : Nat) (cc : BitVec 4) : Tracks R G l bs (post n e g cc) (post n e g cc) l bs :=
  tracks_read fun s s' hs => by
    have r := T.reads hs
    have posted := T.record ⟨e, g, cc, (s.ed e).key⟩ hs
    rw [r.compq, r.params, r.ed]
    rw [r.compq, r.params] at posted
    exact tracks_ite (tracks_bind (tracks_set (T.raised _ posted)) fun _ => tracks_pure _)
      (T.tracks_drainFault _ _ _)

theorem tracks_unwind (e j : Nat) (cc : BitVec 4) : Tracks R G l [] (unwind e j cc) (unwind e j cc) l [] := by
  refine tracks_read fun s s' hs => ?_
  have r := T.reads hs
  simp only [r.params, r.td, r.ed, walkGroup_congr r.td, T.params hs]
  refine tracks_bind (tracks_orStop _ _) fun nx => tracks_bind (tracks_orStop _ _) fun g =>
    tracks_bind (tracks_set (T.unwindGroup j g.1 g.2 hs)) fun _ => tracks_bind (T.tracks_inval _ _) fun _ =>
      tracks_bind (T.tracks_memRead _) fun h => T.tracks_dirtying (edAddr p e).toNat <|
        tracks_bind (T.tracks_edWrite _ (by decide) (List.mem_singleton_self _)) fun _ =>
          tracks_whenThen (T.tracks_memRead _) (fun _ => T.tracks_edControlWrite _ (List.mem_singleton_self _))
            fun _ => tracks_bind (T.tracks_edFlush e) fun _ => tracks_ite (T.tracks_listFilled _) (tracks_pure _)

theorem tracks_process (n : Tally) (t : Nat) (cc : BitVec 4) :
    Tracks R G l [] (process n t cc) (process n t cc) l [] := by
  have report : ∀ e, Tracks R G l []
      (do let s ← get
          post n e (← orStop .brokenQueue (s.gstart e t)) cc : Cmd Tally)
      (do let s ← get
          post n e (← orStop .brokenQueue (s.gstart e t)) cc) l [] := fun e =>
    T.tracks_get (fun s s' r => by simp only [r.gstart]) fun _ _ => tracks_bind (tracks_orStop _ _) fun _ =>
      T.tracks_post n _ _ cc
  refine tracks_read fun s s' hs => ?_
  have r := T.reads hs
  simp only [r.params, r.td, r.ed, walkUntil_congr r.td]
  refine tracks_ite (T.tracks_drainFault _ _ _) <| tracks_bind (tracks_orStop _ _) fun first =>
    tracks_ite (T.tracks_drainFault _ _ _) <| tracks_bind (tracks_set (T.setTd t _ hs)) fun _ => ?_
  exact tracks_ite (tracks_ite (tracks_pure _) (tracks_bind (T.tracks_unwind _ t cc) fun _ => report _)) (report _)

theorem tracks_visitDone (n : Tally) (a w : Word) :
    Tracks R G l [] (visitDone n a w) (visitDone n a w) l [] := by
  refine tracks_bind (T.tracks_resolve _ a w) fun r => ?_
  split
  · exact tracks_pure _
  · exact T.tracks_process _ _ _

theorem tracks_forwardDone (fuel : Nat) (n : Tally) (a : Word) :
    Tracks R G l [] (forwardDone fuel n a) (forwardDone fuel n a) l [] := by
  induction fuel generalizing n a with
  | zero => exact tracks_pure _
  | succ fuel ih =>
    exact tracks_ite (tracks_pure _) <| tracks_bind (T.tracks_memRead _) fun _ =>
      tracks_bind (T.tracks_memRead _) fun _ => tracks_bind (T.tracks_visitDone n a _) fun _ => ih _ _

theorem tracks_drain : Tracks R G l [] drain drain l [] := by
  refine tracks_bind (T.tracks_mmioRead _) fun _ => tracks_ite ?_ (tracks_pure _)
  refine T.tracks_get (fun s s' r => by simp only [r.params]) fun _ _ => tracks_bind (T.tracks_inval _ _) fun _ =>
    tracks_bind (T.tracks_memRead _) fun _ => tracks_bind (T.tracks_reverseDone _ _ _) fun first => ?_
  have clearWdh : ∀ n, Tracks R G l [] (do mmioWrite 0x0C wdhBit; return n : Cmd Tally)
      (do mmioWrite 0x0C wdhBit; return n) l [] := fun n =>
    tracks_bind (T.tracks_mmioWrite _ _) fun _ => tracks_pure n
  cases first with
  | none => exact tracks_bind (T.tracks_drainFault _ _ _) clearWdh
  | some a => exact tracks_bind (T.tracks_forwardDone _ _ a) clearWdh

/-! ### After the frame wait (10_state.md R38) -/

theorem tracks_closeRest (e : Nat) (q : Quiesced) :
    Tracks R G false [] (closeRest e q) (closeRest e q) false [] := by
  unfold closeRest
  refine tracks_when (tracks_raise _) fun _ => T.tracks_get (fun s s' r => by simp only [r.ed]) fun _ _ =>
    tracks_bind (T.tracks_unlinkEndpoint e _) fun _ => tracks_read fun s s' hs => ?_
  simp only [(T.reads hs).queue, (T.reads hs).ed]
  exact tracks_bind (tracks_orStop _ _) fun _ => tracks_bind (tracks_set (T.freeEd e (T.freeTds _ hs))) fun _ =>
    tracks_pure _

theorem tracks_abortRest (e t : Nat) (q : Quiesced) :
    Tracks R G false [] (abortRest e t q) (abortRest e t q) false [] := by
  unfold abortRest
  refine tracks_when (tracks_raise _) fun _ => T.tracks_get (fun s s' r => by simp only [r.before, r.params])
    fun _ _ => tracks_bind (tracks_orStop _ _) fun _ => tracks_when (T.tracks_logFault _ _) fun _ =>
      tracks_bind (T.tracks_inval _ _) fun _ => tracks_bind (T.tracks_memRead _) fun _ =>
        tracks_read fun s s' hs => ?_
  have r := T.reads hs
  simp only [r.params, r.ed, walkGroup_congr r.td]
  exact tracks_bind (tracks_orStop _ _) fun _ => tracks_bind (tracks_set (T.cutGroup e _ _ _ hs)) fun _ =>
    tracks_bind (T.tracks_relink _ _ _ _ _) fun _ => tracks_bind (T.tracks_clearHalt _ _) fun _ => tracks_pure _

theorem tracks_afterWait (k : Cont) (q : Quiesced) :
    Tracks R G false [] (afterWait k q) (afterWait k q) false [] := by
  cases k with
  | quiesce e => exact tracks_quiesceRest q
  | close e => exact T.tracks_closeRest e q
  | abort e t => exact T.tracks_abortRest e t q

/-! ### The commands -/

theorem tracks_schedStartBody (args : Args) :
    Tracks R G l [] (schedStartBody args) (schedStartBody args) l [] := by
  refine T.tracks_get (fun s s' r => by simp only [r.params]) fun s hp => ?_
  rw [hp]
  have dummy : (edAddr p p.ned).toNat ∈ [(edAddr p p.ned).toNat] := List.mem_singleton_self _
  refine T.tracks_dirtying (edAddr p p.ned).toNat <| tracks_bind (T.tracks_edControlWrite _ dummy) fun _ =>
    tracks_bind (T.tracks_edWrite _ (by decide) dummy) fun _ =>
      tracks_bind (T.tracks_edWrite _ (by decide) dummy) fun _ =>
        tracks_bind (T.tracks_edWrite _ (by decide) dummy) fun _ => tracks_bind (T.tracks_edFlush p.ned) fun _ => ?_
  refine T.tracks_widen (bs₂ := rangeLines p (tableAddr p 0).toNat 128) (fun _ _ hb => absurd hb List.not_mem_nil) ?_
  exact tracks_bind (T.tracks_fillTable _ fun g i hi => table_mem_rangeLines g (List.mem_range.1 hi)) fun _ =>
    tracks_bind (T.tracks_flush fun _ _ hb => .inl hb) fun _ =>
      tracks_bind (tracks_modify fun _ _ h => T.start h) fun _ => tracks_pure _

theorem tracks_edOpenBody (args : Args) : Tracks R G false [] (edOpenBody args) (edOpenBody args) false [] := by
  unfold edOpenBody
  refine tracks_when (tracks_raise _) fun _ => ?_
  split
  · exact tracks_raise _
  · refine T.tracks_get (fun s s' r => by simp only [r.allocEd, r.allocTd, r.params]) fun s hp => ?_
    rw [hp]
    split
    · refine tracks_bind (tracks_modify fun _ _ h => T.setTd _ _ (T.setEd _ _ h)) fun _ =>
        tracks_bind (T.tracks_buildEndpoint _ _ _) fun _ => tracks_bind (T.tracks_linkEndpoint _ _) fun _ =>
          tracks_whenThen (tracks_modify fun _ _ h => T.freeEd _ (T.freeTd _ h)) (fun _ => tracks_raise _) fun _ =>
            T.tracks_get (fun s s' r => by simp only [r.ed]) fun _ _ => tracks_pure _
    · exact tracks_raise _

theorem tracks_tdQueueBody (e : Nat) (more r : Bool) (di : BitVec 3) (dp : BitVec 2) (args : Args) :
    Tracks R G false [] (tdQueueBody e more r di dp args) (tdQueueBody e more r di dp args) false [] := by
  refine tracks_bind (T.tracks_checkEd e) fun _ => tracks_when (tracks_raise _) fun _ =>
    T.tracks_get (fun s s' r => by simp only [r.allocTd, r.params, r.ed]) fun s hp => ?_
  rw [hp]
  split
  · exact tracks_raise _
  · rename_i n _
    have slot : ∀ t w0 w1 w2 w3 {f f' : Unit → Cmd Results}, (∀ u, Tracks R G false [] (f u) (f' u) false []) →
        Tracks R G false [] (writeTd (tdAddr p t) w0 w1 w2 w3 >>= fun _ => flush (tdAddr p t) 16 >>= f)
          (writeTd (tdAddr p t) w0 w1 w2 w3 >>= fun _ => flush (tdAddr p t) 16 >>= f') false [] :=
      fun t w0 w1 w2 w3 f f' hf => T.tracks_dirtying (tdAddr p t).toNat <|
        tracks_bind (T.tracks_writeTd (fun g => g.tdAddr_slot t) (List.mem_singleton_self _) _ _ _ _) fun _ =>
          tracks_bind (T.tracks_tdFlush t) hf
    refine tracks_bind (tracks_modify fun _ _ h => T.setTd n _ (T.updateEd e (fun v => { v with afterSetup := _ }) h))
      fun _ => slot _ _ _ _ _ fun _ => slot _ _ _ _ _ fun _ => tracks_bind (tracks_modify fun _ _ h => ?_) fun _ =>
        tracks_bind (T.tracks_rmw _ _) fun _ => tracks_bind (T.tracks_listFilled _) fun _ => tracks_pure _
    exact T.updateEd e (fun v => { v with tail := n }) (T.setIndexed _ _
      (T.updateTd _ (fun v => { v with status := _, next := some n }) h))

theorem tracks_xferCompleteBody (e : Nat) (args : Args) :
    Tracks R G false [] (xferCompleteBody e args) (xferCompleteBody e args) false [] := by
  refine tracks_bind (T.tracks_checkEd e) fun _ =>
    T.tracks_get (fun s s' r => by simp only [r.ownedTd, r.params, r.ed, checkGroup_congr r.td]) fun s _ => ?_
  split
  · exact tracks_raise _
  · refine tracks_whenThen (T.tracks_logFault _ _) (fun _ => tracks_raise _) fun _ =>
      tracks_bind (tracks_orStop _ _) fun check => ?_
    cases check with
    | unfinished t => exact tracks_bind (T.tracks_logFault _ _) fun _ => tracks_raise _
    | finished g after =>
      exact tracks_bind (T.tracks_readGroup _ _ _) fun _ => tracks_bind
        (tracks_modify fun _ _ h => T.advanceHead e g after h) fun _ =>
          tracks_when (T.tracks_clearHalt _ _) fun _ => tracks_pure _

theorem tracks_xferAbortBody (e : Nat) (args : Args) :
    Tracks R G false [] (xferAbortBody e args) (xferAbortBody e args) false [] := by
  refine tracks_bind (T.tracks_checkEd e) fun _ =>
    T.tracks_get (fun s s' r => by simp only [r.ownedTd, r.ed]) fun s _ => ?_
  split
  · exact tracks_raise _
  · exact tracks_when (tracks_raise _) fun _ => tracks_bind (T.tracks_quiesce _ _) fun q =>
      T.tracks_abortRest e _ q

/-- Every command ends alike from related states, `PLOCK` free and no line of the block's dirty at its end. -/
theorem tracks_bodyOf (i : Instr) (args : Args) :
    Tracks R G false [] (bodyOf i args) (bodyOf i args) false [] := by
  cases i with
  | nop => exact tracks_pure _
  | schedStart => exact T.tracks_schedStartBody args
  | edOpen => exact T.tracks_edOpenBody args
  | edClose _ e =>
    exact tracks_bind (T.tracks_checkEd e) fun _ => tracks_bind (T.tracks_quiesce e _) fun q =>
      T.tracks_closeRest e q
  | edSuspend _ e =>
    exact tracks_bind (T.tracks_checkEd e) fun _ => T.tracks_get (fun s s' r => by simp only [r.params]) fun _ _ =>
      tracks_bind (T.tracks_rmw _ _) fun _ => tracks_pure _
  | edResume _ e =>
    exact tracks_bind (T.tracks_checkEd e) fun _ =>
      T.tracks_get (fun s s' r => by simp only [r.params, r.ed]) fun _ _ =>
        tracks_bind (T.tracks_rmw _ _) fun _ => tracks_bind (T.tracks_listFilled _) fun _ => tracks_pure _
  | edClearHalt _ e clrtog =>
    exact tracks_bind (T.tracks_checkEd e) fun _ => tracks_bind (T.tracks_clearHalt e clrtog) fun _ =>
      tracks_pure _
  | edQuiesce _ e =>
    exact tracks_bind (T.tracks_checkEd e) fun _ => tracks_bind (T.tracks_quiesce e _) tracks_quiesceRest
  | schedBitpos _ d n =>
    simp only [bodyOf, schedBitposBody]
    split
    · exact tracks_raise _
    · exact tracks_pure _
  | schedIdepth _ iv =>
    exact T.tracks_get (fun s s' r => by simp only [r.params]) fun _ _ => tracks_pure _
  | schedLoad =>
    exact T.tracks_get (fun s s' r => by simp only [r.load]) fun _ _ => tracks_ite (tracks_raise _) (tracks_pure _)
  | tdQueue _ e more r di dp => exact T.tracks_tdQueueBody e more r di dp args
  | xferComplete _ e => exact T.tracks_xferCompleteBody e args
  | xferAbort _ e => exact T.tracks_xferAbortBody e args
  | ccClassify => exact tracks_pure _
  | dqDrain =>
    exact tracks_bind T.tracks_drain fun _ => tracks_bind (tracks_modify fun _ _ h => T.raised _ h) fun _ =>
      tracks_pure _
  | cflush =>
    simp only [bodyOf, cflushBody]
    exact tracks_when (tracks_raise _) fun _ => T.tracks_get (fun s s' r => by simp only [r.params]) fun _ _ =>
      tracks_bind (T.tracks_flush fun _ _ hb => .inr hb) fun _ => tracks_pure _
  | cinval =>
    simp only [bodyOf, cinvalBody]
    exact tracks_when (tracks_raise _) fun _ => T.tracks_get (fun s s' r => by simp only [r.params]) fun _ _ =>
      tracks_bind (T.tracks_inval _ _) fun _ => tracks_pure _

/-- The whole of a command, from its acceptance on. -/
theorem tracks_command (i : Instr) (args : Args) :
    Tracks R G false [] (do Machine.turn; commonChecks i; bodyOf i args : Cmd Results)
      (do Machine.turn; commonChecks i; bodyOf i args) false [] :=
  tracks_bind (T.turn _ _) fun _ => tracks_bind (T.tracks_commonChecks i) fun _ => T.tracks_bodyOf i args

end Tracked

end Sys2Proof.Machine
end

section
/-! SUPPORT. The other agents' moves and the frame wait keep a relation between two runs that survives one move
(`Steady`). On the diagonal: `PLOCK` is free and no line of the block's is dirty whenever the sequencer rests
(10_state.md R37, R42 (f), 44_coherence.md R406, 70_reset_and_hazards.md R524). -/

namespace Sys2Proof.Machine

variable {α : Type}

/-! ### One move of another agent, and all of them -/

/-- A stuck host access is stuck in every state (20_memory.md R76). -/
theorem otherMove_stuck {m : Move} {s : State} {f : Fault} (h : otherMove m s = .stuck f) (s' : State) :
    otherMove m s' = .stuck f := by
  cases m with
  | block => cases h
  | timer => cases h
  | reset => cases h
  | hc m => cases h
  | cache m => cases h
  | host m =>
    cases m with
    | blockRead off size =>
      by_cases wide : alignedWordAccess off size = true
      · simp [otherMove, hostMove, wide] at h
      · simpa [otherMove, hostMove, wide] using h
    | blockWrite off size v =>
      by_cases wide : alignedWordAccess off size = true
      · simp [otherMove, hostMove, wide] at h
      · simpa [otherMove, hostMove, wide] using h
    | hcRead off => cases h
    | hcWrite off v => cases h
    | memRead a => cases h
    | memWrite a b => cases h

/-- `R` relates states whose moves to come are the same, all of the kind `A`, and survives one of them and the
sequencer's own position; a reset leaves states related by `G`. -/
structure Steady (A : Move → Prop) (R : Tracking) (G : State → State → Prop) : Prop where
  moves : ∀ {l bs s s'}, R l bs s s' → ∀ m ∈ s.sched, A m
  sched : ∀ {l bs s s'}, R l bs s s' → s'.sched = s.sched
  seq : ∀ {l bs s s'}, R l bs s s' → s'.seq = s.seq
  hc : ∀ {l bs s s'}, R l bs s s' → s'.hc = s.hc
  position : ∀ {l bs s s'} q, R l bs s s' → R l bs { s with seq := q } { s' with seq := q }
  later : ∀ {l bs s s' ms}, ms <:+ s.sched → R l bs s s' → R l bs { s with sched := ms } { s' with sched := ms }
  move : ∀ {l bs s s' m t}, A m → otherMove m s = .on t → R l bs s s' → ∃ t', otherMove m s' = .on t' ∧ R l bs t t'
  reset : ∀ {l bs s s'} ms, A .reset → ms <:+ s.sched → R l bs s s' →
    G { s.blockReset with sched := ms } { s'.blockReset with sched := ms }

/-- Where the block stays in the wait with fewer than `n` timeouts counted, the states are related by `G`. -/
def StaysWith (R : Tracking) (G : State → State → Prop) (run : Running) (e : Nat) (f0 : BitVec 16) (k : Cont)
    (n : Nat) : Prop :=
  ∀ s s' r, s.seq = .wait run e f0 r k → r < n → R false [] s s' → G s s'

namespace Steady

variable {A : Move → Prop} {R : Tracking} {G : State → State → Prop} (S : Steady A R G) {l : Bool} {bs : List Nat}
include S

theorem interferes {E : State → State → Prop} {s s' : State} (ms : List Move) (hms : ms <:+ s.sched)
    (h : R l bs s s') : Alike (R l bs) (Stops E G) (interfere ms s) (interfere ms s') := by
  have advanced : ∀ ms, ms <:+ s.sched → R l bs { s with sched := ms, seq := s.seq.advance }
      { s' with sched := ms, seq := s'.seq.advance } := fun ms hms => by
    have same : s'.seq.advance = s.seq.advance := by rw [S.seq h]
    rw [same]
    exact S.position _ (S.later hms h)
  induction ms generalizing s s' with
  | nil => exact ⟨rfl, advanced [] hms⟩
  | cons m ms ih =>
    have rest : ms <:+ s.sched := (List.suffix_cons m ms).trans hms
    have hm : A m := S.moves h m (hms.subset List.mem_cons_self)
    by_cases hb : m = .block
    · subst hb
      exact ⟨rfl, advanced ms rest⟩
    · have one : ∀ u, interfere (m :: ms) u =
          (match otherMove m u with
            | .on s' => interfere ms s'
            | .abandoned s' => .error .gone { s' with sched := ms }
            | .stuck f => .error (.stuck f) u) := fun u => by
        cases m with
        | block => exact absurd rfl hb
        | host m => rfl
        | hc m => rfl
        | cache m => rfl
        | timer => rfl
        | reset => rfl
      rw [one, one]
      cases o : otherMove m s with
      | on t =>
        obtain ⟨t', o', ht⟩ := S.move hm o h
        rw [o']
        have later : ms <:+ t.sched := by rw [(otherMove_internal o).sched]; exact rest
        refine ih later ht fun ms hms => ?_
        have same : t'.seq.advance = t.seq.advance := by rw [S.seq ht]
        rw [same]
        exact S.position _ (S.later hms ht)
      | abandoned t =>
        obtain ⟨rfl, rfl⟩ := otherMove_abandoned o
        exact ⟨rfl, S.reset ms hm rest h⟩
      | stuck f =>
        rw [otherMove_stuck o s']
        exact ⟨rfl, trivial⟩

theorem tracks_turn : Tracks R G l bs turn turn l bs := fun s s' h => by
  have run : turn s' = interfere s.sched s' := by rw [turn, S.sched h]
  rw [run]
  exact S.interferes s.sched List.suffix_rfl h

theorem frameMoved {s s' : State} (h : R l bs s s') (f0 : BitVec 16) : s'.frameMoved f0 = s.frameMoved f0 := by
  rw [State.frameMoved, State.frameMoved, S.hc h]

theorem waits_alike {E : State → State → Prop} {f0 : BitVec 16} {run : Running} {e : Nat} {g0 : BitVec 16}
    {k : Cont} {n : Nat} (W : StaysWith R G run e g0 k n) (hn : 3 ≤ n) (ms : List Move) {r : Nat} {s s' : State}
    (hms : ms <:+ s.sched) (hr : r < n) (hs : s.seq = .wait run e g0 r k) (h : R false [] s s') :
    Alike (R false []) (Stops E G) (waitSteps f0 ms r s) (waitSteps f0 ms r s') := by
  induction ms generalizing r s s' with
  | nil =>
    have ended := S.later hms h
    by_cases moved : s.frameMoved f0 = true
    · rw [waitSteps, waitSteps, S.frameMoved h, if_pos moved, if_pos moved]
      exact ⟨rfl, ended⟩
    · rw [waitSteps, waitSteps, S.frameMoved h, if_neg moved, if_neg moved]
      exact ⟨rfl, W { s with sched := [] } _ r hs hr ended⟩
  | cons m ms ih =>
    have rest : ms <:+ s.sched := (List.suffix_cons m ms).trans hms
    have hm : A m := S.moves h m (hms.subset List.mem_cons_self)
    have other : (∀ u, waitSteps f0 (m :: ms) r u =
        (match otherMove m u with
          | .on s' => waitSteps f0 ms r s'
          | .abandoned s' => .error .gone { s' with sched := ms }
          | .stuck f => .error (.stuck f) u)) →
        Alike (R false []) (Stops E G) (waitSteps f0 (m :: ms) r s) (waitSteps f0 (m :: ms) r s') := fun one => by
      rw [one, one]
      cases o : otherMove m s with
      | on t =>
        obtain ⟨t', o', ht⟩ := S.move hm o h
        rw [o']
        exact ih (by rw [(otherMove_internal o).sched]; exact rest) hr (by rw [(otherMove_internal o).seq]; exact hs) ht
      | abandoned t =>
        obtain ⟨rfl, rfl⟩ := otherMove_abandoned o
        exact ⟨rfl, S.reset ms hm rest h⟩
      | stuck f =>
        rw [otherMove_stuck o s']
        exact ⟨rfl, trivial⟩
    cases m with
    | block =>
      by_cases moved : s.frameMoved f0 = true
      · rw [waitSteps, waitSteps, S.frameMoved h, if_pos moved, if_pos moved]
        exact ⟨rfl, S.later rest h⟩
      · rw [waitSteps, waitSteps, S.frameMoved h, if_neg moved, if_neg moved]
        exact ih rest hr hs h
    | timer =>
      by_cases hr' : r + 1 < 3
      · rw [waitSteps, waitSteps, if_pos hr', if_pos hr']
        refine ih (s := { s with seq := s.seq.withTimeouts (r + 1) }) rest (by omega) (by rw [hs]; rfl) ?_
        rw [S.seq h]
        exact S.position _ h
      · rw [waitSteps, waitSteps, if_neg hr', if_neg hr']
        exact ⟨rfl, S.later rest h⟩
    | host m => exact other fun _ => rfl
    | hc m => exact other fun _ => rfl
    | cache m => exact other fun _ => rfl
    | reset => exact other fun _ => rfl

/-- The wait from fewer than `n` timeouts on. -/
theorem waitFrom_alike {f0 : BitVec 16} {run : Running} {e : Nat} {g0 : BitVec 16} {k : Cont} {n r : Nat}
    {s s' : State} (W : StaysWith R G run e g0 k n) (hn : 3 ≤ n) (hr : r < n) (hs : s.seq = .wait run e g0 r k) (h : R false [] s s') :
    Alike (R false []) (Stops (R false []) G) (waitFrom f0 r s) (waitFrom f0 r s') := by
  have awake : Tracks R G false [] (modify fun s => { s with seq := .exec s.seq.running } : Cmd PUnit)
      (modify fun s => { s with seq := .exec s.seq.running }) false [] := tracks_modify fun s s' h => by
    rw [S.seq h]
    exact S.position _ h
  have waited := S.waits_alike (E := R false []) (f0 := f0) W hn s.sched List.suffix_rfl hr hs h
  have sched := S.sched h
  refine alike_bind (x := fun s => waitSteps f0 s.sched r s) (Q := R false []) ?_ fun q =>
    tracks_bind awake fun _ => tracks_pure q
  rw [sched]
  exact waited

theorem tracks_waitFrame {e : Nat} {f0 : BitVec 16} {k : Cont} (W : ∀ run, StaysWith R G run e f0 k 3) :
    Tracks R G false [] (waitFrame e f0 k) (waitFrame e f0 k) false [] := fun s s' h => by
  have begun := S.position (.wait s.seq.running e f0 0 k) h
  have same : s'.seq.running = s.seq.running := by rw [S.seq h]
  rw [waitFrame, run_bind_ok (run_modify _ s), run_bind_ok (run_modify _ s'), same]
  exact S.waitFrom_alike (W _) le_rfl (by decide) rfl begun

end Steady

/-! ### The lines the block may have left dirty -/

theorem mem_tableErase {k : Nat} {m : List (Nat × α)} {x : Nat × α} (h : x ∈ tableErase k m) : x ∈ m ∧ x.1 ≠ k := by
  rw [tableErase_eq_filter] at h
  simpa using h

/-- A kind of dirty line that a host write, where one may come, does not make of another line. -/
structure DirtyKind (A : Move → Prop) (bad : Line → Bool) : Prop where
  dirty : ∀ l, bad l = true → l.dirty = true
  host : ∀ a b l off data, A (.host (.memWrite a b)) → bad (l.mark false off data) = true → bad l = true

/-- Every line of the kind lies in the cache that there is, is one of `bs`, and is the one found at its base. -/
def Confined (p : Params) (bad : Line → Bool) (bs : List Nat) (s : State) : Prop :=
  ∀ b l, (b, l) ∈ s.cache → bad l = true → p.coherent = false ∧ b ∈ bs ∧ tableFind b s.cache = some l

section
variable {p : Params} {A : Move → Prop} {bad : Line → Bool} {bs bs' : List Nat} {s : State}

theorem Confined.widen (h : Confined p bad bs s) (hb : ∀ b ∈ bs, b ∈ bs') : Confined p bad bs' s := fun b l hm hl =>
  have ⟨c, hb', f⟩ := h b l hm hl
  ⟨c, hb b hb', f⟩

theorem Confined.sameCache {t : State} (h : Confined p bad bs s) (hc : t.cache = s.cache) : Confined p bad bs t := by
  intro b l hm hl
  rw [hc] at hm ⊢
  exact h b l hm hl

theorem Confined.setLine {b : Nat} {l : Line} (h : Confined p bad bs s) (hb : ∀ b' ∈ bs, b' = b ∨ b' ∈ bs')
    (hl : bad l = true → p.coherent = false ∧ b ∈ bs') : Confined p bad bs' (s.setLine b l) := by
  intro b' l' hm hl'
  rcases mem_tableInsert hm with e | hm
  · cases e
    obtain ⟨c, hb'⟩ := hl hl'
    exact ⟨c, hb', find_setLine_self s b l⟩
  · obtain ⟨hm, ne⟩ := mem_tableErase hm
    obtain ⟨c, hb', f⟩ := h b' l' hm hl'
    exact ⟨c, (hb b' hb').resolve_left ne, by rw [find_setLine_ne s ne, f]⟩

theorem Confined.dropLine (h : Confined p bad bs s) (b : Nat) : Confined p bad bs (s.dropLine b) := by
  intro b' l' hm hl'
  obtain ⟨hm, ne⟩ := mem_tableErase hm
  obtain ⟨c, hb', f⟩ := h b' l' hm hl'
  exact ⟨c, hb', by rw [find_dropLine_ne s ne, f]⟩

theorem Confined.invalLine (h : Confined p bad bs s) (b : Nat) : Confined p bad bs (s.invalLine b) := by
  unfold State.invalLine
  split
  · exact h
  · exact h.dropLine b

variable (K : DirtyKind A bad)
include K

theorem DirtyKind.clean (l : Line) : bad l.clean ≠ true := fun h => nomatch K.dirty _ h

/-- The line at a base is of the kind only where it is present. -/
theorem Confined.lineAt {b : Nat} (h : Confined p bad bs s) (hl : bad (lineAt s b) = true) :
    p.coherent = false ∧ b ∈ bs := by
  unfold Machine.lineAt at hl
  split at hl
  · rename_i l f
    obtain ⟨c, hb, _⟩ := h b l (mem_of_tableFind f) hl
    exact ⟨c, hb⟩
  · exact nomatch K.dirty _ hl

theorem Confined.touch (h : Confined p bad bs s) (a : Nat) : Confined p bad bs (s.touch a) := by
  unfold State.touch
  split
  · exact h
  · exact h.setLine (fun _ hb => .inr hb) fun hl => h.lineAt K hl

omit K in
theorem Confined.cacheStore (h : Confined p bad bs s) (hp : s.params = p) (a v : Word)
    (ha : lineBase p a.toNat ∈ bs) : Confined p bad bs (s.cacheStore a v) := by
  unfold State.cacheStore
  split
  · exact h.sameCache rfl
  · rename_i c
    rw [hp] at c ⊢
    exact h.setLine (fun _ hb => .inr hb) fun _ => ⟨by simpa using c, ha⟩

theorem Confined.cacheStoreByte (h : Confined p bad bs s) {a : Word} {b : Byte} (hm : A (.host (.memWrite a b))) :
    Confined p bad bs (s.cacheStoreByte a.toNat b) := by
  unfold State.cacheStoreByte
  split
  · exact h.sameCache rfl
  · exact h.setLine (fun _ hb => .inr hb) fun hl => h.lineAt K (K.host _ _ _ _ _ hm hl)

/-- A flush of a line takes it from among the dirty ones. -/
theorem Confined.flushLine (h : Confined p bad bs s) (hp : s.params = p) (b : Nat)
    (hb : ∀ b' ∈ bs, b' = b ∨ b' ∈ bs') : Confined p bad bs' (s.flushLine b) := by
  unfold State.flushLine
  split
  · rename_i c
    intro b' l hm hl
    obtain ⟨c', _⟩ := h b' l hm hl
    rw [hp, c'] at c
    cases c
  · split
    · rename_i absent
      intro b' l hm hl
      obtain ⟨c, hb', f⟩ := h b' l hm hl
      refine ⟨c, (hb b' hb').resolve_left ?_, f⟩
      rintro rfl
      rw [f] at absent
      cases absent
    · rename_i l f
      split
      · obtain ⟨w, c, ms, _, e⟩ := flushWords_shape l.data (writeBackWords s.params b l) s
        rw [e]
        exact (h.sameCache (t := { s with mem := w, hc := c, sched := ms }) rfl).setLine hb fun hl =>
          absurd hl (K.clean l)
      · rename_i clean
        intro b' l' hm hl'
        obtain ⟨c, hb', f'⟩ := h b' l' hm hl'
        refine ⟨c, (hb b' hb').resolve_left ?_, f'⟩
        rintro rfl
        rw [f, Option.some.injEq] at f'
        exact clean (f' ▸ K.dirty _ hl')

theorem Confined.cacheMove (h : Confined p bad bs s) (m : CacheMove) : Confined p bad bs (cacheMove m s) := by
  unfold Machine.cacheMove
  split
  · exact h
  · cases m with
    | writeBack b inter =>
      simp only
      split
      · exact h
      · rename_i l _
        split
        · obtain ⟨w, c, e⟩ := evictWords_shape l.data (writeBackWords s.params b l) inter s
          rw [e]
          exact (h.sameCache (t := { s with mem := w, hc := c }) rfl).setLine (fun _ hb => .inr hb) fun hl =>
            absurd hl (K.clean l)
        · exact h
    | drop b =>
      simp only
      split
      · exact h
      · split
        · exact h
        · exact h.dropLine b

theorem Confined.otherMove {m : Move} {t : State} (h : Confined p bad bs s) (hm : A m)
    (o : otherMove m s = .on t) : Confined p bad bs t := by
  cases m with
  | block => cases o; exact h
  | timer => cases o; exact h
  | reset => cases o
  | hc m =>
    cases o
    obtain ⟨w, c, e⟩ := hcMove_shape m s
    exact h.sameCache (by rw [e])
  | cache m => cases o; exact h.cacheMove K m
  | host m =>
    cases m with
    | blockRead off size =>
      by_cases wide : alignedWordAccess off size = true
      · simp only [Machine.otherMove, hostMove, wide, if_true] at o
        cases o
        exact h.sameCache rfl
      · simp [Machine.otherMove, hostMove, wide] at o
    | blockWrite off size v =>
      by_cases wide : alignedWordAccess off size = true
      · simp only [Machine.otherMove, hostMove, wide, if_true] at o
        cases o
        obtain ⟨ad, cl, a0, a1, a2, a3, i, ie, q, f, e⟩ := blockRegWrite_shape s off.toNat v
        exact h.sameCache (by rw [e])
      · simp [Machine.otherMove, hostMove, wide] at o
    | hcRead off => cases o; exact h.sameCache rfl
    | hcWrite off v =>
      cases o
      split
      · exact h
      · exact h.sameCache rfl
    | memRead a =>
      cases o
      split
      · exact h
      · exact (h.touch K a.toNat).sameCache rfl
    | memWrite a b =>
      cases o
      split
      · exact h
      · exact h.cacheStoreByte K hm

end

/-! ### The invariant as a relation -/

/-- With the parameters `p` and moves of the kind `A` to come: `PLOCK` is free unless the lock is held, and the
lines of the kind `bad` are among `bs`. `F` says whether anything is asked of the lock. -/
structure Held (p : Params) (A : Move → Prop) (bad : Line → Bool) (F : Prop) (l : Bool) (bs : List Nat)
    (s : State) : Prop where
  params : s.params = p
  moves : ∀ m ∈ s.sched, A m
  plock : F → l = false → s.plock = false
  dirty : p.Good → Confined p bad bs s

/-- The same of two runs that are one. -/
def HeldTwice (p : Params) (A : Move → Prop) (bad : Line → Bool) (F : Prop) : Tracking := fun l bs s s' =>
  s' = s ∧ Held p A bad F l bs s

/-- At the end of a command and in the frame wait nothing is held. -/
def Rested (p : Params) (A : Move → Prop) (bad : Line → Bool) (F : Prop) (s s' : State) : Prop :=
  HeldTwice p A bad F false [] s s' ∧ (F → s.seq.resting = true)

section
variable {p : Params} {A : Move → Prop} {bad : Line → Bool} {F : Prop} {l l' : Bool} {bs bs' : List Nat} {s t : State}

/-- An update of other fields. -/
theorem Held.update (h : Held p A bad F l bs s) (hp : t.params = s.params) (hm : t.sched <:+ s.sched)
    (hl : F → l' = false → t.plock = false) (hc : t.cache = s.cache) : Held p A bad F l' bs t :=
  ⟨hp.trans h.params, fun m hm' => h.moves m (hm.subset hm'), hl, fun g => (h.dirty g).sameCache hc⟩

theorem Held.access (h : Held p A bad F l bs s)
    (shape : ∃ w k c ms, ms <:+ s.sched ∧ t = { s with mem := w, cache := k, hc := c, sched := ms })
    (hc : p.Good → Confined p bad bs' t) : Held p A bad F l bs' t := by
  obtain ⟨w, k, c, ms, hms, rfl⟩ := shape
  exact ⟨h.params, fun m hm => h.moves m (hms.subset hm), h.plock, hc⟩

theorem HeldTwice.update {f : State → State} {s' : State} (h : HeldTwice p A bad F l bs s s')
    (hp : (f s).params = s.params) (hm : (f s).sched <:+ s.sched) (hl : (f s).plock = s.plock)
    (hc : (f s).cache = s.cache) : HeldTwice p A bad F l bs (f s) (f s') := by
  obtain ⟨rfl, h⟩ := h
  exact ⟨rfl, h.update hp hm (fun f free => hl.trans (h.plock f free)) hc⟩

/-- A reset frees the lock and empties the cache (70_reset_and_hazards.md R500). -/
theorem Held.reset (h : Held p A bad F l bs s) {ms : List Move} (hms : ms <:+ s.sched) :
    Held p A bad F false [] { s.blockReset with sched := ms } :=
  ⟨h.params, fun m hm => h.moves m (hms.subset hm), fun _ _ => rfl, fun _ _ _ hm => absurd hm List.not_mem_nil⟩

theorem heldTwice_steady (K : DirtyKind A bad) : Steady A (HeldTwice p A bad F) (Rested p A bad F) where
  moves h := h.2.moves
  sched h := by rw [h.1]
  seq h := by rw [h.1]
  hc h := by rw [h.1]
  position q h := h.update (f := fun s => { s with seq := q }) rfl List.suffix_rfl rfl rfl
  later {l bs s s' ms} hms h := h.update (f := fun s => { s with sched := ms }) rfl hms rfl rfl
  move hm o h := by
    obtain ⟨rfl, h⟩ := h
    have same := otherMove_internal o
    exact ⟨_, o, rfl, same.params.trans h.params, by rw [same.sched]; exact h.moves,
      fun f free => same.plock.trans (h.plock f free), fun g => (h.dirty g).otherMove K hm o⟩
  reset ms _ hms h := by
    obtain ⟨rfl, h⟩ := h
    exact ⟨⟨rfl, h.reset hms⟩, fun _ => rfl⟩

theorem heldTwice_stays (run : Running) (e : Nat) (f0 : BitVec 16) (k : Cont) :
    StaysWith (HeldTwice p A bad F) (Rested p A bad F) run e f0 k 3 := fun s s' r hs hr h =>
  ⟨h, fun _ => by rw [hs]; exact decide_eq_true hr⟩

theorem heldTwice_accesses (K : DirtyKind A bad) : Accesses p (HeldTwice p A bad F) (Rested p A bad F) where
  params h := h.2.params
  reads h := by
    obtain ⟨rfl, _⟩ := h
    exact .refl _
  widen hb h := ⟨h.1, h.2.params, h.2.moves, h.2.plock, fun g => (h.2.dirty g).widen (hb g)⟩
  turn _ _ := (heldTwice_steady K).tracks_turn
  touched {l bs s s'} a h := by
    obtain ⟨rfl, h⟩ := h
    obtain ⟨k, e⟩ := touch_shape s' a
    exact ⟨rfl, h.access ⟨s'.mem, k, s'.hc, s'.sched, List.suffix_rfl, e⟩ fun g => (h.dirty g).touch K a⟩
  stored {l bs s s'} a v ha h := by
    obtain ⟨rfl, h⟩ := h
    obtain ⟨w, k, e⟩ := cacheStore_shape s' a v
    exact ⟨rfl, h.access ⟨w, k, s'.hc, s'.sched, List.suffix_rfl, e⟩ fun g =>
      (h.dirty g).cacheStore h.params a v (ha g)⟩
  flushed {l bs bs' s s'} b hb h := by
    obtain ⟨rfl, h⟩ := h
    exact ⟨rfl, h.access (flushLine_shape s' b) fun g => (h.dirty g).flushLine K h.params b (hb g)⟩
  invalidated {l bs s s'} b h := by
    obtain ⟨rfl, h⟩ := h
    obtain ⟨k, e⟩ := invalLine_shape s' b
    exact ⟨rfl, h.access ⟨s'.mem, k, s'.hc, s'.sched, List.suffix_rfl, e⟩ fun g => (h.dirty g).invalLine b⟩
  mmio off v h := h.update (f := fun s => { s with hc := hcRegWrite s.hc off v }) rfl List.suffix_rfl rfl rfl

theorem heldTwice_tracked (K : DirtyKind A bad) : Tracked p (HeldTwice p A bad F) (Rested p A bad F) where
  toAccesses := heldTwice_accesses K
  waitFrame e f0 k := (heldTwice_steady K).tracks_waitFrame fun run => heldTwice_stays run e f0 k
  lock h := ⟨by rw [h.1], h.2.update rfl List.suffix_rfl (fun _ no => nomatch no) rfl⟩
  unlock h := ⟨by rw [h.1], h.2.update rfl List.suffix_rfl (fun _ _ => rfl) rfl⟩
  start h := h.update (f := fun s => { s with started := true }) rfl List.suffix_rfl rfl rfl
  raised b h := h.update (f := fun s => s.raiseIsr b) rfl List.suffix_rfl rfl rfl
  fault c i h := h.update (f := fun s => s.logFault c i) rfl List.suffix_rfl rfl rfl
  record r h := h.update (f := fun s => { s with compq := s.compq ++ [r] }) rfl List.suffix_rfl rfl rfl
  setEd e v h := h.update (f := fun s => s.setEd e v) rfl List.suffix_rfl rfl rfl
  setTd t v h := h.update (f := fun s => s.setTd t v) rfl List.suffix_rfl rfl rfl
  setIndexed t v h := h.update (f := fun s => s.setIndexed t v) rfl List.suffix_rfl rfl rfl
  setList k v h := h.update (f := fun s => s.setList k v) rfl List.suffix_rfl rfl rfl

/-! ### Steps -/

/-- What rests between two steps: the invariant with nothing held, the sequencer idle or waiting. -/
def Resting (p : Params) (A : Move → Prop) (bad : Line → Bool) (F : Prop) (s : State) : Prop :=
  Held p A bad F false [] s ∧ (F → s.seq.resting = true)

variable (K : DirtyKind A bad)

/-- An idle block with the invariant rests. -/
theorem Held.idle (h : Held p A bad F l bs s) (he : bs = []) (ht : t.plock = false) (hp : t.params = s.params)
    (hm : t.sched = s.sched) (hc : t.cache = s.cache) (hs : t.seq = .idle) : Resting p A bad F t := by
  subst he
  exact ⟨h.update hp (by rw [hm]) (fun _ _ => ht) hc, fun _ => by rw [hs]; rfl⟩

theorem resting_of_finish {r : EStateM.Result Stop State Results}
    (h : Alike (HeldTwice p A bad F false []) (Stops (HeldTwice p A bad F false []) (Rested p A bad F)) r r)
    (e : finish r = .next t) : Resting p A bad F t := by
  cases r with
  | ok v u =>
    cases e
    exact h.2.2.idle rfl rfl rfl rfl rfl rfl
  | error st u =>
    cases st with
    | err c =>
      cases e
      exact h.2.2.idle rfl rfl rfl rfl rfl rfl
    | gone =>
      cases e
      exact ⟨h.2.1.2, h.2.2⟩
    | stuck f => cases e

include K

theorem resting_exec {i : Instr} (h : Resting p A bad F s) (e : exec i s = .next t) : Resting p A bad F t := by
  rw [exec_eq, runCommand] at e
  split at e
  · cases e
    exact ⟨h.1.update rfl List.suffix_rfl h.1.plock rfl, h.2⟩
  · exact resting_of_finish ((heldTwice_tracked K).tracks_command i s.args _ _
      ⟨rfl, h.1.update (t := s.accept (encode i)) rfl List.suffix_rfl h.1.plock rfl⟩) e

theorem resting_runReserved {w : Word} (h : Resting p A bad F s) (e : runReserved w s = .next t) :
    Resting p A bad F t :=
  resting_of_finish (tracks_bind (heldTwice_steady K).tracks_turn (fun _ => tracks_raise _) _ _
    ⟨rfl, h.1.update (t := s.accept w) rfl List.suffix_rfl h.1.plock rfl⟩) e

theorem resting_runAutoDrain (h : Resting p A bad F s) (e : runAutoDrain s = .next t) : Resting p A bad F t := by
  have drained := (heldTwice_tracked K).tracks_drain (l := false) _ _
    ⟨rfl, h.1.update (t := { s with seq := .exec { auto := true, ctx := .interrupt } }) rfl List.suffix_rfl
      h.1.plock rfl⟩
  unfold runAutoDrain at e
  generalize drain { s with seq := .exec { auto := true, ctx := .interrupt } } = r at drained e
  cases r with
  | ok n u =>
    cases e
    exact drained.2.2.idle rfl rfl rfl rfl rfl rfl
  | error st u =>
    cases st with
    | err c =>
      cases e
      exact drained.2.2.idle rfl rfl rfl rfl rfl rfl
    | gone =>
      cases e
      exact ⟨drained.2.1.2, drained.2.2⟩
    | stuck f => cases e

theorem resting_idleTurn (h : Resting p A bad F s) (e : idleTurn s = .next t) : Resting p A bad F t := by
  unfold idleTurn at e
  split at e
  · exact resting_runAutoDrain K h e
  · cases e
    exact h

theorem resting_idleMove {m : Move} (hm : A m) (h : Resting p A bad F s) (e : idleMove m s = .next t) :
    Resting p A bad F t := by
  unfold idleMove at e
  split at e
  · rename_i u o
    cases e
    obtain ⟨u', o', rfl, held⟩ := (heldTwice_steady K).move hm o ⟨rfl, h.1⟩
    exact ⟨held, by rw [(otherMove_internal o).seq]; exact h.2⟩
  · rename_i u o
    cases e
    obtain ⟨rfl, rfl⟩ := otherMove_abandoned o
    exact ⟨h.1.reset List.suffix_rfl, fun _ => rfl⟩
  · cases e

/-- Every step keeps it. -/
theorem resting_step (h : Resting p A bad F s) (e : step s = .next t) : Resting p A bad F t := by
  unfold step at e
  split at e
  · unfold idleStep at e
    split at e
    · exact resting_idleTurn K h e
    · rename_i m ms hs
      have hm : A m := h.1.moves m (by rw [hs]; exact List.mem_cons_self)
      have later : Resting p A bad F { s with sched := ms } :=
        ⟨h.1.update rfl (by rw [hs]; exact List.suffix_cons m ms) h.1.plock rfl, h.2⟩
      split at e
      · unfold runWord at e
        split at e
        · exact resting_exec K later e
        · exact resting_runReserved K later e
      · split at e
        · exact resting_idleTurn K later e
        · exact resting_idleMove K hm later e
  · rename_i run ed f0 r k hs
    obtain ⟨n, hn, hr, stays⟩ : ∃ n, 3 ≤ n ∧ r < n ∧
        StaysWith (HeldTwice p A bad F) (Rested p A bad F) run ed f0 k n := by
      by_cases f : F
      · refine ⟨3, le_rfl, ?_, heldTwice_stays run ed f0 k⟩
        have := h.2 f
        rw [hs] at this
        exact of_decide_eq_true this
      · exact ⟨r + 3, by omega, by omega, fun _ _ _ _ _ h => ⟨h, fun yes => absurd yes f⟩⟩
    exact resting_of_finish (alike_bind ((heldTwice_steady K).waitFrom_alike stays hn hr hs ⟨rfl, h.1⟩) fun q =>
        (heldTwice_tracked K).tracks_afterWait k q) e
  · cases e

end

/-! ### The end of a program -/

/-- A block at rest with no move to come stays where it is. -/
theorem step_at_rest {s : State} (h : AtRest s) (hs : s.sched = []) : step s = .next s := by
  obtain ⟨idle, off, _⟩ := h
  have hi : s.seq = .idle := by
    cases e : s.seq with
    | idle => rfl
    | exec run => simp [e, Seq.busy] at idle
    | wait run ed f0 r k => simp [e, Seq.busy] at idle
  rw [step, hi]
  simp only [idleStep, hs, idleTurn, off]
  rfl

theorem Reaches.eq_of_fixed {s t : State} (h : Reaches s t) (fixed : step s = .next s) : t = s := by
  induction h with
  | refl s => rfl
  | next e _ ih =>
    rw [fixed] at e
    cases e
    exact ih fixed

/-- Steps are functions of the state, so of two states reached one is reached from the other. -/
theorem Reaches.linear {s t u : State} (h : Reaches s t) (h' : Reaches s u) : Reaches t u ∨ Reaches u t := by
  induction h with
  | refl s => exact .inl h'
  | next e rest ih =>
    cases h' with
    | refl s => exact .inr (.next e rest)
    | next e' rest' =>
      rw [e] at e'
      cases e'
      exact ih rest'

/-- A line the block wrote and has not flushed, where there is a cache. -/
def blockDirty (p : Params) (l : Line) : Bool := !p.coherent && (l.dirty && l.byBlock)

theorem blockDirty_kind (p : Params) : DirtyKind (fun _ => True) (blockDirty p) where
  dirty l h := by
    simp only [blockDirty, Bool.and_eq_true] at h
    exact h.2.1
  host a b l off data _ h := by simpa [blockDirty, Line.mark] using h

/-- Nothing of the kind is to be found exactly where the block has left no line dirty. -/
theorem blockClean_iff {s : State} : s.blockClean = true ↔ Confined s.params (blockDirty s.params) [] s := by
  constructor
  · intro clean b l hm hl
    simp only [State.blockClean, Bool.or_eq_true, List.all_eq_true, Bool.not_eq_true'] at clean
    simp only [blockDirty, Bool.and_eq_true, Bool.not_eq_true'] at hl
    obtain ⟨cached, dirty⟩ := hl
    rcases clean with coherent | clean
    · rw [coherent] at cached
      cases cached
    · have := clean (b, l) hm
      simp [dirty] at this
  · intro none
    simp only [State.blockClean, Bool.or_eq_true, List.all_eq_true, Bool.not_eq_true']
    by_cases coherent : s.params.coherent = true
    · exact .inl coherent
    · refine .inr fun x hx => ?_
      by_contra dirty
      have := none x.1 x.2 hx (by simpa [blockDirty, coherent] using dirty)
      exact List.not_mem_nil this.2.1

/-- Nothing is said of lines. -/
theorem anyLine_kind : DirtyKind (fun _ => True) (fun _ => false) where
  dirty _ h := nomatch h
  host _ _ _ _ _ _ h := h

theorem step_lockFree {s t : State} (free : s.lockFree = true) (e : step s = .next t) : t.lockFree = true := by
  simp only [State.lockFree, Bool.and_eq_true, Bool.not_eq_true'] at free ⊢
  obtain ⟨held, rests⟩ := resting_step (p := s.params) (F := True) anyLine_kind
    ⟨⟨rfl, fun _ _ => trivial, fun _ _ => free.2, fun _ _ _ _ h => nomatch h⟩, fun _ => free.1⟩ e
  exact ⟨rests trivial, held.plock trivial rfl⟩

theorem step_blockClean {s t : State} (legal : s.params.legal = true)
    (clean : s.blockClean = true) (e : step s = .next t) : t.blockClean = true := by
  obtain ⟨held, _⟩ := resting_step (F := False) (blockDirty_kind s.params)
    ⟨⟨rfl, fun _ _ => trivial, False.elim, fun _ => blockClean_iff.1 clean⟩, False.elim⟩ e
  have none := held.dirty (Params.legal_good legal)
  rw [← held.params] at none
  exact blockClean_iff.2 none

/-- A program has at most one end: of two states that steps reach one is reached from the other, and a state at
rest with no move to come is a fixed point. -/
theorem programEnds_unique {s t u : State} {program : List Move} (ht : s.programEnds program t)
    (hu : s.programEnds program u) : t = u := by
  rcases ht.run.linear hu.run with h | h
  · exact (h.eq_of_fixed (step_at_rest ht.rest ht.taken)).symm
  · exact h.eq_of_fixed (step_at_rest hu.rest hu.taken)

/-- Settles O9: the invariant `Resting` for no lines and for those the block wrote; and steps are functions. -/
theorem lockFreeKept : Obligations.LockFreeKept := by
  refine ⟨fun s t free e => ⟨step_lockFree free e, fun legal clean => ?_⟩, fun _ _ _ _ => programEnds_unique⟩
  have cleanAfter := step_blockClean legal clean e
  exact ⟨cleanAfter, fun idle off => ⟨by rw [idle]; rfl, off, cleanAfter⟩⟩

end Sys2Proof.Machine
end

section
/-! SUPPORT. Two more relations between runs: on the diagonal, that the results are as they were until a command
ends well (10_state.md R26); and one run beside another whose `ARG` registers hold something else, or to which a
later move is still to come (R24, R25). -/

namespace Sys2Proof.Machine

variable {α : Type}

/-! ### A property of the block's own state, as a relation -/

/-- While the lock is as `L` says, the two runs are one, with the parameters `p`, moves of the kind `A` to come and
a property of the block's own state. -/
def OneRun (L : Bool → Prop) (p : Params) (A : Move → Prop) (Q : State → Prop) : Tracking := fun l _ s s' =>
  L l ∧ s' = s ∧ s.params = p ∧ (∀ m ∈ s.sched, A m) ∧ Q s

section
variable {L : Bool → Prop} {p : Params} {A : Move → Prop} {Q : State → Prop} {G : State → State → Prop} {l l' : Bool}
  {bs bs' : List Nat}

/-- A change of the other agents' state alone. -/
theorem OneRun.update {f : State → State} {s s' : State} (h : OneRun L p A Q l bs s s') (hp : (f s).params = s.params)
    (hm : (f s).sched <:+ s.sched) (hQ : Q s → Q (f s)) (hL : L l → L l') : OneRun L p A Q l' bs' (f s) (f s') := by
  obtain ⟨hl, rfl, params, moves, hq⟩ := h
  exact ⟨hL hl, rfl, hp.trans params, fun m h' => moves m (hm.subset h'), hQ hq⟩

theorem oneRun_steady (hQ : ∀ s s', SameBlock s s' → Q s → Q s')
    (hreset : ∀ s ms, A .reset → Q s → G { s.blockReset with sched := ms } { s.blockReset with sched := ms }) :
    Steady A (OneRun L p A Q) G where
  moves h := h.2.2.2.1
  sched h := by rw [h.2.1]
  seq h := by rw [h.2.1]
  hc h := by rw [h.2.1]
  position q h := h.update (f := fun s => { s with seq := q }) rfl List.suffix_rfl
    (hQ _ _ ⟨rfl, rfl, rfl, rfl, rfl, rfl, rfl, rfl, rfl, rfl, rfl, rfl, rfl, rfl⟩) id
  later {l bs s s' ms} hms h := h.update (f := fun s => { s with sched := ms }) rfl hms
    (hQ _ _ ⟨rfl, rfl, rfl, rfl, rfl, rfl, rfl, rfl, rfl, rfl, rfl, rfl, rfl, rfl⟩) id
  move _ o h := by
    obtain ⟨hl, rfl, hp, moves, hq⟩ := h
    have same := otherMove_internal o
    exact ⟨_, o, hl, rfl, same.params.trans hp, by rw [same.sched]; exact moves, hQ _ _ same.block hq⟩
  reset ms hA _ h := by
    obtain ⟨_, rfl, _, _, hq⟩ := h
    exact hreset _ ms hA hq

theorem oneRun_accesses (hQ : ∀ s s', SameBlock s s' → Q s → Q s')
    (hreset : ∀ s ms, A .reset → Q s → G { s.blockReset with sched := ms } { s.blockReset with sched := ms }) :
    Accesses p (OneRun L p A Q) G where
  params h := h.2.2.1
  reads h := by rw [h.2.1]; exact .refl _
  widen _ h := h
  turn _ _ := (oneRun_steady hQ hreset).tracks_turn
  touched {l bs s s'} a h := by
    obtain ⟨k, e⟩ := touch_shape s a
    refine h.update (f := fun s => s.touch a) (by rw [e]) (by rw [e]) (fun hq => hQ s _ ?_ hq) id
    rw [e]
    exact ⟨rfl, rfl, rfl, rfl, rfl, rfl, rfl, rfl, rfl, rfl, rfl, rfl, rfl, rfl⟩
  stored {l bs s s'} a v _ h := by
    obtain ⟨w, k, e⟩ := cacheStore_shape s a v
    refine h.update (f := fun s => s.cacheStore a v) (by rw [e]) (by rw [e]) (fun hq => hQ s _ ?_ hq) id
    rw [e]
    exact ⟨rfl, rfl, rfl, rfl, rfl, rfl, rfl, rfl, rfl, rfl, rfl, rfl, rfl, rfl⟩
  flushed {l bs bs' s s'} b _ h := by
    obtain ⟨w, k, c, ms, hms, e⟩ := flushLine_shape s b
    refine h.update (f := fun s => s.flushLine b) (by rw [e]) (by rw [e]; exact hms) (fun hq => hQ s _ ?_ hq) id
    rw [e]
    exact ⟨rfl, rfl, rfl, rfl, rfl, rfl, rfl, rfl, rfl, rfl, rfl, rfl, rfl, rfl⟩
  invalidated {l bs s s'} b h := by
    obtain ⟨k, e⟩ := invalLine_shape s b
    refine h.update (f := fun s => s.invalLine b) (by rw [e]) (by rw [e]) (fun hq => hQ s _ ?_ hq) id
    rw [e]
    exact ⟨rfl, rfl, rfl, rfl, rfl, rfl, rfl, rfl, rfl, rfl, rfl, rfl, rfl, rfl⟩
  mmio off v h := h.update (f := fun s => { s with hc := hcRegWrite s.hc off v }) rfl List.suffix_rfl
    (hQ _ _ ⟨rfl, rfl, rfl, rfl, rfl, rfl, rfl, rfl, rfl, rfl, rfl, rfl, rfl, rfl⟩) id

end

/-! ### The results -/

/-- `RES0..RES2` are as in `s`. -/
def SameResults (s t : State) : Prop := t.res0 = s.res0 ∧ t.res1 = s.res1 ∧ t.res2 = s.res2

section
variable {s₀ : State} {p : Params}

/-- The results of one run stay, no reset being to come. -/
abbrev ResultsStay (s₀ : State) (p : Params) : Tracking := OneRun (fun _ => True) p (· ≠ .reset) (SameResults s₀)

theorem sameResults_block (s s' : State) (b : SameBlock s s') (h : SameResults s₀ s) : SameResults s₀ s' :=
  ⟨b.res0.trans h.1, b.res1.trans h.2.1, b.res2.trans h.2.2⟩

theorem resultsStay_steady : Steady (· ≠ .reset) (ResultsStay s₀ p) (ResultsStay s₀ p false []) :=
  oneRun_steady sameResults_block fun _ _ no => absurd rfl no

/-- The block's own updates during a command do not touch the results (10_state.md R26). -/
theorem resultsStay_tracked : Tracked p (ResultsStay s₀ p) (ResultsStay s₀ p false []) where
  toAccesses := oneRun_accesses sameResults_block fun _ _ no => absurd rfl no
  waitFrame _ _ _ := resultsStay_steady.tracks_waitFrame fun _ _ _ _ _ _ h => h
  lock h := h.update (f := fun s => { s with plock := true }) rfl List.suffix_rfl id id
  unlock h := h.update (f := fun s => { s with plock := false }) rfl List.suffix_rfl id id
  start h := h.update (f := fun s => { s with started := true }) rfl List.suffix_rfl id id
  raised b h := h.update (f := fun s => s.raiseIsr b) rfl List.suffix_rfl id id
  fault c i h := h.update (f := fun s => s.logFault c i) rfl List.suffix_rfl id id
  record r h := h.update (f := fun s => { s with compq := s.compq ++ [r] }) rfl List.suffix_rfl id id
  setEd e v h := h.update (f := fun s => s.setEd e v) rfl List.suffix_rfl id id
  setTd t v h := h.update (f := fun s => s.setTd t v) rfl List.suffix_rfl id id
  setIndexed t v h := h.update (f := fun s => s.setIndexed t v) rfl List.suffix_rfl id id
  setList k v h := h.update (f := fun s => s.setList k v) rfl List.suffix_rfl id id

/-- Settles O7: the command's own run leaves the results, and only a successful end writes them. -/
theorem errorsKeepResults : Obligations.ErrorsKeepResults := by
  intro i s t no e failed
  rw [exec_eq, runCommand] at e
  split at e
  · cases e
    exact ⟨rfl, rfl, rfl⟩
  · have run := resultsStay_tracked.tracks_command (R := ResultsStay s s.params) i s.args (s.accept (encode i)) _
      ⟨trivial, rfl, rfl, fun m hm h => no (h ▸ hm), rfl, rfl, rfl⟩
    revert run e
    cases (do turn; commonChecks i; bodyOf i s.args : Cmd Results) (s.accept (encode i)) with
    | ok r u =>
      intro e _
      cases e
      exact absurd rfl failed
    | error st u =>
      intro e run
      cases st with
      | err c => cases e; exact run.2.2.2.2.2
      | gone => cases e; exact run.2.2.2.2.2
      | stuck f => cases e

end

/-! ### A run beside one with other operands -/

/-- The state with its `ARG` registers and its moves to come mapped. -/
def State.veil (s : State) (g : Args → Args) (h : List Move → List Move) : State :=
  { s with
    arg0 := (g s.args).arg0, arg1 := (g s.args).arg1, arg2 := (g s.args).arg2, arg3 := (g s.args).arg3
    sched := h s.sched }

section
variable (g : Args → Args) (h : List Move → List Move) (s : State)

@[simp] theorem veil_params : (s.veil g h).params = s.params := rfl
@[simp] theorem veil_mem : (s.veil g h).mem = s.mem := rfl
@[simp] theorem veil_cache : (s.veil g h).cache = s.cache := rfl
@[simp] theorem veil_hc : (s.veil g h).hc = s.hc := rfl
@[simp] theorem veil_sched : (s.veil g h).sched = h s.sched := rfl
@[simp] theorem veil_physRead (a : Word) : (s.veil g h).physRead a = s.physRead a := rfl

theorem veil_ite {c c' : Prop} {dec : Decidable c} {dec' : Decidable c'} {a b a' b' : State} (hc : c' ↔ c)
    (ha : a' = a.veil g h) (hb : b' = b.veil g h) : (if c' then a' else b') = (if c then a else b).veil g h := by
  by_cases yes : c
  · rw [if_pos yes, if_pos (hc.2 yes), ha]
  · rw [if_neg yes, if_neg (hc.not.2 yes), hb]

theorem veil_servePhase (v : Serve) (ph : Phase) : servePhase (s.veil g h) v ph = (servePhase s v ph).veil g h := rfl
theorem veil_frameStart : frameStart (s.veil g h) = (frameStart s).veil g h := rfl
@[simp] theorem veil_lineAt (b : Nat) : lineAt (s.veil g h) b = lineAt s b := rfl

theorem veil_writeBackDone (flag : Bool) : writeBackDone flag (s.veil g h) = (writeBackDone flag s).veil g h := by
  exact veil_ite g h Iff.rfl rfl rfl

theorem veil_hcFrame (wb : Option Bool) : hcFrame wb (s.veil g h) = (hcFrame wb s).veil g h := by
  simp only [hcFrame, veil_hc, veil_frameStart, veil_writeBackDone]
  split
  · rfl
  · split
    · rfl
    · rfl

theorem veil_hcRestart (b : Bool) : hcRestart b (s.veil g h) = (hcRestart b s).veil g h := by
  exact veil_ite g h Iff.rfl (veil_ite g h Iff.rfl rfl rfl) (veil_ite g h Iff.rfl rfl rfl)

theorem veil_hcServe (p : Pos) : hcServe p (s.veil g h) = (hcServe p s).veil g h := by
  simp only [hcServe, veil_hc, veil_physRead, veil_servePhase]
  split
  · rfl
  · exact veil_ite g h Iff.rfl rfl rfl

theorem veil_hcEvent : hcEvent (s.veil g h) = (hcEvent s).veil g h := by
  simp only [hcEvent, veil_hc]
  split
  · rfl
  · split <;> rfl

theorem veil_hcOutcome (m : HcMove) : hcOutcome m (s.veil g h) = (hcOutcome m s).veil g h := by
  simp only [hcOutcome, veil_hc, veil_params]
  split
  · rfl
  · split
    · split
      · exact veil_ite g h Iff.rfl rfl rfl
      · exact veil_ite g h Iff.rfl rfl rfl
      · exact veil_ite g h Iff.rfl rfl rfl
      · exact veil_ite g h Iff.rfl rfl rfl
      · rfl
    · rfl

/-- The HC does not see the registers or the schedule. -/
theorem veil_hcMove (m : HcMove) : hcMove m (s.veil g h) = (hcMove m s).veil g h := by
  cases m with
  | frame wb => exact veil_hcFrame g h s wb
  | restart b => exact veil_hcRestart g h s b
  | serve p => exact veil_hcServe g h s p
  | event => exact veil_hcEvent g h s
  | noProgress => exact veil_hcOutcome g h s .noProgress
  | progress cbp u => exact veil_hcOutcome g h s (.progress cbp u)
  | retire cc t ec cbp carry => exact veil_hcOutcome g h s (.retire cc t ec cbp carry)
  | data a b => exact veil_hcOutcome g h s (.data a b)
  | reserved off b =>
    exact veil_ite g h Iff.rfl rfl rfl
  | status bits => rfl

theorem veil_hcMoves (ms : List HcMove) : hcMoves ms (s.veil g h) = (hcMoves ms s).veil g h := by
  induction ms generalizing s with
  | nil => rfl
  | cons m ms ih =>
    simp only [hcMoves, List.foldl_cons] at ih ⊢
    rw [veil_hcMove, ih]

theorem veil_evictWords (data : List Host.Cell) (ws : List Nat) (inter : List (List HcMove)) :
    evictWords data ws inter (s.veil g h) = (evictWords data ws inter s).veil g h := by
  induction ws generalizing s inter with
  | nil => rfl
  | cons a ws ih =>
    simp only [evictWords, veil_hcMoves]
    exact ih { hcMoves (inter.headD []) s with mem := store32 (hcMoves (inter.headD []) s).mem a (load32 data a) } _

theorem veil_cacheMove (m : CacheMove) : cacheMove m (s.veil g h) = (cacheMove m s).veil g h := by
  refine veil_ite g h Iff.rfl rfl ?_
  cases m with
  | writeBack b inter =>
    simp only [veil_cache]
    split
    · rfl
    · exact veil_ite g h Iff.rfl (by rw [veil_evictWords]; rfl) rfl
  | drop b =>
    simp only [veil_cache]
    split
    · rfl
    · exact veil_ite g h Iff.rfl rfl rfl

theorem veil_touch (a : Nat) : (s.veil g h).touch a = (s.touch a).veil g h := by
  exact veil_ite g h Iff.rfl rfl rfl

theorem veil_cacheStore (a v : Word) : (s.veil g h).cacheStore a v = (s.cacheStore a v).veil g h := by
  exact veil_ite g h Iff.rfl rfl rfl

theorem veil_cacheStoreByte (a : Nat) (b : Byte) :
    (s.veil g h).cacheStoreByte a b = (s.cacheStoreByte a b).veil g h := by
  exact veil_ite g h Iff.rfl rfl rfl

theorem veil_invalLine (b : Nat) : (s.veil g h).invalLine b = (s.invalLine b).veil g h := by
  exact veil_ite g h Iff.rfl rfl rfl

/-- The host's accesses to anything but the block's own registers do not see them. -/
theorem veil_otherMove {m : Move} {t : State} (hr : m ≠ .reset)
    (hm : ∀ off size v, m ≠ .host (.blockRead off size) ∧ m ≠ .host (.blockWrite off size v))
    (o : otherMove m s = .on t) : otherMove m (s.veil g h) = .on (t.veil g h) := by
  cases m with
  | block => cases o; rfl
  | timer => cases o; rfl
  | reset => exact absurd rfl hr
  | hc m =>
    cases o
    exact congrArg MoveEnd.on (veil_hcMove g h s m)
  | cache m =>
    cases o
    exact congrArg MoveEnd.on (veil_cacheMove g h s m)
  | host m =>
    cases m with
    | blockRead off size => exact absurd rfl (hm off size 0#32).1
    | blockWrite off size v => exact absurd rfl (hm off size v).2
    | hcRead off => cases o; rfl
    | hcWrite off v => cases o; exact congrArg MoveEnd.on (veil_ite g h Iff.rfl rfl rfl)
    | memRead a =>
      cases o
      exact congrArg MoveEnd.on (veil_ite g h Iff.rfl rfl (by rw [veil_touch]; rfl))
    | memWrite a b =>
      cases o
      exact congrArg MoveEnd.on (veil_ite g h Iff.rfl rfl (veil_cacheStoreByte g h s a.toNat b))

end

/-- A mapping of the schedule under which the HC steps at its front stay at its front. -/
def LeadsAlike (g : Args → Args) (h : List Move → List Move) (ms : List Move) : Prop :=
  ∀ ms' u, ms' <:+ ms → hcLead (h ms') (u.veil g h) = (hcLead ms' u).veil g h

theorem veil_flushWords {g : Args → Args} {h : List Move → List Move} (data : List Host.Cell) (ws : List Nat)
    {s : State} {ms : List Move} (hl : LeadsAlike g h ms) (hms : s.sched <:+ ms) :
    flushWords data ws (s.veil g h) = (flushWords data ws s).veil g h := by
  induction ws generalizing s with
  | nil => rfl
  | cons a ws ih =>
    simp only [flushWords, veil_sched, hl _ s hms]
    obtain ⟨w, c, ms', hs, e⟩ := hcLead_shape s.sched s
    exact ih (s := { hcLead s.sched s with mem := store32 (hcLead s.sched s).mem a (load32 data a) })
      (by rw [e]; exact hs.trans hms)

theorem veil_flushLine {g : Args → Args} {h : List Move → List Move} {s : State} (hl : LeadsAlike g h s.sched)
    (b : Nat) : (s.veil g h).flushLine b = (s.flushLine b).veil g h := by
  refine veil_ite g h Iff.rfl rfl ?_
  simp only [veil_cache]
  split
  · rfl
  · exact veil_ite g h Iff.rfl (by rw [veil_flushWords _ _ hl List.suffix_rfl]; rfl) rfl

/-- The second run is the first one veiled, by mappings that the moves to come allow. -/
def Veiled (V : (Args → Args) → (List Move → List Move) → List Move → Prop) (p : Params) : Tracking :=
  fun _ _ s s' => s.params = p ∧ ∃ g h, V g h s.sched ∧ s' = s.veil g h

/-- What the veil must be: it stays one as moves are taken, and is not seen in the middle of a write-back. -/
structure Veil (V : (Args → Args) → (List Move → List Move) → List Move → Prop) : Prop where
  later : ∀ {g h ms ms'}, ms' <:+ ms → V g h ms → V g h ms'
  leads : ∀ {g h ms}, V g h ms → LeadsAlike g h ms

section
variable {V : (Args → Args) → (List Move → List Move) → List Move → Prop} {p : Params} {G : State → State → Prop}
  {l l' : Bool} {bs bs' : List Nat} {s s' : State}

/-- An update that does not see the veil and leaves the moves alone. -/
theorem Veiled.update {f : State → State} (v : Veiled V p l bs s s') (hp : (f s).params = s.params)
    (hm : (f s).sched = s.sched) (hf : ∀ g h, f (s.veil g h) = (f s).veil g h) : Veiled V p l' bs' (f s) (f s') := by
  obtain ⟨params, g, h, hv, rfl⟩ := v
  exact ⟨hp.trans params, g, h, by rw [hm]; exact hv, hf g h⟩

theorem veiled_accesses (W : Veil V) (turn : ∀ l bs, Tracks (Veiled V p) G l bs turn turn l bs) :
    Accesses p (Veiled V p) G where
  params v := v.1
  reads v := by
    obtain ⟨_, g, h, _, rfl⟩ := v
    exact ⟨⟨rfl, rfl, rfl, rfl, rfl⟩, rfl, rfl, rfl, rfl, rfl⟩
  widen _ v := v
  turn := turn
  touched {l bs s s'} a v := by
    obtain ⟨k, e⟩ := touch_shape s a
    exact v.update (f := fun s => s.touch a) (by rw [e]) (by rw [e]) fun g h => veil_touch g h s a
  stored {l bs s s'} a w _ v := by
    obtain ⟨m, k, e⟩ := cacheStore_shape s a w
    exact v.update (f := fun s => s.cacheStore a w) (by rw [e]) (by rw [e]) fun g h => veil_cacheStore g h s a w
  flushed {l bs bs' s s'} b _ v := by
    obtain ⟨params, g, h, hv, rfl⟩ := v
    obtain ⟨w, k, c, ms, hms, e⟩ := flushLine_shape s b
    refine ⟨by rw [e]; exact params, g, h, W.later ?_ hv, veil_flushLine (W.leads hv) b⟩
    rw [e]
    exact hms
  invalidated {l bs s s'} b v := by
    obtain ⟨k, e⟩ := invalLine_shape s b
    exact v.update (f := fun s => s.invalLine b) (by rw [e]) (by rw [e]) fun g h => veil_invalLine g h s b
  mmio off w v := v.update (f := fun s => { s with hc := hcRegWrite s.hc off w }) rfl rfl fun _ _ => rfl

theorem veiled_tracked (W : Veil V) (turn : ∀ l bs, Tracks (Veiled V p) G l bs turn turn l bs)
    (wait : ∀ e f0 k, Tracks (Veiled V p) G false [] (waitFrame e f0 k) (waitFrame e f0 k) false []) :
    Tracked p (Veiled V p) G where
  toAccesses := veiled_accesses W turn
  waitFrame := wait
  lock v := v.update (f := fun s => { s with plock := true }) rfl rfl fun _ _ => rfl
  unlock v := v.update (f := fun s => { s with plock := false }) rfl rfl fun _ _ => rfl
  start v := v.update (f := fun s => { s with started := true }) rfl rfl fun _ _ => rfl
  raised b v := v.update (f := fun s => s.raiseIsr b) rfl rfl fun _ _ => rfl
  fault c i v := v.update (f := fun s => s.logFault c i) rfl rfl fun _ _ => rfl
  record r v := v.update (f := fun s => { s with compq := s.compq ++ [r] }) rfl rfl fun _ _ => rfl
  setEd e w v := v.update (f := fun s => s.setEd e w) rfl rfl fun _ _ => rfl
  setTd t w v := v.update (f := fun s => s.setTd t w) rfl rfl fun _ _ => rfl
  setIndexed t w v := v.update (f := fun s => s.setIndexed t w) rfl rfl fun _ _ => rfl
  setList k w v := v.update (f := fun s => s.setList k w) rfl rfl fun _ _ => rfl

/-- A command of the veiled run ends with the veiled state. -/
theorem veiled_finish {r r' : EStateM.Result Stop State Results}
    (run : Alike (Veiled V p false []) (Stops (Veiled V p false []) (Veiled V p false [])) r r') {t : State}
    (e : finish r = .next t) : ∃ t', finish r' = .next t' ∧ Veiled V p false [] t t' := by
  cases r with
  | ok v u =>
    cases r' with
    | ok v' u' =>
      cases e
      obtain ⟨rfl, h⟩ := run
      exact ⟨_, rfl, h.update (f := fun s => s.endOk v) rfl rfl fun _ _ => rfl⟩
    | error st' u' => exact run.elim
  | error st u =>
    cases r' with
    | ok v' u' => exact run.elim
    | error st' u' =>
      obtain ⟨rfl, h⟩ := run
      cases st with
      | err c =>
        cases e
        exact ⟨_, rfl, Veiled.update (l := false) (bs := []) (f := fun s => s.endWithError c) h rfl rfl fun _ _ => rfl⟩
      | gone =>
        cases e
        exact ⟨_, rfl, h⟩
      | stuck f => cases e

end

/-! ### Other operands -/

/-- With the same moves to come the HC steps at the front are the same. -/
theorem leadsAlike_id (g : Args → Args) (ms : List Move) : LeadsAlike g id ms := by
  intro ms' u _
  induction ms' generalizing u with
  | nil => rfl
  | cons m ms' ih =>
    cases m with
    | block => rfl
    | hc m =>
      change hcLead (id ms') (hcMove m (u.veil g id)) = (hcLead ms' (hcMove m u)).veil g id
      rw [veil_hcMove]
      exact ih _ ((List.suffix_cons _ _).trans ‹_›)
    | host m => rfl
    | cache m => rfl
    | timer => rfl
    | reset => rfl

/-- The moves that do not reach the block's registers. -/
def leavesBlock (m : Move) : Prop :=
  m ≠ .reset ∧ ∀ off size v, m ≠ .host (.blockRead off size) ∧ m ≠ .host (.blockWrite off size v)

/-- The second run holds the operands `a`. -/
def OtherOperands (a : Args) (g : Args → Args) (h : List Move → List Move) (ms : List Move) : Prop :=
  g = (fun _ => a) ∧ h = id ∧ ∀ m ∈ ms, leavesBlock m

theorem otherOperands_veil (a : Args) : Veil (OtherOperands a) where
  later hms h := ⟨h.1, h.2.1, fun m hm => h.2.2 m (hms.subset hm)⟩
  leads h := by
    obtain ⟨_, rfl, _⟩ := h
    exact leadsAlike_id _ _

section
variable {a : Args} {p : Params}

theorem otherOperands_steady : Steady leavesBlock (Veiled (OtherOperands a) p)
    (Veiled (OtherOperands a) p false []) where
  moves v := by
    obtain ⟨_, _, _, hv, _⟩ := v
    exact hv.2.2
  sched v := by
    obtain ⟨_, _, _, ⟨_, rfl, _⟩, rfl⟩ := v
    rfl
  seq v := by
    obtain ⟨_, _, _, _, rfl⟩ := v
    rfl
  hc v := by
    obtain ⟨_, _, _, _, rfl⟩ := v
    rfl
  position q v := v.update (f := fun s => { s with seq := q }) rfl rfl fun _ _ => rfl
  later hms v := by
    obtain ⟨hp, g, h, ⟨hg, rfl, hm⟩, rfl⟩ := v
    exact ⟨hp, g, id, ⟨hg, rfl, fun m h' => hm m (hms.subset h')⟩, rfl⟩
  move hm o v := by
    obtain ⟨hp, g, h, hv, rfl⟩ := v
    have same := otherMove_internal o
    exact ⟨_, veil_otherMove g h _ hm.1 hm.2 o, same.params.trans hp, g, h, by rw [same.sched]; exact hv, rfl⟩
  reset _ no _ _ := absurd rfl no.1

theorem otherOperands_tracked :
    Tracked p (Veiled (OtherOperands a) p) (Veiled (OtherOperands a) p false []) :=
  veiled_tracked (otherOperands_veil a) (fun _ _ => otherOperands_steady.tracks_turn) fun _ _ _ =>
    otherOperands_steady.tracks_waitFrame fun _ _ _ _ _ _ v => v

end

/-- A waiting command goes on alike whatever the `ARG` registers hold (10_state.md R24, R25). -/
theorem wait_ignores_operands {s t : State} {run : Running} {e r : Nat} {f0 : BitVec 16} {k : Cont} (a : Args)
    (hs : s.seq = .wait run e f0 r k) (hm : ∀ m ∈ s.sched, leavesBlock m) (h : step s = .next t) :
    step (s.veil (fun _ => a) id) = .next (t.veil (fun _ => a) id) := by
  have waiting : ∀ u : State, u.seq = .wait run e f0 r k → step u = continueWait f0 r k u := fun u hu => by
    rw [step, hu]
  rw [waiting s hs] at h
  rw [waiting (s.veil (fun _ => a) id) hs]
  have alike := alike_bind (otherOperands_steady.waitFrom_alike (f0 := f0) (n := max 3 (r + 1)) (fun _ _ _ _ _ v => v)
    (le_max_left _ _) (lt_of_lt_of_le (Nat.lt_succ_self r) (le_max_right _ _)) hs
    (⟨rfl, fun _ => a, id, ⟨rfl, rfl, hm⟩, rfl⟩ : Veiled (OtherOperands a) s.params false [] s _)) fun q =>
      otherOperands_tracked.tracks_afterWait k q
  obtain ⟨t', e', _, g, h', ⟨rfl, rfl, _⟩, rfl⟩ := veiled_finish alike h
  exact e'

/-! ### An operand written late -/

/-- The operands with the one at an offset written. -/
def lateArgs (off : BitVec 8) (v : Word) (a : Args) : Args :=
  if off = 0x10#8 then { a with arg0 := v }
  else if off = 0x14#8 then { a with arg1 := v }
  else if off = 0x18#8 then { a with arg2 := v }
  else { a with arg3 := v }

theorem blockRegWrite_late {off : BitVec 8} (h : off ∈ [0x10#8, 0x14#8, 0x18#8, 0x1C#8]) (v : Word) (s : State) :
    blockRegWrite s off.toNat v = s.veil (lateArgs off v) id := by
  simp only [List.mem_cons, List.not_mem_nil, or_false] at h
  rcases h with rfl | rfl | rfl | rfl
  · rfl
  · rfl
  · rfl
  · rfl

/-- The late write. -/
def lateMove (off : BitVec 8) (v : Word) : Move := .host (.blockWrite off 4 v)

theorem otherMove_late {off : BitVec 8} (h : off ∈ [0x10#8, 0x14#8, 0x18#8, 0x1C#8]) (v : Word) (s : State) :
    otherMove (lateMove off v) s = .on (s.veil (lateArgs off v) id) := by
  have aligned : alignedWordAccess off 4 = true := by
    simp only [List.mem_cons, List.not_mem_nil, or_false] at h
    rcases h with rfl | rfl | rfl | rfl
    · rfl
    · rfl
    · rfl
    · rfl
  simp only [lateMove, otherMove, hostMove, aligned, if_true, blockRegWrite_late h]

/-- In the second run the late write is still to come, after sequencer's steps alone, or has come. -/
def Late (off : BitVec 8) (v : Word) (g : Args → Args) (h : List Move → List Move) (ms : List Move) : Prop :=
  (g = id ∧ h = (· ++ [lateMove off v]) ∧ ∀ m ∈ ms, m = .block) ∨ (g = lateArgs off v ∧ h = id ∧ ms = [])

theorem late_veil (off : BitVec 8) (v : Word) : Veil (Late off v) where
  later {g h ms ms'} hms hv := by
    rcases hv with ⟨hg, hh, blocks⟩ | ⟨hg, hh, rfl⟩
    · exact .inl ⟨hg, hh, fun m hm => blocks m (hms.subset hm)⟩
    · exact .inr ⟨hg, hh, List.suffix_nil.1 hms⟩
  leads {g h ms} hv := by
    rcases hv with ⟨rfl, rfl, blocks⟩ | ⟨_, rfl, _⟩
    · intro ms' u hms
      cases ms' with
      | nil => rfl
      | cons m ms' =>
        obtain rfl := blocks m (hms.subset List.mem_cons_self)
        rfl
    · exact leadsAlike_id _ _

section
variable {off : BitVec 8} {v : Word} {p : Params} {l : Bool} {bs : List Nat}
  (hoff : off ∈ [0x10#8, 0x14#8, 0x18#8, 0x1C#8])
include hoff

theorem late_turn : Tracks (Veiled (Late off v) p) (Veiled (Late off v) p false []) l bs turn turn l bs := by
  rintro s _ ⟨hp, g, h, hv, rfl⟩
  rcases hv with ⟨rfl, rfl, blocks⟩ | ⟨rfl, rfl, none⟩
  · cases hs : s.sched with
    | nil =>
      have run : turn (s.veil id (· ++ [lateMove off v])) =
          interfere [] ((s.veil id (· ++ [lateMove off v])).veil (lateArgs off v) id) := by
        simp only [turn, veil_sched, hs, List.nil_append]
        simp only [interfere, lateMove]
        rw [← lateMove, otherMove_late hoff]
      rw [run, turn, hs]
      exact ⟨rfl, hp, lateArgs off v, id, .inr ⟨rfl, rfl, rfl⟩, rfl⟩
    | cons m ms =>
      rw [hs] at blocks
      obtain rfl := blocks m List.mem_cons_self
      simp only [turn, veil_sched, hs, List.cons_append]
      exact ⟨rfl, hp, id, _, .inl ⟨rfl, rfl, fun m hm => blocks m (List.mem_cons_of_mem _ hm)⟩, rfl⟩
  · simp only [turn, veil_sched, none]
    exact ⟨rfl, hp, lateArgs off v, id, .inr ⟨rfl, rfl, rfl⟩, rfl⟩

omit hoff in
theorem late_waitEnds {E : State → State → Prop} (f0 : BitVec 16) (r : Nat) {s s' : State}
    (moved : s'.frameMoved f0 = s.frameMoved f0)
    (after : Veiled (Late off v) p false [] { s with sched := [] } { s' with sched := [] }) :
    Alike (Veiled (Late off v) p false []) (Stops E (Veiled (Late off v) p false []))
      (waitSteps f0 [] r s) (waitSteps f0 [] r s') := by
  by_cases hm : s.frameMoved f0 = true
  · rw [waitSteps, waitSteps, moved, if_pos hm, if_pos hm]
    exact ⟨rfl, after⟩
  · rw [waitSteps, waitSteps, moved, if_neg hm, if_neg hm]
    exact ⟨rfl, after⟩

theorem late_waitSteps {E : State → State → Prop} (f0 : BitVec 16) (ms : List Move) (r : Nat) {s : State}
    (hp : s.params = p) (blocks : ∀ m ∈ ms, m = .block) :
    Alike (Veiled (Late off v) p false []) (Stops E (Veiled (Late off v) p false []))
      (waitSteps f0 ms r s) (waitSteps f0 (ms ++ [lateMove off v]) r (s.veil id (· ++ [lateMove off v]))) := by
  have moved : (s.veil id (· ++ [lateMove off v])).frameMoved f0 = s.frameMoved f0 := rfl
  induction ms with
  | nil =>
    have run : waitSteps f0 [lateMove off v] r (s.veil id (· ++ [lateMove off v])) =
        waitSteps f0 [] r ((s.veil id (· ++ [lateMove off v])).veil (lateArgs off v) id) := by
      simp only [waitSteps, lateMove]
      rw [← lateMove, otherMove_late hoff]
    rw [List.nil_append, run]
    exact late_waitEnds f0 r rfl ⟨hp, lateArgs off v, id, .inr ⟨rfl, rfl, rfl⟩, rfl⟩
  | cons m ms ih =>
    obtain rfl := blocks m List.mem_cons_self
    have rest : ∀ m ∈ ms, m = .block := fun m hm => blocks m (List.mem_cons_of_mem _ hm)
    by_cases hm : s.frameMoved f0 = true
    · rw [List.cons_append, waitSteps, waitSteps, moved, if_pos hm, if_pos hm]
      exact ⟨rfl, hp, id, _, .inl ⟨rfl, rfl, rest⟩, rfl⟩
    · rw [List.cons_append, waitSteps, waitSteps, moved, if_neg hm, if_neg hm]
      exact ih rest

theorem late_waitFrom (f0 : BitVec 16) (r : Nat) :
    Tracks (Veiled (Late off v) p) (Veiled (Late off v) p false []) false [] (waitFrom f0 r) (waitFrom f0 r) false [] := by
  have awake : Tracks (Veiled (Late off v) p) (Veiled (Late off v) p false []) false []
      (modify fun s => { s with seq := .exec s.seq.running } : Cmd PUnit)
      (modify fun s => { s with seq := .exec s.seq.running }) false [] := tracks_modify fun s s' h =>
    h.update (f := fun s => { s with seq := .exec s.seq.running }) rfl rfl fun _ _ => rfl
  rintro s _ ⟨hp, g, h, hv, rfl⟩
  refine alike_bind (x := fun s => waitSteps f0 s.sched r s) (Q := Veiled (Late off v) p false []) ?_ fun q =>
    tracks_bind awake fun _ => tracks_pure q
  rcases hv with ⟨rfl, rfl, blocks⟩ | ⟨rfl, rfl, none⟩
  · exact late_waitSteps hoff f0 s.sched r hp blocks
  · change Alike _ _ (waitSteps f0 s.sched r s) (waitSteps f0 s.sched r (s.veil (lateArgs off v) id))
    rw [none]
    exact late_waitEnds f0 r rfl ⟨hp, lateArgs off v, id, .inr ⟨rfl, rfl, rfl⟩, rfl⟩

theorem late_tracked : Tracked p (Veiled (Late off v) p) (Veiled (Late off v) p false []) :=
  veiled_tracked (late_veil off v) (fun _ _ => late_turn hoff) fun e f0 k =>
    tracks_bind (tracks_modify fun _ _ h => h.update (f := fun s => { s with seq := .wait s.seq.running e f0 0 k })
      rfl rfl fun _ _ => rfl) fun _ => late_waitFrom hoff _ _

end

/-- A running command uses its snapshot: a late write of an `ARG` register changes that register alone, or is still
to come when the command has ended (10_state.md R24, 70_reset_and_hazards.md R515). -/
theorem exec_late {i : Instr} {s t : State} {off : BitVec 8} (v : Word) (idle : s.seq = .idle)
    (hoff : off ∈ [0x10#8, 0x14#8, 0x18#8, 0x1C#8]) (blocks : ∀ m ∈ s.sched, m = .block) (e : exec i s = .next t) :
    exec i { s with sched := s.sched ++ [lateMove off v] } = .next (blockRegWrite t off.toNat v) ∨
    exec i { s with sched := s.sched ++ [lateMove off v] } = .next { t with sched := t.sched ++ [lateMove off v] } := by
  have free : ∀ u : State, u.seq = .idle → exec i u =
      finish ((do turn; commonChecks i; bodyOf i u.args) (u.accept (encode i))) := fun u hu => by
    rw [exec_eq, runCommand, if_neg (by rw [hu]; exact Bool.false_ne_true)]
  rw [free s idle] at e
  rw [free { s with sched := s.sched ++ [lateMove off v] } idle]
  have alike := (late_tracked hoff).tracks_command (R := Veiled (Late off v) s.params) i s.args (s.accept (encode i))
    _ ⟨rfl, id, (· ++ [lateMove off v]), .inl ⟨rfl, rfl, blocks⟩, rfl⟩
  obtain ⟨t', e', _, g, h, hv, rfl⟩ := veiled_finish alike e
  rcases hv with ⟨rfl, rfl, _⟩ | ⟨rfl, rfl, _⟩
  · exact .inr e'
  · rw [blockRegWrite_late hoff]
    exact .inl e'

/-- Settles O15: `step_operands`, `exec_late` and `wait_ignores_operands`. -/
theorem blockNeverWritesOperands : Obligations.BlockNeverWritesOperands := by
  refine ⟨fun s t hm e => ?_, fun i s t n off v idle hoff blocks e => ?_, fun s t run e r f0 k a b c d hs hm h => ?_⟩
  · have same := step_operands hm e
    exact ⟨same.arg0, same.arg1, same.arg2, same.arg3, same.autoDrain, same.ier⟩
  · exact exec_late v idle hoff (fun m hm => List.eq_of_mem_replicate (blocks ▸ hm)) e
  · exact wait_ignores_operands ⟨a, b, c, d⟩ hs hm h

end Sys2Proof.Machine
end

section
/-! SUPPORT. What a step can do to the parameters and the block's tables, said once: under every schedule it leaves
them as they are, or a reset clears them, or a command makes one of the updates that `Does` lists, with what it has
checked before it; a drain makes several. -/

namespace Sys2Proof.Machine

variable {α β : Type}

/-! ### Runs and what they leave -/

/-- The run from `s` ends with an answer where `Q` holds, with an error where `E` does, abandoned or waiting where
`G` does, or stuck. -/
def Goes (Q : α → State → Prop) (E G : State → Prop) (c : Cmd α) (s : State) : Prop :=
  match c s with
  | .ok a t => Q a t
  | .error (.err _) t => E t
  | .error .gone t => G t
  | .error (.stuck _) _ => True

section
variable {Q Q₁ : α → State → Prop} {Q' : β → State → Prop} {E G : State → Prop} {s : State}

theorem goes_bind {x : Cmd α} {f : α → Cmd β} (hx : Goes Q E G x s) (hf : ∀ a t, Q a t → Goes Q' E G (f a) t) :
    Goes Q' E G (x >>= f) s := by
  unfold Goes at hx ⊢
  cases e : x s with
  | ok a t =>
    rw [e] at hx
    rw [run_bind_ok e]
    exact hf a t hx
  | error st t =>
    rw [e] at hx
    rw [run_bind_error e]
    cases st with
    | err c => exact hx
    | gone => exact hx
    | stuck f => trivial

theorem goes_mono {c : Cmd α} (h : Goes Q E G c s) (hQ : ∀ a t, Q a t → Q₁ a t) : Goes Q₁ E G c s := by
  unfold Goes at h ⊢
  split at h
  · exact hQ _ _ h
  · exact h
  · exact h
  · exact h

theorem goes_pure {a : α} (h : Q a s) : Goes Q E G (pure a) s := h

theorem goes_raise {e : ErrCode} (h : E s) : Goes Q E G (raise e : Cmd α) s := h

theorem goes_modify {Q : PUnit → State → Prop} {f : State → State} (h : Q ⟨⟩ (f s)) :
    Goes Q E G (modify f : Cmd PUnit) s := h

theorem goes_set {Q : PUnit → State → Prop} {t : State} (h : Q ⟨⟩ t) : Goes Q E G (set t : Cmd PUnit) s := h

theorem goes_orStop {f : Fault} {o : Option α} (h : ∀ a, o = some a → Q a s) : Goes Q E G (orStop f o) s := by
  cases o with
  | none => trivial
  | some a => exact h a rfl

theorem goes_read {f : State → Cmd β} (h : Goes Q' E G (f s) s) : Goes Q' E G (get >>= f) s := by
  unfold Goes
  rw [run_bind_ok (run_get s)]
  exact h

theorem goes_ite {c : Prop} [Decidable c] {x y : Cmd α} (hx : c → Goes Q E G x s) (hy : ¬ c → Goes Q E G y s) :
    Goes Q E G (if c then x else y) s := by
  split
  · exact hx ‹_›
  · exact hy ‹_›

end

/-! ### The tables during the accesses -/

/-- A reset has cleared the tables and the sequencer (10_state.md R43). -/
structure Cleared (s : State) : Prop where
  edt : s.edt = []
  tdt : s.tdt = []
  idxValid : s.idxValid = []
  place : s.place = []
  seq : s.seq = .idle

theorem sameTables_block {u : State} (s s' : State) (b : SameBlock s s') (h : SameTables u s) : SameTables u s' :=
  h.trans ⟨b.params, b.edt, b.tdt, b.idxValid, b.place⟩

/-- One run whose tables are those of `u`. -/
abbrev OnTables (L : Bool → Prop) (u : State) : Tracking := OneRun L u.params (fun _ => True) (SameTables u)

theorem cleared_reset (s : State) (ms : List Move) : Cleared { s.blockReset with sched := ms } :=
  ⟨rfl, rfl, rfl, rfl, rfl⟩

theorem onTables_accesses (L : Bool → Prop) (u : State) :
    Accesses u.params (OnTables L u) (fun s _ => Cleared s) :=
  oneRun_accesses sameTables_block fun s ms _ _ => cleared_reset s ms

/-- The accesses of a command, which raise no error. -/
abbrev quietly (u : State) : Accesses u.params (OnTables (· = true) u) (fun s _ => Cleared s) :=
  onTables_accesses _ u

section
variable {L : Bool → Prop} {u s : State} {E G : State → Prop} {l : Bool} {bs bs' : List Nat}

theorem goes_of_alike {G' : State → State → Prop} {c : Cmd α}
    (run : Alike (OnTables L u l bs') (Stops (OnTables L u false []) G') (c s) (c s))
    (hE : L false → ∀ t, SameTables u t → E t) (hG : ∀ t t', G' t t' → G t) :
    Goes (fun _ => SameTables u) E G c s := by
  unfold Goes
  revert run
  cases c s with
  | ok a t => exact fun run => run.2.2.2.2.2
  | error st t =>
    intro run
    cases st with
    | err e => exact hE run.2.1 t run.2.2.2.2.2
    | gone => exact hG t t run.2
    | stuck f => trivial

/-- What only accesses memory and the HC leaves the tables, or is abandoned. -/
theorem goes_access (hG : ∀ t, Cleared t → G t) {c : Cmd α}
    (h : Tracks (OnTables (· = true) u) (fun s _ => Cleared s) true bs c c true bs') (hs : SameTables u s) :
    Goes (fun _ => SameTables u) E G c s :=
  goes_of_alike (h s s ⟨rfl, rfl, hs.params, fun _ _ => trivial, hs⟩) (fun no => nomatch no) fun t _ h => hG t h

end

/-! ### The updates of the tables -/

/-- What a continuation has checked of its handles (10_state.md R38). -/
def State.checked (s : State) : Cont → Prop
  | .quiesce _ => True
  | .close e => (s.ed e).alloc = true
  | .abort e t => (s.ed e).alloc = true ∧ (s.td t).alloc = true ∧ (s.td t).owner = e ∧ t ≠ (s.ed e).tail

theorem waitOwned_iff {s : State} {run : Running} {e : Nat} {f0 : BitVec 16} {r : Nat} {k : Cont}
    (h : s.seq = .wait run e f0 r k) : s.waitOwned ↔ s.checked k := by
  rw [State.waitOwned, h]
  cases k with
  | quiesce e => rfl
  | close e => rfl
  | abort e t => rfl

/-- A new endpoint and its placeholder (40_endpoint.md R200). -/
def State.built (u : State) (e t : Nat) (w : Ed) : State := (u.setEd e w).setTd t { alloc := true, owner := e }

/-- An endpoint at the end of a placement list (40_endpoint.md R212, 41_scheduler.md R256). -/
def State.appended (u : State) (k e : Nat) : State :=
  (u.setList k (u.list k ++ [e])).setEd e { u.ed e with slot := k }

/-- The slots a new endpoint may get (10_state.md R34). -/
def slotFor (w : Ed) (k : Nat) : Prop :=
  match w.type with
  | .control => k = 63
  | .bulk => k = 64
  | .interrupt => ∃ g < 2 ^ (5 - w.depth), k = node w.depth g

/-- The list an endpoint is unlinked from (40_endpoint.md R208). -/
def unlinkSlot (w : Ed) : Nat :=
  match w.type with
  | .control => 63
  | .bulk => 64
  | .interrupt => w.slot

/-- A slot reserved for a new placeholder (42_transfer.md R300). -/
def State.reserved (u : State) (e n : Nat) (a : Bool) : State :=
  (u.setEd e { u.ed e with afterSetup := a }).setTd n { alloc := true, owner := e }

/-- The placeholder filled and indexed, `n` the placeholder after it (42_transfer.md R300). -/
def State.filled (u : State) (e n : Nat) (st : Word) : State :=
  ((u.setTd (u.ed e).tail { u.td (u.ed e).tail with status := st, next := some n }).setIndexed (u.ed e).tail true).setEd
    e { u.ed e with tail := n }

theorem reserved_ed_self (u : State) (e n : Nat) (a : Bool) : (u.reserved e n a).ed e = { u.ed e with afterSetup := a } := by
  simp [State.reserved]

/-- A TD finished (43_done_queue.md R357). -/
def State.marked (u : State) (t : Nat) : State := u.setTd t { u.td t with status := setFinished (u.td t).status }

/-- A TD the drain resolves: it has an index entry, or lies on an allocated endpoint's queue before the placeholder
(43_done_queue.md R356). -/
def State.resolved (u : State) (t : Nat) : Prop :=
  u.indexed t = true ∨ ∃ e r, (u.ed e).alloc = true ∧ Chain u (u.ed e).head r t ∧ (u.ed e).tail ∉ r ++ [t]

/-- The first TD of its owner's queue that is not finished (43_done_queue.md R357). -/
def State.firstUnfinished (u : State) (t : Nat) : Prop :=
  ∃ l, Chain u (u.ed (u.td t).owner).head l t ∧ (∀ x ∈ l, (u.td x).finished = true) ∧ (u.td t).finished = false

/-- The updates of the tables and what the command has checked. `W` is what is known of a command that begins in
the frame wait: that it waits for what it has checked. -/
inductive Does (W : Prop) (u : State) : State → Prop
  | opened {e t k : Nat} {w : Ed} (he : u.allocEd = some e) (ht : u.allocTd = some t) (alloc : w.alloc = true)
      (head : w.head = t) (tail : w.tail = t) (depth : w.depth ≤ 5) (slot : slotFor w k) :
      Does W u ((u.built e t w).appended k e)
  | rejected {e t : Nat} {w : Ed} (he : u.allocEd = some e) (ht : u.allocTd = some t) :
      Does W u (((u.built e t w).freeTd t).freeEd e)
  | closed {e : Nat} {ts : List Nat} (checked : W → u.checked (.close e)) (member : e ∈ u.list (unlinkSlot (u.ed e)))
      (queue : u.queue e = some ts) :
      Does W u (((u.setList (unlinkSlot (u.ed e)) ((u.list (unlinkSlot (u.ed e))).erase e)).freeTds
        (ts ++ [(u.ed e).tail])).freeEd e)
  | queued {e n : Nat} (a more : Bool) (len : Word) (short : len.toNat ≤ 8192) (he : u.validEd e = true)
      (hn : u.allocTd = some n) :
      Does W u ((u.reserved e n a).filled e n (queuedStatus more len))
  | completed {e : Nat} {g : List Nat} {after : Nat} (he : u.validEd e = true)
      (group : checkGroup u (u.ed e).tail u.params.ntd (u.ed e).head = some (.finished g after)) :
      Does W u ((u.freeTds g).setEd e { u.ed e with head := after })
  | aborted {e t : Nat} {found : Option (List Nat)} {g : List Nat × Nat} (checked : W → u.checked (.abort e t))
      (before : u.before e t = some found) (group : walkGroup u (u.ed e).tail u.params.ntd t = some g) :
      Does W u (u.cutGroup e (found.getD []) g.1 g.2)
  | finished {t : Nat} (known : u.resolved t) (first : u.firstUnfinished t) : Does W u (u.marked t)
  | unwound {t nx : Nat} {g : List Nat × Nat} (known : u.resolved t) (first : u.firstUnfinished t)
      (next : (u.td t).next = some nx)
      (group : walkGroup (u.marked t) (u.ed (u.td t).owner).tail u.params.ntd nx = some g) :
      Does W u ((u.marked t).unwindGroup t g.1 g.2)

/-- Updates of the tables lead from those of `u` to those of the state. -/
def Left (W : Prop) (u s : State) : Prop := ∃ v, Relation.ReflTransGen (Does W) u v ∧ SameTables v s

/-- The block waits for what it has checked, the tables as in `u`. -/
def Waits (W : Prop) (u s : State) : Prop :=
  SameTables u s ∧ ∃ run e f0 r k, s.seq = .wait run e f0 r k ∧ (W → u.checked k)

/-- The sequencer no longer runs the command: a reset, or the frame wait. -/
def Gone (W : Prop) (u s : State) : Prop := Cleared s ∨ Waits W u s

theorem Left.same {W : Prop} {u s : State} (h : SameTables u s) : Left W u s := ⟨u, .refl, h⟩

theorem Left.one {W : Prop} {u v s : State} (d : Does W u v) (h : SameTables v s) : Left W u s := ⟨v, .single d, h⟩

theorem Left.update {W : Prop} {u s t : State} (h : Left W u s) (hs : SameTables s t) : Left W u t :=
  let ⟨v, d, hv⟩ := h
  ⟨v, d, hv.trans hs⟩

/-! ### Where a group is cut out (42_transfer.md R310) -/

theorem cutGroup_first {before : List Nat} (h : before.getLast? = none) (s : State) (e : Nat) (grp : List Nat)
    (after : Nat) :
    s.cutGroup e before grp after = (s.freeTds grp).setEd e { (s.freeTds grp).ed e with head := after } := by
  simp only [State.cutGroup, h]

theorem cutGroup_after {before : List Nat} {prev : Nat} (h : before.getLast? = some prev) (s : State) (e : Nat)
    (grp : List Nat) (after : Nat) :
    s.cutGroup e before grp after = (s.freeTds grp).setTd prev { (s.freeTds grp).td prev with next := some after } := by
  simp only [State.cutGroup, h]

/-! ### The updates carry the sameness of tables -/

namespace SameTables

variable {u s : State} (h : SameTables u s)
include h

theorem setEd (e : Nat) (v : Ed) : SameTables (u.setEd e v) (s.setEd e v) := by
  refine ⟨h.params, ?_, h.tdt, h.idxValid, h.place⟩
  simp only [State.setEd, h.edt]

theorem setTd (t : Nat) (v : Td) : SameTables (u.setTd t v) (s.setTd t v) := by
  refine ⟨h.params, h.edt, ?_, h.idxValid, h.place⟩
  simp only [State.setTd, h.tdt]

theorem setIndexed (t : Nat) (v : Bool) : SameTables (u.setIndexed t v) (s.setIndexed t v) := by
  refine ⟨h.params, h.edt, h.tdt, ?_, h.place⟩
  simp only [State.setIndexed, h.idxValid]

theorem setList (k : Nat) (v : List Nat) : SameTables (u.setList k v) (s.setList k v) := by
  refine ⟨h.params, h.edt, h.tdt, h.idxValid, ?_⟩
  simp only [State.setList, h.place]

theorem freeTd (t : Nat) : SameTables (u.freeTd t) (s.freeTd t) := by
  rw [State.freeTd, State.freeTd, h.td]
  exact (h.setTd t _).setIndexed t false

theorem freeTds (ts : List Nat) : SameTables (u.freeTds ts) (s.freeTds ts) := by
  induction ts generalizing u s with
  | nil => exact h
  | cons t ts ih => exact ih (h.freeTd t)

theorem freeEd (e : Nat) : SameTables (u.freeEd e) (s.freeEd e) := by
  rw [State.freeEd, State.freeEd, h.ed]
  exact h.setEd e _

theorem built (e t : Nat) (w : Ed) : SameTables (u.built e t w) (s.built e t w) := (h.setEd e w).setTd t _

theorem appended (k e : Nat) : SameTables (u.appended k e) (s.appended k e) := by
  rw [State.appended, State.appended, h.list, h.ed]
  exact (h.setList k _).setEd e _

theorem marked (t : Nat) : SameTables (u.marked t) (s.marked t) := by
  rw [State.marked, State.marked, h.td]
  exact h.setTd t _

theorem unwindGroup (j : Nat) (grp : List Nat) (after : Nat) :
    SameTables (u.unwindGroup j grp after) (s.unwindGroup j grp after) := by
  rw [State.unwindGroup, State.unwindGroup, (h.freeTds grp).td]
  exact (h.freeTds grp).setTd j _

theorem cutGroup (e : Nat) (before grp : List Nat) (after : Nat) :
    SameTables (u.cutGroup e before grp after) (s.cutGroup e before grp after) := by
  cases last : before.getLast? with
  | none =>
    rw [cutGroup_first last, cutGroup_first last, (h.freeTds grp).ed]
    exact (h.freeTds grp).setEd e _
  | some prev =>
    rw [cutGroup_after last, cutGroup_after last, (h.freeTds grp).td]
    exact (h.freeTds grp).setTd prev _

end SameTables

/-- A change of other fields alone. -/
theorem SameTables.other {s t : State} (hp : t.params = s.params := by rfl) (he : t.edt = s.edt := by rfl)
    (ht : t.tdt = s.tdt := by rfl) (hi : t.idxValid = s.idxValid := by rfl) (hl : t.place = s.place := by rfl) :
    SameTables s t := ⟨hp, he, ht, hi, hl⟩

/-! ### The walk through the commands -/

/-- The search answers a group of the endpoint's depth (41_scheduler.md R255). -/
theorem placementGroup_lt {u : State} {x g : Nat} (h : u.placementGroup x = some g) : g < 2 ^ (5 - (u.ed x).depth) := by
  unfold State.placementGroup State.bestGroup at h
  split at h
  · cases h
  · rename_i g' low best
    split at h
    · cases h
    · cases h
      obtain ⟨l1, l2, e, _, _⟩ := bestOf_some best
      have mem : (g, low) ∈ (List.range (2 ^ (5 - (u.ed x).depth))).map
          (fun g => (g, u.groupWorst (u.ed x).depth g)) := by rw [e]; simp
      obtain ⟨g', hg, eq⟩ := List.mem_map.1 mem
      cases eq
      exact List.mem_range.1 hg

section
variable {W : Prop} {u s : State} {E G : State → Prop} (hG : ∀ t, Cleared t → G t)
include hG

/-- A write and its flush. -/
theorem goes_memWrite (a v : Word) (hs : SameTables u s) : Goes (fun _ => SameTables u) E G (memWrite a v) s :=
  goes_access hG ((quietly u).tracks_memWrite (bs := [lineBase u.params a.toNat]) v
    fun _ => List.mem_singleton_self _) hs

theorem goes_flush (a : Word) (n : Nat) (hs : SameTables u s) : Goes (fun _ => SameTables u) E G (flush a n) s :=
  goes_access hG ((quietly u).tracks_flush (bs := []) (bs₁ := []) fun _ _ hb => .inr hb) hs

theorem goes_rmw (a : Word) (f : Word → Word) (hs : SameTables u s) :
    Goes (fun _ => SameTables u) E G (rmw a f) s := goes_access hG ((quietly u).tracks_rmw a f) hs

theorem goes_inval (a : Word) (n : Nat) (hs : SameTables u s) :
    Goes (fun _ => SameTables u) E G (inval a n) s := goes_access hG ((quietly u).tracks_inval (bs := []) a n) hs

theorem goes_memRead (a : Word) (hs : SameTables u s) : Goes (fun _ => SameTables u) E G (memRead a) s :=
  goes_access hG ((quietly u).tracks_memRead (bs := []) a) hs

theorem goes_mmioRead (off : Nat) (hs : SameTables u s) : Goes (fun _ => SameTables u) E G (mmioRead off) s :=
  goes_access hG ((quietly u).tracks_mmioRead (bs := []) off) hs

theorem goes_mmioWrite (off : Nat) (v : Word) (hs : SameTables u s) :
    Goes (fun _ => SameTables u) E G (mmioWrite off v) s :=
  goes_access hG ((quietly u).tracks_mmioWrite (bs := []) off v) hs

theorem goes_writeTd (a w0 w1 w2 w3 : Word) (hs : SameTables u s) :
    Goes (fun _ => SameTables u) E G (writeTd a w0 w1 w2 w3) s :=
  goes_bind (goes_memWrite hG _ _ hs) fun _ _ h => goes_bind (goes_memWrite hG _ _ h) fun _ _ h =>
    goes_bind (goes_memWrite hG _ _ h) fun _ _ h => goes_memWrite hG _ _ h

theorem goes_listFilled (t : EdType) (hs : SameTables u s) :
    Goes (fun _ => SameTables u) E G (listFilled t) s := goes_access hG ((quietly u).tracks_listFilled (bs := []) t) hs

theorem goes_clearHalt (e : Nat) (c : Bool) (hs : SameTables u s) :
    Goes (fun _ => SameTables u) E G (clearHalt e c) s := goes_access hG ((quietly u).tracks_clearHalt e c) hs

theorem goes_repoint (d : Nat) (link entry : Word) (ps done : List Nat) (hs : SameTables u s) :
    Goes (fun _ => SameTables u) E G (repoint d link entry ps done) s :=
  goes_access hG ((quietly u).tracks_repoint d link entry ps done) hs

theorem goes_classDisable (k : Nat) (hs : SameTables u s) :
    Goes (fun _ => SameTables u) E G (classDisable k) s := goes_access hG ((quietly u).tracks_classDisable (bs := []) k) hs

theorem goes_classRestore (k : Nat) (was : Bool) (hs : SameTables u s) :
    Goes (fun _ => SameTables u) E G (classRestore k was) s :=
  goes_access hG ((quietly u).tracks_classRestore (bs := []) k was) hs

theorem goes_classInsert (k e : Nat) (hs : SameTables u s) :
    Goes (fun _ => SameTables (u.appended k e)) E G (classInsert k e) s := by
  refine goes_read (goes_bind (goes_classDisable hG k hs) fun was t h => ?_)
  have place : ∀ {t}, SameTables u t → Goes (fun _ => SameTables (u.appended k e)) E G
      (do modify fun s => (s.setList k (s.list k ++ [e])).setEd e { s.ed e with slot := k }
          classRestore k was) t := fun h =>
    goes_bind (goes_modify (Q := fun _ => SameTables (u.appended k e)) (h.appended k e)) fun _ _ h =>
      goes_classRestore hG k was h
  dsimp only
  split
  · exact goes_bind (goes_mmioWrite hG _ _ h) fun _ _ h => place h
  · exact goes_bind (goes_rmw hG _ _ h) fun _ _ h => place h

theorem goes_classRemove (k e : Nat) (hs : SameTables u s) :
    Goes (fun _ t => e ∈ u.list k ∧ SameTables (u.setList k ((u.list k).erase e)) t) E G (classRemove k e) s := by
  refine goes_read (goes_bind (Q := fun _ t => e ∈ u.list k ∧ t = s) (goes_orStop fun i hi => ⟨?_, rfl⟩) ?_)
  · rw [hs.list] at hi
    by_contra no
    rw [List.idxOf?_eq_none_iff.2 no] at hi
    cases hi
  rintro i _ ⟨member, rfl⟩
  refine goes_bind (goes_classDisable hG k hs) fun was t h => ?_
  have take : ∀ {t}, SameTables u t →
      Goes (fun _ t => e ∈ u.list k ∧ SameTables (u.setList k ((u.list k).erase e)) t) E G
        (do modify fun s => s.setList k ((s.list k).erase e)
            classRestore k was) t := fun {t} h => by
    refine goes_bind (Q := fun _ => SameTables (u.setList k ((u.list k).erase e))) (goes_modify ?_) fun _ _ h =>
      goes_mono (goes_classRestore hG k was h) fun _ _ h => ⟨member, h⟩
    rw [h.list]
    exact h.setList k _
  split
  · exact goes_bind (goes_mmioWrite hG _ _ h) fun _ _ h => take h
  · exact goes_bind (goes_rmw hG _ _ h) fun _ _ h => take h

theorem goes_periodicInsert (x : Nat) (ty : (u.ed x).type = .interrupt) (hs : SameTables u s) :
    Goes (fun b t => if b then ∃ k, slotFor (u.ed x) k ∧ SameTables (u.appended k x) t else SameTables u t) E G
      (periodicInsert x) s := by
  refine goes_read ?_
  dsimp only
  split
  · exact hs
  · rename_i g hg
    rw [hs.placementGroup] at hg
    rw [hs.ed]
    have slot : slotFor (u.ed x) (node (u.ed x).depth g) := by
      rw [slotFor, ty]
      exact ⟨g, placementGroup_lt hg, rfl⟩
    have place : ∀ {t}, SameTables u t → Goes
        (fun b t => if b then ∃ k, slotFor (u.ed x) k ∧ SameTables (u.appended k x) t else SameTables u t) E G
        (do modify fun s => { (s.setList (node (u.ed x).depth g) (s.list (node (u.ed x).depth g) ++ [x])).setEd x
              { s.ed x with slot := node (u.ed x).depth g } with plock := false }
            return true) t := fun h =>
      goes_bind (Q := fun _ => SameTables (u.appended (node (u.ed x).depth g) x))
        (goes_modify ((h.appended _ x).trans .other)) fun _ _ h => ⟨_, slot, h⟩
    refine goes_bind (Q := fun _ => SameTables u) (goes_modify (hs.trans .other)) fun _ _ h =>
      goes_bind (goes_memWrite hG _ _ h) fun _ _ h => goes_bind (goes_flush hG _ _ h) fun _ _ h => ?_
    split
    · exact goes_bind (goes_rmw hG _ _ h) fun _ _ h => place h
    · exact goes_bind (goes_repoint hG _ _ _ _ _ h) fun _ _ h => place h

theorem goes_periodicRemove (x : Nat) (hs : SameTables u s) :
    Goes (fun _ t => x ∈ u.list (u.ed x).slot ∧
      SameTables (u.setList (u.ed x).slot ((u.list (u.ed x).slot).erase x)) t) E G (periodicRemove x) s := by
  refine goes_read (goes_bind (Q := fun _ t => x ∈ u.list (u.ed x).slot ∧ t = s) (goes_orStop fun i hi => ⟨?_, rfl⟩) ?_)
  · rw [hs.list, hs.ed] at hi
    by_contra no
    rw [List.idxOf?_eq_none_iff.2 no] at hi
    cases hi
  rintro i _ ⟨member, rfl⟩
  rw [hs.ed]
  have take : ∀ {t}, SameTables u t →
      Goes (fun _ t => x ∈ u.list (u.ed x).slot ∧
        SameTables (u.setList (u.ed x).slot ((u.list (u.ed x).slot).erase x)) t) E G
        (modify fun s => { s.setList (u.ed x).slot ((s.list (u.ed x).slot).erase x) with plock := false }) t :=
    fun {t} h => by
      refine goes_modify ⟨member, ?_⟩
      rw [h.list]
      exact (h.setList _ _).trans .other
  refine goes_bind (Q := fun _ => SameTables u) (goes_modify (hs.trans .other)) fun _ _ h => ?_
  dsimp only
  split
  · exact goes_bind (goes_rmw hG _ _ h) fun _ _ h => take h
  · exact goes_bind (goes_repoint hG _ _ _ _ _ h) fun _ _ h => take h

theorem goes_linkEndpoint (e : Nat) (hs : SameTables u s) :
    Goes (fun b t => if b then ∃ k, slotFor (u.ed e) k ∧ SameTables (u.appended k e) t else SameTables u t) E G
      (linkEndpoint e (u.ed e).type) s := by
  cases ty : (u.ed e).type with
  | control =>
    exact goes_bind (goes_classInsert hG 63 e hs) fun _ _ h => goes_pure ⟨63, by rw [slotFor, ty], h⟩
  | bulk =>
    exact goes_bind (goes_classInsert hG 64 e hs) fun _ _ h => goes_pure ⟨64, by rw [slotFor, ty], h⟩
  | interrupt => exact goes_periodicInsert hG e ty hs

theorem goes_unlinkEndpoint (e : Nat) (hs : SameTables u s) :
    Goes (fun _ t => e ∈ u.list (unlinkSlot (u.ed e)) ∧
        SameTables (u.setList (unlinkSlot (u.ed e)) ((u.list (unlinkSlot (u.ed e))).erase e)) t) E G
      (unlinkEndpoint e (u.ed e).type) s := by
  cases ty : (u.ed e).type with
  | control =>
    have slot : unlinkSlot (u.ed e) = 63 := by rw [unlinkSlot, ty]
    rw [slot]
    exact goes_classRemove hG 63 e hs
  | bulk =>
    have slot : unlinkSlot (u.ed e) = 64 := by rw [unlinkSlot, ty]
    rw [slot]
    exact goes_classRemove hG 64 e hs
  | interrupt =>
    have slot : unlinkSlot (u.ed e) = (u.ed e).slot := by rw [unlinkSlot, ty]
    rw [slot]
    exact goes_periodicRemove hG e hs

end

/-! ### The drain -/

section
variable {W : Prop} {u s : State} {E G : State → Prop} (hG : ∀ t, Cleared t → G t)

theorem goes_logFault (c : FaultCode) (i : Word) (hs : Left W u s) : Goes (fun _ => Left W u) E G (logFault c i) s :=
  goes_modify (hs.update .other)

theorem goes_drainFault (n : Tally) (c : FaultCode) (i : Word) (hs : Left W u s) :
    Goes (fun _ => Left W u) E G (drainFault n c i) s :=
  goes_bind (goes_logFault c i hs) fun _ _ h => goes_pure h

theorem goes_post (n : Tally) (e g : Nat) (cc : BitVec 4) (hs : Left W u s) :
    Goes (fun _ => Left W u) E G (post n e g cc) s :=
  goes_read (goes_ite
    (fun _ => goes_bind (Q := fun _ => Left W u) (goes_set (hs.update .other)) fun _ _ h => goes_pure h)
    fun _ => goes_drainFault n _ _ hs)

/-- What `RESOLVE` answers is a TD of the tables it has read (43_done_queue.md R356). -/
theorem scanQueues_some {a : Word} {es : List Nat} {t : Nat} (h : scanQueues s a es = some (some t)) :
    ∃ e r, (s.ed e).alloc = true ∧ Chain s (s.ed e).head r t ∧ (s.ed e).tail ∉ r ++ [t] := by
  induction es with
  | nil => cases h
  | cons e es ih =>
    unfold scanQueues at h
    split at h
    · rename_i alloc
      split at h
      · cases h
      · rename_i r walk
        split at h
        · exact ih h
        · rename_i notTail
          cases h
          obtain ⟨chain, _, before, _⟩ := walkUntil_some walk
          refine ⟨e, r.1, alloc, chain, fun mem => ?_⟩
          rcases List.mem_append.1 mem with mem | mem
          · simpa using before _ mem
          · exact notTail (List.mem_singleton.1 mem).symm
    · exact ih h

theorem Chain.sameTables {v : State} (h : SameTables v s) {l : List Nat} : ∀ {a b : Nat}, Chain s a l b → Chain v a l b := by
  induction l with
  | nil => exact fun h => h
  | cons x l ih =>
    rintro a b ⟨rfl, nx, hn, hc⟩
    exact ⟨rfl, nx, by rw [← h.td]; exact hn, ih hc⟩

theorem SameTables.resolved {v : State} (h : SameTables v s) {t : Nat} (hr : s.resolved t) : v.resolved t := by
  rcases hr with indexed | ⟨e, r, alloc, chain, notTail⟩
  · exact .inl (by rw [← h.indexed]; exact indexed)
  · rw [h.ed] at alloc chain notTail
    exact .inr ⟨e, r, alloc, chain.sameTables h, notTail⟩

theorem goes_resolve (n : Tally) (a w : Word) (hs : Left W u s) :
    Goes (fun r t => Left W u t ∧ ∀ x, r.1 = some x → t.resolved x) E G (resolve n a w) s := by
  have lost : ∀ {t} code, Left W u t →
      Goes (fun r t => Left W u t ∧ ∀ x, r.1 = some x → t.resolved x) E G
        (do return ((none : Option Nat), ← drainFault n code a)) t := fun code h =>
    goes_bind (goes_drainFault n code a h) fun _ _ h => goes_pure ⟨h, fun _ no => nomatch no⟩
  refine goes_read ?_
  split
  · refine goes_ite (fun _ => lost _ hs) fun _ => goes_ite (fun _ => lost _ hs) fun no => goes_pure ⟨hs, ?_⟩
    intro x hx
    cases hx
    simp only [not_or, Bool.not_eq_false] at no
    exact .inl no.1
  · refine goes_bind (Q := fun o t => t = s ∧ ∀ x, o = some x → s.resolved x) (goes_orStop fun o ho => ⟨rfl, ?_⟩) ?_
    · rintro x rfl
      exact .inr (scanQueues_some ho)
    · rintro o _ ⟨rfl, known⟩
      cases o with
      | none => exact lost _ hs
      | some x => exact goes_pure ⟨hs, fun y hy => known y (by simpa using hy)⟩

/-- An access leaves the tables where the updates so far have led. -/
theorem goes_left {c : Cmd α} (hc : ∀ v, SameTables v s → Goes (fun _ => SameTables v) E G c s) (hs : Left W u s) :
    Goes (fun _ => Left W u) E G c s := by
  obtain ⟨v, does, hv⟩ := hs
  exact goes_mono (hc v hv) fun _ _ h => ⟨v, does, h⟩

include hG

/-- The rest of a logical transfer unwound: after the update only accesses (43_done_queue.md R358). -/
theorem goes_unwind {v : State} (e j : Nat) (cc : BitVec 4) (hs : SameTables v s) :
    Goes (fun _ t => ∃ nx g, (v.td j).next = some nx ∧ walkGroup v (v.ed e).tail v.params.ntd nx = some g ∧
      SameTables (v.unwindGroup j g.1 g.2) t) E G (unwind e j cc) s := by
  refine goes_read (goes_bind (Q := fun nx t => s = t ∧ (v.td j).next = some nx) (goes_orStop fun nx h => ⟨rfl, ?_⟩) ?_)
  · rw [← hs.td]; exact h
  rintro nx _ ⟨rfl, next⟩
  refine goes_bind (Q := fun g t => s = t ∧ walkGroup v (v.ed e).tail v.params.ntd nx = some g)
    (goes_orStop fun g h => ⟨rfl, ?_⟩) ?_
  · rw [← hs.ed, ← hs.params, ← walkGroup_congr hs.td]; exact h
  rintro g _ ⟨rfl, group⟩
  refine goes_mono (Q := fun _ => SameTables (v.unwindGroup j g.1 g.2)) ?_ fun _ t h => ⟨nx, g, next, group, h⟩
  refine goes_bind (Q := fun _ => SameTables (v.unwindGroup j g.1 g.2)) (goes_set (hs.unwindGroup j g.1 g.2)) fun _ _ h =>
    goes_bind (goes_inval hG _ _ h) fun _ _ h => goes_bind (goes_memRead hG _ h) fun hd _ h =>
      goes_bind (goes_memWrite hG _ _ h) fun _ _ h => ?_
  have rest : ∀ {t}, SameTables (v.unwindGroup j g.1 g.2) t →
      Goes (fun _ => SameTables (v.unwindGroup j g.1 g.2)) E G
        (do flush (edAddr s.params e) 16
            if cc = 9#4 then listFilled (s.ed e).type) t := fun h =>
    goes_bind (goes_flush hG _ _ h) fun _ _ h => goes_ite (fun _ => goes_listFilled hG _ h) fun _ => goes_pure h
  exact goes_ite (fun _ => goes_bind (goes_memRead hG _ h) fun _ _ h => goes_bind (goes_memWrite hG _ _ h) fun _ _ h =>
    rest h) fun _ => rest h

theorem goes_process (n : Tally) (t : Nat) (cc : BitVec 4) (hs : Left W u s) (known : s.resolved t) :
    Goes (fun _ => Left W u) E G (process n t cc) s := by
  refine goes_read (goes_ite (fun _ => goes_drainFault n _ _ hs) fun unfinished => ?_)
  refine goes_bind (Q := fun first t' => s = t' ∧ Chain s (s.ed (s.td t).owner).head first.1 first.2 ∧
    ∀ x ∈ first.1, (s.td x).finished = true) (goes_orStop fun first h => ?_) ?_
  · obtain ⟨chain, _, before, _⟩ := walkUntil_some h
    exact ⟨rfl, chain, fun x hx => by simpa using before x hx⟩
  rintro ⟨l, v⟩ _ ⟨rfl, chain, before⟩
  refine goes_ite (fun _ => goes_drainFault n _ _ hs) fun same => ?_
  have same : v = t := not_not.1 same
  subst same
  obtain ⟨w, does, hw⟩ := hs
  have known' : w.resolved v := hw.resolved known
  have first : w.firstUnfinished v := by
    rw [hw.td, hw.ed] at chain
    exact ⟨l, chain.sameTables hw, fun x hx => by rw [← hw.td]; exact before x hx, by
      rw [← hw.td]; simpa using unfinished⟩
  have report : ∀ {t}, Left W u t → Goes (fun _ => Left W u) E G
      (do let s' ← get
          post n (s.td v).owner (← orStop .brokenQueue (s'.gstart (s.td v).owner v)) cc) t := fun {t} h =>
    goes_read (goes_bind (Q := fun _ => Left W u) (goes_orStop fun _ _ => h) fun _ _ h => goes_post n _ _ cc h)
  have marked : SameTables (w.marked v) (s.marked v) := hw.marked v
  have finished : Left W u (s.marked v) := ⟨_, does.tail (.finished known' first), marked⟩
  refine goes_bind (Q := fun _ t => s.marked v = t) (goes_set rfl) ?_
  rintro _ _ rfl
  refine goes_ite (fun _ => goes_ite (fun _ => goes_pure finished) fun _ => ?_) fun _ => report finished
  refine goes_bind (Q := fun _ => Left W u) (goes_mono (goes_unwind hG _ v cc marked) ?_) fun _ _ h => report h
  rintro _ t ⟨nx, g, next, group, h⟩
  refine ⟨_, does.tail (.unwound known' first (nx := nx) (g := g) ?_ ?_), h⟩
  · rw [← next]; simp [State.marked]
  · rw [hw.td] at group; exact group

theorem goes_visitDone (n : Tally) (a w : Word) (hs : Left W u s) :
    Goes (fun _ => Left W u) E G (visitDone n a w) s := by
  refine goes_bind (goes_resolve _ a w hs) ?_
  rintro ⟨r, n'⟩ t ⟨h, known⟩
  cases r with
  | none => exact goes_pure h
  | some x => exact goes_process hG _ x _ h (known x rfl)

theorem goes_forwardDone (fuel : Nat) (n : Tally) (a : Word) (hs : Left W u s) :
    Goes (fun _ => Left W u) E G (forwardDone fuel n a) s := by
  induction fuel generalizing n a s with
  | zero => exact goes_pure hs
  | succ fuel ih =>
    exact goes_ite (fun _ => goes_pure hs) fun _ =>
      goes_bind (goes_left (fun _ h => goes_memRead hG _ h) hs) fun _ _ h =>
        goes_bind (goes_left (fun _ h => goes_memRead hG _ h) h) fun _ _ h =>
          goes_bind (goes_visitDone hG n a _ h) fun _ _ h => ih _ _ h

theorem goes_drain (hs : Left W u s) : Goes (fun _ => Left W u) E G drain s := by
  refine goes_bind (goes_left (fun _ h => goes_mmioRead hG _ h) hs) fun w t h =>
    goes_ite (fun _ => goes_read ?_) fun _ => goes_pure h
  refine goes_bind (goes_left (fun _ h => goes_inval hG _ _ h) h) fun _ _ h =>
    goes_bind (goes_left (fun _ h => goes_memRead hG _ h) h) fun dh _ h =>
      goes_bind (goes_left (fun _ h => goes_access hG ((quietly _).tracks_reverseDone _ _ _) h) h)
        fun first _ h => ?_
  have clearWdh : ∀ {t} n, Left W u t → Goes (fun _ => Left W u) E G
      (do mmioWrite 0x0C wdhBit; return n : Cmd Tally) t := fun n h =>
    goes_bind (goes_left (fun _ h => goes_mmioWrite hG _ _ h) h) fun _ _ h => goes_pure h
  cases first with
  | none => exact goes_bind (goes_drainFault _ _ _ h) fun _ _ h => clearWdh _ h
  | some a => exact goes_bind (goes_forwardDone hG _ _ a h) fun _ _ h => clearWdh _ h

end

/-! ### The frame wait -/

section
variable {W : Prop} {u s : State}

/-- A wait that goes on leaves the tables, and what it waits for checked. -/
theorem goes_waitFrom {run : Running} {e r : Nat} {g0 f0 : BitVec 16} {k : Cont} (hk : W → u.checked k)
    (hseq : s.seq = .wait run e g0 r k) (hs : SameTables u s) :
    Goes (fun _ => SameTables u) (Left W u) (Gone W u) (waitFrom f0 r) s := by
  have steady : Steady (fun _ => True) (OnTables (fun _ => True) u) (fun t _ => Gone W u t) :=
    oneRun_steady sameTables_block fun s ms _ _ => .inl (cleared_reset s ms)
  have stays : StaysWith (OnTables (fun _ => True) u) (fun t _ => Gone W u t) run e g0 k (max 3 (r + 1)) :=
    fun t _ r' ht _ h => .inr ⟨h.2.2.2.2, run, e, g0, r', k, ht, hk⟩
  exact goes_of_alike (steady.waitFrom_alike stays (le_max_left _ _)
    (lt_of_lt_of_le (Nat.lt_succ_self r) (le_max_right _ _)) hseq ⟨trivial, rfl, hs.params, fun _ _ => trivial, hs⟩)
    (fun _ _ h => .same h) fun _ _ h => h

theorem gone_of_cleared (t : State) (h : Cleared t) : Gone W u t := .inl h

theorem goes_quiesce (e : Nat) {k : Cont} (hk : W → u.checked k) (hs : SameTables u s) :
    Goes (fun _ => SameTables u) (Left W u) (Gone W u) (quiesce e k) s := by
  have hG := gone_of_cleared (W := W) (u := u)
  refine goes_read (goes_bind (goes_inval hG _ _ hs) fun _ _ h => goes_bind (goes_memRead hG _ h) fun hd _ h =>
    goes_ite (fun _ => goes_pure h) fun _ => goes_bind (goes_rmw hG _ _ h) fun _ _ h =>
      goes_bind (goes_mmioRead hG _ h) fun f0 t h => ?_)
  refine goes_bind (Q := fun _ t' => t' = { t with seq := .wait t.seq.running e (f0.setWidth 16) 0 k })
    (goes_modify rfl) ?_
  rintro _ _ rfl
  exact goes_waitFrom hk rfl (h.trans .other)

/-! ### After the wait -/

/-- A queue is not a matter of the placement lists. -/
theorem queue_setList (k : Nat) (l : List Nat) (e : Nat) : (u.setList k l).queue e = u.queue e := by
  unfold State.queue
  rw [walkUntil_congr (s := u) (s' := u.setList k l) rfl]
  rfl

theorem goes_quiesceRest (q : Quiesced) (hs : SameTables u s) :
    Goes (fun _ => Left W u) (Left W u) (Gone W u) (quiesceRest q) s := by
  cases q with
  | timeout => exact goes_raise (.same hs)
  | already => exact goes_pure (.same hs)
  | ok => exact goes_pure (.same hs)

theorem goes_closeRest (e : Nat) (q : Quiesced) (hk : W → u.checked (.close e)) (hs : SameTables u s) :
    Goes (fun _ => Left W u) (Left W u) (Gone W u) (closeRest e q) s := by
  have hG := gone_of_cleared (W := W) (u := u)
  refine goes_ite (fun _ => goes_raise (.same hs)) fun _ => goes_read ?_
  rw [hs.ed]
  refine goes_bind (goes_unlinkEndpoint hG e hs) fun _ t => ?_
  rintro ⟨member, h⟩
  refine goes_read (goes_bind (Q := fun ts t' => t = t' ∧ u.queue e = some ts) (goes_orStop fun ts hts => ⟨rfl, ?_⟩) ?_)
  · rw [h.queue, queue_setList] at hts
    exact hts
  rintro ts _ ⟨rfl, queue⟩
  refine goes_bind (Q := fun _ => Left W u) (goes_set (.one (.closed hk member queue) ?_)) fun _ _ h => goes_pure h
  rw [h.ed]
  exact (h.freeTds _).freeEd e

theorem goes_abortRest (e t : Nat) (q : Quiesced) (hk : W → u.checked (.abort e t)) (hs : SameTables u s) :
    Goes (fun _ => Left W u) (Left W u) (Gone W u) (abortRest e t q) s := by
  have hG := gone_of_cleared (W := W) (u := u)
  refine goes_ite (fun _ => goes_raise (.same hs)) fun _ => goes_read ?_
  refine goes_bind (Q := fun found t' => s = t' ∧ u.before e t = some found) (goes_orStop fun found h => ⟨rfl, ?_⟩) ?_
  · rw [hs.before] at h
    exact h
  rintro found _ ⟨rfl, before⟩
  have rest : ∀ {s'}, SameTables u s' → Goes (fun _ => Left W u) (Left W u) (Gone W u)
      (do let before := found.getD []
          inval (edHeadAddr s.params e) 4
          let h ← memRead (edHeadAddr s.params e)
          let s ← get
          let g ← orStop .brokenQueue (walkGroup s (s.ed e).tail s.params.ntd t)
          set (s.cutGroup e before g.1 g.2)
          relink e h before g.1 g.2
          clearHalt e false
          return { res0 := g.1.length } : Cmd Results) s' := fun h => by
    refine goes_bind (goes_inval hG _ _ h) fun _ _ h => goes_bind (goes_memRead hG _ h) fun hd s₂ h => goes_read ?_
    refine goes_bind (Q := fun g t' => s₂ = t' ∧ walkGroup u (u.ed e).tail u.params.ntd t = some g)
      (goes_orStop fun g hg => ⟨rfl, ?_⟩) ?_
    · rw [h.ed, h.params, walkGroup_congr h.td] at hg
      exact hg
    rintro g _ ⟨rfl, group⟩
    have cut : SameTables (u.cutGroup e (found.getD []) g.1 g.2) (s₂.cutGroup e (found.getD []) g.1 g.2) :=
      h.cutGroup e _ _ _
    refine goes_bind (Q := fun _ => SameTables (u.cutGroup e (found.getD []) g.1 g.2)) (goes_set cut) fun _ _ h =>
      goes_bind (goes_access hG ((quietly _).tracks_relink _ _ _ _ _) h) fun _ _ h =>
        goes_bind (goes_clearHalt hG _ _ h) fun _ _ h => goes_pure (.one (.aborted hk before group) h)
  exact goes_ite (fun _ => goes_bind (Q := fun _ => SameTables u) (goes_modify (hs.trans .other)) fun _ _ h => rest h)
    fun _ => rest hs

theorem goes_afterWait (k : Cont) (q : Quiesced) (hk : W → u.checked k) (hs : SameTables u s) :
    Goes (fun _ => Left W u) (Left W u) (Gone W u) (afterWait k q) s := by
  cases k with
  | quiesce e => exact goes_quiesceRest q hs
  | close e => exact goes_closeRest e q hk hs
  | abort e t => exact goes_abortRest e t q hk hs

/-! ### The commands -/

theorem goes_checkEd (e : Nat) (hs : SameTables u s) :
    Goes (fun _ t => SameTables u t ∧ u.validEd e = true) (Left W u) (Gone W u) (checkEd e) s := by
  refine goes_read (goes_ite (fun valid => goes_pure ⟨hs, ?_⟩) fun _ => goes_raise (.same hs))
  rw [← hs.validEd]
  exact valid

theorem goes_commonChecks (i : Instr) (hs : SameTables u s) :
    Goes (fun _ => SameTables u) (Left W u) (Gone W u) (commonChecks i) s := by
  have context : ∀ {t}, SameTables u t → Goes (fun _ => SameTables u) (Left W u) (Gone W u)
      (if blocking i && i.ctx == .interrupt then raise .context else pure () : Cmd Unit) t := fun h =>
    goes_ite (fun _ => goes_raise (.same h)) fun _ => goes_pure h
  exact goes_read (goes_ite (fun _ => context hs) fun _ =>
    goes_bind (Q := fun _ => SameTables u) (goes_raise (.same hs)) fun _ _ h => context h)

/-- A valid handle names an allocated endpoint. -/
theorem alloc_of_validEd {e : Nat} (h : u.validEd e = true) : (u.ed e).alloc = true := by
  simp only [State.validEd, Bool.and_eq_true] at h
  exact h.2

/-- An operand that names a TD of the endpoint (42_transfer.md R305). -/
theorem ownedTd_some {e t : Nat} {w : Word} (h : u.ownedTd e w = some t) :
    t < u.params.ntd ∧ (u.td t).alloc = true ∧ (u.td t).owner = e := by
  unfold State.ownedTd at h
  split at h
  · cases h
  · split at h
    · cases h
      assumption
    · cases h

theorem openedEd_spec (p : Params) (key template : Word) (iv : Nat) (ty : EdType) (t : Nat) :
    (openedEd p key template iv ty t).alloc = true ∧ (openedEd p key template iv ty t).type = ty ∧
      (openedEd p key template iv ty t).head = t ∧ (openedEd p key template iv ty t).tail = t ∧
      (openedEd p key template iv ty t).depth ≤ 5 := by
  cases ty with
  | control => exact ⟨rfl, rfl, rfl, rfl, Nat.zero_le _⟩
  | bulk => exact ⟨rfl, rfl, rfl, rfl, Nat.zero_le _⟩
  | interrupt => exact ⟨rfl, rfl, rfl, rfl, Nat.sub_le _ _⟩

theorem goes_edOpenBody (args : Args) (hs : SameTables u s) :
    Goes (fun _ => Left W u) (Left W u) (Gone W u) (edOpenBody args) s := by
  have hG := gone_of_cleared (W := W) (u := u)
  refine goes_ite (fun _ => goes_raise (.same hs)) fun _ => ?_
  split
  · exact goes_raise (.same hs)
  · rename_i ty _
    refine goes_read ?_
    split
    · rename_i e t he ht
      rw [hs.allocEd] at he
      rw [hs.allocTd] at ht
      obtain ⟨w, opened⟩ : ∃ w, w = openedEd u.params args.arg0 args.arg1 (args.arg2.extractLsb' 0 8).toNat ty t :=
        ⟨_, rfl⟩
      obtain ⟨alloc, type, head, tail, depth⟩ :=
        openedEd_spec u.params args.arg0 args.arg1 (args.arg2.extractLsb' 0 8).toNat ty t
      rw [← opened] at alloc type head tail depth
      rw [hs.params]
      have self : (u.built e t w).ed e = w := by simp [State.built]
      refine goes_bind (Q := fun _ => SameTables (u.built e t w)) (goes_modify (opened ▸ hs.built e t _))
        fun _ _ h =>
        goes_bind (goes_access hG ((quietly (u.built e t w)).tracks_buildEndpoint e t _) h) fun _ _ h => ?_
      · have linked := goes_linkEndpoint hG (E := Left W u) e h (u := u.built e t w)
        rw [self, type] at linked
        refine goes_bind linked fun b t' h => goes_ite (fun no => ?_) fun yes => ?_
        · rw [if_neg (by simpa using no)] at h
          refine goes_bind (Q := fun _ => Left W u) (goes_modify (.one (.rejected he ht (w := w)) ?_)) fun _ _ h =>
            goes_raise h
          exact (h.freeTd t).freeEd e
        · rw [if_pos (by simpa using yes)] at h
          obtain ⟨k, slot, h⟩ := h
          exact goes_read (goes_pure (.one (.opened he ht alloc head tail depth slot) h))
    · exact goes_raise (.same hs)

theorem goes_tdQueueBody (e : Nat) (more r : Bool) (di : BitVec 3) (dp : BitVec 2) (args : Args)
    (hs : SameTables u s) :
    Goes (fun _ => Left W u) (Left W u) (Gone W u) (tdQueueBody e more r di dp args) s := by
  have hG := gone_of_cleared (W := W) (u := u)
  refine goes_bind (goes_checkEd e hs) fun _ s ⟨hs, valid⟩ => goes_ite (fun _ => goes_raise (.same hs)) fun ok =>
    goes_read ?_
  have short : args.arg1.toNat ≤ 8192 := by
    simp only [queueArgsOk, Bool.not_eq_true, Bool.not_eq_false', Bool.and_eq_true, decide_eq_true_eq] at ok
    exact ok.1.1.2
  rw [hs.allocTd]
  split
  · exact goes_raise (.same hs)
  · rename_i n hn
    have first : SameTables (u.reserved e n (togglePolicy dp (u.ed e).afterSetup).2) ((s.setEd e { s.ed e with afterSetup :=
          (togglePolicy dp (u.ed e).afterSetup).2 }).setTd n { alloc := true, owner := e }) := by
      rw [hs.ed]
      exact (hs.setEd e _).setTd n _
    rw [hs.ed]
    refine goes_bind (Q := fun _ => SameTables _) (goes_modify first) fun _ _ h =>
      goes_bind (goes_writeTd hG _ _ _ _ _ h) fun _ _ h => goes_bind (goes_flush hG _ _ h) fun _ _ h =>
        goes_bind (goes_writeTd hG _ _ _ _ _ h) fun _ _ h => goes_bind (goes_flush hG _ _ h) fun _ s₂ h => ?_
    refine goes_bind (Q := fun _ => SameTables ((u.reserved e n (togglePolicy dp (u.ed e).afterSetup).2).filled e n
      (queuedStatus more args.arg1))) (goes_modify ?_) fun _ _ h => goes_bind (goes_rmw hG _ _ h) fun _ _ h =>
        goes_bind (goes_listFilled hG _ h) fun _ _ h => goes_pure (.one (.queued _ more args.arg1 short valid hn) h)
    have tail : (u.ed e).tail = ((u.reserved e n (togglePolicy dp (u.ed e).afterSetup).2).ed e).tail := by
      rw [reserved_ed_self]
    rw [h.td, h.ed, tail]
    exact ((h.setTd _ _).setIndexed _ true).setEd e _

theorem goes_xferCompleteBody (e : Nat) (args : Args) (hs : SameTables u s) :
    Goes (fun _ => Left W u) (Left W u) (Gone W u) (xferCompleteBody e args) s := by
  have hG := gone_of_cleared (W := W) (u := u)
  refine goes_bind (goes_checkEd e hs) fun _ s ⟨hs, valid⟩ => goes_read ?_
  split
  · exact goes_raise (.same hs)
  · rename_i t owned
    refine goes_ite (fun _ => goes_bind (goes_logFault _ _ (.same hs)) fun _ _ h => goes_raise h) fun atHead => ?_
    refine goes_bind (Q := fun c t' => SameTables u t' ∧
      checkGroup u (u.ed e).tail u.params.ntd (u.ed e).head = some c) (goes_orStop fun c hc => ⟨hs, ?_⟩) ?_
    · rw [not_not.1 atHead, hs.ed, hs.params, checkGroup_congr hs.td] at hc
      exact hc
    rintro c t' ⟨h, check⟩
    cases c with
    | unfinished x => exact goes_bind (goes_logFault _ _ (.same h)) fun _ _ h => goes_raise h
    | finished g after =>
      have moved : ∀ {t'}, SameTables u t' → SameTables ((u.freeTds g).setEd e { u.ed e with head := after })
          ((t'.freeTds g).setEd e { t'.ed e with head := after }) := fun h => by
        rw [h.ed]
        exact (h.freeTds g).setEd e _
      have done : ∀ {t'}, SameTables ((u.freeTds g).setEd e { u.ed e with head := after }) t' → Left W u t' :=
        fun h => .one (.completed valid check) h
      refine goes_bind (goes_access hG ((quietly u).tracks_readGroup (bs := []) _ _ _) h) fun r _ h =>
        goes_bind (Q := fun _ => SameTables ((u.freeTds g).setEd e { u.ed e with head := after }))
          (goes_modify (moved h)) fun _ _ h => goes_ite (fun _ => ?_) fun _ => goes_pure (done h)
      exact goes_bind (goes_clearHalt hG _ _ h) fun _ _ h => goes_pure (done h)

theorem goes_xferAbortBody (e : Nat) (args : Args) (hs : SameTables u s) :
    Goes (fun _ => Left W u) (Left W u) (Gone W u) (xferAbortBody e args) s := by
  refine goes_bind (goes_checkEd e hs) fun _ s ⟨hs, valid⟩ => goes_read ?_
  rw [hs.ownedTd]
  split
  · exact goes_raise (.same hs)
  · rename_i t owned
    obtain ⟨_, alloc, owner⟩ := ownedTd_some owned
    refine goes_ite (fun _ => goes_raise (.same hs)) fun notTail => ?_
    rw [hs.ed] at notTail
    have checked : W → u.checked (.abort e t) := fun _ => ⟨alloc_of_validEd valid, alloc, owner, notTail⟩
    exact goes_bind (goes_quiesce e checked hs) fun q _ h => goes_abortRest e t q checked h

theorem goes_schedStartBody (args : Args) (hs : SameTables u s) :
    Goes (fun _ => Left W u) (Left W u) (Gone W u) (schedStartBody args) s := by
  have hG := gone_of_cleared (W := W) (u := u)
  have fill : ∀ (p : Params) (is : List Nat) {t : State}, SameTables u t →
      Goes (fun _ => SameTables u) (Left W u) (Gone W u) (fillTable p is) t := fun p is => by
    induction is with
    | nil => exact fun h => goes_pure h
    | cons i is ih => exact fun h => goes_bind (goes_memWrite hG _ _ h) fun _ _ h => ih h
  exact goes_read (goes_bind (goes_memWrite hG _ _ hs) fun _ _ h => goes_bind (goes_memWrite hG _ _ h) fun _ _ h =>
    goes_bind (goes_memWrite hG _ _ h) fun _ _ h => goes_bind (goes_memWrite hG _ _ h) fun _ _ h =>
      goes_bind (goes_flush hG _ _ h) fun _ _ h => goes_bind (fill _ _ h) fun _ _ h =>
        goes_bind (goes_flush hG _ _ h) fun _ _ h => goes_bind (Q := fun _ => SameTables u)
          (goes_modify (h.trans .other)) fun _ _ h => goes_pure (.same h))

theorem goes_bodyOf (i : Instr) (args : Args) (hs : SameTables u s) :
    Goes (fun _ => Left W u) (Left W u) (Gone W u) (bodyOf i args) s := by
  have hG := gone_of_cleared (W := W) (u := u)
  cases i with
  | nop => exact goes_pure (.same hs)
  | schedStart => exact goes_schedStartBody args hs
  | edOpen => exact goes_edOpenBody args hs
  | edClose _ e =>
    exact goes_bind (goes_checkEd e hs) fun _ _ ⟨h, valid⟩ =>
      goes_bind (goes_quiesce e (fun _ => alloc_of_validEd valid) h) fun q _ h =>
        goes_closeRest e q (fun _ => alloc_of_validEd valid) h
  | edSuspend _ e =>
    exact goes_bind (goes_checkEd e hs) fun _ _ ⟨h, _⟩ => goes_read (goes_bind (goes_rmw hG _ _ h) fun _ _ h =>
      goes_pure (.same h))
  | edResume _ e =>
    exact goes_bind (goes_checkEd e hs) fun _ _ ⟨h, _⟩ => goes_read (goes_bind (goes_rmw hG _ _ h) fun _ _ h =>
      goes_bind (goes_listFilled hG _ h) fun _ _ h => goes_pure (.same h))
  | edClearHalt _ e clrtog =>
    exact goes_bind (goes_checkEd e hs) fun _ _ ⟨h, _⟩ => goes_bind (goes_clearHalt hG e clrtog h) fun _ _ h =>
      goes_pure (.same h)
  | edQuiesce _ e =>
    exact goes_bind (goes_checkEd e hs) fun _ _ ⟨h, _⟩ =>
      goes_bind (goes_quiesce e (k := .quiesce e) (fun _ => trivial) h) fun q _ h => goes_quiesceRest q h
  | schedBitpos _ d n =>
    simp only [bodyOf, schedBitposBody]
    split
    · exact goes_raise (.same hs)
    · exact goes_pure (.same hs)
  | schedIdepth _ iv => exact goes_read (goes_pure (.same hs))
  | schedLoad =>
    exact goes_read (goes_ite (fun _ => goes_raise (.same hs)) fun _ => goes_pure (.same hs))
  | tdQueue _ e more r di dp => exact goes_tdQueueBody e more r di dp args hs
  | xferComplete _ e => exact goes_xferCompleteBody e args hs
  | xferAbort _ e => exact goes_xferAbortBody e args hs
  | ccClassify => exact goes_pure (.same hs)
  | dqDrain =>
    exact goes_bind (goes_drain hG (.same hs)) fun _ _ h =>
      goes_bind (Q := fun _ => Left W u) (goes_modify (h.update .other)) fun _ _ h => goes_pure h
  | cflush =>
    exact goes_ite (fun _ => goes_raise (.same hs)) fun _ => goes_read (goes_bind (goes_flush hG _ _ hs) fun _ _ h =>
      goes_pure (.same h))
  | cinval =>
    exact goes_ite (fun _ => goes_raise (.same hs)) fun _ => goes_read (goes_bind (goes_inval hG _ _ hs) fun _ _ h =>
      goes_pure (.same h))

/-! ### A step -/

/-- What a step can leave of the tables: nothing after a reset; what they were, in the frame wait; else what updates
have made of them, the block idle or waiting for nothing it had checked. -/
def Stepped (W : Prop) (s t : State) : Prop :=
  Cleared t ∨ Waits W s t ∨ (Left W s t ∧ t.seq = .idle)

theorem stepped_finish {c : Cmd Results} {t : State} (run : Goes (fun _ => Left W u) (Left W u) (Gone W u) c s)
    (e : finish (c s) = .next t) : Stepped W u t := by
  unfold Goes at run
  generalize c s = r at run e
  cases r with
  | ok v s =>
    cases e
    exact .inr (.inr ⟨Left.update run .other, rfl⟩)
  | error st s =>
    cases st with
    | err c =>
      cases e
      exact .inr (.inr ⟨Left.update run .other, rfl⟩)
    | gone =>
      cases e
      exact Or.imp_right .inl run
    | stuck f => cases e

theorem stepped_exec {i : Instr} {t : State} (idle : s.seq = .idle) (hs : SameTables u s) (e : exec i s = .next t) :
    Stepped W u t := by
  have hG := gone_of_cleared (W := W) (u := u)
  rw [exec_eq, runCommand, if_neg (by rw [idle]; exact Bool.false_ne_true)] at e
  refine stepped_finish (s := s.accept (encode i)) (goes_bind (goes_access hG (bs := []) ((quietly u).turn _ _) (hs.trans .other)) fun _ _ h =>
    goes_bind (goes_commonChecks i h) fun _ _ h => goes_bodyOf i s.args h) e

theorem stepped_runReserved {w : Word} {t : State} (hs : SameTables u s) (e : runReserved w s = .next t) :
    Stepped W u t :=
  stepped_finish (s := s.accept w) (goes_bind (goes_access (gone_of_cleared (W := W) (u := u)) (bs := []) ((quietly u).turn _ _)
    (hs.trans .other)) fun _ _ h => goes_raise (Left.same h)) e

theorem stepped_runAutoDrain {t : State} (hs : SameTables u s) (e : runAutoDrain s = .next t) : Stepped W u t := by
  have run : Goes (fun _ => Left W u) (Left W u) (Gone W u) drain { s with seq := .exec { auto := true, ctx := .interrupt } } :=
    goes_drain gone_of_cleared (.same (hs.trans .other))
  unfold Goes at run
  unfold runAutoDrain at e
  generalize drain { s with seq := .exec { auto := true, ctx := .interrupt } } = r at run e
  cases r with
  | ok n v =>
    cases e
    exact .inr (.inr ⟨Left.update run .other, rfl⟩)
  | error st v =>
    cases st with
    | err c =>
      cases e
      exact .inr (.inr ⟨Left.update run .other, rfl⟩)
    | gone =>
      cases e
      exact Or.imp_right .inl run
    | stuck f => cases e

theorem stepped_idleTurn {t : State} (idle : s.seq = .idle) (hs : SameTables u s) (e : idleTurn s = .next t) :
    Stepped W u t := by
  unfold idleTurn at e
  split at e
  · exact stepped_runAutoDrain hs e
  · cases e
    exact .inr (.inr ⟨.same hs, idle⟩)

theorem stepped_idleMove {m : Move} {t : State} (idle : s.seq = .idle) (hs : SameTables u s)
    (e : idleMove m s = .next t) : Stepped W u t := by
  unfold idleMove at e
  split at e
  · rename_i v o
    cases e
    have same := otherMove_internal o
    exact .inr (.inr ⟨.same (sameTables_block _ _ same.block hs), same.seq.trans idle⟩)
  · rename_i v o
    cases e
    obtain ⟨rfl, rfl⟩ := otherMove_abandoned o
    exact .inl ⟨rfl, rfl, rfl, rfl, rfl⟩
  · cases e

/-- What a step does to the tables, whatever comes between; `W`: a waiting command waits for what it has checked. -/
theorem step_tables {t : State} (hW : W → s.waitOwned) (e : step s = .next t) : Stepped W s t := by
  unfold step at e
  split at e
  · rename_i idle
    unfold idleStep at e
    split at e
    · exact stepped_idleTurn idle (.refl s) e
    · rename_i m ms _
      split at e
      · unfold runWord at e
        split at e
        · exact stepped_exec (s := { s with sched := ms }) idle .other e
        · exact stepped_runReserved .other e
      · split at e
        · exact stepped_idleTurn (s := { s with sched := ms }) idle .other e
        · exact stepped_idleMove (s := { s with sched := ms }) idle .other e
  · rename_i run ed f0 r k hs
    have hk : W → s.checked k := fun w => (waitOwned_iff hs).1 (hW w)
    exact stepped_finish (goes_bind (goes_waitFrom hk hs (.refl s)) fun q _ h => goes_afterWait k q hk h) e
  · cases e

end

end Sys2Proof.Machine
end

section
/-! SUPPORT. The placement lists under the updates of the tables: each keeps every allocated endpoint in the list of
its slot alone, and in a slot of its type (10_state.md R34, R42 (e)). -/

namespace Sys2Proof.Machine

variable {u v s t : State}

/-! ### What the updates do to endpoints and lists -/

theorem built_ed_self (e t : Nat) (w : Ed) : (u.built e t w).ed e = w := by simp [State.built]

theorem built_ed_ne {e e' : Nat} (h : e' ≠ e) (t : Nat) (w : Ed) : (u.built e t w).ed e' = u.ed e' := by
  simp [State.built, setEd_ed_ne u h]

theorem built_list (e t : Nat) (w : Ed) (k : Nat) : (u.built e t w).list k = u.list k := rfl

theorem appended_ed_self (k e : Nat) : (u.appended k e).ed e = { u.ed e with slot := k } := by simp [State.appended]

theorem appended_ed_ne {e e' : Nat} (h : e' ≠ e) (k : Nat) : (u.appended k e).ed e' = u.ed e' := by
  simp [State.appended, setEd_ed_ne _ h]

theorem appended_list_self (k e : Nat) : (u.appended k e).list k = u.list k ++ [e] := by simp [State.appended]

theorem appended_list_ne {k k' : Nat} (h : k' ≠ k) (e : Nat) : (u.appended k e).list k' = u.list k' := by
  simp [State.appended, setList_list_ne u h]

theorem freeTds_ed (ts : List Nat) (e : Nat) : (u.freeTds ts).ed e = u.ed e := by rw [freeTds_frame]; rfl

theorem freeTds_list (ts : List Nat) (k : Nat) : (u.freeTds ts).list k = u.list k := by rw [freeTds_frame]; rfl

theorem freeTds_params (ts : List Nat) : (u.freeTds ts).params = u.params := by rw [freeTds_frame]

/-! ### Updates that move no endpoint -/

/-- The lists are the same, and what is allocated has the same slot and type. -/
structure SamePlaces (u v : State) : Prop where
  params : v.params = u.params
  list : ∀ k, v.list k = u.list k
  alloc : ∀ e, (v.ed e).alloc = (u.ed e).alloc
  slot : ∀ e, (u.ed e).alloc = true →
    (v.ed e).slot = (u.ed e).slot ∧ (v.ed e).type = (u.ed e).type ∧ (v.ed e).depth = (u.ed e).depth

theorem SameTables.places (h : SameTables u v) : SamePlaces u v :=
  ⟨h.params, fun k => by rw [h.list], fun e => by rw [h.ed], fun e _ => by rw [h.ed]; exact ⟨rfl, rfl, rfl⟩⟩

/-- One entry of the ED table written, its place as before. -/
theorem SamePlaces.setEd (h : SamePlaces u v) {e : Nat} {w : Ed} (alloc : w.alloc = (u.ed e).alloc)
    (slot : (u.ed e).alloc = true → w.slot = (u.ed e).slot ∧ w.type = (u.ed e).type ∧ w.depth = (u.ed e).depth) :
    SamePlaces u (v.setEd e w) where
  params := h.params
  list := h.list
  alloc e' := by
    by_cases he : e' = e
    · rw [he, setEd_ed_self, alloc]
    · rw [setEd_ed_ne v he, h.alloc]
  slot e' ha := by
    by_cases he : e' = e
    · subst he
      rw [setEd_ed_self]
      exact slot ha
    · rw [setEd_ed_ne v he]
      exact h.slot e' ha

/-- A change of the TD table and the index alone. -/
theorem SamePlaces.td (h : SamePlaces u v) {w : State} (hp : w.params = v.params) (he : w.edt = v.edt)
    (hl : w.place = v.place) : SamePlaces u w where
  params := hp.trans h.params
  list k := by rw [State.list, hl]; exact h.list k
  alloc e := by rw [State.ed, he]; exact h.alloc e
  slot e ha := by rw [State.ed, he]; exact h.slot e ha

theorem SamePlaces.refl (u : State) : SamePlaces u u := (SameTables.refl u).places

theorem SamePlaces.freeTds (h : SamePlaces u v) (ts : List Nat) : SamePlaces u (v.freeTds ts) := by
  rw [freeTds_frame]
  exact h.td rfl rfl rfl

theorem SamePlaces.placed (h : SamePlaces u v) (hu : u.placed) : v.placed where
  member k e he := by
    rw [h.list] at he
    obtain ⟨valid, slot⟩ := hu.member k e he
    have alloc := alloc_of_validEd valid
    exact ⟨by simpa only [State.validEd, h.params, h.alloc] using valid, (h.slot e alloc).1.trans slot⟩
  listed e he := by
    rw [h.alloc] at he
    rw [h.params, (h.slot e he).1, h.list]
    exact hu.listed e he
  once k := by
    rw [h.list]
    exact hu.once k

theorem SamePlaces.slotsSuit (h : SamePlaces u v) (hu : u.slotsSuit) : v.slotsSuit := by
  intro e he
  rw [h.alloc] at he
  obtain ⟨slot, type, depth⟩ := h.slot e he
  simpa only [State.slotSuits, slot, type, depth] using hu e he

/-! ### Opening and closing -/

/-- An endpoint that is not allocated is in no list. -/
theorem State.placed.notMem (h : u.placed) {e : Nat} (he : (u.ed e).alloc = false) (k : Nat) : e ∉ u.list k :=
  fun hm => by
    have alloc := alloc_of_validEd (h.member k e hm).1
    rw [he] at alloc
    cases alloc

theorem placed_opened {e t k : Nat} {w : Ed} (hu : u.placed) (he : u.allocEd = some e) (alloc : w.alloc = true) :
    ((u.built e t w).appended k e).placed := by
  obtain ⟨ned, free, _⟩ := allocEd_some he
  have fresh := hu.notMem free
  have self : ((u.built e t w).appended k e).ed e = { w with slot := k } := by rw [appended_ed_self, built_ed_self]
  have other : ∀ e', e' ≠ e → ((u.built e t w).appended k e).ed e' = u.ed e' := fun e' h => by
    rw [appended_ed_ne h, built_ed_ne h]
  have list : ∀ k', ((u.built e t w).appended k e).list k' = if k' = k then u.list k ++ [e] else u.list k' := fun k' => by
    split
    · rename_i h
      rw [h, appended_list_self, built_list]
    · rename_i h
      rw [appended_list_ne h, built_list]
  have kept : ∀ k' e', e' ∈ u.list k' → ((u.built e t w).appended k e).validEd e' = true ∧
      (((u.built e t w).appended k e).ed e').slot = k' := fun k' e' hm => by
    have ne : e' ≠ e := fun h => fresh k' (h ▸ hm)
    obtain ⟨valid, slot⟩ := hu.member k' e' hm
    rw [State.validEd, other e' ne]
    exact ⟨valid, slot⟩
  refine ⟨fun k' e' hm => ?_, fun e' ha => ?_, fun k' => ?_⟩
  · rw [list] at hm
    split at hm
    · rename_i hk
      rcases List.mem_append.1 hm with hm | hm
      · rw [hk]
        exact kept k e' hm
      · rw [List.mem_singleton.1 hm, State.validEd, self, hk]
        exact ⟨by simp only [alloc, Bool.and_true]; exact decide_eq_true ned, rfl⟩
    · exact kept k' e' hm
  · by_cases h : e' = e
    · subst h
      rw [self, list]
      exact ⟨ned, by simp⟩
    · rw [other e' h] at ha ⊢
      obtain ⟨ned', hm⟩ := hu.listed e' ha
      refine ⟨ned', ?_⟩
      rw [list]
      split
      · rename_i hk
        rw [hk] at hm
        exact List.mem_append_left _ hm
      · exact hm
  · rw [list]
    split
    · exact List.nodup_append.2 ⟨hu.once k, List.nodup_singleton e, fun a ha b hb => by
        rw [List.mem_singleton.1 hb]
        exact fun h => fresh k (h ▸ ha)⟩
    · exact hu.once k'

/-- A slot that a new endpoint may get suits it. -/
theorem slotSuits_of_slotFor {e k : Nat} {w : Ed} (hv : v.ed e = { w with slot := k }) (depth : w.depth ≤ 5)
    (slot : slotFor w k) : v.slotSuits e = true := by
  unfold slotFor at slot
  simp only [State.slotSuits, hv]
  cases ty : w.type with
  | control => simpa [ty] using slot
  | bulk => simpa [ty] using slot
  | interrupt =>
    simp only [ty] at slot
    obtain ⟨g, hg, rfl⟩ := slot
    simp only [node, Bool.and_eq_true, decide_eq_true_eq]
    exact ⟨⟨depth, decide_eq_true (Nat.le_add_right _ _)⟩, decide_eq_true (Nat.add_lt_add_left hg _)⟩

theorem slotsSuit_opened {e t k : Nat} {w : Ed} (hu : u.slotsSuit) (depth : w.depth ≤ 5) (slot : slotFor w k) :
    ((u.built e t w).appended k e).slotsSuit := by
  intro e' ha
  by_cases h : e' = e
  · subst h
    exact slotSuits_of_slotFor (by rw [appended_ed_self, built_ed_self]) depth slot
  · rw [appended_ed_ne h, built_ed_ne h] at ha
    simpa only [State.slotSuits, appended_ed_ne h, built_ed_ne h] using hu e' ha

/-- The tables after a close, endpoint by endpoint and list by list. -/
theorem closed_ed (k e : Nat) (l ts : List Nat) (e' : Nat) :
    (((u.setList k l).freeTds ts).freeEd e).ed e' = if e' = e then { u.ed e with alloc := false } else u.ed e' := by
  split
  · rename_i h
    rw [h, freeEd_ed_self, freeTds_ed]
    rfl
  · rename_i h
    rw [freeEd_ed_ne _ h, freeTds_ed]
    rfl

theorem closed_list (k e : Nat) (l ts : List Nat) (k' : Nat) :
    (((u.setList k l).freeTds ts).freeEd e).list k' = if k' = k then l else u.list k' := by
  rw [freeEd_list, freeTds_list]
  split
  · rename_i h
    rw [h, setList_list_self]
  · rename_i h
    rw [setList_list_ne u h]

theorem placed_closed {e k : Nat} {ts : List Nat} (hu : u.placed) (hm : e ∈ u.list k) :
    (((u.setList k ((u.list k).erase e)).freeTds ts).freeEd e).placed := by
  have ed := closed_ed (u := u) k e ((u.list k).erase e) ts
  have list := closed_list (u := u) k e ((u.list k).erase e) ts
  have params : (((u.setList k ((u.list k).erase e)).freeTds ts).freeEd e).params = u.params := by
    rw [freeEd_params, freeTds_params]
    rfl
  have slot : (u.ed e).slot = k := (hu.member k e hm).2
  have sub : ∀ k' e', e' ∈ (((u.setList k ((u.list k).erase e)).freeTds ts).freeEd e).list k' →
      e' ∈ u.list k' ∧ e' ≠ e := fun k' e' h => by
    rw [list] at h
    split at h
    · rename_i hk
      rw [hk]
      exact ⟨List.mem_of_mem_erase h, fun eq => by rw [eq] at h; exact (hu.once k).not_mem_erase h⟩
    · rename_i hk
      refine ⟨h, ?_⟩
      rintro rfl
      exact hk ((hu.member k' e' h).2.symm.trans slot)
  refine ⟨fun k' e' h => ?_, fun e' ha => ?_, fun k' => ?_⟩
  · obtain ⟨hm', ne⟩ := sub k' e' h
    rw [State.validEd, params, ed, if_neg ne]
    exact hu.member k' e' hm'
  · rw [ed] at ha ⊢
    split at ha
    · cases ha
    · rename_i ne
      rw [if_neg ne, params, list]
      obtain ⟨ned, hm'⟩ := hu.listed e' ha
      refine ⟨ned, ?_⟩
      split
      · rename_i hk
        rw [hk] at hm'
        exact (List.mem_erase_of_ne ne).2 hm'
      · exact hm'
  · rw [list]
    split
    · exact (hu.once k).erase e
    · exact hu.once k'

theorem slotsSuit_closed {e k : Nat} {l ts : List Nat} (hu : u.slotsSuit) :
    (((u.setList k l).freeTds ts).freeEd e).slotsSuit := by
  have ed := closed_ed (u := u) k e l ts
  intro e' ha
  by_cases h : e' = e
  · rw [ed, if_pos h] at ha
    cases ha
  · rw [ed, if_neg h] at ha
    simpa only [State.slotSuits, ed, if_neg h] using hu e' ha

/-! ### Each update -/

variable {W : Prop}

/-- A rejected opening leaves a free slot free. -/
theorem samePlaces_rejected {e t : Nat} {w : Ed} (he : u.allocEd = some e) :
    SamePlaces u (((u.built e t w).freeTd t).freeEd e) := by
  have free := (allocEd_some he).2.1
  refine ⟨by simp [State.built], fun k => by rw [freeEd_list, freeTd_list, built_list], fun e' => ?_, fun e' ha => ?_⟩
  · by_cases h : e' = e
    · subst h
      exact (congrArg Ed.alloc (freeEd_ed_self _ e')).trans free.symm
    · rw [freeEd_ed_ne _ h, freeTd_ed, built_ed_ne h]
  · have h : e' ≠ e := fun h => by rw [h, free] at ha; cases ha
    rw [freeEd_ed_ne _ h, freeTd_ed, built_ed_ne h]
    exact ⟨rfl, rfl, rfl⟩

theorem samePlaces_reserved (e n : Nat) (a : Bool) : SamePlaces u (u.reserved e n a) :=
  SamePlaces.td (v := u.setEd e { u.ed e with afterSetup := a })
    ((SamePlaces.refl u).setEd rfl fun _ => ⟨rfl, rfl, rfl⟩) rfl rfl rfl

theorem SamePlaces.trans {w : State} (h : SamePlaces u v) (h' : SamePlaces v w) : SamePlaces u w where
  params := h'.params.trans h.params
  list k := (h'.list k).trans (h.list k)
  alloc e := (h'.alloc e).trans (h.alloc e)
  slot e ha := by
    obtain ⟨slot, type, depth⟩ := h'.slot e ((h.alloc e).trans ha)
    obtain ⟨slot', type', depth'⟩ := h.slot e ha
    exact ⟨slot.trans slot', type.trans type', depth.trans depth'⟩

theorem samePlaces_filled (e n : Nat) (st : Word) : SamePlaces u (u.filled e n st) := by
  have indexed : SamePlaces u ((u.setTd (u.ed e).tail { u.td (u.ed e).tail with status := st, next := some n }).setIndexed
      (u.ed e).tail true) := (SamePlaces.refl u).td rfl rfl rfl
  exact indexed.setEd rfl fun _ => ⟨rfl, rfl, rfl⟩

theorem samePlaces_cutGroup (e : Nat) (before grp : List Nat) (after : Nat) :
    SamePlaces u (u.cutGroup e before grp after) := by
  have freed := (SamePlaces.refl u).freeTds grp
  cases last : before.getLast? with
  | none =>
    rw [cutGroup_first last, freeTds_ed]
    exact freed.setEd rfl fun _ => ⟨rfl, rfl, rfl⟩
  | some prev =>
    rw [cutGroup_after last]
    exact freed.td rfl rfl rfl

theorem samePlaces_marked (t : Nat) : SamePlaces u (u.marked t) :=
  SamePlaces.td (w := u.marked t) (.refl u) rfl rfl rfl

theorem samePlaces_unwindGroup (t : Nat) (grp : List Nat) (after : Nat) :
    SamePlaces u ((u.marked t).unwindGroup t grp after) :=
  SamePlaces.td (w := (u.marked t).unwindGroup t grp after) ((samePlaces_marked t).freeTds grp) rfl rfl rfl

/-- Only an opening and a close move an endpoint. -/
theorem does_places (d : Does W u v) : SamePlaces u v ∨
    (∃ e t k w, v = (u.built e t w).appended k e ∧ u.allocEd = some e ∧ w.alloc = true ∧ w.depth ≤ 5 ∧ slotFor w k) ∨
    (∃ e k ts, v = ((u.setList k ((u.list k).erase e)).freeTds ts).freeEd e ∧ e ∈ u.list k) := by
  cases d with
  | opened he _ alloc _ _ depth slot => exact .inr (.inl ⟨_, _, _, _, rfl, he, alloc, depth, slot⟩)
  | rejected he _ => exact .inl (samePlaces_rejected he)
  | closed _ member _ => exact .inr (.inr ⟨_, _, _, rfl, member⟩)
  | queued a more len _ _ _ => exact .inl ((samePlaces_reserved _ _ a).trans (samePlaces_filled _ _ _))
  | @completed e g after _ _ =>
    exact .inl (((SamePlaces.refl u).freeTds g).setEd rfl fun _ => ⟨rfl, rfl, rfl⟩)
  | aborted _ _ _ => exact .inl (samePlaces_cutGroup _ _ _ _)
  | finished _ _ => exact .inl (samePlaces_marked _)
  | unwound _ _ _ _ => exact .inl (samePlaces_unwindGroup _ _ _)

theorem placed_does (d : Does W u v) (hu : u.placed) : v.placed := by
  rcases does_places d with same | ⟨e, t, k, w, rfl, he, alloc, _, _⟩ | ⟨e, k, ts, rfl, member⟩
  · exact same.placed hu
  · exact placed_opened hu he alloc
  · exact placed_closed hu member

theorem slotsSuit_does (d : Does W u v) (hu : u.slotsSuit) : v.slotsSuit := by
  rcases does_places d with same | ⟨e, t, k, w, rfl, _, _, depth, slot⟩ | ⟨e, k, ts, rfl, _⟩
  · exact same.slotsSuit hu
  · exact slotsSuit_opened hu depth slot
  · exact slotsSuit_closed hu

/-! ### Every step -/

/-- With nothing allocated the entries are free. -/
theorem Cleared.ed (h : Cleared s) (e : Nat) : (s.ed e).alloc = false := by
  rw [State.ed, h.edt]
  rfl

theorem Cleared.placed (h : Cleared s) : s.placed where
  member k e hm := by
    rw [State.list, h.place] at hm
    cases hm
  listed e ha := by
    rw [h.ed] at ha
    cases ha
  once k := by
    rw [State.list, h.place]
    exact List.nodup_nil

theorem Cleared.slotsSuit (h : Cleared s) : s.slotsSuit := fun e ha => by
  rw [h.ed] at ha
  cases ha

theorem keeps_updates {P : State → Prop} (does : ∀ u v, Does W u v → P u → P v)
    (d : Relation.ReflTransGen (Does W) u v) (h : P u) : P v := by
  induction d with
  | refl => exact h
  | tail _ d ih => exact does _ _ d ih

/-- A property of the tables that a reset establishes and the updates keep is kept by every step. -/
theorem keeps_of_does {P : State → Prop} (cleared : ∀ s, Cleared s → P s) (same : ∀ s s', SameTables s s' → P s → P s')
    (does : ∀ u v, Does W u v → P u → P v) (hW : W → s.waitOwned) (e : step s = .next t) (h : P s) : P t := by
  rcases step_tables hW e with reset | ⟨waits, _⟩ | ⟨⟨v, updates, hv⟩, _⟩
  · exact cleared t reset
  · exact same s t waits h
  · exact same v t hv (keeps_updates does updates h)

/-- Settles O12: each update of `Does` keeps the lists and the slots. -/
theorem placementKept : Obligations.PlacementKept := fun _ _ e =>
  ⟨keeps_of_does (fun _ => Cleared.placed) (fun _ _ h => h.places.placed) (fun _ _ => placed_does) False.elim e,
    keeps_of_does (fun _ => Cleared.slotsSuit) (fun _ _ h => h.places.slotsSuit) (fun _ _ => slotsSuit_does)
      False.elim e⟩

end Sys2Proof.Machine
end

section
/-! SUPPORT. The transfer queues under the updates of the tables: each keeps every allocated endpoint's queue in shape
and the finished TDs first (10_state.md R33, R42 (b), (c)). -/

namespace Sys2Proof.Machine

variable {u v s t : State} {e : Nat} {q : List Nat}

/-! ### Status words (10_state.md R32) -/

theorem setFinished_getLsbD (w : Word) : (setFinished w).getLsbD 31 = true := by simp [setFinished]

theorem clearMore_getLsbD (w : Word) : (clearMore w).getLsbD 31 = w.getLsbD 31 := by simp [clearMore]

/-- A TD queued with a length that fits is not finished. -/
theorem queuedStatus_getLsbD (more : Bool) {len : Word} (h : len.toNat ≤ 8192) :
    (queuedStatus more len).getLsbD 31 = false := by
  have short : len[31] = false := by
    rw [← BitVec.getLsbD_eq_getElem]
    exact Nat.testBit_lt_two_pow (by omega)
  cases more with
  | false => simp [queuedStatus, short]
  | true => simp [queuedStatus, short]

/-! ### Chains -/

theorem chain_congr (h : ∀ x ∈ q, (v.td x).next = (u.td x).next) {a b : Nat} (c : Chain u a q b) : Chain v a q b := by
  induction q generalizing a with
  | nil => exact c
  | cons x q ih =>
    obtain ⟨rfl, nx, hn, c⟩ := c
    exact ⟨rfl, nx, by rw [h a List.mem_cons_self, hn], ih (fun y hy => h y (List.mem_cons_of_mem _ hy)) c⟩

theorem chain_append {l l' : List Nat} {a b c : Nat} (h : Chain s a l b) (h' : Chain s b l' c) :
    Chain s a (l ++ l') c := by
  induction l generalizing a with
  | nil =>
    cases h
    exact h'
  | cons x l ih =>
    obtain ⟨rfl, nx, hn, h⟩ := h
    exact ⟨rfl, nx, hn, ih h⟩

theorem chain_split {l l' : List Nat} {a c : Nat} (h : Chain s a (l ++ l') c) : ∃ b, Chain s a l b ∧ Chain s b l' c := by
  induction l generalizing a with
  | nil => exact ⟨a, rfl, h⟩
  | cons x l ih =>
    obtain ⟨rfl, nx, hn, h⟩ := h
    obtain ⟨b, h1, h2⟩ := ih h
    exact ⟨b, ⟨rfl, nx, hn, h1⟩, h2⟩

/-- A chain that does not pass the end of another one from the same TD is its first part. -/
theorem chain_prefix {l g : List Nat} {a b c : Nat} (h : Chain s a l b) (h' : Chain s a g c) (hb : b ∉ g) :
    ∃ r, l = g ++ r ∧ Chain s c r b := by
  induction g generalizing a l with
  | nil =>
    cases h'
    exact ⟨l, rfl, h⟩
  | cons x g ih =>
    obtain ⟨rfl, nx, hn, h'⟩ := h'
    cases l with
    | nil =>
      cases h
      exact absurd List.mem_cons_self hb
    | cons y l =>
      obtain ⟨rfl, nx', hn', h⟩ := h
      rw [hn] at hn'
      cases hn'
      obtain ⟨r, rfl, hr⟩ := ih h h' fun hm => hb (List.mem_cons_of_mem _ hm)
      exact ⟨r, rfl, hr⟩

/-- A chain whose last link has been redirected. -/
theorem chain_redirect {l : List Nat} {p a b c : Nat} (h : Chain u a (l ++ [p]) b) (hp : p ∉ l)
    (same : ∀ x, x ≠ p → (v.td x).next = (u.td x).next) (next : (v.td p).next = some c) : Chain v a (l ++ [p]) c := by
  obtain ⟨m, h1, h2⟩ := chain_split h
  obtain ⟨rfl, _⟩ := h2
  exact chain_append (chain_congr (fun x hx => same x fun e => hp (e ▸ hx)) h1) ⟨rfl, c, next, rfl⟩

/-! ### The shape of the queues, the wait left aside -/

/-- R42 (b) and R33 of the tables. -/
structure State.shape (s : State) : Prop where
  shaped : ∀ e, (s.ed e).alloc = true → ∃ q, s.queueIs e q
  onQueue : ∀ t, (s.td t).alloc = true → (s.ed (s.td t).owner).alloc = true ∧
    ∃ q, s.queueIs (s.td t).owner q ∧ t ∈ q ++ [(s.ed (s.td t).owner).tail]
  indexOwned : ∀ t, s.indexed t = true → (s.td t).alloc = true

theorem State.queuesOk.shape (h : s.queuesOk) : s.shape := ⟨h.shaped, h.onQueue, h.indexOwned⟩

theorem State.shape.mem (h : s.shape) (hq : s.queueIs e q) {t : Nat} (ha : (s.td t).alloc = true)
    (ho : (s.td t).owner = e) : t ∈ q ++ [(s.ed e).tail] := by
  obtain ⟨_, q', hq', hm⟩ := h.onQueue t ha
  rw [ho] at hq' hm
  rwa [queueIs_unique hq hq']

/-- A queue whose TDs and endpoint are as before. -/
theorem queueIs_of_frame (h : u.queueIs e q) (hp : v.params = u.params) (hd : (v.ed e).head = (u.ed e).head)
    (ht : (v.ed e).tail = (u.ed e).tail) (htd : ∀ t ∈ q ++ [(u.ed e).tail], v.td t = u.td t)
    (hi : v.indexed (u.ed e).tail = u.indexed (u.ed e).tail) : v.queueIs e q where
  chain := by
    rw [hd, ht]
    exact chain_congr (fun x hx => by rw [htd x (List.mem_append_left _ hx)]) h.chain
  once := by rw [ht]; exact h.once
  owned t hm := by
    rw [ht] at hm
    rw [hp, htd t hm]
    exact h.owned t hm
  empty := by
    rw [ht, htd _ (List.mem_append_right _ (List.mem_singleton_self _)), hi]
    exact h.empty

/-- Of two TDs of the queue the later is finished only where the earlier is, and the placeholder is not. -/
def State.ordered (s : State) (e : Nat) (q : List Nat) : Prop :=
  (q ++ [(s.ed e).tail]).Pairwise (fun a b => (s.td b).finished = true → (s.td a).finished = true) ∧
    (s.td (s.ed e).tail).finished = false

/-- R42 (c) of one queue. -/
theorem ordered_iff : s.ordered e q ↔ ∃ done rest, q = done ++ rest ∧ (∀ t ∈ done, (s.td t).finished = true) ∧
    ∀ t ∈ rest ++ [(s.ed e).tail], (s.td t).finished = false := by
  constructor
  · rintro ⟨sorted, tail⟩
    refine ⟨_, _, (List.takeWhile_append_dropWhile (p := fun t => (s.td t).finished)).symm,
      fun t ht => List.mem_takeWhile_imp (p := fun t => (s.td t).finished) ht, fun t ht => ?_⟩
    rcases List.mem_append.1 ht with ht | ht
    · have later : (q.dropWhile fun t => (s.td t).finished).Pairwise
          (fun a b => (s.td b).finished = true → (s.td a).finished = true) :=
        (List.pairwise_append.1 sorted).1.sublist (List.dropWhile_sublist _)
      cases hd : q.dropWhile fun t => (s.td t).finished with
      | nil =>
        rw [hd] at ht
        cases ht
      | cons x rest =>
        have first : (s.td x).finished = false := by
          have := List.head?_dropWhile_not (fun t => (s.td t).finished) q
          rw [hd] at this
          simpa using this
        rw [hd] at ht later
        rcases List.mem_cons.1 ht with rfl | ht
        · exact first
        · by_contra no
          have := (List.pairwise_cons.1 later).1 t ht (by simpa using no)
          rw [first] at this
          cases this
    · rw [List.mem_singleton.1 ht]
      exact tail
  · rintro ⟨done, rest, rfl, before, after⟩
    refine ⟨?_, after _ (by simp)⟩
    rw [List.append_assoc]
    refine List.pairwise_append.2 ⟨List.pairwise_of_forall_mem_list fun a ha _ _ _ => before a ha,
      List.pairwise_of_forall_mem_list fun a _ b hb fin => ?_, fun a ha _ _ _ => before a ha⟩
    rw [after b hb] at fin
    cases fin

/-- R42 (c) of every queue. -/
def State.allOrdered (s : State) : Prop := ∀ e q, (s.ed e).alloc = true → s.queueIs e q → s.ordered e q

theorem finishedFirst_iff : s.finishedFirst ↔ s.allOrdered :=
  ⟨fun h e q ha hq => ordered_iff.2 (h e q ha hq), fun h e q ha hq => ordered_iff.1 (h e q ha hq)⟩

theorem ordered_congr (ht : (v.ed e).tail = (u.ed e).tail) (htd : ∀ t ∈ q ++ [(u.ed e).tail], v.td t = u.td t)
    (h : u.ordered e q) : v.ordered e q := by
  obtain ⟨sorted, tail⟩ := h
  unfold State.ordered
  rw [ht]
  refine ⟨sorted.imp_of_mem fun {a b} ha hb hab => ?_, ?_⟩
  · rw [htd a ha, htd b hb]
    exact hab
  · rw [htd _ (by simp)]
    exact tail

/-! ### An update of one endpoint's queue -/

/-- The update touches the endpoint `e` alone, and TDs that are free or its own; it leaves `e` free with no TD, or with
a queue that holds all of its TDs. -/
structure Local (u v : State) (e : Nat) : Prop where
  params : v.params = u.params
  ed : ∀ e', e' ≠ e → v.ed e' = u.ed e'
  td : ∀ t, (v.td t = u.td t ∧ v.indexed t = u.indexed t) ∨
    (((u.td t).alloc = true → (u.td t).owner = e) ∧ ((v.td t).alloc = true → (v.td t).owner = e))
  index : ∀ t, v.indexed t = true → (v.td t).alloc = true
  own : (v.ed e).alloc = true → ∃ q, v.queueIs e q ∧
    (∀ t, (v.td t).alloc = true → (v.td t).owner = e → t ∈ q ++ [(v.ed e).tail]) ∧ (u.allOrdered → v.ordered e q)
  none : (v.ed e).alloc = false → ∀ t, (v.td t).alloc = true → (v.td t).owner ≠ e

namespace Local

variable (L : Local u v e)
include L

/-- A TD that another endpoint owns is as before. -/
theorem td_other {t : Nat} (ha : (u.td t).alloc = true) (ho : (u.td t).owner ≠ e) :
    v.td t = u.td t ∧ v.indexed t = u.indexed t :=
  (L.td t).resolve_right fun h => ho (h.1 ha)

theorem queue_other {e' : Nat} (he : e' ≠ e) (h : u.queueIs e' q) : v.queueIs e' q := by
  have same : ∀ t ∈ q ++ [(u.ed e').tail], v.td t = u.td t ∧ v.indexed t = u.indexed t := fun t ht => by
    obtain ⟨_, ha, ho⟩ := h.owned t ht
    exact L.td_other ha (by rw [ho]; exact he)
  exact queueIs_of_frame h L.params (by rw [L.ed e' he]) (by rw [L.ed e' he]) (fun t ht => (same t ht).1)
    (same _ (by simp)).2

theorem shape (hu : u.shape) : v.shape where
  shaped e' ha := by
    by_cases he : e' = e
    · subst he
      obtain ⟨q, hq, _⟩ := L.own ha
      exact ⟨q, hq⟩
    · rw [L.ed e' he] at ha
      obtain ⟨q, hq⟩ := hu.shaped e' ha
      exact ⟨q, L.queue_other he hq⟩
  onQueue t ha := by
    by_cases he : (v.td t).owner = e
    · rw [he]
      have alloc : (v.ed e).alloc = true := by
        by_contra no
        exact L.none (by simpa using no) t ha he
      obtain ⟨q, hq, own, _⟩ := L.own alloc
      exact ⟨alloc, q, hq, own t ha he⟩
    · obtain ⟨same, _⟩ := (L.td t).resolve_right fun h => he (h.2 ha)
      rw [same] at ha he ⊢
      obtain ⟨alloc, q, hq, hm⟩ := hu.onQueue t ha
      rw [L.ed _ he]
      exact ⟨alloc, q, L.queue_other he hq, hm⟩
  indexOwned := L.index

theorem allOrdered (hu : u.shape) (ho : u.allOrdered) : v.allOrdered := by
  intro e' q ha hq
  by_cases he : e' = e
  · subst he
    obtain ⟨q', hq', _, order⟩ := L.own ha
    rw [queueIs_unique hq hq']
    exact order ho
  · rw [L.ed e' he] at ha
    obtain ⟨q', hq'⟩ := hu.shaped e' ha
    rw [queueIs_unique hq (L.queue_other he hq')]
    refine ordered_congr (by rw [L.ed e' he]) (fun t ht => ?_) (ho e' q' ha hq')
    obtain ⟨_, ha, ho⟩ := hq'.owned t ht
    exact (L.td_other ha (by rw [ho]; exact he)).1

end Local

/-! ### Opening, closing, queueing, finishing -/

/-- A free TD has no index entry. -/
theorem State.shape.indexed_free (hu : u.shape) {t : Nat} (h : (u.td t).alloc = false) : u.indexed t = false := by
  by_contra no
  have := hu.indexOwned t (by simpa using no)
  rw [h] at this
  cases this

/-- A free endpoint owns no TD. -/
theorem State.shape.not_owner (hu : u.shape) (he : (u.ed e).alloc = false) {t : Nat} (ha : (u.td t).alloc = true) :
    (u.td t).owner ≠ e := fun ho => by
  have := (hu.onQueue t ha).1
  rw [ho, he] at this
  cases this

theorem built_td_self (e t : Nat) (w : Ed) : (u.built e t w).td t = { alloc := true, owner := e } := by
  simp [State.built]

theorem built_td_ne {t t' : Nat} (h : t' ≠ t) (e : Nat) (w : Ed) : (u.built e t w).td t' = u.td t' := by
  simp [State.built, setTd_td_ne _ h]

theorem built_indexed (e t : Nat) (w : Ed) (t' : Nat) : (u.built e t w).indexed t' = u.indexed t' := rfl
theorem built_params (e t : Nat) (w : Ed) : (u.built e t w).params = u.params := rfl
theorem appended_td (k e t : Nat) : (u.appended k e).td t = u.td t := rfl
theorem appended_indexed (k e t : Nat) : (u.appended k e).indexed t = u.indexed t := rfl
theorem appended_params (k e : Nat) : (u.appended k e).params = u.params := rfl

theorem local_opened {t k : Nat} {w : Ed} (hu : u.shape) (he : u.allocEd = some e) (ht : u.allocTd = some t)
    (alloc : w.alloc = true) (head : w.head = t) (tail : w.tail = t) : Local u ((u.built e t w).appended k e) e := by
  obtain ⟨_, freeEd, _⟩ := allocEd_some he
  obtain ⟨ntd, freeTd, _⟩ := allocTd_some ht
  have self : ((u.built e t w).appended k e).ed e = { w with slot := k } := by rw [appended_ed_self, built_ed_self]
  have td := appended_td (u := u.built e t w) k e
  have index : ∀ t', ((u.built e t w).appended k e).indexed t' = u.indexed t' := fun t' => by
    rw [appended_indexed, built_indexed]
  have params : ((u.built e t w).appended k e).params = u.params := by rw [appended_params, built_params]
  have own : ∀ t', (((u.built e t w).appended k e).td t').alloc = true →
      (((u.built e t w).appended k e).td t').owner = e → t' = t := fun t' ha ho => by
    by_contra h
    rw [td, built_td_ne h] at ha ho
    exact hu.not_owner freeEd ha ho
  have empty : ({ alloc := true, owner := e } : Td).finished = false := by simp [Td.finished]
  refine ⟨params, fun e' h => by rw [appended_ed_ne h, built_ed_ne h], fun t' => ?_, fun t' hi => ?_, fun _ => ?_,
    fun no => ?_⟩
  · by_cases h : t' = t
    · subst h
      refine .inr ⟨fun ha => ?_, fun _ => by rw [td, built_td_self]⟩
      rw [freeTd] at ha
      cases ha
    · exact .inl ⟨by rw [td, built_td_ne h], index t'⟩
  · have h : t' ≠ t := fun h => by
      rw [index, h, hu.indexed_free freeTd] at hi
      cases hi
    rw [td, built_td_ne h]
    exact hu.indexOwned t' hi
  · refine ⟨[], ⟨?_, ?_, fun t' hm => ?_, ?_⟩, fun t' ha ho => ?_, fun _ => ⟨?_, ?_⟩⟩
    · rw [self, head, tail]
      rfl
    · exact List.nodup_singleton _
    · rw [self, tail] at hm
      rw [List.mem_singleton.1 hm, td, built_td_self, params]
      exact ⟨ntd, rfl, rfl⟩
    · rw [self, tail, td, built_td_self, index]
      exact ⟨rfl, hu.indexed_free freeTd⟩
    · rw [self, tail, own t' ha ho]
      exact List.mem_singleton_self _
    · exact List.pairwise_singleton _ _
    · rw [self, tail, td, built_td_self]
      exact empty
  · rw [self, alloc] at no
    cases no

theorem local_rejected {t : Nat} {w : Ed} (hu : u.shape) (he : u.allocEd = some e) (ht : u.allocTd = some t) :
    Local u (((u.built e t w).freeTd t).freeEd e) e := by
  obtain ⟨_, freeEd, _⟩ := allocEd_some he
  obtain ⟨_, freeTd, _⟩ := allocTd_some ht
  have self : (((u.built e t w).freeTd t).freeEd e).ed e = { w with alloc := false } := by
    rw [freeEd_ed_self, freeTd_ed, built_ed_self]
  have tdSelf : ((((u.built e t w).freeTd t).freeEd e).td t).alloc = false := by rw [freeEd_td, freeTd_td_self]
  have td : ∀ t', t' ≠ t → (((u.built e t w).freeTd t).freeEd e).td t' = u.td t' := fun t' h => by
    rw [freeEd_td, freeTd_td_ne _ h, built_td_ne h]
  have index : ∀ t', (((u.built e t w).freeTd t).freeEd e).indexed t' = u.indexed t' := fun t' => by
    rw [freeEd_indexed]
    by_cases h : t' = t
    · rw [h, freeTd_indexed_self, hu.indexed_free freeTd]
    · rw [freeTd_indexed_ne _ h]
      rfl
  refine ⟨by simp [State.built], fun e' h => by rw [freeEd_ed_ne _ h, freeTd_ed, built_ed_ne h], fun t' => ?_,
    fun t' hi => ?_, fun ha => ?_, fun _ t' ha => ?_⟩
  · by_cases h : t' = t
    · subst h
      exact .inr ⟨fun ha => (by rw [freeTd] at ha; cases ha), fun ha => (by rw [tdSelf] at ha; cases ha)⟩
    · exact .inl ⟨td t' h, index t'⟩
  · rw [index] at hi
    have h : t' ≠ t := fun h => by
      rw [h, hu.indexed_free freeTd] at hi
      cases hi
    rw [td t' h]
    exact hu.indexOwned t' hi
  · rw [self] at ha
    cases ha
  · have h : t' ≠ t := fun h => by
      rw [h, tdSelf] at ha
      cases ha
    rw [td t' h] at ha ⊢
    exact hu.not_owner freeEd ha

theorem local_closed {k : Nat} {l ts : List Nat} (hu : u.shape) (he : (u.ed e).alloc = true)
    (hq : u.queue e = some ts) :
    Local u (((u.setList k l).freeTds (ts ++ [(u.ed e).tail])).freeEd e) e := by
  obtain ⟨q, queue⟩ := hu.shaped e he
  obtain ⟨chain, notTail, _⟩ := queue_some hq
  obtain rfl : q = ts := chain_unique queue.chain
    (fun hm => (List.nodup_append.1 queue.once).2.2 _ hm _ List.mem_cons_self rfl) chain notTail
  have td : ∀ t, (((u.setList k l).freeTds (q ++ [(u.ed e).tail])).freeEd e).td t =
      if t ∈ q ++ [(u.ed e).tail] then { u.td t with alloc := false } else u.td t := fun t => by
    rw [freeEd_td, freeTds_td]
    rfl
  have index : ∀ t, (((u.setList k l).freeTds (q ++ [(u.ed e).tail])).freeEd e).indexed t =
      if t ∈ q ++ [(u.ed e).tail] then false else u.indexed t := fun t => by
    rw [freeEd_indexed, freeTds_indexed]
    rfl
  refine ⟨by rw [freeEd_params, freeTds_params]; rfl, fun e' h => by rw [closed_ed, if_neg h], fun t => ?_,
    fun t hi => ?_, fun ha => ?_, fun _ t ha ho => ?_⟩
  · by_cases hm : t ∈ q ++ [(u.ed e).tail]
    · refine .inr ⟨fun _ => (queue.owned t hm).2.2, fun ha => ?_⟩
      rw [td, if_pos hm] at ha
      cases ha
    · exact .inl ⟨by rw [td, if_neg hm], by rw [index, if_neg hm]⟩
  · rw [index] at hi
    split at hi
    · cases hi
    · rename_i hm
      rw [td, if_neg hm]
      exact hu.indexOwned t hi
  · rw [closed_ed, if_pos rfl] at ha
    cases ha
  · rw [td] at ha ho
    split at ha
    · cases ha
    · rename_i hm
      rw [if_neg hm] at ho
      exact hm (hu.mem queue ha ho)

/-- A resolved TD lies on its owner's queue, before the placeholder. -/
theorem State.shape.resolved (hu : u.shape) {t : Nat} (h : u.resolved t) :
    (u.td t).alloc = true ∧ (u.ed (u.td t).owner).alloc = true ∧ t ≠ (u.ed (u.td t).owner).tail := by
  rcases h with indexed | ⟨e, r, alloc, chain, notTail⟩
  · have ha := hu.indexOwned t indexed
    obtain ⟨he, q, hq, _⟩ := hu.onQueue t ha
    refine ⟨ha, he, fun h => ?_⟩
    have := hq.empty.2
    rw [← h, indexed] at this
    cases this
  · obtain ⟨q, hq⟩ := hu.shaped e alloc
    obtain ⟨rest, rfl, after⟩ := chain_prefix hq.chain chain fun hm => notTail (List.mem_append_left _ hm)
    cases rest with
    | nil =>
      cases after
      exact absurd (by simp) notTail
    | cons x rest =>
      obtain ⟨rfl, _⟩ := after
      obtain ⟨_, ha, ho⟩ := hq.owned t (by simp)
      rw [ho]
      exact ⟨ha, alloc, fun h => notTail (by simp [h])⟩

/-! ### Queueing (42_transfer.md R300) -/

section
variable {n : Nat} {st : Word}

theorem filled_ed_self : (u.filled e n st).ed e = { u.ed e with tail := n } := by simp [State.filled]

theorem filled_ed_ne {e' : Nat} (h : e' ≠ e) : (u.filled e n st).ed e' = u.ed e' := by
  rw [State.filled, setEd_ed_ne _ h]
  rfl

theorem filled_td_self : (u.filled e n st).td (u.ed e).tail =
    { u.td (u.ed e).tail with status := st, next := some n } := by simp [State.filled]

theorem filled_td_ne {t : Nat} (h : t ≠ (u.ed e).tail) : (u.filled e n st).td t = u.td t := by
  simp [State.filled, setTd_td_ne _ h]

theorem filled_indexed_ne {t : Nat} (h : t ≠ (u.ed e).tail) : (u.filled e n st).indexed t = u.indexed t := by
  simp [State.filled, setIndexed_indexed_ne _ h]

theorem reserved_ed_ne {a : Bool} {e' : Nat} (h : e' ≠ e) : (u.reserved e n a).ed e' = u.ed e' := by
  simp [State.reserved, setEd_ed_ne _ h]

theorem reserved_td_self {a : Bool} : (u.reserved e n a).td n = { alloc := true, owner := e } := by
  simp [State.reserved]

theorem reserved_td_ne {a : Bool} {t : Nat} (h : t ≠ n) : (u.reserved e n a).td t = u.td t := by
  simp [State.reserved, setTd_td_ne _ h]

theorem reserved_indexed {a : Bool} (t : Nat) : (u.reserved e n a).indexed t = u.indexed t := rfl

/-- The placeholder becomes the last TD of the queue, unfinished, and the new slot the placeholder. -/
theorem local_queued {a : Bool} (hu : u.shape) (he : (u.ed e).alloc = true) (hn : u.allocTd = some n)
    (fresh : st.getLsbD 31 = false) : Local u ((u.reserved e n a).filled e n st) e := by
  obtain ⟨ntd, free, _⟩ := allocTd_some hn
  obtain ⟨q, hq⟩ := hu.shaped e he
  have reservedEd := reserved_ed_self u e n a
  have reservedTail : ((u.reserved e n a).ed e).tail = (u.ed e).tail := by rw [reservedEd]
  obtain ⟨p, hp⟩ : ∃ p, p = (u.ed e).tail := ⟨_, rfl⟩
  have queued : ∀ t ∈ q ++ [p], t < u.params.ntd ∧ (u.td t).alloc = true ∧ (u.td t).owner = e := hp ▸ hq.owned
  have new : n ∉ q ++ [p] := fun hm => by
    have := (queued n hm).2.1
    rw [free] at this
    cases this
  have np : n ≠ p := fun h => new (by simp [h])
  obtain ⟨v, hv⟩ : ∃ v, v = (u.reserved e n a).filled e n st := ⟨_, rfl⟩
  have self : v.ed e = { u.ed e with afterSetup := a, tail := n } := by rw [hv, filled_ed_self, reservedEd]
  have tdN : v.td n = { alloc := true, owner := e } := by
    rw [hv, filled_td_ne (by rwa [reservedTail, ← hp]), reserved_td_self]
  have tdP : v.td p = { u.td p with status := st, next := some n } := by
    rw [hv, hp, ← reservedTail, filled_td_self, reserved_td_ne (by rw [reservedTail, ← hp]; exact np.symm)]
  have td : ∀ t, t ≠ n → t ≠ p → v.td t = u.td t := fun t h h' => by
    rw [hv, filled_td_ne (by rwa [reservedTail, ← hp]), reserved_td_ne h]
  have index : ∀ t, t ≠ p → v.indexed t = u.indexed t := fun t h => by
    rw [hv, filled_indexed_ne (by rwa [reservedTail, ← hp]), reserved_indexed]
  have params : v.params = u.params := by
    rw [hv, State.filled, State.reserved, setEd_params, setIndexed_params, setTd_params, setTd_params, setEd_params]
  have old : ∀ t ∈ q, v.td t = u.td t := fun t ht => td t (fun h => new (by simp [← h, ht])) fun h => by
    have once := hq.once
    rw [← hp, List.nodup_append] at once
    exact once.2.2 t ht p (List.mem_singleton_self p) h
  have unfinishedN : (v.td n).finished = false := by
    rw [tdN]
    simp [Td.finished]
  have unfinishedP : (v.td p).finished = false := by
    rw [tdP]
    exact fresh
  rw [← hv]
  refine ⟨params, fun e' h => by rw [hv, filled_ed_ne h, reserved_ed_ne h], fun t => ?_, fun t hi => ?_, fun _ => ?_,
    fun no => ?_⟩
  · by_cases h : t = n
    · subst h
      exact .inr ⟨fun ha => (by rw [free] at ha; cases ha), fun _ => by rw [tdN]⟩
    · by_cases h' : t = p
      · subst h'
        exact .inr ⟨fun _ => (queued t (by simp)).2.2, fun _ => by rw [tdP]; exact (queued t (by simp)).2.2⟩
      · exact .inl ⟨td t h h', index t h'⟩
  · by_cases h' : t = p
    · subst h'
      rw [tdP]
      exact (queued t (by simp)).2.1
    · rw [index t h'] at hi
      have h : t ≠ n := fun h => by
        rw [h, hu.indexed_free free] at hi
        cases hi
      rw [td t h h']
      exact hu.indexOwned t hi
  · refine ⟨q ++ [p], ⟨?_, ?_, fun t ht => ?_, ?_⟩, fun t ha ho => ?_, fun ordered => ?_⟩
    · rw [self]
      have chain := hq.chain
      rw [← hp] at chain
      exact chain_append (chain_congr (fun x hx => by rw [old x hx]) chain) ⟨rfl, n, by rw [tdP], rfl⟩
    · rw [self]
      have once := hq.once
      rw [← hp] at once
      exact List.nodup_append.2 ⟨once, List.nodup_singleton n, fun x hx y hy => by
        rw [List.mem_singleton.1 hy]
        rintro rfl
        exact new hx⟩
    · rw [self] at ht
      rw [params]
      rcases List.mem_append.1 ht with ht | ht
      · have known := queued t ht
        rcases List.mem_append.1 ht with hm | hm
        · rwa [old t hm]
        · rw [List.mem_singleton.1 hm] at known ⊢
          rw [tdP]
          exact known
      · rw [List.mem_singleton.1 ht, tdN]
        exact ⟨ntd, rfl, rfl⟩
    · rw [self, tdN, index n np]
      exact ⟨rfl, hu.indexed_free free⟩
    · rw [self]
      by_cases h : t = n
      · simp [h]
      · by_cases h' : t = p
        · simp [h']
        · rw [td t h h'] at ha ho
          rw [hp]
          exact List.mem_append_left _ (hu.mem hq ha ho)
    · obtain ⟨sorted, _⟩ := ordered e q he hq
      rw [← hp] at sorted
      refine ⟨?_, by rw [self]; exact unfinishedN⟩
      rw [self]
      refine List.pairwise_append.2 ⟨List.pairwise_append.2 ⟨?_, List.pairwise_singleton _ _, fun x _ y hy fin => ?_⟩,
        List.pairwise_singleton _ _, fun x _ y hy fin => ?_⟩
      · exact (List.pairwise_append.1 sorted).1.imp_of_mem fun ha hb h => by rwa [old _ ha, old _ hb]
      · rw [List.mem_singleton.1 hy, unfinishedP] at fin
        cases fin
      · rw [List.mem_singleton.1 hy, unfinishedN] at fin
        cases fin
  · rw [self] at no
    rw [he] at no
    cases no

end

/-! ### Finishing (43_done_queue.md R357) -/

theorem marked_td (t x : Nat) : (u.marked t).td x =
    if x = t then { u.td t with status := setFinished (u.td t).status } else u.td x := by
  split
  · rename_i h
    rw [h, State.marked, setTd_td_self]
  · rename_i h
    rw [State.marked, setTd_td_ne _ h]

/-- What of a TD the mark leaves. -/
theorem marked_kept (t x : Nat) : ((u.marked t).td x).alloc = (u.td x).alloc ∧
    ((u.marked t).td x).owner = (u.td x).owner ∧ ((u.marked t).td x).next = (u.td x).next := by
  rw [marked_td]
  split
  · rename_i h
    rw [h]
    exact ⟨rfl, rfl, rfl⟩
  · exact ⟨rfl, rfl, rfl⟩

theorem marked_finished {x : Nat} (t : Nat) (h : (u.td x).finished = true) : ((u.marked t).td x).finished = true := by
  rw [marked_td]
  split
  · exact setFinished_getLsbD _
  · exact h

theorem local_marked {t : Nat} {l : List Nat} (hu : u.shape) (ht : (u.td t).alloc = true)
    (he : (u.ed (u.td t).owner).alloc = true) (notTail : t ≠ (u.ed (u.td t).owner).tail)
    (chain : Chain u (u.ed (u.td t).owner).head l t) (before : ∀ x ∈ l, (u.td x).finished = true) :
    Local u (u.marked t) (u.td t).owner := by
  obtain ⟨e, owner⟩ : ∃ e, e = (u.td t).owner := ⟨_, rfl⟩
  rw [← owner] at he notTail chain ⊢
  obtain ⟨q, hq⟩ := hu.shaped e he
  have tail : (u.marked t).td (u.ed e).tail = u.td (u.ed e).tail := by rw [marked_td, if_neg notTail.symm]
  have queue : (u.marked t).queueIs e q := by
    refine ⟨chain_congr (fun x _ => (marked_kept t x).2.2) hq.chain, hq.once, fun x hx => ?_, ?_⟩
    · rw [(marked_kept t x).1, (marked_kept t x).2.1]
      exact hq.owned x hx
    · exact tail.symm ▸ hq.empty
  refine ⟨rfl, fun _ _ => rfl, fun x => ?_, fun x hx => ?_, fun _ => ⟨q, queue, fun x ha ho => ?_, fun ordered => ?_⟩,
    fun no => ?_⟩
  · by_cases h : x = t
    · subst h
      exact .inr ⟨fun _ => owner.symm, fun _ => (marked_kept x x).2.1.trans owner.symm⟩
    · exact .inl ⟨by rw [marked_td, if_neg h], rfl⟩
  · rw [(marked_kept t x).1]
    exact hu.indexOwned x hx
  · rw [(marked_kept t x).1] at ha
    rw [(marked_kept t x).2.1] at ho
    exact hu.mem hq ha ho
  · obtain ⟨sorted, last⟩ := ordered e q he hq
    have unfinished : (u.td (u.ed e).tail).finished = false := last
    have tailBefore : (u.ed e).tail ∉ l := fun hm => by
      rw [before _ hm] at unfinished
      cases unfinished
    obtain ⟨rest, rfl, after⟩ := chain_prefix hq.chain chain tailBefore
    refine ⟨?_, by rw [show ((u.marked t).ed e).tail = (u.ed e).tail from rfl, tail]; exact unfinished⟩
    cases rest with
    | nil => exact absurd after notTail
    | cons y rest =>
      obtain ⟨rfl, _⟩ := after
      rw [List.append_assoc, List.cons_append] at sorted ⊢
      obtain ⟨_, sorted, _⟩ := List.pairwise_append.1 sorted
      have later : (rest ++ [(u.ed e).tail]).Nodup ∧ t ∉ rest ++ [(u.ed e).tail] := by
        have once := hq.once
        rw [List.append_assoc, List.cons_append] at once
        obtain ⟨_, once, _⟩ := List.nodup_append.1 once
        exact ⟨(List.nodup_cons.1 once).2, (List.nodup_cons.1 once).1⟩
      have others : ∀ x ∈ rest ++ [(u.ed e).tail], (u.marked t).td x = u.td x := fun x hx => by
        
        have ne : x ≠ t := fun h => later.2 (h ▸ hx)
        rw [marked_td, if_neg ne]
      refine List.pairwise_append.2 ⟨List.pairwise_of_forall_mem_list fun x hx _ _ _ => marked_finished t (before x hx),
        List.pairwise_cons.2 ⟨fun _ _ _ => ?_, (List.pairwise_cons.1 sorted).2.imp_of_mem fun hx hy h => ?_⟩,
        fun x hx _ _ _ => marked_finished t (before x hx)⟩
      · rw [marked_td, if_pos rfl]
        exact setFinished_getLsbD _
      · rwa [others _ hx, others _ hy]
  · rw [show (u.marked t).ed e = u.ed e from rfl, he] at no
    cases no

/-! ### A group taken off a queue -/

/-- The TDs `g` are freed and `e`'s queue, `l ++ g ++ r` before, leads past them. -/
structure Cut (u v : State) (e : Nat) (l g r : List Nat) : Prop where
  params : v.params = u.params
  ed : ∀ e', e' ≠ e → v.ed e' = u.ed e'
  alloc : (v.ed e).alloc = (u.ed e).alloc
  tail : (v.ed e).tail = (u.ed e).tail
  chain : Chain v (v.ed e).head (l ++ r) (u.ed e).tail
  freed : ∀ t ∈ g, (v.td t).alloc = false
  kept : ∀ t ∉ g, (v.td t).alloc = (u.td t).alloc ∧ (v.td t).owner = (u.td t).owner ∧
    (v.td t).finished = (u.td t).finished
  others : ∀ t ∉ l ++ g, v.td t = u.td t
  index : ∀ t, v.indexed t = if t ∈ g then false else u.indexed t

theorem Cut.confinedTo {l g r : List Nat} (c : Cut u v e l g r) (hu : u.shape) (he : (u.ed e).alloc = true)
    (hq : u.queueIs e (l ++ g ++ r)) : Local u v e := by
  have sub : (l ++ r ++ [(u.ed e).tail]).Sublist (l ++ g ++ r ++ [(u.ed e).tail]) :=
    ((List.sublist_append_left l g).append_right r).append_right _
  have distinct : ∀ t ∈ l ++ r ++ [(u.ed e).tail], t ∉ g := fun t ht hg => by
    have once := hq.once
    simp only [List.append_assoc, List.mem_append] at once ht
    obtain ⟨_, once, before⟩ := List.nodup_append.1 once
    obtain ⟨_, _, after⟩ := List.nodup_append.1 once
    rcases ht with ht | ht
    · exact before t ht t (List.mem_append_left _ hg) rfl
    · exact after t hg t (List.mem_append.2 ht) rfl
  have tailKept : v.td (u.ed e).tail = u.td (u.ed e).tail := c.others _ fun hm =>
    (List.nodup_append.1 hq.once).2.2 _ (List.mem_append_left r hm) _ (List.mem_singleton_self _) rfl
  have inQueue : ∀ t ∈ l ++ g, t ∈ l ++ g ++ r ++ [(u.ed e).tail] := fun t hm =>
    List.mem_append_left _ (List.mem_append_left r hm)
  refine ⟨c.params, c.ed, fun t => ?_, fun t hi => ?_, fun _ => ⟨l ++ r, ?_, fun t ha ho => ?_, fun ordered => ?_⟩,
    fun no => ?_⟩
  · by_cases hm : t ∈ l ++ g
    · refine .inr ⟨fun _ => (hq.owned t (inQueue t hm)).2.2, fun ha => ?_⟩
      have hg : t ∉ g := fun hg => by rw [c.freed t hg] at ha; cases ha
      rw [(c.kept t hg).2.1]
      exact (hq.owned t (inQueue t hm)).2.2
    · refine .inl ⟨c.others t hm, ?_⟩
      rw [c.index, if_neg fun hg => hm (List.mem_append_right _ hg)]
  · rw [c.index] at hi
    split at hi
    · cases hi
    · rename_i hg
      rw [(c.kept t hg).1]
      exact hu.indexOwned t hi
  · refine ⟨by rw [c.tail]; exact c.chain, by rw [c.tail]; exact hq.once.sublist sub, fun t ht => ?_, ?_⟩
    · rw [c.tail] at ht
      obtain ⟨alloc, owner, _⟩ := c.kept t (distinct t ht)
      rw [alloc, owner, c.params]
      exact hq.owned t (sub.subset ht)
    · rw [c.tail, tailKept, c.index, if_neg (distinct _ (by simp))]
      exact hq.empty
  · have hg : t ∉ g := fun hg => by rw [c.freed t hg] at ha; cases ha
    rw [(c.kept t hg).1] at ha
    rw [(c.kept t hg).2.1] at ho
    have hm := hu.mem hq ha ho
    rw [c.tail]
    simp only [List.mem_append] at hm ⊢
    tauto
  · obtain ⟨sorted, last⟩ := ordered e _ he hq
    refine ⟨?_, by rw [c.tail, tailKept]; exact last⟩
    rw [c.tail]
    refine (sorted.sublist sub).imp_of_mem fun ha hb h => ?_
    rwa [(c.kept _ (distinct _ ha)).2.2, (c.kept _ (distinct _ hb)).2.2]
  · rw [c.alloc, he] at no
    cases no

/-- The group at the head of a queue taken off. -/
theorem local_cut_first {g : List Nat} {after : Nat} (hu : u.shape) (he : (u.ed e).alloc = true)
    (group : Chain u (u.ed e).head g after) (notTail : (u.ed e).tail ∉ g) :
    Local u ((u.freeTds g).setEd e { u.ed e with head := after }) e := by
  obtain ⟨q, hq⟩ := hu.shaped e he
  obtain ⟨r, rfl, rest⟩ := chain_prefix hq.chain group notTail
  have td : ∀ t, ((u.freeTds g).setEd e { u.ed e with head := after }).td t =
      if t ∈ g then { u.td t with alloc := false } else u.td t := fun t => by rw [setEd_td, freeTds_td]
  have later : ∀ t ∈ r, t ∉ g := fun t ht hg => by
    obtain ⟨once, _, _⟩ := List.nodup_append.1 hq.once
    exact (List.nodup_append.1 once).2.2 t hg t ht rfl
  refine Cut.confinedTo (l := []) (g := g) (r := r) ⟨?_, fun e' h => ?_, ?_, ?_, ?_, fun t ht => ?_, fun t ht => ?_,
    fun t ht => ?_, fun t => ?_⟩ hu he hq
  · rw [setEd_params, freeTds_params]
  · rw [setEd_ed_ne _ h, freeTds_ed]
  · rw [setEd_ed_self]
  · rw [setEd_ed_self]
  · rw [setEd_ed_self]
    exact chain_congr (fun x hx => by rw [td, if_neg (later x hx)]) rest
  · rw [td, if_pos ht]
  · rw [td, if_neg ht]
    exact ⟨rfl, rfl, rfl⟩
  · rw [td, if_neg (by simpa using ht)]
  · rw [setEd_indexed, freeTds_indexed]

/-- A group behind the TD `p` taken off; `p` may get a status word with the same `FINISHED`. -/
theorem local_cut_after {l g : List Nat} {p c after : Nat} {st : Word} (hu : u.shape) (he : (u.ed e).alloc = true)
    (before : Chain u (u.ed e).head (l ++ [p]) c) (group : Chain u c g after) (notTail : (u.ed e).tail ∉ l ++ [p] ++ g)
    (same : st.getLsbD 31 = (u.td p).finished) :
    Local u ((u.freeTds g).setTd p { (u.freeTds g).td p with next := some after, status := st }) e := by
  obtain ⟨q, hq⟩ := hu.shaped e he
  obtain ⟨r, rfl, rest⟩ := chain_prefix hq.chain (chain_append before group) notTail
  obtain ⟨once, _, _⟩ := List.nodup_append.1 hq.once
  obtain ⟨once, _, later⟩ := List.nodup_append.1 once
  obtain ⟨onceBefore, _, between⟩ := List.nodup_append.1 once
  have pg : p ∉ g := fun hg => between p (by simp) p hg rfl
  have pl : p ∉ l := fun hl => (List.nodup_append.1 onceBefore).2.2 p hl p (List.mem_singleton_self p) rfl
  obtain ⟨w, hw⟩ : ∃ w, w = (u.freeTds g).setTd p { (u.freeTds g).td p with next := some after, status := st } := ⟨_, rfl⟩
  have tdP : w.td p = { u.td p with next := some after, status := st } := by
    rw [hw, setTd_td_self, freeTds_td, if_neg pg]
  have td : ∀ t, t ≠ p → w.td t = if t ∈ g then { u.td t with alloc := false } else u.td t := fun t h => by
    rw [hw, setTd_td_ne _ h, freeTds_td]
  have ed : ∀ e', w.ed e' = u.ed e' := fun e' => by rw [hw, setTd_ed, freeTds_ed]
  have next : ∀ t, t ≠ p → (w.td t).next = (u.td t).next := fun t h => by
    rw [td t h]
    split <;> rfl
  rw [← hw]
  refine Cut.confinedTo (l := l ++ [p]) (g := g) (r := r) ⟨?_, fun e' _ => ed e', ?_, ?_, ?_, fun t ht => ?_, fun t ht => ?_,
    fun t ht => ?_, fun t => ?_⟩ hu he hq
  · rw [hw, setTd_params, freeTds_params]
  · rw [ed]
  · rw [ed]
  · rw [ed]
    refine chain_append (chain_redirect before pl next (by rw [tdP])) (chain_congr (fun x hx => next x fun h => ?_) rest)
    exact later x (by simp [h]) x hx rfl
  · rw [td t fun h => pg (h ▸ ht), if_pos ht]
  · by_cases h : t = p
    · rw [h, tdP]
      exact ⟨rfl, rfl, same⟩
    · rw [td t h, if_neg ht]
      exact ⟨rfl, rfl, rfl⟩
  · rw [List.mem_append, not_or] at ht
    rw [td t fun h => ht.1 (by simp [h]), if_neg ht.2]
  · rw [hw, setTd_indexed, freeTds_indexed]

/-- An abort of a TD that its owner's queue holds finds it there. -/
theorem State.shape.before_some {t : Nat} (hu : u.shape) {found : Option (List Nat)} (checked : u.checked (.abort e t))
    (before : u.before e t = some found) :
    ∃ l, found = some l ∧ Chain u (u.ed e).head l t ∧ (u.ed e).tail ∉ l := by
  obtain ⟨he, ht, owner, notTail⟩ := checked
  obtain ⟨q, hq⟩ := hu.shaped e he
  obtain ⟨⟨l, v⟩, walk, rfl⟩ := Option.map_eq_some_iff.1 before
  obtain ⟨chain, halt, before, _⟩ := walkUntil_some walk
  have notYet : (u.ed e).tail ∉ l ∧ t ∉ l :=
    ⟨fun hm => by simpa using before _ hm, fun hm => by simpa using before _ hm⟩
  by_cases h : v = t
  · subst h
    exact ⟨l, by simp, chain, notYet.1⟩
  · have end_ : v = (u.ed e).tail := by simpa [h] using halt
    rw [end_] at chain
    have same : q = l := chain_unique hq.chain
      (fun hm => (List.nodup_append.1 hq.once).2.2 _ hm _ (List.mem_singleton_self _) rfl) chain notYet.1
    have hm := hu.mem hq ht owner
    rw [same] at hm
    rcases List.mem_append.1 hm with hm | hm
    · exact absurd hm notYet.2
    · exact absurd (List.mem_singleton.1 hm) notTail

/-! ### Every update and every step -/

/-- Each update changes one endpoint's queue, an unwind twice. -/
theorem does_local (hu : u.shape) (d : Does True u v) :
    ∃ e, Local u v e ∨ ∃ w, Local u w e ∧ (w.shape → Local w v e) := by
  cases d with
  | opened he ht alloc head tail _ _ => exact ⟨_, .inl (local_opened hu he ht alloc head tail)⟩
  | rejected he ht => exact ⟨_, .inl (local_rejected hu he ht)⟩
  | closed checked _ queue => exact ⟨_, .inl (local_closed hu (checked trivial) queue)⟩
  | queued a more len short he hn =>
    exact ⟨_, .inl (local_queued hu (alloc_of_validEd he) hn (queuedStatus_getLsbD more short))⟩
  | completed he group =>
    rcases checkGroup_some group with ⟨g, after, same, _, chain, notTail, _⟩ | ⟨_, _, no, _⟩
    · cases same
      exact ⟨_, .inl (local_cut_first hu (alloc_of_validEd he) chain notTail)⟩
    · cases no
  | @aborted e t found g checked before group =>
    obtain ⟨l, rfl, chain, notYet⟩ := hu.before_some (checked trivial) before
    obtain ⟨grp, notTail, _, _⟩ := walkGroup_some group
    refine ⟨e, .inl ?_⟩
    rcases List.eq_nil_or_concat' l with rfl | ⟨l, p, rfl⟩
    · cases chain
      rw [cutGroup_first rfl, freeTds_ed]
      exact local_cut_first hu (checked trivial).1 grp notTail
    · rw [cutGroup_after (prev := p) (by simp)]
      refine local_cut_after hu (checked trivial).1 chain grp (fun hm => ?_) ?_
      · exact (List.mem_append.1 hm).elim notYet notTail
      · rw [freeTds_td]
        split <;> rfl
  | finished known first =>
    obtain ⟨ht, he, notTail⟩ := hu.resolved known
    obtain ⟨l, chain, before, _⟩ := first
    exact ⟨_, .inl (local_marked hu ht he notTail chain before)⟩
  | @unwound t nx g known first next group =>
    obtain ⟨ht, he, notTail⟩ := hu.resolved known
    obtain ⟨l, chain, before, _⟩ := first
    refine ⟨_, .inr ⟨_, local_marked hu ht he notTail chain before, fun hw => ?_⟩⟩
    obtain ⟨grp, tailGrp, _, _⟩ := walkGroup_some group
    obtain ⟨q, hq⟩ := hu.shaped _ he
    have toMark : ∀ {a l b}, Chain u a l b → Chain (u.marked t) a l b :=
      chain_congr fun x _ => (marked_kept t x).2.2
    have tailBefore : (u.ed (u.td t).owner).tail ∉ l := fun hm => by
      have := before _ hm
      simp [Td.finished, hq.empty.1] at this
    refine local_cut_after hw he (toMark (chain_append chain ⟨rfl, nx, next, rfl⟩)) grp (fun hm => ?_) ?_
    · simp only [List.mem_append, List.mem_singleton] at hm
      exact hm.elim (fun hm => hm.elim tailBefore fun h => notTail h.symm) tailGrp
    · rw [clearMore_getLsbD, freeTds_td]
      split <;> rfl

theorem shape_does (d : Does True u v) (hu : u.shape) : v.shape := by
  obtain ⟨e, once | ⟨w, first, second⟩⟩ := does_local hu d
  · exact once.shape hu
  · exact (second (first.shape hu)).shape (first.shape hu)

theorem allOrdered_does (d : Does True u v) (hu : u.shape) (ho : u.allOrdered) : v.allOrdered := by
  obtain ⟨e, once | ⟨w, first, second⟩⟩ := does_local hu d
  · exact once.allOrdered hu ho
  · exact (second (first.shape hu)).allOrdered (first.shape hu) (first.allOrdered hu ho)

theorem SameTables.queueIs (h : SameTables u v) (hq : u.queueIs e q) : v.queueIs e q :=
  queueIs_of_frame hq h.params (by rw [h.ed]) (by rw [h.ed]) (fun t _ => by rw [h.td]) (by rw [h.indexed])

theorem SameTables.shape (h : SameTables u v) (hu : u.shape) : v.shape where
  shaped e ha := by
    rw [h.ed] at ha
    obtain ⟨q, hq⟩ := hu.shaped e ha
    exact ⟨q, h.queueIs hq⟩
  onQueue t ha := by
    rw [h.td] at ha ⊢
    obtain ⟨he, q, hq, hm⟩ := hu.onQueue t ha
    rw [h.ed]
    exact ⟨he, q, h.queueIs hq, hm⟩
  indexOwned t hi := by
    rw [h.indexed] at hi
    rw [h.td]
    exact hu.indexOwned t hi

theorem SameTables.allOrdered (h : SameTables u v) (hu : u.shape) (ho : u.allOrdered) : v.allOrdered := by
  intro e q ha hq
  rw [h.ed] at ha
  obtain ⟨q', hq'⟩ := hu.shaped e ha
  rw [queueIs_unique hq (h.queueIs hq')]
  exact ordered_congr (by rw [h.ed]) (fun t _ => by rw [h.td]) (ho e q' ha hq')

theorem Cleared.shape (h : Cleared s) : s.shape where
  shaped e ha := by
    rw [h.ed] at ha
    cases ha
  onQueue t ha := by
    rw [State.td, h.tdt] at ha
    cases ha
  indexOwned t hi := by
    rw [State.indexed, h.idxValid] at hi
    cases hi

/-- What a waiting command has checked is of the tables alone. -/
theorem SameTables.checked (h : SameTables u v) {k : Cont} (hk : u.checked k) : v.checked k := by
  cases k with
  | quiesce e => trivial
  | close e =>
    rw [State.checked, h.ed]
    exact hk
  | abort e t =>
    rw [State.checked, h.ed, h.td]
    exact hk

theorem waitOwned_of_idle (h : s.seq = .idle) : s.waitOwned := by
  rw [State.waitOwned, h]
  trivial

/-- Where the block waits after a step it waits for what it has checked. -/
theorem waitOwned_step {t : State} (hs : s.waitOwned) (e : step s = .next t) : t.waitOwned := by
  rcases step_tables (W := True) (fun _ => hs) e with reset | ⟨waits, run, ed, f0, r, k, seq, checked⟩ | ⟨_, idle⟩
  · exact waitOwned_of_idle reset.seq
  · exact (waitOwned_iff seq).2 (waits.checked (checked trivial))
  · exact waitOwned_of_idle idle

/-- Settles O13: each update of `Does`, made with what the command has checked, changes one queue and leaves it in
shape. -/
theorem queuesKept : Obligations.QueuesKept := by
  intro s t ok e
  have shape : t.shape := keeps_of_does (W := True) (fun _ => Cleared.shape) (fun _ _ h => h.shape)
    (fun _ _ => shape_does) (fun _ => ok.waiting) e ok.shape
  refine ⟨⟨shape.shaped, shape.onQueue, shape.indexOwned, waitOwned_step ok.waiting e⟩, fun first => ?_⟩
  have both : t.shape ∧ t.allOrdered := keeps_of_does (W := True) (P := fun s => s.shape ∧ s.allOrdered)
    (fun _ h => ⟨h.shape, fun e _ ha _ => by rw [h.ed] at ha; cases ha⟩)
    (fun _ _ h ⟨hu, ho⟩ => ⟨h.shape hu, h.allOrdered hu ho⟩)
    (fun _ _ d ⟨hu, ho⟩ => ⟨shape_does d hu, allOrdered_does d hu ho⟩) (fun _ => ok.waiting) e
    ⟨ok.shape, finishedFirst_iff.1 first⟩
  exact finishedFirst_iff.2 both.2

end Sys2Proof.Machine
end

section
/-! SUPPORT. The words by which the lists are linked (the `NextED` of the endpoints, the interrupt table, the head
registers), access by access while no other agent moves: each access keeps them, or a write followed by its flush sets
one of them (20_memory.md R100 to R104, 44_coherence.md R404). -/

namespace Sys2Proof.Machine

variable {α β : Type} {s t u : State}

/-! ### One word through one access -/

theorem cacheLoad_congr (g : s.params.Good) (hp : t.params = s.params) {a : Word} (ha : a.toNat % 4 = 0)
    (h : ∀ x, a.toNat ≤ x ∧ x < a.toNat + 4 → t.view x = s.view x) : t.cacheLoad a = s.cacheLoad a := by
  rw [cacheLoad_eq_view (hp ▸ g) ha, cacheLoad_eq_view g ha, h _ (by omega), h _ (by omega), h _ (by omega),
    h _ (by omega)]

theorem physRead_congr {a : Word} (h : ∀ x, a.toNat ≤ x ∧ x < a.toNat + 4 → loadByte t.mem x = loadByte s.mem x) :
    t.physRead a = s.physRead a := load32_congr fun x h1 h2 => h x ⟨h1, h2⟩

/-- The bytes of an aligned word lie in its line. -/
theorem lineBase_byte {p : Params} (g : p.Good) {a x : Nat} (ha : a % 4 = 0) (hx : a ≤ x ∧ x < a + 4) :
    lineBase p x = lineBase p a := by
  have := lineBase_word g ha (i := x - a) (by omega)
  rwa [Nat.add_sub_cancel' hx.1] at this

/-- Different aligned words share no byte. -/
theorem words_disjoint {a b : Word} (ha : a.toNat % 4 = 0) (hb : b.toNat % 4 = 0) (h : b ≠ a) {x : Nat}
    (hx : b.toNat ≤ x ∧ x < b.toNat + 4) : ¬ (a.toNat ≤ x ∧ x < a.toNat + 4) := fun no => by
  have : b.toNat ≠ a.toNat := fun e => h (BitVec.eq_of_toNat_eq e)
  omega

/-- A flush of the word's line makes memory agree with what the block reads of the word. -/
def State.due (s : State) (a : Word) : Prop :=
  ∀ x, a.toNat ≤ x ∧ x < a.toNat + 4 → s.pending x = true ∨ loadByte s.mem x = s.view x

/-- The bytes of a word the block reads. -/
theorem wordByte_cacheLoad (g : s.params.Good) {a : Word} (ha : a.toNat % 4 = 0) {x : Nat}
    (hx : a.toNat ≤ x ∧ x < a.toNat + 4) : wordByte a.toNat (s.cacheLoad a) x = s.view x := by
  have cases : x = a.toNat ∨ x = a.toNat + 1 ∨ x = a.toNat + 2 ∨ x = a.toNat + 3 := by omega
  rw [cacheLoad_eq_view g ha]
  rcases cases with rfl | rfl | rfl | rfl
  · simpa [wordByte] using byte0_of_word _ _ _ _
  · simpa [wordByte] using byte1_of_word _ _ _ _
  · simpa [wordByte] using byte2_of_word _ _ _ _
  · simpa [wordByte] using byte3_of_word _ _ _ _

/-- Where memory and the block agree on a word they agree on its bytes. -/
theorem bytes_of_words (g : s.params.Good) {a : Word} (ha : a.toNat % 4 = 0) (h : s.physRead a = s.cacheLoad a) {x : Nat}
    (hx : a.toNat ≤ x ∧ x < a.toNat + 4) : loadByte s.mem x = s.view x := by
  rw [← wordByte_cacheLoad g ha hx, ← h, State.physRead, wordByte_load32 _ hx]

/-- The state differs in memory, cache and the sequencer's position alone. -/
def Quietly (s t : State) : Prop := ∃ m k q, t = { s with mem := m, cache := k, seq := q }

theorem Quietly.tables (h : Quietly s t) : SameTables s t := by
  obtain ⟨m, k, q, rfl⟩ := h
  exact .other

section
variable (g : s.params.Good) (hq : s.sched = [])
include g hq

theorem memRead_words (a : Word) : ∃ v t, memRead a s = .ok v t ∧ Quietly s t ∧
    ∀ b : Word, b.toNat % 4 = 0 → t.physRead b = s.physRead b ∧ t.cacheLoad b = s.cacheLoad b := by
  obtain ⟨k, q, e, hv, _⟩ := memRead_quiet hq a
  obtain ⟨t, ht⟩ : ∃ t, t = ({ s with cache := k, seq := q } : State) := ⟨_, rfl⟩
  rw [← ht] at e hv
  have params : t.params = s.params := by rw [ht]
  have mem : t.mem = s.mem := by rw [ht]
  exact ⟨_, t, e, ⟨s.mem, k, q, ht⟩, fun b hb =>
    ⟨physRead_congr fun x _ => by rw [mem], cacheLoad_congr g params hb fun x _ => hv x⟩⟩

theorem memWrite_words {a : Word} (ha : a.toNat % 4 = 0) (v : Word) : ∃ t, memWrite a v s = .ok ⟨⟩ t ∧ Quietly s t ∧
    (∀ b : Word, b.toNat % 4 = 0 → b ≠ a → t.physRead b = s.physRead b ∧ t.cacheLoad b = s.cacheLoad b) ∧
    t.cacheLoad a = v ∧ t.due a := by
  obtain ⟨t, e, S⟩ := (Staged.refl s (lineBase s.params a.toNat)).write g hq ha rfl v
  have view : ∀ x, t.view x = if a.toNat ≤ x ∧ x < a.toNat + 4 then wordByte a.toNat v x else s.view x := fun x => by
    rw [S.view, wordOver]
    split <;> rfl
  have mem : ∀ x, loadByte t.mem x = if s.params.coherent = true ∧ a.toNat ≤ x ∧ x < a.toNat + 4 then
      wordByte a.toNat v x else loadByte s.mem x := fun x => by
    rw [S.mem, wordOver]
    by_cases hc : s.params.coherent = true
    · by_cases hx : a.toNat ≤ x ∧ x < a.toNat + 4
      · rw [if_pos hc, if_pos hx, if_pos ⟨hc, hx⟩]
        rfl
      · rw [if_pos hc, if_neg hx, if_neg fun h => hx h.2]
        rfl
    · rw [if_neg hc, if_neg fun h => hc h.1]
  refine ⟨t, e, S.shape, fun b hb ne => ⟨physRead_congr fun x hx => ?_, cacheLoad_congr g S.params hb fun x hx => ?_⟩,
    ?_, fun x hx => ?_⟩
  · rw [mem, if_neg fun h => words_disjoint ha hb ne hx h.2]
  · rw [view, if_neg (words_disjoint ha hb ne hx)]
  · have stored : ∀ x, a.toNat ≤ x → x < a.toNat + 4 → t.view x = loadByte (store32 s.mem a.toNat v) x :=
      fun x h1 h2 => by rw [view, loadByte_store32_eq, if_pos ⟨h1, h2⟩, if_pos ⟨h1, h2⟩]
    have word : t.cacheLoad a = load32 (store32 s.mem a.toNat v) a.toNat := by
      rw [cacheLoad_eq_view (S.params ▸ g) ha, stored _ (by omega) (by omega), stored _ (by omega) (by omega),
        stored _ (by omega) (by omega), stored _ (by omega) (by omega)]
      rfl
    rw [word, load32_store32_self]
  · by_cases hc : s.params.coherent = true
    · exact .inr (by rw [mem, view, if_pos ⟨hc, hx⟩, if_pos hx])
    · refine .inl (S.pending (by simpa using hc) x ?_)
      rw [wordOver, if_pos hx]
      exact Option.some_ne_none _

/-- One line of a flush, a step before it. -/
theorem flushLine_words {b : Nat} (hb : b % s.params.cacheLine = 0) :
    ∃ t, ({ s with seq := s.seq.advance } : State).flushLine b = t ∧ Quietly s t ∧
      ∀ a : Word, a.toNat % 4 = 0 → t.cacheLoad a = s.cacheLoad a ∧
        (lineBase s.params a.toNat ≠ b → t.physRead a = s.physRead a) ∧
        (lineBase s.params a.toNat = b → s.due a → t.physRead a = s.cacheLoad a) := by
  obtain ⟨m, k, e, hm, hv, _⟩ := flushLine_quiet (s := { s with seq := s.seq.advance }) g hq hb
  rw [e] at hv
  obtain ⟨t, ht⟩ : ∃ t, t = ({ s with mem := m, cache := k, seq := s.seq.advance } : State) := ⟨_, rfl⟩
  have params : t.params = s.params := by rw [ht]
  have view : ∀ x, t.view x = s.view x := fun x => by
    rw [ht]
    exact hv x
  have mem : ∀ x, loadByte t.mem x =
      if lineBase s.params x = b ∧ s.pending x = true then s.view x else loadByte s.mem x := fun x => by
    rw [ht]
    exact hm x
  refine ⟨t, e.trans ht.symm, ⟨m, k, s.seq.advance, ht⟩, fun a ha => ?_⟩
  have load : t.cacheLoad a = s.cacheLoad a := cacheLoad_congr g params ha fun x _ => view x
  refine ⟨load, fun ne => physRead_congr fun x hx => ?_, fun same due => ?_⟩
  · rw [mem, if_neg fun h => ne ((lineBase_byte g ha hx).symm.trans h.1)]
  · rw [← load]
    refine (cacheLoad_of_view (params ▸ g) ha fun x h1 h2 => ?_).symm
    rw [view, mem]
    split
    · rfl
    · rename_i no
      rcases due x ⟨h1, h2⟩ with h | h
      · exact absurd ⟨(lineBase_byte g ha ⟨h1, h2⟩).trans same, h⟩ no
      · exact h.symm

omit hq in
/-- One line of an invalidate, a step before it. -/
theorem invalLine_words (b : Nat) :
    ∃ t, ({ s with seq := s.seq.advance } : State).invalLine b = t ∧ Quietly s t ∧
      ∀ a : Word, a.toNat % 4 = 0 → t.physRead a = s.physRead a ∧
        t.cacheLoad a = if lineBase s.params a.toNat = b then s.physRead a else s.cacheLoad a := by
  obtain ⟨k, e⟩ := invalLine_shape { s with seq := s.seq.advance } b
  have seen := view_invalLine (s := { s with seq := s.seq.advance }) g b
  rw [e] at seen
  obtain ⟨t, ht⟩ : ∃ t, t = ({ s with cache := k, seq := s.seq.advance } : State) := ⟨_, rfl⟩
  have params : t.params = s.params := by rw [ht]
  have mem : t.mem = s.mem := by rw [ht]
  have view : ∀ x, t.view x = if lineBase s.params x = b then loadByte s.mem x else s.view x := fun x => by
    rw [ht]
    exact seen x
  have phys : ∀ a : Word, t.physRead a = s.physRead a := fun a => physRead_congr fun x _ => by rw [mem]
  refine ⟨t, e.trans ht.symm, ⟨s.mem, k, s.seq.advance, ht⟩, fun a ha => ⟨phys a, ?_⟩⟩
  split
  · rename_i same
    rw [← phys a]
    refine cacheLoad_of_view (params ▸ g) ha fun x h1 h2 => ?_
    rw [view, mem, if_pos ((lineBase_byte g ha ⟨h1, h2⟩).trans same)]
  · rename_i other
    refine cacheLoad_congr g params ha fun x hx => ?_
    rw [view, if_neg fun h => other ((lineBase_byte g ha hx).symm.trans h)]

end

/-! ### The words of the links -/

/-- The `NextED` of each endpoint, the entries of the interrupt table, the heads of the class lists, and what the HC
has raised. -/
structure Links where
  next : Nat → Word
  table : Nat → Word
  head : Nat → Word
  status : Word

def Links.setNext (k : Links) (e : Nat) (v : Word) : Links := { k with next := Function.update k.next e v }
def Links.setTable (k : Links) (i : Nat) (v : Word) : Links := { k with table := Function.update k.table i v }

/-- An aligned word that is no link. -/
structure Plain (p : Params) (a : Word) : Prop where
  aligned : a.toNat % 4 = 0
  next : ∀ e < p.ned, a ≠ edNextAddr p e
  table : ∀ i < 32, a ≠ tableAddr p i

section
variable {p : Params} (g : p.Good)
include g

theorem slot_mod4 {a : Nat} (h : a % p.cacheLine = 0) : a % 4 = 0 := by
  have := Nat.dvd_of_mod_eq_zero h
  have := g.line_dvd
  have : 4 ∣ p.cacheLine := by omega
  exact Nat.mod_eq_zero_of_dvd (this.trans (Nat.dvd_of_mod_eq_zero h))

/-- A word of an ED slot, by its number. -/
theorem edSlotWord_toNat {e : Nat} (he : e ≤ p.ned) (k : Word) (hk : k.toNat < 16) :
    (edAddr p e + k).toNat = p.descBase + p.cacheLine * e + k.toNat := by
  rw [g.edWord_toNat he k (by have := g.line_ge; omega), g.edAddr_toNat he]

theorem edNext_toNat {e : Nat} (he : e < p.ned) : (edNextAddr p e).toNat = p.descBase + p.cacheLine * e + 12 :=
  edSlotWord_toNat g he.le 0xC#32 (by decide)

theorem edNext_aligned {e : Nat} (he : e < p.ned) : (edNextAddr p e).toNat % 4 = 0 := by
  have := slot_mod4 g (g.edAddr_aligned he.le)
  rw [g.edAddr_toNat he.le] at this
  rw [edNext_toNat g he]
  omega

theorem edNext_line {e : Nat} : lineBase p (edNextAddr p e).toNat = (edAddr p e).toNat :=
  slotWord_line g (g.edAddr_slot e) (by decide)

theorem edAddr_inj {e e' : Nat} (he : e < p.ned) (he' : e' < p.ned) (h : (edAddr p e).toNat = (edAddr p e').toNat) :
    e = e' := by
  by_contra ne
  have := g.edAddr_apart he.le he'.le ne
  have := g.line_pos
  omega

theorem edNext_ne {e e' : Nat} (he : e < p.ned) (he' : e' < p.ned) (h : e ≠ e') : edNextAddr p e ≠ edNextAddr p e' :=
  fun same => h (edAddr_inj g he he' (by rw [← edNext_line g, ← edNext_line g, same]))

theorem table_aligned {i : Nat} (hi : i < 32) : (tableAddr p i).toNat % 4 = 0 := by
  have := g.hccaAligned
  rw [g.tableAddr_toNat (by omega)]
  omega

theorem table_ne {i j : Nat} (hi : i < 32) (hj : j < 32) (h : i ≠ j) : tableAddr p i ≠ tableAddr p j := fun same => by
  have := congrArg BitVec.toNat same
  rw [g.tableAddr_toNat (by omega), g.tableAddr_toNat (by omega)] at this
  omega

/-- The HCCA's lines hold no ED. -/
theorem table_line_ne {i e : Nat} (hi : i < 32) (he : e < p.ned) :
    lineBase p (tableAddr p i).toNat ≠ (edAddr p e).toNat := fun same => by
  have low := lineBase_le p (tableAddr p i).toNat
  have high := lt_lineBase_add g.line_pos (tableAddr p i).toNat
  rw [same, g.edAddr_toNat he.le, g.tableAddr_toNat (by omega)] at low high
  have apart := g.descHcca
  have : p.cacheLine * (e + 1) ≤ p.cacheLine * (p.ned + 1) := Nat.mul_le_mul_left _ (by omega)
  rw [Nat.mul_add] at this
  omega

theorem table_ne_next {i e : Nat} (hi : i < 32) (he : e < p.ned) : tableAddr p i ≠ edNextAddr p e := fun same =>
  table_line_ne g hi he (by rw [same, edNext_line g])

/-- The other words of an ED slot are no links. -/
theorem plain_edWord {e : Nat} (he : e < p.ned) (k : Word) (hk : k.toNat % 4 = 0) (small : k.toNat < 12) :
    Plain p (edAddr p e + k) where
  aligned := by
    have := slot_mod4 g (g.edAddr_aligned he.le)
    rw [g.edAddr_toNat he.le] at this
    rw [edSlotWord_toNat g he.le k (by omega)]
    omega
  next e' he' same := by
    have line := slotWord_line g (g.edAddr_slot e) (k := k) (by omega)
    rw [same, edNext_line g] at line
    cases edAddr_inj g he' he line
    have := congrArg BitVec.toNat same
    rw [edSlotWord_toNat g he.le k (by omega), edNext_toNat g he] at this
    omega
  table i hi same := table_line_ne g hi he (by rw [← same, slotWord_line g (g.edAddr_slot e) (by omega)])

/-- No word of a TD slot is a link. -/
theorem plain_tdWord {t : Nat} (ht : t < p.ntd) (k : Word) (hk : k.toNat % 4 = 0) (small : k.toNat < 16) :
    Plain p (tdAddr p t + k) where
  aligned := by
    have := slot_mod4 g (g.tdAddr_aligned ht)
    rw [g.tdWord_toNat ht k (by have := g.line_ge; omega)]
    omega
  next e' he' same := by
    have line := slotWord_line g (g.tdAddr_slot t) (k := k) small
    rw [same, edNext_line g] at line
    have := g.ed_td_apart he'.le ht
    have := g.line_pos
    omega
  table i hi same := by
    have line := slotWord_line g (g.tdAddr_slot t) (k := k) small
    have low := lineBase_le p (tableAddr p i).toNat
    have high := lt_lineBase_add g.line_pos (tableAddr p i).toNat
    rw [← same, line, same, g.tdAddr_toNat ht, g.tableAddr_toNat (by omega)] at low high
    have apart := g.tdHcca
    have : p.cacheLine * (t + 1) ≤ p.cacheLine * p.ntd := Nat.mul_le_mul_left _ (by omega)
    rw [Nat.mul_add] at this
    omega

end

/-- With the tables of `u` and no move to come, memory holds the links `k`, and the block sees those of the endpoints
`xs` so; where `T` holds that is said of the interrupt table too. -/
structure Wired (T : Prop) (u : State) (k : Links) (xs : List Nat) (s : State) : Prop extends SameTables u s where
  alone : s.sched = []
  next : ∀ e < u.params.ned, s.physRead (edNextAddr u.params e) = k.next e
  seen : ∀ e ∈ xs, e < u.params.ned → s.cacheLoad (edNextAddr u.params e) = k.next e
  table : T → ∀ i < 32, s.physRead (tableAddr u.params i) = k.table i ∧ s.cacheLoad (tableAddr u.params i) = k.table i
  head : ∀ j, s.hc.classHead j = k.head j
  status : s.hc.interruptStatus = k.status

/-- The word at `a` has been written, and not flushed, where memory held `k`. -/
def Written (T : Prop) (u : State) (k : Links) (xs : List Nat) (a v : Word) (t : State) : Prop :=
  ∃ s, Wired T u k xs s ∧ Quietly s t ∧
    (∀ b : Word, b.toNat % 4 = 0 → b ≠ a → t.physRead b = s.physRead b ∧ t.cacheLoad b = s.cacheLoad b) ∧
    t.cacheLoad a = v ∧ t.due a

namespace Wired

variable {T : Prop} {k : Links} {xs ys : List Nat} {E G : State → Prop}

theorem mono (h : Wired T u k xs s) (hx : ∀ e ∈ ys, e ∈ xs) : Wired T u k ys s :=
  { h with seen := fun e he => h.seen e (hx e he) }

/-- What the links depend on is the same; the tables are those of `v`. -/
theorem retable {v : State} (h : Wired T u k xs s) (ht : SameTables v t) (hp : v.params = u.params)
    (hs : t.sched = s.sched) (hm : t.mem = s.mem) (hc : t.cache = s.cache) (hh : t.hc = s.hc) : Wired T v k xs t := by
  have phys : ∀ a, t.physRead a = s.physRead a := fun a => by rw [State.physRead, State.physRead, hm]
  have params : t.params = s.params := by rw [ht.params, hp, h.params]
  have load : ∀ a, t.cacheLoad a = s.cacheLoad a := fun a => by
    simp only [State.cacheLoad, State.physRead, lineAt, filledLine, params, hm, hc]
  refine ⟨ht, hs.trans h.alone, ?_, ?_, ?_, by rw [hh]; exact h.head, by rw [hh]; exact h.status⟩
  · rw [hp]
    exact fun e he => (phys _).trans (h.next e he)
  · rw [hp]
    exact fun e hx he => (load _).trans (h.seen e hx he)
  · rw [hp]
    exact fun yes i hi => ⟨(phys _).trans (h.table yes i hi).1, (load _).trans (h.table yes i hi).2⟩

/-- A change of the block's other state. -/
theorem update (h : Wired T u k xs s) (ht : SameTables s t) (hs : t.sched = s.sched) (hm : t.mem = s.mem)
    (hc : t.cache = s.cache) (hh : t.hc = s.hc) : Wired T u k xs t := h.retable (h.toSameTables.trans ht) rfl hs hm hc hh

/-- A change of memory and cache, word by word. -/
theorem quietly {k' : Links} (h : Wired T u k xs s) (q : Quietly s t)
    (next : ∀ e < u.params.ned, t.physRead (edNextAddr u.params e) = k'.next e)
    (seen : ∀ e ∈ ys, e < u.params.ned → t.cacheLoad (edNextAddr u.params e) = k'.next e)
    (table : T → ∀ i < 32,
      t.physRead (tableAddr u.params i) = k'.table i ∧ t.cacheLoad (tableAddr u.params i) = k'.table i)
    (head : k'.head = k.head) (status : k'.status = k.status) : Wired T u k' ys t := by
  obtain ⟨m, c, p, rfl⟩ := q
  exact ⟨h.toSameTables.trans .other, h.alone, next, seen, table, by rw [head]; exact h.head,
    by rw [status]; exact h.status⟩

section
variable (g : u.params.Good) (h : Wired T u k xs s)
include g h

theorem good : s.params.Good := h.params ▸ g

theorem goes_memRead (a : Word) : Goes (fun _ => Wired T u k xs) E G (memRead a) s := by
  obtain ⟨v, t, e, q, same⟩ := memRead_words (h.good g) h.alone a
  rw [Goes, e]
  refine h.quietly q (fun e he => ?_) (fun e hx he => ?_) (fun yes i hi => ?_) rfl rfl
  · rw [(same _ (edNext_aligned g he)).1, h.next e he]
  · rw [(same _ (edNext_aligned g he)).2, h.seen e hx he]
  · rw [(same _ (table_aligned g hi)).1, (same _ (table_aligned g hi)).2]
    exact h.table yes i hi

theorem goes_memWrite {a : Word} (ha : Plain u.params a) (v : Word) :
    Goes (fun _ => Wired T u k xs) E G (memWrite a v) s := by
  obtain ⟨t, e, q, same, _⟩ := memWrite_words (h.good g) h.alone ha.aligned v
  rw [Goes, e]
  refine h.quietly q (fun e he => ?_) (fun e hx he => ?_) (fun yes i hi => ?_) rfl rfl
  · rw [(same _ (edNext_aligned g he) (ha.next e he).symm).1, h.next e he]
  · rw [(same _ (edNext_aligned g he) (ha.next e he).symm).2, h.seen e hx he]
  · rw [(same _ (table_aligned g hi) (ha.table i hi).symm).1, (same _ (table_aligned g hi) (ha.table i hi).symm).2]
    exact h.table yes i hi

theorem goes_written {a : Word} (ha : a.toNat % 4 = 0) (v : Word) :
    Goes (fun _ => Written T u k xs a v) E G (memWrite a v) s := by
  obtain ⟨t, e, q, same, load, due⟩ := memWrite_words (h.good g) h.alone ha v
  rw [Goes, e]
  exact ⟨s, h, q, same, load, due⟩

/-- After an invalidate the block sees the links in its lines as memory holds them. -/
theorem goes_invalLines (ls : List Nat) (hx : ∀ e ∈ ys, e ∈ xs ∨ (edAddr u.params e).toNat ∈ ls) :
    Goes (fun _ => Wired T u k ys) E G (invalLines ls) s := by
  induction ls generalizing s xs with
  | nil => exact goes_pure (h.mono fun e he => (hx e he).resolve_right List.not_mem_nil)
  | cons b ls ih =>
    obtain ⟨t, e, q, words⟩ := invalLine_words (h.good g) b
    have run : turn s = .ok ⟨⟩ { s with seq := s.seq.advance } := turn_quiet h.alone
    rw [h.params] at words
    unfold Goes invalLines
    rw [run_bind_ok run, run_bind_ok (run_modify _ _), e]
    have kept : ∀ {b' : Word} {v : Word}, b'.toNat % 4 = 0 → s.physRead b' = v → s.cacheLoad b' = v →
        t.cacheLoad b' = v := fun hb hv hl => by
      rw [(words _ hb).2]
      split
      · exact hv
      · exact hl
    refine ih (xs := ys.filter fun e => decide (e ∈ xs ∨ (edAddr u.params e).toNat = b)) ?_ fun e he => ?_
    · refine h.quietly q (fun e he => ?_) (fun e hm he => ?_) (fun yes i hi => ?_) rfl rfl
      · rw [(words _ (edNext_aligned g he)).1, h.next e he]
      · rcases of_decide_eq_true (List.mem_filter.1 hm).2 with hm | hm
        · exact kept (edNext_aligned g he) (h.next e he) (h.seen e hm he)
        · rw [(words _ (edNext_aligned g he)).2, if_pos ((edNext_line g).trans hm), h.next e he]
      · obtain ⟨phys, load⟩ := h.table yes i hi
        exact ⟨by rw [(words _ (table_aligned g hi)).1, phys], kept (table_aligned g hi) phys load⟩
    · rcases hx e he with hm | hm
      · exact .inl (List.mem_filter.2 ⟨he, decide_eq_true (.inl hm)⟩)
      · rcases List.mem_cons.1 hm with hm | hm
        · exact .inl (List.mem_filter.2 ⟨he, decide_eq_true (.inr hm)⟩)
        · exact .inr hm

theorem goes_inval (a : Word) (n : Nat)
    (hx : ∀ e ∈ ys, e ∈ xs ∨ (edAddr u.params e).toNat ∈ rangeLines u.params a.toNat n) :
    Goes (fun _ => Wired T u k ys) E G (inval a n) s :=
  goes_read (h.goes_invalLines g _ (by rw [h.params]; exact hx))

/-- A flush writes no link that the block does not see as memory holds it. -/
theorem goes_flushLines (ls : List Nat) (hl : ∀ b ∈ ls, b % u.params.cacheLine = 0)
    (hx : ∀ e < u.params.ned, (edAddr u.params e).toNat ∈ ls → e ∈ xs) :
    Goes (fun _ => Wired T u k xs) E G (flushLines ls) s := by
  induction ls generalizing s with
  | nil => exact goes_pure h
  | cons b ls ih =>
    obtain ⟨t, e, q, words⟩ := flushLine_words (h.good g) h.alone (b := b)
      (by rw [h.params]; exact hl b List.mem_cons_self)
    have run : turn s = .ok ⟨⟩ { s with seq := s.seq.advance } := turn_quiet h.alone
    rw [h.params] at words
    unfold Goes flushLines
    rw [run_bind_ok run, run_bind_ok (run_modify _ _), e]
    have kept : ∀ {b' : Word} {v : Word}, b'.toNat % 4 = 0 → s.physRead b' = v →
        (lineBase u.params b'.toNat = b → s.cacheLoad b' = v) → t.physRead b' = v := fun {b' v} hb hv hl => by
      obtain ⟨_, other, same⟩ := words b' hb
      by_cases line : lineBase u.params b'.toNat = b
      · have agree : s.physRead b' = s.cacheLoad b' := hv.trans (hl line).symm
        refine (same line fun x hx => .inr ?_).trans (hl line)
        exact bytes_of_words (h.good g) hb agree hx
      · exact (other line).trans hv
    refine ih ?_ (fun b' hb => hl b' (List.mem_cons_of_mem _ hb)) fun e he hm => hx e he (List.mem_cons_of_mem _ hm)
    refine h.quietly q (fun e he => ?_) (fun e hm he => ?_) (fun yes i hi => ?_) rfl rfl
    · refine kept (edNext_aligned g he) (h.next e he) fun line => h.seen e (hx e he ?_) he
      rw [← line, edNext_line g]
      exact List.mem_cons_self
    · rw [(words _ (edNext_aligned g he)).1, h.seen e hm he]
    · obtain ⟨phys, load⟩ := h.table yes i hi
      exact ⟨kept (table_aligned g hi) phys fun _ => load, by rw [(words _ (table_aligned g hi)).1, load]⟩

end

section
variable (g : u.params.Good)
include g

omit g in
theorem rangeLines_aligned (a n : Nat) : ∀ b ∈ rangeLines u.params a n, b % u.params.cacheLine = 0 := fun b hb => by
  obtain ⟨j, _, rfl⟩ := List.mem_map.1 hb
  exact Nat.mul_mod_left _ _

theorem goes_flush (h : Wired T u k xs s) (a : Word) (n : Nat)
    (hx : ∀ e < u.params.ned, (edAddr u.params e).toNat ∈ rangeLines u.params a.toNat n → e ∈ xs) :
    Goes (fun _ => Wired T u k xs) E G (flush a n) s :=
  goes_read (h.goes_flushLines g _ (by rw [h.params]; exact rangeLines_aligned _ _) (by rw [h.params]; exact hx))

/-- A flush of the line of a written word: memory holds the word, and each other word of the line that the block saw as
memory held it. -/
theorem flush_written {a v a' : Word} {n : Nat} (hw : Written T u k xs a v s) (ha : a.toNat % 4 = 0)
    (hl : rangeLines u.params a'.toNat n = [lineBase u.params a.toNat]) :
    ∃ s₀ t, Wired T u k xs s₀ ∧ flush a' n s = .ok ⟨⟩ t ∧ Quietly s₀ t ∧ t.physRead a = v ∧ t.cacheLoad a = v ∧
      ∀ b : Word, b.toNat % 4 = 0 → b ≠ a → t.cacheLoad b = s₀.cacheLoad b ∧
        (lineBase u.params b.toNat ≠ lineBase u.params a.toNat → t.physRead b = s₀.physRead b) ∧
        (s₀.physRead b = s₀.cacheLoad b → t.physRead b = s₀.physRead b) := by
  obtain ⟨s₀, h, ⟨m, c, p, rfl⟩, same, load, due⟩ := hw
  obtain ⟨s, hs⟩ : ∃ s, s = ({ s₀ with mem := m, cache := c, seq := p } : State) := ⟨_, rfl⟩
  rw [← hs] at same load due ⊢
  have params : s.params = u.params := by rw [hs]; exact h.params
  have alone : s.sched = [] := by rw [hs]; exact h.alone
  have good : s.params.Good := params ▸ g
  obtain ⟨t, e, ⟨m', c', p', ht⟩, words⟩ := flushLine_words good alone (b := lineBase u.params a.toNat)
    (by rw [params]; exact lineBase_mod _ _)
  rw [params] at words
  refine ⟨s₀, t, h, ?_, ⟨m', c', p', by rw [ht, hs]⟩, ?_, ?_, fun b hb ne => ⟨?_, fun other => ?_, fun agree => ?_⟩⟩
  · have run : turn s = .ok ⟨⟩ { s with seq := s.seq.advance } := turn_quiet alone
    unfold flush
    rw [run_bind_ok (run_get s), params, hl]
    unfold flushLines
    rw [run_bind_ok run, run_bind_ok (run_modify _ _), e]
    rfl
  · rw [(words a ha).2.2 rfl due, load]
  · rw [(words a ha).1, load]
  · rw [(words b hb).1, (same b hb ne).2]
  · rw [(words b hb).2.1 other, (same b hb ne).1]
  · by_cases line : lineBase u.params b.toNat = lineBase u.params a.toNat
    · have agree' : s.physRead b = s.cacheLoad b := by rw [(same b hb ne).1, (same b hb ne).2, agree]
      rw [(words b hb).2.2 line fun x hx => .inr (bytes_of_words good hb agree' hx), (same b hb ne).2, agree]
    · rw [(words b hb).2.1 line, (same b hb ne).1]

/-- A `NextED` written and flushed. -/
theorem goes_publishNext {x : Nat} {v a' : Word} {n : Nat} (hx : x < u.params.ned)
    (hw : Written T u k xs (edNextAddr u.params x) v s)
    (hl : rangeLines u.params a'.toNat n = [(edAddr u.params x).toNat]) :
    Goes (fun _ => Wired T u (k.setNext x v) (x :: xs)) E G (flush a' n) s := by
  obtain ⟨s₀, t, h, run, q, phys, load, words⟩ := flush_written g hw (edNext_aligned g hx)
    (by rw [edNext_line g]; exact hl)
  rw [Goes, run]
  have self : (k.setNext x v).next x = v := Function.update_self ..
  have other : ∀ e, e ≠ x → (k.setNext x v).next e = k.next e := fun e ne => Function.update_of_ne ne ..
  refine h.quietly q (fun e he => ?_) (fun e hm he => ?_) (fun yes i hi => ?_) rfl rfl
  · by_cases ne : e = x
    · rw [ne, phys, self]
    · obtain ⟨_, far, _⟩ := words _ (edNext_aligned g he) (edNext_ne g he hx ne)
      rw [far fun same => ne (edAddr_inj g he hx (by rwa [edNext_line g, edNext_line g] at same)), h.next e he, other e ne]
  · by_cases ne : e = x
    · rw [ne, load, self]
    · rw [(words _ (edNext_aligned g he) (edNext_ne g he hx ne)).1, other e ne]
      exact h.seen e ((List.mem_cons.1 hm).resolve_left ne) he
  · obtain ⟨near, far, _⟩ := words _ (table_aligned g hi) (table_ne_next g hi hx)
    rw [near, far (by rw [edNext_line g]; exact table_line_ne g hi hx)]
    exact h.table yes i hi

/-- A table entry written and flushed. -/
theorem goes_publishTable {i : Nat} {v : Word} (hi : i < 32) (hw : Written T u k xs (tableAddr u.params i) v s) :
    Goes (fun _ => Wired T u (k.setTable i v) xs) E G (flush (tableAddr u.params i) 4) s := by
  obtain ⟨s₀, t, h, run, q, phys, load, words⟩ := flush_written g hw (table_aligned g hi)
    (rangeLines_word g (table_aligned g hi))
  rw [Goes, run]
  refine h.quietly q (fun e he => ?_) (fun e hm he => ?_) (fun yes j hj => ?_) rfl rfl
  · obtain ⟨_, far, _⟩ := words _ (edNext_aligned g he) (table_ne_next g hi he).symm
    exact (far (by rw [edNext_line g]; exact (table_line_ne g hi he).symm)).trans (h.next e he)
  · exact (words _ (edNext_aligned g he) (table_ne_next g hi he).symm).1.trans (h.seen e hm he)
  · by_cases ne : j = i
    · have self : (k.setTable i v).table i = v := Function.update_self ..
      rw [ne, phys, load, self]
      exact ⟨rfl, rfl⟩
    · have other : (k.setTable i v).table j = k.table j := Function.update_of_ne ne ..
      obtain ⟨near, _, agree⟩ := words _ (table_aligned g hj) (table_ne g hj hi ne)
      obtain ⟨p, l⟩ := h.table yes j hj
      rw [other, near, agree (p.trans l.symm), p, l]
      exact ⟨rfl, rfl⟩

/-! ### Shared pieces -/

variable (h : Wired T u k xs s)
include h

omit g h in
theorem cons_self {x : Nat} (h : Wired T u k (x :: xs) s) : Wired T u k xs s :=
  h.mono fun _ he => List.mem_cons_of_mem _ he

omit g h in
/-- The endpoints whose line an aligned word lies in. -/
theorem exists_own (a : Word) : ∃ ys : List Nat,
    (∀ e < u.params.ned, (edAddr u.params e).toNat ∈ rangeLines u.params a.toNat 4 → e ∈ ys) ∧
      ∀ e ∈ ys, (edAddr u.params e).toNat ∈ rangeLines u.params a.toNat 4 := by
  refine ⟨(List.range u.params.ned).filter fun e =>
    decide ((edAddr u.params e).toNat ∈ rangeLines u.params a.toNat 4), fun e he hm => ?_, fun e he => ?_⟩
  · exact List.mem_filter.2 ⟨List.mem_range.2 he, decide_eq_true hm⟩
  · exact of_decide_eq_true (List.mem_filter.1 he).2

theorem goes_rmw {a : Word} (ha : Plain u.params a) (f : Word → Word) :
    Goes (fun _ => Wired T u k xs) E G (rmw a f) s := by
  obtain ⟨ys, all, only⟩ := exists_own (u := u) a
  refine goes_bind (h.goes_inval g a 4 (ys := xs ++ ys) fun e he => ?_) fun _ _ h =>
    goes_bind (h.goes_memRead g a) fun v _ h => goes_bind (h.goes_memWrite g ha _) fun _ _ h =>
      goes_mono (goes_flush g h a 4 fun e he hm => List.mem_append_right _ (all e he hm)) fun _ _ h =>
        h.mono fun e he => List.mem_append_left _ he
  exact (List.mem_append.1 he).imp_right (only e)

/-- A `NextED` overwritten (00_scope.md R12). -/
theorem goes_rmwNext {x : Nat} (hx : x < u.params.ned) (v : Word) :
    Goes (fun _ => Wired T u (k.setNext x v) xs) E G (rmw (edNextAddr u.params x) fun _ => v) s := by
  refine goes_bind (h.goes_inval g _ 4 (ys := xs) fun e he => .inl he) fun _ _ h =>
    goes_bind (h.goes_memRead g _) fun _ _ h => goes_bind (h.goes_written g (edNext_aligned g hx) v) fun _ _ h =>
      goes_mono (goes_publishNext g hx h ?_) fun _ _ h => h.cons_self
  rw [rangeLines_word g (edNext_aligned g hx), edNext_line g]

omit g in
theorem goes_mmioRead (off : Nat) : Goes (fun v t => v = hcRegRead s.hc off ∧ Wired T u k xs t) E G (mmioRead off) s := by
  rw [Goes, mmioRead_quiet h.alone]
  exact ⟨rfl, h.update .other rfl rfl rfl rfl⟩

omit g in
/-- A write of an HC register that is neither a head register nor the interrupt status. -/
theorem goes_mmioWrite {off : Nat} (v : Word) (head : ∀ j, (hcRegWrite s.hc off v).classHead j = s.hc.classHead j)
    (status : (hcRegWrite s.hc off v).interruptStatus = s.hc.interruptStatus) :
    Goes (fun _ => Wired T u k xs) E G (mmioWrite off v) s := by
  rw [Goes, mmioWrite_quiet h.alone]
  have moved : Wired T u k xs { s with seq := s.seq.advance } := h.update .other rfl rfl rfl rfl
  exact { moved with
    head := fun j => (head j).trans (h.head j)
    status := status.trans h.status }

end

end Wired

end Sys2Proof.Machine
end

section
/-! SUPPORT. What the shared pieces of the commands do to the links: building an endpoint, linking and unlinking it,
halting it, waiting for a frame (40_endpoint.md R200 to R218, 41_scheduler.md R256, R259). -/

namespace Sys2Proof.Machine

variable {α β : Type} {s t u : State}

/-! ### Pointers -/

theorem ptrOf_aligned {w : Word} (h : w.toNat % 16 = 0) : ptrOf w = w := by
  have low : w &&& 0xF#32 = 0#32 := by
    refine BitVec.eq_of_toNat_eq ?_
    rw [BitVec.toNat_and, show (0xF#32 : Word).toNat = 2 ^ 4 - 1 from rfl, Nat.and_two_pow_sub_one_eq_mod]
    exact h
  have split : ∀ w : Word, w &&& ~~~0xF#32 = w ^^^ (w &&& 0xF#32) := fun w => by
    ext i hi
    simp only [BitVec.getElem_and, BitVec.getElem_not, BitVec.getElem_xor]
    cases w[i] <;> simp
  rw [ptrOf, split, low, BitVec.xor_zero]

theorem ptrOf_edPointer {p : Params} (g : p.Good) (o : Option Nat) : ptrOf (edPointer p o) = edPointer p o := by
  cases o with
  | none => exact ptrOf_aligned rfl
  | some e =>
    refine ptrOf_aligned ?_
    obtain ⟨q, hq⟩ := Nat.dvd_of_mod_eq_zero (g.edAddr_slot e)
    obtain ⟨r, hr⟩ := Nat.dvd_of_mod_eq_zero g.line_dvd
    show (edAddr p e).toNat % 16 = 0
    rw [hq, hr, Nat.mul_assoc, Nat.mul_mod_right]

/-! ### Links after a change -/

/-- The head of one of the two class lists set. -/
def Links.setHead (k : Links) (j : Nat) (v : Word) : Links :=
  { k with head := fun i => if (i = 63 ↔ j = 63) then v else k.head i }

/-- An endpoint appended to a class list (40_endpoint.md R212). -/
def Links.appended (k : Links) (u : State) (j e : Nat) : Links :=
  match (u.list j).getLast? with
  | none => k.setHead j (edAddr u.params e)
  | some last => k.setNext last (edAddr u.params e)

/-- An endpoint at position `i` taken off a class list (40_endpoint.md R214). -/
def Links.unlinked (k : Links) (u : State) (j i : Nat) : Links :=
  let succ := edPointer u.params (u.list j)[i + 1]?
  if i = 0 then k.setHead j succ else k.setNext ((u.list j).getD (i - 1) 0) succ

/-- The pointers into a group's chain set (41_scheduler.md R256, R259): the last endpoint of the nearest shallower node
of each position, or the position's table entry. -/
def Links.repointed (k : Links) (u : State) (d : Nat) (link entry : Word) (ps : List Nat) : Links :=
  { k with
    next := fun e => if ps.any (fun p => match u.shallower p d with
        | some n => e == (u.list n).getLastD 0
        | none => false) then link else k.next e
    table := fun i => if ps.any (fun p => (u.shallower p d).isNone && i == tableIndex p) then entry else k.table i }

/-- An interrupt endpoint appended to the node of group `g` (41_scheduler.md R256). -/
def Links.inserted (k : Links) (u : State) (x d g : Nat) : Links :=
  let k := k.setNext x (edPointer u.params (u.hop (g * 2 ^ d) (d + 1)))
  match (u.list (node d g)).getLast? with
  | none => k.repointed u d (edAddr u.params x) (edAddr u.params x) (groupPositions d g)
  | some last => k.setNext last (edAddr u.params x)

/-- The successor of the endpoint at position `i` of the node of group `g` (41_scheduler.md R259). -/
def State.successor (u : State) (d g i : Nat) : Option Nat :=
  match (u.list (node d g))[i + 1]? with
  | some nx => some nx
  | none => u.hop (g * 2 ^ d) (d + 1)

/-- The endpoint at position `i` of the node of group `g` taken off (41_scheduler.md R259). -/
def Links.removed (k : Links) (u : State) (d g i : Nat) : Links :=
  let succ := edPointer u.params (u.successor d g i)
  if 0 < i then k.setNext ((u.list (node d g)).getD (i - 1) 0) succ
  else k.repointed u d succ (tablePointer u.params succ) (groupPositions d g)

/-! ### Positions -/

theorem bitrev_lt (k n : Nat) : bitrev k n < 2 ^ k := by
  induction k generalizing n with
  | zero => exact Nat.one_pos
  | succ k ih =>
    have := ih (n / 2)
    have : n % 2 < 2 := Nat.mod_lt _ (by decide)
    rw [bitrev, Nat.pow_succ]
    have : n % 2 * 2 ^ k ≤ 1 * 2 ^ k := Nat.mul_le_mul_right _ (by omega)
    omega

theorem getD_mem_of_idxOf {l : List Nat} {x i : Nat} (h : l.idxOf? x = some i) : l.getD (i - 1) 0 ∈ l := by
  have hi : i < l.length := by
    rw [List.idxOf?, List.findIdx?_eq_some_iff_getElem] at h
    exact h.1
  rw [List.getD_eq_getElem _ _ (by omega)]
  exact List.getElem_mem _

theorem getLastD_mem {l : List Nat} (h : l ≠ []) : l.getLastD 0 ∈ l := by
  rw [List.getLastD_eq_getLast?, List.getLast?_eq_some_getLast h]
  exact List.getLast_mem h

/-- The nearest shallower node of a position holds an endpoint (41_scheduler.md R256). -/
theorem shallower_ne_nil {p d n : Nat} (h : u.shallower p d = some n) : u.list n ≠ [] := by
  obtain ⟨d', _, h⟩ := List.exists_of_findSome?_eq_some h
  split at h
  · cases h
  · cases h
    assumption

/-! ### The pieces -/

namespace Wired

variable {T : Prop} {k : Links} {xs : List Nat} {E G : State → Prop}

theorem plain_ed {p : Params} (g : p.Good) {e : Nat} (he : e < p.ned) : Plain p (edAddr p e) := by
  have := plain_edWord g he 0#32 (by decide) (by decide)
  rwa [BitVec.add_zero] at this

theorem plain_td {p : Params} (g : p.Good) {t : Nat} (ht : t < p.ntd) : Plain p (tdAddr p t) := by
  have := plain_tdWord g ht 0#32 (by decide) (by decide)
  rwa [BitVec.add_zero] at this

section
variable (g : u.params.Good)
include g

theorem goes_writeTd (h : Wired T u k xs s) {t : Nat} (ht : t < u.params.ntd) (w0 w1 w2 w3 : Word) :
    Goes (fun _ => Wired T u k xs) E G (writeTd (tdAddr u.params t) w0 w1 w2 w3) s :=
  goes_bind (h.goes_memWrite g (plain_td g ht) _) fun _ _ h =>
    goes_bind (h.goes_memWrite g (plain_tdWord g ht _ (by decide) (by decide)) _) fun _ _ h =>
      goes_bind (h.goes_memWrite g (plain_tdWord g ht _ (by decide) (by decide)) _) fun _ _ h =>
        h.goes_memWrite g (plain_tdWord g ht _ (by decide) (by decide)) _

/-- A TD slot flushed. -/
theorem goes_flushTd (h : Wired T u k xs s) {t : Nat} (ht : t < u.params.ntd) :
    Goes (fun _ => Wired T u k xs) E G (flush (tdAddr u.params t) 16) s := by
  refine goes_flush g h _ _ fun e he hm => ?_
  rw [rangeLines_slot g (g.tdAddr_aligned ht)] at hm
  have := g.ed_td_apart he.le ht
  have := g.line_pos
  have := List.mem_singleton.1 hm
  omega

/-- An ED slot flushed whose `NextED` the block has seen. -/
theorem goes_flushEd (h : Wired T u k xs s) {e : Nat} (he : e < u.params.ned) (hx : e ∈ xs) :
    Goes (fun _ => Wired T u k xs) E G (flush (edAddr u.params e) 16) s := by
  refine goes_flush g h _ _ fun e' he' hm => ?_
  rw [rangeLines_slot g (g.edAddr_aligned he.le)] at hm
  rwa [edAddr_inj g he' he (List.mem_singleton.1 hm)]

theorem goes_buildEndpoint (h : Wired T u k xs s) {e t : Nat} (he : e < u.params.ned) (ht : t < u.params.ntd)
    (template : Word) :
    Goes (fun _ => Wired T u (k.setNext e 0#32) xs) E G (buildEndpoint u.params e t template) s :=
  goes_bind (h.goes_writeTd g ht _ _ _ _) fun _ _ h =>
    goes_bind (h.goes_memWrite g (plain_ed g he) _) fun _ _ h =>
      goes_bind (h.goes_memWrite g (plain_edWord g he _ (by decide) (by decide)) _) fun _ _ h =>
        goes_bind (h.goes_memWrite g (plain_edWord g he _ (by decide) (by decide)) _) fun _ _ h =>
          goes_bind (h.goes_written g (edNext_aligned g he) _) fun _ _ h =>
            goes_bind (goes_publishNext g he h (rangeLines_slot g (g.edAddr_aligned he.le))) fun _ _ h =>
              goes_flushTd g h.cons_self ht

/-- An invalidate of a word of an ED slot. -/
theorem goes_invalEd (h : Wired T u k xs s) {e : Nat} (k' : Word) (small : k'.toNat < 12)
    (hk : k'.toNat % 4 = 0) (he : e < u.params.ned) :
    Goes (fun _ => Wired T u k (e :: xs)) E G (inval (edAddr u.params e + k') 4) s := by
  refine h.goes_inval g _ _ fun e' hm => ?_
  rw [rangeLines_word g (plain_edWord g he k' hk small).aligned, slotWord_line g (g.edAddr_slot e) (by omega)]
  rcases List.mem_cons.1 hm with rfl | hm
  · exact .inr (List.mem_singleton_self _)
  · exact .inl hm

theorem goes_clearHalt (h : Wired T u k xs s) {e : Nat} (he : e < u.params.ned) (c : Bool) :
    Goes (fun _ => Wired T u k xs) E G (clearHalt e c) s := by
  refine goes_read ?_
  rw [h.params]
  exact goes_bind (goes_invalEd g h _ (by decide) (by decide) he) fun _ _ h =>
    goes_bind (h.goes_memRead g _) fun _ _ h =>
      goes_bind (h.goes_memWrite g (plain_edWord g he _ (by decide) (by decide)) _) fun _ _ h =>
        goes_bind (h.goes_memRead g _) fun _ _ h => goes_bind (h.goes_memWrite g (plain_ed g he) _) fun _ _ h =>
          goes_mono (goes_flushEd g h he List.mem_cons_self) fun _ _ h => h.cons_self

omit g in
theorem goes_listFilled (h : Wired T u k xs s) (ty : EdType) :
    Goes (fun _ => Wired T u k xs) E G (listFilled ty) s := by
  cases ty with
  | control => exact h.goes_mmioWrite _ (fun _ => rfl) rfl
  | bulk => exact h.goes_mmioWrite _ (fun _ => rfl) rfl
  | interrupt => exact goes_pure h

/-! ### The frame wait -/

omit g in
theorem goes_waitFrom (hG : ∀ t, Wired T u k xs t → G t) (h : Wired T u k xs s) (f0 : BitVec 16) (r : Nat) :
    Goes (fun _ => Wired T u k xs) E G (waitFrom f0 r) s := by
  have ended : Wired T u k xs { s with sched := [] } := h.update .other h.alone.symm rfl rfl rfl
  have run : waitSteps f0 s.sched r s = if s.frameMoved f0 then .ok .ok { s with sched := [] } else
      .error .gone { s with sched := [] } := by rw [h.alone, waitSteps]
  have steps : Goes (fun _ => Wired T u k xs) E G (fun s => waitSteps f0 s.sched r s) s := by
    unfold Goes
    dsimp only
    by_cases moved : s.frameMoved f0 = true
    · rw [run, if_pos moved]
      exact ended
    · rw [run, if_neg moved]
      exact hG _ ended
  exact goes_bind steps fun q _ h => goes_bind (Q := fun _ => Wired T u k xs)
    (goes_modify (h.update .other rfl rfl rfl rfl)) fun _ _ h => goes_pure h

theorem goes_quiesce (hG : ∀ t, Wired T u k xs t → G t) (h : Wired T u k xs s) {e : Nat} (he : e < u.params.ned)
    (c : Cont) : Goes (fun _ => Wired T u k xs) E G (quiesce e c) s := by
  refine goes_read ?_
  rw [h.params]
  refine goes_bind (goes_invalEd g h _ (by decide) (by decide) he) fun _ _ h =>
    goes_bind (h.goes_memRead g _) fun hd _ h => goes_ite (fun _ => goes_pure h.cons_self) fun _ =>
      goes_bind (h.goes_rmw g (plain_ed g he) _) fun _ _ h => goes_bind (h.goes_mmioRead _) fun f0 _ ⟨_, h⟩ =>
        goes_bind (Q := fun _ => Wired T u k xs) (goes_modify (h.cons_self.update .other rfl rfl rfl rfl)) fun _ _ h =>
          goes_waitFrom hG h _ _

/-! ### Class lists -/

omit g in
theorem goes_classDisable (h : Wired T u k xs s) (j : Nat) :
    Goes (fun _ => Wired T u k xs) E G (classDisable j) s :=
  goes_bind (h.goes_mmioRead _) fun _ _ ⟨_, h⟩ => goes_bind (h.goes_mmioWrite _ (fun _ => rfl) rfl) fun _ _ h =>
    goes_pure h

omit g in
theorem goes_classRestore (h : Wired T u k xs s) (j : Nat) (was : Bool) :
    Goes (fun _ => Wired T u k xs) E G (classRestore j was) s :=
  goes_ite (fun _ => goes_bind (h.goes_mmioRead _) fun _ _ ⟨_, h⟩ => h.goes_mmioWrite _ (fun _ => rfl) rfl) fun _ =>
    goes_pure h

omit g in
/-- A write of a class list's head register. -/
theorem goes_writeHead (h : Wired T u k xs s) {j : Nat} {v : Word} (hv : ptrOf v = v) :
    Goes (fun _ => Wired T u (k.setHead j v) xs) E G (mmioWrite (classHeadReg j) v) s := by
  rw [Goes, mmioWrite_quiet h.alone]
  have moved : Wired T u k xs { s with seq := s.seq.advance } := h.update .other rfl rfl rfl rfl
  refine ⟨moved.toSameTables.trans .other, moved.alone, moved.next, moved.seen, moved.table, fun i => ?_, ?_⟩
  · have head := h.head i
    simp only [Hc.classHead] at head
    by_cases hj : j = 63
    · by_cases hi : i = 63
      · simp [classHeadReg, hj, hi, hcRegWrite, Hc.classHead, Links.setHead, hv]
      · simpa [classHeadReg, hj, hi, hcRegWrite, Hc.classHead, Links.setHead] using head
    · by_cases hi : i = 63
      · simpa [classHeadReg, hj, hi, hcRegWrite, Hc.classHead, Links.setHead] using head
      · simp [classHeadReg, hj, hi, hcRegWrite, Hc.classHead, Links.setHead, hv]
  · rw [classHeadReg]
    split
    · exact h.status
    · exact h.status

theorem goes_classInsert (h : Wired T u k xs s) {j e : Nat} (he : ∀ x ∈ u.list j, x < u.params.ned) :
    Goes (fun _ => Wired T (u.appended j e) (k.appended u j e) xs) E G (classInsert j e) s := by
  refine goes_read (goes_bind (h.goes_classDisable j) fun was t h' => ?_)
  have place : ∀ {t k}, Wired T u k xs t → Goes (fun _ => Wired T (u.appended j e) k xs) E G
      (do modify fun s => (s.setList j (s.list j ++ [e])).setEd e { s.ed e with slot := j }
          classRestore j was) t := fun {t k} h =>
    goes_bind (Q := fun _ => Wired T (u.appended j e) k xs)
      (goes_modify (h.retable (h.toSameTables.appended j e) rfl rfl rfl rfl rfl)) fun _ _ h =>
        h.goes_classRestore j was
  dsimp only
  rw [h.list, h.params]
  cases hl : (u.list j).getLast? with
  | none =>
    have same : k.setHead j (edAddr u.params e) = k.appended u j e := by rw [Links.appended, hl]
    rw [← same]
    exact goes_bind (h'.goes_writeHead (ptrOf_edPointer g (some e))) fun _ _ h => place h
  | some last =>
    have same : k.setNext last (edAddr u.params e) = k.appended u j e := by rw [Links.appended, hl]
    rw [← same]
    exact goes_bind (h'.goes_rmwNext g (he last (List.mem_of_getLast? hl)) _) fun _ _ h => place h

theorem goes_classRemove (h : Wired T u k xs s) {j e : Nat} (he : ∀ x ∈ u.list j, x < u.params.ned) :
    Goes (fun _ t => ∃ i, (u.list j).idxOf? e = some i ∧
      Wired T (u.setList j ((u.list j).erase e)) (k.unlinked u j i) xs t) E G (classRemove j e) s := by
  refine goes_read (goes_bind (Q := fun i t => t = s ∧ (u.list j).idxOf? e = some i)
    (goes_orStop fun i hi => ⟨rfl, by rwa [h.list] at hi⟩) ?_)
  rintro i _ ⟨rfl, hi⟩
  refine goes_bind (h.goes_classDisable j) fun was t h' => ?_
  have take : ∀ {t k'}, k.unlinked u j i = k' → Wired T u k' xs t →
      Goes (fun _ t => ∃ i, (u.list j).idxOf? e = some i ∧
        Wired T (u.setList j ((u.list j).erase e)) (k.unlinked u j i) xs t) E G
        (do modify fun s => s.setList j ((s.list j).erase e)
            classRestore j was) t := by
    rintro t _ rfl h
    refine goes_bind (Q := fun _ => Wired T (u.setList j ((u.list j).erase e)) (k.unlinked u j i) xs) (goes_modify ?_)
      fun _ _ h => goes_mono (h.goes_classRestore j was) fun _ _ h => ⟨i, hi, h⟩
    rw [h.list]
    exact h.retable (h.toSameTables.setList j _) rfl rfl rfl rfl rfl
  dsimp only
  rw [h.list, h.params]
  split
  · rename_i first
    exact goes_bind (h'.goes_writeHead (ptrOf_edPointer g _)) fun _ _ h =>
      take (by rw [Links.unlinked, if_pos first]) h
  · rename_i later
    have mem : (u.list j).getD (i - 1) 0 ∈ u.list j := getD_mem_of_idxOf hi
    exact goes_bind (h'.goes_rmwNext g (he _ mem) _) fun _ _ h => take (by rw [Links.unlinked, if_neg later]) h

/-! ### The tree -/

/-- `done` names nodes whose last endpoint points where it shall already. -/
theorem goes_repoint (d : Nat) (link entry : Word) (hu : ∀ j, ∀ x ∈ u.list j, x < u.params.ned) (ps done : List Nat)
    (h : Wired T u k xs s)
    (set : ∀ n ∈ done, k.next ((u.list n).getLastD 0) = link) :
    Goes (fun _ => Wired T u (k.repointed u d link entry ps) xs) E G (repoint d link entry ps done) s := by
  induction ps generalizing k done s with
  | nil =>
    have same : k.repointed u d link entry [] = k := rfl
    rw [same]
    exact goes_pure h
  | cons p ps ih =>
    refine goes_read ?_
    rw [h.shallower]
    split
    · rename_i n hn
      have step : ∀ k' : Links, (∀ e, k'.next e = if e = (u.list n).getLastD 0 then link else k.next e) →
          k'.table = k.table → k'.head = k.head → k'.status = k.status →
          k'.repointed u d link entry ps = k.repointed u d link entry (p :: ps) := fun k' next table head status => by
        simp only [Links.repointed, table, head, status, List.any_cons, hn, Option.isNone_some, Bool.false_and,
          Bool.false_or, Links.mk.injEq, and_true]
        refine funext fun e => ?_
        by_cases he : e = (u.list n).getLastD 0
        · rw [next, if_pos he, beq_iff_eq.2 he, Bool.true_or, if_pos rfl, ite_self]
        · rw [next, if_neg he, beq_false_of_ne he, Bool.false_or]
      by_cases hd : done.contains n = true
      · rw [if_pos hd, ← step k (fun e => ?_) rfl rfl rfl]
        · exact ih done h set
        · split
          · rename_i he
            rw [he]
            exact set n (by simpa using hd)
          · rfl
      · rw [if_neg hd, ← step (k.setNext ((u.list n).getLastD 0) link) (fun e => ?_) rfl rfl rfl, h.list, h.params]
        · have last : (u.list n).getLastD 0 < u.params.ned := hu n _ (getLastD_mem (shallower_ne_nil hn))
          refine goes_bind (h.goes_rmwNext g last _) fun _ _ h => ih _ h fun m hm => ?_
          rcases List.mem_cons.1 hm with rfl | hm
          · exact Function.update_self ..
          · show Function.update k.next _ _ _ = _
            rw [Function.update_apply]
            split
            · rfl
            · exact set m hm
        · exact Function.update_apply ..
    · rename_i hn
      have step : (k.setTable (tableIndex p) entry).repointed u d link entry ps =
          k.repointed u d link entry (p :: ps) := by
        simp only [Links.repointed, Links.setTable, List.any_cons, hn, Option.isNone_none, Bool.true_and,
          Bool.false_or, Links.mk.injEq, and_true, true_and]
        refine funext fun i => ?_
        by_cases hi : i = tableIndex p
        · simp [hi]
        · simp [hi]
      rw [← step, h.params]
      have index : tableIndex p < 32 := bitrev_lt 5 p
      exact goes_bind (h.goes_written g (table_aligned g index) _) fun _ _ h =>
        goes_bind (goes_publishTable g index h) fun _ _ h => ih done h set

theorem goes_periodicInsert (h : Wired T u k xs s) {x : Nat} (hx : x < u.params.ned)
    (hu : ∀ j, ∀ x ∈ u.list j, x < u.params.ned) :
    Goes (fun b t => if b then ∃ g, u.placementGroup x = some g ∧
        Wired T (u.appended (node (u.ed x).depth g) x) (k.inserted u x (u.ed x).depth g) xs t
      else Wired T u k xs t) E G (periodicInsert x) s := by
  refine goes_read ?_
  dsimp only
  rw [h.placementGroup, h.ed, h.params]
  cases hg : u.placementGroup x with
  | none => exact h
  | some gr =>
    dsimp only
    rw [h.hop, h.list]
    obtain ⟨d, hd⟩ : ∃ d, d = (u.ed x).depth := ⟨_, rfl⟩
    rw [← hd]
    have place : ∀ {t k'}, k.inserted u x d gr = k' → Wired T u k' xs t →
        Goes (fun b t => if b then ∃ g, some gr = some g ∧
            Wired T (u.appended (node d g) x) (k.inserted u x d g) xs t else Wired T u k xs t) E G
          (do modify fun s => { (s.setList (node d gr) (s.list (node d gr) ++ [x])).setEd x
                { s.ed x with slot := node d gr } with plock := false }
              return true) t := by
      rintro t _ rfl h
      refine goes_bind (Q := fun _ => Wired T (u.appended (node d gr) x) (k.inserted u x d gr) xs)
        (goes_modify (h.retable ((h.toSameTables.appended _ x).trans .other) rfl rfl rfl rfl rfl)) fun _ _ h =>
          ⟨gr, rfl, h⟩
    refine goes_bind (Q := fun _ => Wired T u k xs) (goes_modify (h.update .other rfl rfl rfl rfl)) fun _ _ h =>
      goes_bind (h.goes_written g (edNext_aligned g hx) _) fun _ _ h =>
        goes_bind (goes_publishNext g hx h (by rw [rangeLines_word g (edNext_aligned g hx), edNext_line g]))
          fun _ _ h => ?_
    have h := h.cons_self
    cases hl : (u.list (node d gr)).getLast? with
    | none =>
      exact goes_bind (h.goes_repoint g d _ _ hu _ [] fun n hn => nomatch hn)
        fun _ _ h => place (by rw [Links.inserted, hl]) h
    | some last =>
      exact goes_bind (h.goes_rmwNext g (hu _ last (List.mem_of_getLast? hl)) _) fun _ _ h =>
        place (by rw [Links.inserted, hl]) h

theorem goes_periodicRemove (h : Wired T u k xs s) {x d gr : Nat} (hd : (u.ed x).depth = d)
    (hs : (u.ed x).slot = node d gr) (hu : ∀ j, ∀ x ∈ u.list j, x < u.params.ned) :
    Goes (fun _ t => ∃ i, (u.list (node d gr)).idxOf? x = some i ∧
      Wired T (u.setList (node d gr) ((u.list (node d gr)).erase x)) (k.removed u d gr i) xs t) E G
      (periodicRemove x) s := by
  refine goes_read (goes_bind (Q := fun i t => t = s ∧ (u.list (node d gr)).idxOf? x = some i)
    (goes_orStop fun i hi => ⟨rfl, by rwa [h.list, h.ed, hs] at hi⟩) ?_)
  rintro i _ ⟨rfl, hi⟩
  dsimp only
  rw [h.ed, h.list, h.params, hs, hd]
  have group : node d gr - nodeBase d = gr := Nat.add_sub_cancel_left ..
  rw [group, h.hop]
  have take : ∀ {t k'}, k.removed u d gr i = k' → Wired T u k' xs t →
      Goes (fun _ t => ∃ i, (u.list (node d gr)).idxOf? x = some i ∧
        Wired T (u.setList (node d gr) ((u.list (node d gr)).erase x)) (k.removed u d gr i) xs t) E G
        (modify fun s => { s.setList (node d gr) ((s.list (node d gr)).erase x) with plock := false }) t := by
    rintro t _ rfl h
    refine goes_modify ⟨i, hi, ?_⟩
    rw [h.list]
    exact h.retable ((h.toSameTables.setList _ _).trans .other) rfl rfl rfl rfl rfl
  refine goes_bind (Q := fun _ => Wired T u k xs) (goes_modify (h.update .other rfl rfl rfl rfl)) fun _ _ h => ?_
  split
  · rename_i later
    exact goes_bind (h.goes_rmwNext g (hu _ _ (getD_mem_of_idxOf hi)) _) fun _ _ h =>
      take (by rw [Links.removed, if_pos later]; rfl) h
  · rename_i first
    exact goes_bind (h.goes_repoint g d _ _ hu _ [] fun n hn => nomatch hn)
      fun _ _ h => take (by rw [Links.removed, if_neg first]; rfl) h

end

end Wired

end Sys2Proof.Machine
end

section
/-! SUPPORT. The canonical layouts of the tree and of the class lists as equations between lists and links, and that
appending an endpoint to a list, or taking one off, keeps them (40_endpoint.md R212 to R214, 41_scheduler.md R256 to
R259). -/

namespace Sys2Proof.Machine

variable {u v s : State} {k k' : Links} {p : Params} {nx nx' : Nat → Word} {after after' : Word}

/-! ### Chains of `NextED` -/

/-- The pointer to the first of a list, or what follows it. -/
def firstOr (p : Params) (after : Word) (o : Option Nat) : Word := o.elim after (edAddr p)

/-- Each endpoint's `NextED` names the next, the last one's is `after`. -/
def ChainTo (p : Params) (nx : Nat → Word) (after : Word) : List Nat → Prop
  | [] => True
  | e :: l => nx e = firstOr p after l.head? ∧ ChainTo p nx after l

theorem chainTo_congr {l : List Nat} (h : ∀ e ∈ l, nx' e = nx e) (c : ChainTo p nx after l) : ChainTo p nx' after l := by
  induction l with
  | nil => trivial
  | cons e l ih =>
    obtain ⟨first, rest⟩ := c
    exact ⟨(h e List.mem_cons_self).trans first, ih (fun e he => h e (List.mem_cons_of_mem _ he)) rest⟩

theorem chainTo_append {l l' : List Nat} :
    ChainTo p nx after (l ++ l') ↔ ChainTo p nx (firstOr p after l'.head?) l ∧ ChainTo p nx after l' := by
  induction l with
  | nil => exact ⟨fun h => ⟨trivial, h⟩, fun h => h.2⟩
  | cons e l ih =>
    have first : firstOr p after (l ++ l').head? = firstOr p (firstOr p after l'.head?) l.head? := by
      cases l <;> rfl
    simp only [List.cons_append, ChainTo, ih, first, and_assoc]

/-- A chain whose last link has been redirected. -/
theorem chainTo_relast {l : List Nat} {y : Nat} (c : ChainTo p nx after (l ++ [y])) (same : ∀ e ∈ l, nx' e = nx e)
    (last : nx' y = after') : ChainTo p nx' after' (l ++ [y]) := by
  obtain ⟨front, _⟩ := chainTo_append.1 c
  exact chainTo_append.2 ⟨chainTo_congr same front, last, trivial⟩

/-- A chain as memory holds it. -/
theorem chained_iff {T : Prop} {xs : List Nat} (h : Wired T u k xs s) {l : List Nat} (hl : ∀ e ∈ l, e < u.params.ned) :
    s.chained after l = true ↔ ChainTo u.params k.next after l := by
  induction l with
  | nil => exact ⟨fun _ => trivial, fun _ => rfl⟩
  | cons e l ih =>
    have here := h.next e (hl e List.mem_cons_self)
    have ih := ih fun e he => hl e (List.mem_cons_of_mem _ he)
    cases l with
    | nil => simp [State.chained, ChainTo, h.params, here, firstOr]
    | cons e' l =>
      rw [State.chained, Bool.and_eq_true, beq_iff_eq, h.params, here, ih]
      rfl

/-! ### Paths of the tree (41_scheduler.md R251, R252) -/

theorem node_lt {d g : Nat} (hd : d < 6) (hg : g < 2 ^ (5 - d)) : node d g < 63 := by
  unfold node nodeBase
  interval_cases d <;> simp at hg ⊢ <;> omega

theorem node_inj {d d' g g' : Nat} (hd : d < 6) (hg : g < 2 ^ (5 - d)) (hd' : d' < 6) (hg' : g' < 2 ^ (5 - d'))
    (h : node d g = node d' g') : d = d' ∧ g = g' := by
  unfold node nodeBase at h
  interval_cases d <;> interval_cases d' <;> simp at hg hg' h ⊢ <;> omega

theorem path_lt {q d : Nat} (hq : q < 32) (hd : d < 6) : q / 2 ^ d < 2 ^ (5 - d) := by
  rw [Nat.div_lt_iff_lt_mul (Nat.two_pow_pos d), ← Nat.pow_add, Nat.sub_add_cancel (by omega)]
  exact hq

theorem mem_groupPositions {d g q : Nat} : q ∈ groupPositions d g ↔ q / 2 ^ d = g := by
  have pos := Nat.two_pow_pos d
  simp only [groupPositions, List.mem_map, List.mem_range]
  constructor
  · rintro ⟨j, hj, rfl⟩
    rw [Nat.mul_comm, Nat.mul_add_div pos, Nat.div_eq_of_lt hj, Nat.add_zero]
  · rintro rfl
    exact ⟨q % 2 ^ d, Nat.mod_lt _ pos, Nat.div_add_mod' q (2 ^ d)⟩

theorem position_lt {d g q : Nat} (hd : d < 6) (hg : g < 2 ^ (5 - d)) (hq : q / 2 ^ d = g) : q < 32 := by
  rw [← hq, Nat.div_lt_iff_lt_mul (Nat.two_pow_pos d), ← Nat.pow_add, Nat.sub_add_cancel (by omega)] at hg
  exact hg

/-- Deeper nodes on the path of a position are those on the path of its group's first position. -/
theorem path_of_first {q a b : Nat} (h : a ≤ b) : q / 2 ^ a * 2 ^ a / 2 ^ b = q / 2 ^ b := by
  obtain ⟨c, rfl⟩ := Nat.exists_eq_add_of_le h
  rw [Nat.pow_add, ← Nat.div_div_eq_div_mul, ← Nat.div_div_eq_div_mul, Nat.mul_div_cancel _ (Nat.two_pow_pos a)]

/-- The first position of a node lies in the tree. -/
theorem first_lt {d' g' : Nat} (hd' : d' < 6) (hg' : g' < 2 ^ (5 - d')) : g' * 2 ^ d' < 32 := by
  have := (Nat.mul_lt_mul_right (Nat.two_pow_pos d')).2 hg'
  rwa [← Nat.pow_add, Nat.sub_add_cancel (by omega)] at this

theorem first_div (d' g' : Nat) : g' * 2 ^ d' / 2 ^ d' = g' := Nat.mul_div_cancel _ (Nat.two_pow_pos d')

theorem bitrev_bitrev : ∀ i < 32, bitrev 5 (bitrev 5 i) = i := by decide

/-! ### The first endpoint on a path (41_scheduler.md R258) -/

theorem hop_step {q d : Nat} (hd : d < 6) :
    u.hop q d = (u.list (node d (q / 2 ^ d))).head?.or (u.hop q (d + 1)) := by
  have depths : (List.range 6).filter (fun d' => decide (d ≤ d')) =
      d :: (List.range 6).filter (fun d' => decide (d + 1 ≤ d')) := by
    interval_cases d <;> rfl
  simp only [State.hop, depths, List.findSome?_cons]
  cases (u.list (node d (q / 2 ^ d))).head? <;> rfl

theorem hop_end {q : Nat} : u.hop q 6 = none := rfl

/-- The answer depends on the heads of the lists from the depth on. -/
theorem hop_congr {q q' d : Nat} (hd : d ≤ 6)
    (h : ∀ d', d ≤ d' → d' < 6 → (v.list (node d' (q' / 2 ^ d'))).head? = (u.list (node d' (q / 2 ^ d'))).head?) :
    v.hop q' d = u.hop q d := by
  induction hd using Nat.decreasingInduction with
  | self => rw [hop_end, hop_end]
  | of_succ d hd ih =>
    rw [hop_step hd, hop_step hd, h d le_rfl hd, ih fun d' h1 h2 => h d' (by omega) h2]

/-- No endpoint lies on the path of a position at the depths from `a` up to `b`. -/
def State.clear (u : State) (q a b : Nat) : Prop := ∀ d, a ≤ d → d < b → u.list (node d (q / 2 ^ d)) = []

theorem hop_of_clear {q a b : Nat} (hab : a ≤ b) (hb : b ≤ 6) (h : u.clear q a b) : u.hop q a = u.hop q b := by
  induction hab using Nat.decreasingInduction with
  | self => rfl
  | of_succ a ha ih =>
    rw [hop_step (by omega), h a le_rfl ha, ih fun d h1 h2 => h d (by omega) h2]
    rfl

/-- Where an endpoint lies above the depth `b`, the lists from there on do not matter. -/
theorem hop_of_not_clear {q a b : Nat} (hab : a ≤ b) (hb : b ≤ 6)
    (same : ∀ d, a ≤ d → d < b → v.list (node d (q / 2 ^ d)) = u.list (node d (q / 2 ^ d))) (h : ¬ u.clear q a b) :
    v.hop q a = u.hop q a := by
  induction hab using Nat.decreasingInduction with
  | self => exact absurd (fun d h1 h2 => absurd h1 (by omega)) h
  | of_succ a ha ih =>
    have ha' : a < 6 := by omega
    rw [hop_step (u := v) ha', hop_step (u := u) ha', same a le_rfl ha]
    cases hl : u.list (node a (q / 2 ^ a)) with
    | cons x l => rfl
    | nil =>
      rw [ih (fun d h1 h2 => same d (by omega) h2) fun no => h fun d h1 h2 => ?_]
      rcases Nat.lt_or_eq_of_le h1 with h1 | rfl
      · exact no d h1 h2
      · exact hl

/-! ### The nearest shallower node (41_scheduler.md R256) -/

theorem shallower_succ {q d : Nat} : u.shallower q (d + 1) =
    if u.list (node d (q / 2 ^ d)) = [] then u.shallower q d else some (node d (q / 2 ^ d)) := by
  simp only [State.shallower, List.range_succ, List.reverse_append, List.reverse_cons, List.reverse_nil, List.nil_append,
    List.cons_append, List.findSome?_cons]
  by_cases empty : u.list (node d (q / 2 ^ d)) = []
  · rw [if_pos empty, if_pos empty]
  · rw [if_neg empty, if_neg empty]

theorem shallower_none {q d : Nat} : u.shallower q d = none ↔ u.clear q 0 d := by
  induction d with
  | zero => exact ⟨fun _ d _ h => absurd h (Nat.not_lt_zero d), fun _ => rfl⟩
  | succ d ih =>
    rw [shallower_succ]
    split
    · rename_i empty
      refine ih.trans ⟨fun h d' h1 h2 => ?_, fun h d' h1 h2 => h d' h1 (by omega)⟩
      rcases Nat.lt_succ_iff_lt_or_eq.1 h2 with h2 | rfl
      · exact h d' h1 h2
      · exact empty
    · rename_i full
      exact ⟨fun h => (nomatch h), fun h => absurd (h d (Nat.zero_le d) (Nat.lt_succ_self d)) full⟩

theorem shallower_some {q d n : Nat} : u.shallower q d = some n ↔
    ∃ d' < d, n = node d' (q / 2 ^ d') ∧ u.list n ≠ [] ∧ u.clear q (d' + 1) d := by
  induction d with
  | zero => exact ⟨fun h => (nomatch h), fun ⟨d', h, _⟩ => absurd h (Nat.not_lt_zero d')⟩
  | succ d ih =>
    rw [shallower_succ]
    split
    · rename_i empty
      refine ih.trans ⟨fun ⟨d', hd, hn, full, clear⟩ => ⟨d', by omega, hn, full, fun e h1 h2 => ?_⟩,
        fun ⟨d', hd, hn, full, clear⟩ => ⟨d', ?_, hn, full, fun e h1 h2 => clear e h1 (by omega)⟩⟩
      · rcases Nat.lt_succ_iff_lt_or_eq.1 h2 with h2 | rfl
        · exact clear e h1 h2
        · exact empty
      · rcases Nat.lt_succ_iff_lt_or_eq.1 hd with hd | rfl
        · exact hd
        · rw [hn] at full
          exact absurd empty full
    · rename_i full
      refine ⟨fun h => ?_, fun ⟨d', hd, hn, _, clear⟩ => ?_⟩
      · cases h
        exact ⟨d, Nat.lt_succ_self d, rfl, full, fun e h1 h2 => absurd h1 (by omega)⟩
      · rcases Nat.lt_succ_iff_lt_or_eq.1 hd with hd | rfl
        · exact absurd (clear d (by omega) (Nat.lt_succ_self d)) full
        · rw [hn]

/-! ### The canonical layouts -/

/-- The table entry of a position with that first endpoint (41_scheduler.md R258). -/
def entryOf (p : Params) : Option Nat → Word
  | none => dummyEd p
  | some e => edAddr p e

/-- The canonical tree, of lists and links. -/
structure CanonicalTree (u : State) (k : Links) : Prop where
  entries : ∀ i < 32, k.table i = entryOf u.params (u.hop (bitrev 5 i) 0)
  chains : ∀ d < 6, ∀ g < 2 ^ (5 - d),
    ChainTo u.params k.next (edPointer u.params (u.hop (g * 2 ^ d) (d + 1))) (u.list (node d g))

/-- A canonical class list, of lists and links. -/
structure CanonicalClass (u : State) (k : Links) (j : Nat) : Prop where
  head : k.head j = edPointer u.params (u.list j).head?
  chain : ChainTo u.params k.next 0#32 (u.list j)

/-- Each endpoint is in at most one list, once. -/
structure State.apart (u : State) : Prop where
  unique : ∀ {e n n'}, e ∈ u.list n → e ∈ u.list n' → n = n'
  once : ∀ n, (u.list n).Nodup
  valid : ∀ {e n}, e ∈ u.list n → e < u.params.ned

theorem State.placed.apart (hu : u.placed) : u.apart where
  unique h h' := (hu.member _ _ h).2.symm.trans (hu.member _ _ h').2
  once := hu.once
  valid {e n} h := by
    have valid := (hu.member n e h).1
    simp only [State.validEd, Bool.and_eq_true, decide_eq_true_eq] at valid
    exact valid.1

theorem State.apart.congr (hu : u.apart) (hp : v.params = u.params) (hl : ∀ n, v.list n = u.list n) : v.apart where
  unique {e n n'} h h' := hu.unique (by rwa [hl] at h) (by rwa [hl] at h')
  once n := by rw [hl]; exact hu.once n
  valid {e n} h := by rw [hp]; rw [hl] at h; exact hu.valid h

/-! ### The pointers into a group's chain -/

section
variable {d g : Nat} {link entry : Word} {ps : List Nat}

theorem repointed_next_of_not {e : Nat} (h : ∀ q ∈ ps, ∀ n, u.shallower q d = some n → e ≠ (u.list n).getLastD 0) :
    (k.repointed u d link entry ps).next e = k.next e := by
  refine if_neg fun yes => ?_
  obtain ⟨q, hq, yes⟩ := List.any_eq_true.1 yes
  split at yes
  · rename_i n hn
    exact h q hq n hn (eq_of_beq yes)
  · cases yes

theorem repointed_next_of {q n : Nat} (hq : q ∈ ps) (hn : u.shallower q d = some n) :
    (k.repointed u d link entry ps).next ((u.list n).getLastD 0) = link := by
  refine if_pos (List.any_eq_true.2 ⟨q, hq, ?_⟩)
  rw [hn]
  exact beq_self_eq_true _

theorem repointed_table_of_not {i : Nat} (h : ∀ q ∈ ps, u.shallower q d = none → tableIndex q ≠ i) :
    (k.repointed u d link entry ps).table i = k.table i := by
  refine if_neg fun yes => ?_
  obtain ⟨q, hq, yes⟩ := List.any_eq_true.1 yes
  simp only [Bool.and_eq_true, Option.isNone_iff_eq_none, beq_iff_eq] at yes
  exact h q hq yes.1 yes.2.symm

theorem repointed_table_of {q : Nat} (hq : q ∈ ps) (hn : u.shallower q d = none) :
    (k.repointed u d link entry ps).table (tableIndex q) = entry := by
  refine if_pos (List.any_eq_true.2 ⟨q, hq, ?_⟩)
  rw [hn]
  exact (Bool.true_and _).trans (beq_self_eq_true _)

end

/-! ### A node whose list changes -/

/-- The list of the node `(d, g)` is another one; what follows it stays. -/
structure NodeChange (u v : State) (d g : Nat) : Prop where
  params : v.params = u.params
  depth : d < 6
  group : g < 2 ^ (5 - d)
  others : ∀ n, n ≠ node d g → v.list n = u.list n

namespace NodeChange

variable {d g : Nat} (c : NodeChange u v d g)
include c

/-- A node of the path of a position outside the group, or of another depth. -/
theorem list_path {q d' : Nat} (hq : q < 32) (hd' : d' < 6) (h : d' = d → q / 2 ^ d ≠ g) :
    v.list (node d' (q / 2 ^ d')) = u.list (node d' (q / 2 ^ d')) := by
  refine c.others _ fun same => ?_
  obtain ⟨rfl, eq⟩ := node_inj hd' (path_lt hq hd') c.depth c.group same
  exact h rfl eq

/-- What follows a node at the depth `d` or below stays. -/
theorem hop_deeper {q a : Nat} (hq : q < 32) (ha : d < a) (ha6 : a ≤ 6) : v.hop q a = u.hop q a :=
  hop_congr ha6 fun d' h1 h2 => by rw [c.list_path hq h2 fun h => absurd h (by omega)]

/-- What follows a node outside the group stays. -/
theorem hop_outside {q a : Nat} (hq : q < 32) (ha6 : a ≤ 6) (out : q / 2 ^ d ≠ g) : v.hop q a = u.hop q a :=
  hop_congr ha6 fun d' _ h2 => by rw [c.list_path hq h2 fun _ => out]

/-- In the group, where no endpoint lies above the node: its first endpoint, or what follows it. -/
theorem hop_clear {q a : Nat} (inside : q / 2 ^ d = g) (ha : a ≤ d) (clear : u.clear q a d) :
    v.hop q a = (v.list (node d g)).head?.or (u.hop (g * 2 ^ d) (d + 1)) := by
  have hq := position_lt c.depth c.group inside
  have hd := c.depth
  have same : v.clear q a d := fun d' h1 h2 => by
    rw [c.list_path hq (by omega) fun h => absurd h (by omega)]
    exact clear d' h1 h2
  rw [hop_of_clear ha (by omega) same, hop_step hd, inside, c.hop_deeper hq (by omega) (by omega)]
  refine congrArg _ (hop_congr (by omega) fun d' h1 _ => ?_)
  rw [← inside, path_of_first (by omega)]

theorem hop_not_clear {q a : Nat} (hq : q < 32) (ha : a ≤ d) (h : ¬ u.clear q a d) : v.hop q a = u.hop q a := by
  have hd := c.depth
  exact hop_of_not_clear ha (by omega) (fun d' _ h2 => c.list_path hq (by omega) fun h => absurd h (by omega)) h

/-- The head of the list stays, and with it every pointer into it. -/
theorem sameHead (head : (v.list (node d g)).head? = (u.list (node d g)).head?) (tree : CanonicalTree u k)
    (table : k'.table = k.table) (old : ∀ e n, e ∈ u.list n → n ≠ node d g → k'.next e = k.next e)
    (chain : ChainTo u.params k'.next (edPointer u.params (u.hop (g * 2 ^ d) (d + 1))) (v.list (node d g))) :
    CanonicalTree v k' := by
  have heads : ∀ n, (v.list n).head? = (u.list n).head? := fun n => by
    by_cases hn : n = node d g
    · rw [hn, head]
    · rw [c.others n hn]
  have hop : ∀ q a, a ≤ 6 → v.hop q a = u.hop q a := fun q a ha => hop_congr ha fun d' _ _ => heads _
  refine ⟨fun i hi => ?_, fun d' hd' g' hg' => ?_⟩
  · rw [table, c.params, hop _ _ (by omega)]
    exact tree.entries i hi
  · rw [c.params, hop _ _ (by omega)]
    by_cases same : node d' g' = node d g
    · obtain ⟨rfl, rfl⟩ := node_inj hd' hg' c.depth c.group same
      exact chain
    · rw [c.others _ same]
      exact chainTo_congr (fun e he => old e _ he same) (tree.chains d' hd' g' hg')

/-- The first endpoint of the group's chain is now `o`, and the pointers into the chain are set to it. -/
theorem repointed {k₁ : Links} {o : Option Nat} (hu : u.apart) (tree : CanonicalTree u k)
    (first : (v.list (node d g)).head?.or (u.hop (g * 2 ^ d) (d + 1)) = o) (table : k₁.table = k.table)
    (old : ∀ e n, e ∈ u.list n → n ≠ node d g → k₁.next e = k.next e)
    (apart : ∀ e ∈ v.list (node d g), ∀ n, e ∈ u.list n → n = node d g)
    (chain : ChainTo u.params k₁.next (edPointer u.params (u.hop (g * 2 ^ d) (d + 1))) (v.list (node d g))) :
    CanonicalTree v (k₁.repointed u d (edPointer u.params o) (entryOf u.params o) (groupPositions d g)) := by
  have hd := c.depth
  -- the endpoints whose pointers are set
  have target : ∀ {q n : Nat}, q ∈ groupPositions d g → u.shallower q d = some n → ∃ d' < d,
      n = node d' (q / 2 ^ d') ∧ q / 2 ^ d = g ∧ (u.list n).getLastD 0 ∈ u.list n ∧ u.clear q (d' + 1) d := by
    intro q n hq hn
    obtain ⟨d', hd', eq, full, clear⟩ := shallower_some.1 hn
    exact ⟨d', hd', eq, mem_groupPositions.1 hq, getLastD_mem full, clear⟩
  refine ⟨fun i hi => ?_, fun d₁ hd₁ g₁ hg₁ => ?_⟩
  · obtain ⟨q, hq⟩ : ∃ q, q = bitrev 5 i := ⟨_, rfl⟩
    have index : tableIndex q = i := by rw [hq]; exact bitrev_bitrev i hi
    have hq32 : q < 32 := by rw [hq]; exact bitrev_lt 5 i
    have unique : ∀ q' ∈ groupPositions d g, tableIndex q' = i → q' = q := fun q' hm h => by
      rw [← bitrev_bitrev q' (position_lt hd c.group (mem_groupPositions.1 hm)), hq]
      exact congrArg (bitrev 5) h
    rw [c.params, ← hq]
    by_cases inside : q / 2 ^ d = g
    · have member := mem_groupPositions.2 inside
      by_cases clear : u.clear q 0 d
      · rw [c.hop_clear inside (Nat.zero_le d) clear, first, ← index]
        exact repointed_table_of member (shallower_none.2 clear)
      · rw [c.hop_not_clear hq32 (Nat.zero_le d) clear, repointed_table_of_not fun q' hm none h => ?_, table, hq]
        · exact tree.entries i hi
        · rw [unique q' hm h] at none
          exact clear (shallower_none.1 none)
    · rw [c.hop_outside hq32 (by omega) inside, repointed_table_of_not fun q' hm _ h => ?_, table, hq]
      · exact tree.entries i hi
      · rw [unique q' hm h] at hm
        exact inside (mem_groupPositions.1 hm)
  · rw [c.params]
    by_cases same : node d₁ g₁ = node d g
    · obtain ⟨rfl, rfl⟩ := node_inj hd₁ hg₁ hd c.group same
      rw [c.hop_deeper (first_lt hd hg₁) (Nat.lt_succ_self _) (by omega)]
      refine chainTo_congr (fun e he => repointed_next_of_not fun q hq n hn eq => ?_) chain
      obtain ⟨d', hd', rfl, inside, last, _⟩ := target hq hn
      rw [← eq] at last
      have hq32 := position_lt hd hg₁ inside
      have := (node_inj (by omega) (path_lt hq32 (by omega)) hd hg₁ (apart e he _ last)).1
      omega
    · rw [c.others _ same]
      obtain ⟨q₁, hq₁⟩ : ∃ q₁, q₁ = g₁ * 2 ^ d₁ := ⟨_, rfl⟩
      have hq32 : q₁ < 32 := by rw [hq₁]; exact first_lt hd₁ hg₁
      have chain₁ := tree.chains d₁ hd₁ g₁ hg₁
      rw [← hq₁] at chain₁ ⊢
      have keep : ∀ e ∈ u.list (node d₁ g₁), k₁.next e = k.next e := fun e he => old e _ he same
      -- a target in this list is its last endpoint, its node one that `g₁`'s positions lead to
      have own : ∀ {q n e : Nat}, q ∈ groupPositions d g → u.shallower q d = some n → e ∈ u.list (node d₁ g₁) →
          e = (u.list n).getLastD 0 → d₁ < d ∧ n = node d₁ g₁ ∧ q / 2 ^ d₁ = g₁ ∧ q / 2 ^ d = g ∧
            u.clear q (d₁ + 1) d := by
        intro q n e hq hn he eq
        obtain ⟨d', hd', rfl, inside, last, clear⟩ := target hq hn
        rw [← eq] at last
        have node := hu.unique last he
        obtain ⟨rfl, path⟩ := node_inj (by omega) (path_lt (position_lt hd c.group inside) (by omega)) hd₁ hg₁ node
        exact ⟨hd', node, path, inside, clear⟩
      have toFirst : ∀ {q}, q / 2 ^ d₁ = g₁ → ∀ d', d₁ ≤ d' → q₁ / 2 ^ d' = q / 2 ^ d' := fun path d' h => by
        rw [hq₁, ← path, path_of_first h]
      by_cases pointed : d₁ < d ∧ q₁ / 2 ^ d = g ∧ u.clear q₁ (d₁ + 1) d
      · obtain ⟨above, inside, clear⟩ := pointed
        rw [c.hop_clear inside above clear, first]
        rcases List.eq_nil_or_concat' (u.list (node d₁ g₁)) with empty | ⟨front, y, full⟩
        · rw [empty]
          trivial
        · have path : q₁ / 2 ^ d₁ = g₁ := by rw [hq₁]; exact first_div d₁ g₁
          have last : (u.list (node d₁ g₁)).getLastD 0 = y := by simp [full]
          have once := hu.once (node d₁ g₁)
          have here : u.shallower q₁ d = some (node d₁ g₁) :=
            shallower_some.2 ⟨d₁, above, by rw [path], by simp [full], clear⟩
          have set := repointed_next_of (k := k₁) (link := edPointer u.params o) (entry := entryOf u.params o)
            (mem_groupPositions.2 inside) here
          rw [last] at set
          rw [full] at chain₁ once keep ⊢
          refine chainTo_relast (chainTo_congr keep chain₁) (fun e he => ?_) set
          refine repointed_next_of_not fun q hq n hn eq => ?_
          obtain ⟨_, node, _⟩ := own hq hn (by rw [full]; exact List.mem_append_left _ he) eq
          rw [node, last] at eq
          exact (List.nodup_append.1 once).2.2 e he y (List.mem_singleton_self y) eq
      · have after : v.hop q₁ (d₁ + 1) = u.hop q₁ (d₁ + 1) := by
          by_cases above : d₁ < d
          · by_cases inside : q₁ / 2 ^ d = g
            · exact c.hop_not_clear hq32 above fun clear => pointed ⟨above, inside, clear⟩
            · exact c.hop_outside hq32 (by omega) inside
          · exact c.hop_deeper hq32 (by omega) (by omega)
        rw [after]
        refine chainTo_congr (fun e he => (repointed_next_of_not fun q hq n hn eq => ?_).trans (keep e he)) chain₁
        obtain ⟨above, _, path, inside, clear⟩ := own hq hn he eq
        refine pointed ⟨above, by rw [toFirst path d above.le, inside], fun d' h1 h2 => ?_⟩
        rw [toFirst path d' (by omega)]
        exact clear d' h1 h2

end NodeChange

/-! ### Both layouts, where they are asked for -/

/-- The canonical tree where `T` holds, and the canonical class lists of `C`. -/
structure Laid (T : Prop) (C : Nat → Prop) (u : State) (k : Links) : Prop where
  tree : T → CanonicalTree u k
  classes : ∀ j, j = 63 ∨ j = 64 → C j → CanonicalClass u k j

theorem CanonicalTree.frame (h : CanonicalTree u k) (hp : v.params = u.params) (hl : ∀ n < 63, v.list n = u.list n)
    (table : k'.table = k.table) (next : ∀ n < 63, ∀ e ∈ u.list n, k'.next e = k.next e) : CanonicalTree v k' := by
  have hop : ∀ q a, q < 32 → a ≤ 6 → v.hop q a = u.hop q a := fun q a hq ha => hop_congr ha fun d' _ h2 => by
    rw [hl _ (node_lt h2 (path_lt hq h2))]
  refine ⟨fun i hi => ?_, fun d hd g hg => ?_⟩
  · rw [table, hp, hop _ _ (bitrev_lt 5 i) (by omega)]
    exact h.entries i hi
  · rw [hp, hop _ _ (first_lt hd hg) (by omega), hl _ (node_lt hd hg)]
    exact chainTo_congr (next _ (node_lt hd hg)) (h.chains d hd g hg)

theorem CanonicalClass.frame {j : Nat} (h : CanonicalClass u k j) (hp : v.params = u.params) (hl : v.list j = u.list j)
    (head : k'.head j = k.head j) (next : ∀ e ∈ u.list j, k'.next e = k.next e) : CanonicalClass v k' j := by
  refine ⟨by rw [head, hp, hl]; exact h.head, ?_⟩
  rw [hp, hl]
  exact chainTo_congr next h.chain

section
variable {T : Prop} {C : Nat → Prop}

theorem Laid.frame (h : Laid T C u k) (hp : v.params = u.params) (hl : ∀ n, v.list n = u.list n)
    (table : k'.table = k.table) (head : k'.head = k.head) (next : ∀ n, ∀ e ∈ u.list n, k'.next e = k.next e) :
    Laid T C v k' :=
  ⟨fun yes => (h.tree yes).frame hp (fun n _ => hl n) table fun n _ => next n,
    fun j hj yes => (h.classes j hj yes).frame hp (hl j) (by rw [head]) (next j)⟩

theorem setNext_ne {e x : Nat} {w : Word} (h : e ≠ x) : (k.setNext x w).next e = k.next e := Function.update_of_ne h ..

theorem setNext_self {x : Nat} {w : Word} : (k.setNext x w).next x = w := Function.update_self ..

theorem setHead_self {j : Nat} {w : Word} : (k.setHead j w).head j = w := if_pos Iff.rfl

theorem setHead_other {j j' : Nat} {w : Word} (hj : j = 63 ∨ j = 64) (hj' : j' = 63 ∨ j' = 64) (h : j' ≠ j) :
    (k.setHead j w).head j' = k.head j' := if_neg (by omega)

/-! ### Appending -/

theorem appended_links_table (j x : Nat) : (k.appended u j x).table = k.table := by
  rw [Links.appended]
  split <;> rfl

theorem appended_links_next {j x e : Nat} (h : e ∉ u.list j) : (k.appended u j x).next e = k.next e := by
  rw [Links.appended]
  split
  · rfl
  · rename_i last hl
    exact setNext_ne fun same => h (same ▸ List.mem_of_getLast? hl)

theorem appended_links_head {j j' x : Nat} (hj : j = 63 ∨ j = 64) (hj' : j' = 63 ∨ j' = 64) (h : j' ≠ j) :
    (k.appended u j x).head j' = k.head j' := by
  rw [Links.appended]
  split
  · exact setHead_other hj hj' h
  · rfl

/-- Appending to a class list (40_endpoint.md R212, R213). -/
theorem laid_appended {j x : Nat} (hu : u.apart) (hj : j = 63 ∨ j = 64) (fresh : ∀ n, x ∉ u.list n)
    (zero : k.next x = 0#32) (h : Laid T C u k) : Laid T C (u.appended j x) (k.appended u j x) := by
  have other : ∀ n, n ≠ j → ∀ e ∈ u.list n, (k.appended u j x).next e = k.next e := fun n hn e he =>
    appended_links_next fun he' => hn (hu.unique he he')
  refine ⟨fun yes => (h.tree yes).frame rfl (fun n hn => appended_list_ne (by omega) x) (appended_links_table j x)
    fun n hn => other n (by omega), fun j' hj' yes => ?_⟩
  by_cases same : j' = j
  · subst same
    have class_ := h.classes j' hj' yes
    rcases List.eq_nil_or_concat' (u.list j') with empty | ⟨front, last, full⟩
    · have links : k.appended u j' x = k.setHead j' (edAddr u.params x) := by simp [Links.appended, empty]
      rw [links]
      refine ⟨?_, ?_⟩
      · rw [appended_list_self, empty, setHead_self]
        rfl
      · rw [appended_list_self, empty]
        exact ⟨zero, trivial⟩
    · have links : k.appended u j' x = k.setNext last (edAddr u.params x) := by simp [Links.appended, full]
      have once := hu.once j'
      rw [full] at once
      have apart : ∀ e ∈ front, e ≠ last := fun e he =>
        (List.nodup_append.1 once).2.2 e he last (List.mem_singleton_self last)
      have ne : x ≠ last := fun same => fresh j' (by simp [full, same])
      rw [links]
      refine ⟨?_, ?_⟩
      · rw [appended_list_self]
        refine class_.head.trans ?_
        rw [full]
        cases front <;> rfl
      · rw [appended_list_self]
        have chain := class_.chain
        rw [full] at chain ⊢
        exact chainTo_append.2 ⟨chainTo_relast chain (fun e he => setNext_ne (apart e he)) setNext_self,
          (setNext_ne ne).trans zero, trivial⟩
  · exact (h.classes j' hj' yes).frame rfl (appended_list_ne same x) (appended_links_head hj hj' same)
      (other j' same)

/-- The pointers into a group's chain are the last endpoints' of nodes of the tree. -/
theorem repointed_next_class {d g e j : Nat} {link entry : Word} (hu : u.apart) (hd : d < 6) (hg : g < 2 ^ (5 - d))
    (hj : j = 63 ∨ j = 64) (he : e ∈ u.list j) :
    (k.repointed u d link entry (groupPositions d g)).next e = k.next e := by
  refine repointed_next_of_not fun q hq n hn eq => ?_
  obtain ⟨d', hd', rfl, full, _⟩ := shallower_some.1 hn
  have last := getLastD_mem full
  rw [← eq] at last
  have := hu.unique he last
  have := node_lt (show d' < 6 by omega) (path_lt (position_lt hd hg (mem_groupPositions.1 hq)) (by omega))
  omega

/-- Appending to a node of the tree (41_scheduler.md R256, R258). -/
theorem laid_inserted {x d g : Nat} (hu : u.apart) (hd : d < 6) (hg : g < 2 ^ (5 - d)) (fresh : ∀ n, x ∉ u.list n)
    (h : Laid T C u k) : Laid T C (u.appended (node d g) x) (k.inserted u x d g) := by
  have ne : ∀ {e n}, e ∈ u.list n → e ≠ x := fun he same => fresh _ (same ▸ he)
  have change : NodeChange u (u.appended (node d g) x) d g := ⟨rfl, hd, hg, fun n hn => appended_list_ne hn x⟩
  rcases List.eq_nil_or_concat' (u.list (node d g)) with empty | ⟨front, last, full⟩
  · have links : k.inserted u x d g = (k.setNext x (edPointer u.params (u.hop (g * 2 ^ d) (d + 1)))).repointed u d
        (edPointer u.params (some x)) (entryOf u.params (some x)) (groupPositions d g) := by
      simp [Links.inserted, empty, edPointer, entryOf]
    have alone : (u.appended (node d g) x).list (node d g) = [x] := by rw [appended_list_self, empty]; rfl
    rw [links]
    refine ⟨fun yes => change.repointed hu (h.tree yes) (by rw [alone]; rfl) rfl (fun e n he _ => setNext_ne (ne he))
      (fun e he n he' => ?_) ?_, fun j hj yes => (h.classes j hj yes).frame rfl
        (appended_list_ne (by have := node_lt hd hg; omega) x) rfl fun e he => ?_⟩
    · rw [alone] at he
      exact absurd (List.mem_singleton.1 he) (ne he')
    · rw [alone]
      exact ⟨setNext_self, trivial⟩
    · exact (repointed_next_class hu hd hg hj he).trans (setNext_ne (ne he))
  · have links : k.inserted u x d g = (k.setNext x (edPointer u.params (u.hop (g * 2 ^ d) (d + 1)))).setNext last
        (edAddr u.params x) := by simp [Links.inserted, full]
    have lastMem : last ∈ u.list (node d g) := by simp [full]
    have once := hu.once (node d g)
    rw [full] at once
    have apart : ∀ e ∈ front, e ≠ last := fun e he =>
      (List.nodup_append.1 once).2.2 e he last (List.mem_singleton_self last)
    have kept : ∀ e n, e ∈ u.list n → n ≠ node d g → (k.inserted u x d g).next e = k.next e := fun e n he hn => by
      have neLast : e ≠ last := by
        rintro rfl
        exact hn (hu.unique he lastMem)
      rw [links, setNext_ne neLast, setNext_ne (ne he)]
    refine ⟨fun yes => change.sameHead ?_ (h.tree yes) (by rw [links]; rfl) kept ?_, fun j hj yes =>
      (h.classes j hj yes).frame rfl (appended_list_ne (by have := node_lt hd hg; omega) x) (by rw [links]; rfl)
        fun e he => kept e j he (by have := node_lt hd hg; omega)⟩
    · rw [appended_list_self, full]
      cases front <;> rfl
    · have chain := (h.tree yes).chains d hd g hg
      rw [appended_list_self, links]
      rw [full] at chain ⊢
      refine chainTo_append.2 ⟨chainTo_relast chain (fun e he => ?_) setNext_self, ?_, trivial⟩
      · rw [setNext_ne (apart e he), setNext_ne (ne (n := node d g) (by simp [full, he]))]
      · rw [setNext_ne (ne lastMem).symm, setNext_self]
        rfl

/-! ### Taking off -/

/-- An endpoint found in a list splits it. -/
theorem idxOf_split {l : List Nat} {x i : Nat} (h : l.idxOf? x = some i) :
    ∃ a b, l = a ++ x :: b ∧ l.erase x = a ++ b ∧ a.length = i := by
  induction l generalizing i with
  | nil => cases h
  | cons y l ih =>
    rw [List.idxOf?_cons] at h
    split at h
    · rename_i same
      cases h
      have same := eq_of_beq same
      subst same
      exact ⟨[], l, rfl, by simp, rfl⟩
    · rename_i ne
      obtain ⟨i', h', rfl⟩ := Option.map_eq_some_iff.1 h
      obtain ⟨a, b, rfl, erase, len⟩ := ih h'
      exact ⟨y :: a, b, rfl, by rw [List.erase_cons_tail ne, erase]; rfl, by rw [List.length_cons, len]⟩

/-- In a list without repetitions what is not at a place differs from what is. -/
theorem ne_of_nodup_split {front b : List Nat} {x y : Nat} (once : (front ++ [y] ++ x :: b).Nodup) :
    ∀ e ∈ front ++ b, e ≠ y := by
  rintro e he rfl
  rw [List.append_assoc, List.nodup_append] at once
  obtain ⟨_, rest, apart⟩ := once
  rcases List.mem_append.1 he with he | he
  · exact apart e he e (by simp) rfl
  · exact (List.nodup_cons.1 rest).1 (by simp [he])

theorem setList_next_unlinked {j i e : Nat} (he : e ∉ u.list j) (hi : i ≤ (u.list j).length) :
    (k.unlinked u j i).next e = k.next e := by
  unfold Links.unlinked
  split
  · rfl
  · rename_i later
    refine setNext_ne fun same => he ?_
    rw [same, List.getD_eq_getElem _ _ (by omega)]
    exact List.getElem_mem _

/-- Taking an endpoint off a class list (40_endpoint.md R213, R214). -/
theorem laid_unlinked {j x i : Nat} (hu : u.apart) (hj : j = 63 ∨ j = 64) (hi : (u.list j).idxOf? x = some i)
    (h : Laid T C u k) : Laid T C (u.setList j ((u.list j).erase x)) (k.unlinked u j i) := by
  obtain ⟨a, b, full, erase, len⟩ := idxOf_split hi
  have bound : i ≤ (u.list j).length := by rw [full, List.length_append, len]; omega
  have other : ∀ n, n ≠ j → ∀ e ∈ u.list n, (k.unlinked u j i).next e = k.next e := fun n hn e he =>
    setList_next_unlinked (fun he' => hn (hu.unique he he')) bound
  have table : (k.unlinked u j i).table = k.table := by
    unfold Links.unlinked
    split <;> rfl
  refine ⟨fun yes => (h.tree yes).frame rfl (fun n hn => setList_list_ne u (by omega) _) table
    fun n hn => other n (by omega), fun j' hj' yes => ?_⟩
  by_cases same : j' = j
  · subst same
    have class_ := h.classes j' hj' yes
    have succ : (u.list j')[i + 1]? = b.head? := by
      rw [full, ← len, List.getElem?_append_right (by omega)]
      simp [List.head?_eq_getElem?]
    have once := hu.once j'
    have chain := class_.chain
    have head := class_.head
    rw [full] at once chain head
    rcases List.eq_nil_or_concat' a with rfl | ⟨front, y, rfl⟩
    · have links : k.unlinked u j' i = k.setHead j' (edPointer u.params b.head?) := by
        have first : i = 0 := by rw [← len]; rfl
        simp only [Links.unlinked, succ, if_pos first]
      rw [links]
      refine ⟨?_, ?_⟩
      · rw [setList_list_self, erase, setHead_self]
        rfl
      · rw [setList_list_self, erase]
        exact chain.2
    · have later : i ≠ 0 := by
        rw [← len]
        simp
      have before : (u.list j').getD (i - 1) 0 = y := by
        rw [full, ← len]
        simp [List.getD_eq_getElem?_getD]
      have links : k.unlinked u j' i = k.setNext y (edPointer u.params b.head?) := by
        simp only [Links.unlinked, succ, before, if_neg later]
      have apart := ne_of_nodup_split once
      rw [links]
      refine ⟨?_, ?_⟩
      · rw [setList_list_self, erase]
        refine head.trans ?_
        cases front <;> rfl
      · rw [setList_list_self, erase]
        obtain ⟨first, rest⟩ := chainTo_append.1 chain
        refine chainTo_append.2 ⟨chainTo_relast first (fun e he => setNext_ne (apart e (List.mem_append_left _ he))) ?_,
          chainTo_congr (fun e he => setNext_ne (apart e (List.mem_append_right _ he))) rest.2⟩
        rw [setNext_self]
        cases b <;> rfl
  · refine (h.classes j' hj' yes).frame rfl (setList_list_ne u same _) ?_ (other j' same)
    unfold Links.unlinked
    split
    · exact setHead_other hj hj' same
    · rfl

/-- A successor is an endpoint of some list. -/
theorem successor_valid {d g i e : Nat} (hu : u.apart) (h : some e = u.successor d g i) : e < u.params.ned := by
  unfold State.successor at h
  split at h
  · rename_i nx hn
    cases h
    exact hu.valid (List.mem_of_getElem? hn)
  · obtain ⟨d', _, hd'⟩ := List.exists_of_findSome?_eq_some h.symm
    exact hu.valid (List.mem_of_head? hd')

/-- Taking an endpoint off a node of the tree (41_scheduler.md R258, R259). -/
theorem laid_removed {x d g i : Nat} (hu : u.apart) (hd : d < 6) (hg : g < 2 ^ (5 - d))
    (hi : (u.list (node d g)).idxOf? x = some i) (noZero : ∀ e < u.params.ned, edAddr u.params e ≠ 0#32 ∨ ¬ T)
    (h : Laid T C u k) : Laid T C (u.setList (node d g) ((u.list (node d g)).erase x)) (k.removed u d g i) := by
  obtain ⟨a, b, full, erase, len⟩ := idxOf_split hi
  have change : NodeChange u (u.setList (node d g) ((u.list (node d g)).erase x)) d g :=
    ⟨rfl, hd, hg, fun n hn => setList_list_ne u hn _⟩
  have list : (u.setList (node d g) ((u.list (node d g)).erase x)).list (node d g) = a ++ b := by
    rw [setList_list_self, erase]
  have succ : u.successor d g i = b.head?.or (u.hop (g * 2 ^ d) (d + 1)) := by
    have next : (u.list (node d g))[i + 1]? = b.head? := by
      rw [full, ← len, List.getElem?_append_right (by omega)]
      simp [List.head?_eq_getElem?]
    rw [State.successor, next]
    cases b.head? <;> rfl
  have high := node_lt hd hg
  have once := hu.once (node d g)
  rw [full] at once
  rcases List.eq_nil_or_concat' a with rfl | ⟨front, y, rfl⟩
  · obtain ⟨o, ho⟩ : ∃ o, o = u.successor d g i := ⟨_, rfl⟩
    have links : k.removed u d g i = k.repointed u d (edPointer u.params o) (tablePointer u.params (edPointer u.params o))
        (groupPositions d g) := by
      have first : ¬ 0 < i := by rw [← len]; simp
      simp only [Links.removed, if_neg first, ← ho]
    rw [links]
    refine ⟨fun yes => ?_, fun j hj yes => (h.classes j hj yes).frame rfl (setList_list_ne u (by omega) _) rfl
      fun e he => repointed_next_class hu hd hg hj he⟩
    have entry : tablePointer u.params (edPointer u.params o) = entryOf u.params o := by
      cases o with
      | none => rfl
      | some e =>
        have valid : e < u.params.ned := successor_valid hu ho
        exact if_neg ((noZero e valid).resolve_right (not_not.2 yes))
    rw [entry]
    have chain := (h.tree yes).chains d hd g hg
    rw [full] at chain
    refine change.repointed hu (h.tree yes) (by rw [list, ho, succ]; rfl) rfl (fun _ _ _ _ => rfl) (fun e he n he' => ?_) ?_
    · rw [list] at he
      exact hu.unique he' (by rw [full]; simp [show e ∈ b from he])
    · rw [list]
      exact chain.2
  · have later : 0 < i := by
      rw [← len]
      simp
    have before : (u.list (node d g)).getD (i - 1) 0 = y := by
      rw [full, ← len]
      simp [List.getD_eq_getElem?_getD]
    have links : k.removed u d g i = k.setNext y (edPointer u.params (u.successor d g i)) := by
      simp only [Links.removed, before, if_pos later]
    have mem : y ∈ u.list (node d g) := by simp [full]
    have apart := ne_of_nodup_split once
    have kept : ∀ e n, e ∈ u.list n → n ≠ node d g → (k.removed u d g i).next e = k.next e := fun e n he hn => by
      have ne : e ≠ y := by
        rintro rfl
        exact hn (hu.unique he mem)
      rw [links, setNext_ne ne]
    refine ⟨fun yes => change.sameHead ?_ (h.tree yes) (by rw [links]; rfl) kept ?_, fun j hj yes =>
      (h.classes j hj yes).frame rfl (setList_list_ne u (by omega) _) (by rw [links]; rfl)
        fun e he => kept e j he (by omega)⟩
    · rw [list, full]
      cases front <;> rfl
    · have chain := (h.tree yes).chains d hd g hg
      rw [full] at chain
      rw [list, links]
      obtain ⟨first, rest⟩ := chainTo_append.1 chain
      refine chainTo_append.2 ⟨chainTo_relast first (fun e he => setNext_ne (apart e (List.mem_append_left _ he))) ?_,
        chainTo_congr (fun e he => setNext_ne (apart e (List.mem_append_right _ he))) rest.2⟩
      rw [setNext_self, succ]
      cases b <;> rfl

end

end Sys2Proof.Machine
end

section
/-! SUPPORT. Opening and closing an endpoint, at once or after the wait, keep the canonical layouts while no other agent
moves (40_endpoint.md R200 to R214, 41_scheduler.md R256 to R260, 10_state.md R42 (f)). -/

namespace Sys2Proof.Machine

variable {α : Type} {T : Prop} {C : Nat → Prop} {p : Params} {st : Word} {u v s t : State} {k k' : Links}

/-! ### The layouts of a state -/

/-- Memory holds canonical layouts of the lists; the parameters are `p`, and the HC has raised `st`. -/
def Kept (T : Prop) (C : Nat → Prop) (p : Params) (st : Word) (s : State) : Prop :=
  ∃ v k, Wired T v k [] s ∧ Laid T C v k ∧ (∀ n, ∀ e ∈ v.list n, e < v.params.ned) ∧ v.params = p ∧ k.status = st

theorem Kept.update (h : Kept T C p st s) (ht : SameTables s t) (hs : t.sched = s.sched) (hm : t.mem = s.mem)
    (hc : t.cache = s.cache) (hh : t.hc = s.hc) : Kept T C p st t := by
  obtain ⟨v, k, wired, rest⟩ := h
  exact ⟨v, k, wired.update ht hs hm hc hh, rest⟩

/-- A change of tables that no list depends on. -/
theorem Kept.retable (wired : Wired T u k [] s) (laid : Laid T C u k) (valid : ∀ n, ∀ e ∈ u.list n, e < u.params.ned)
    (ht : SameTables v t) (hp : v.params = u.params) (hl : ∀ n, v.list n = u.list n) (hs : t.sched = s.sched)
    (hm : t.mem = s.mem) (hc : t.cache = s.cache) (hh : t.hc = s.hc) : Kept T C u.params k.status t :=
  ⟨v, k, wired.retable ht hp hs hm hc hh, laid.frame hp hl rfl rfl fun _ _ _ => rfl,
    fun n e he => by rw [hp]; exact valid n e (by rwa [hl] at he), hp, rfl⟩

theorem kept_finish {c : Cmd Results} (run : Goes (fun _ => Kept T C p st) (Kept T C p st) (Kept T C p st) c s)
    (e : finish (c s) = .next t) : Kept T C p st t := by
  unfold Goes at run
  generalize c s = r at run e
  cases r with
  | ok v s =>
    cases e
    exact Kept.update run .other rfl rfl rfl rfl
  | error stp s =>
    cases stp with
    | err c =>
      cases e
      exact Kept.update run .other rfl rfl rfl rfl
    | gone =>
      cases e
      exact run
    | stuck f => cases e

/-- The links as memory holds them. -/
def State.links (s : State) : Links where
  next e := s.physRead (edNextAddr s.params e)
  table i := s.physRead (tableAddr s.params i)
  head j := s.hc.classHead j
  status := s.hc.interruptStatus

/-- The block sees the table byte by byte, or word by word. -/
theorem tableSeen_iff (g : s.params.Good) :
    s.tableSeen = true ↔ ∀ i < 32, s.cacheLoad (tableAddr s.params i) = s.physRead (tableAddr s.params i) := by
  simp only [State.tableSeen, List.all_eq_true, List.mem_range, beq_iff_eq]
  constructor
  · intro h i hi
    refine cacheLoad_of_view g (table_aligned g hi) fun x h1 h2 => ?_
    rw [g.tableAddr_toNat (by omega)] at h1 h2
    have := h (x - s.params.hccaBase) (by omega)
    rwa [Nat.add_sub_cancel' (by omega)] at this
  · intro h b hb
    have hi : b / 4 < 32 := by omega
    refine (bytes_of_words g (table_aligned g hi) (h (b / 4) hi).symm ?_).symm
    rw [g.tableAddr_toNat (by omega)]
    omega

theorem wired_links (g : s.params.Good) (alone : s.sched = []) (seen : T → s.tableSeen = true) :
    Wired T s s.links [] s where
  toSameTables := .refl s
  alone := alone
  next _ _ := rfl
  seen _ he := nomatch he
  table yes i hi := ⟨rfl, (tableSeen_iff g).1 (seen yes) i hi⟩
  head _ := rfl
  status := rfl

theorem Wired.listed {xs : List Nat} (h : Wired T u k xs s) (valid : ∀ n, ∀ e ∈ u.list n, e < u.params.ned) :
    ∀ n, ∀ e ∈ s.list n, e < u.params.ned := fun n e he => valid n e (by rwa [h.list] at he)

theorem classLayout_iff {xs : List Nat} {j : Nat} (h : Wired T u k xs s)
    (valid : ∀ n, ∀ e ∈ u.list n, e < u.params.ned) : s.classLayout j = true ↔ CanonicalClass u k j := by
  simp only [State.classLayout, Bool.and_eq_true, beq_iff_eq, h.head, h.params, h.list,
    chained_iff h (valid j)]
  exact ⟨fun ⟨a, b⟩ => ⟨a, b⟩, fun ⟨a, b⟩ => ⟨a, b⟩⟩

theorem treeLayout_iff {xs : List Nat} (h : Wired T u k xs s) (yes : T)
    (valid : ∀ n, ∀ e ∈ u.list n, e < u.params.ned) : s.treeLayout = true ↔ CanonicalTree u k := by
  simp only [State.treeLayout, Bool.and_eq_true, List.all_eq_true, List.mem_range, beq_iff_eq, h.params, h.hop,
    h.list, chained_iff h (valid _)]
  refine ⟨fun ⟨a, b⟩ => ⟨fun i hi => ?_, fun d hd g hg => b d hd g hg⟩, fun ⟨a, b⟩ => ⟨fun i hi => ?_, b⟩⟩
  · rw [← (h.table yes i hi).1]
    exact a i hi
  · rw [(h.table yes i hi).1]
    exact a i hi

/-! ### Opening -/

section
variable {E G : State → Prop} (g : u.params.Good) (hu : u.apart)
include g hu

/-- A new endpoint linked into a list, or rejected. -/
theorem goes_linkEndpoint_kept {e : Nat} (wired : Wired T u k [] s) (laid : Laid T C u k) (he : e < u.params.ned)
    (fresh : ∀ n, e ∉ u.list n) (zero : k.next e = 0#32) (depth : (u.ed e).depth ≤ 5) :
    Goes (fun b t => if b then Kept T C u.params k.status t else Wired T u k [] t) E G
      (linkEndpoint e (u.ed e).type) s := by
  have valid : ∀ {j}, ∀ n, ∀ x ∈ (u.appended j e).list n, x < (u.appended j e).params.ned := fun {j} n x hx => by
    by_cases hn : n = j
    · rw [hn, appended_list_self] at hx
      rcases List.mem_append.1 hx with hx | hx
      · exact hu.valid hx
      · rw [List.mem_singleton.1 hx]
        exact he
    · rw [appended_list_ne hn] at hx
      exact hu.valid hx
  have class_ : ∀ {j}, j = 63 ∨ j = 64 → Goes (fun b t => if b then Kept T C u.params k.status t else Wired T u k [] t) E G
      (do classInsert j e; return true) s := fun {j} hj =>
    goes_bind (wired.goes_classInsert g fun _ hx => hu.valid hx) fun _ _ h =>
      ⟨_, _, h, laid_appended hu hj fresh zero laid, valid, rfl, by
        rw [Links.appended]
        split <;> rfl⟩
  cases ty : (u.ed e).type with
  | control => exact class_ (.inl rfl)
  | bulk => exact class_ (.inr rfl)
  | interrupt =>
    refine goes_mono (wired.goes_periodicInsert g he fun _ _ hx => hu.valid hx) fun b t h => ?_
    split
    · rename_i yes
      rw [if_pos yes] at h
      obtain ⟨gr, hg, h⟩ := h
      refine ⟨_, _, h, laid_inserted hu (by omega) (placementGroup_lt hg) fresh laid, valid, rfl, ?_⟩
      rw [Links.inserted]
      split <;> rfl
    · rename_i no
      rwa [if_neg no] at h

end

theorem goes_edOpenBody_kept (g : u.params.Good) (hu : u.placed) (args : Args) (wired : Wired T u k [] s)
    (laid : Laid T C u k) :
    Goes (fun _ => Kept T C u.params k.status) (Kept T C u.params k.status) (Kept T C u.params k.status)
      (edOpenBody args) s := by
  have valid : ∀ n, ∀ e ∈ u.list n, e < u.params.ned := fun _ _ he => hu.apart.valid he
  have same : Kept T C u.params k.status s := ⟨u, k, wired, laid, valid, rfl, rfl⟩
  refine goes_ite (fun _ => goes_raise same) fun _ => ?_
  split
  · exact goes_raise same
  · rename_i ty _
    refine goes_read ?_
    split
    · rename_i e t he ht
      rw [wired.allocEd] at he
      rw [wired.allocTd] at ht
      obtain ⟨ned, free, _⟩ := allocEd_some he
      obtain ⟨ntd, _, _⟩ := allocTd_some ht
      obtain ⟨w, opened⟩ : ∃ w, w = openedEd u.params args.arg0 args.arg1 (args.arg2.extractLsb' 0 8).toNat ty t :=
        ⟨_, rfl⟩
      obtain ⟨_, type, _, _, depth⟩ :=
        openedEd_spec u.params args.arg0 args.arg1 (args.arg2.extractLsb' 0 8).toNat ty t
      rw [← opened] at type depth
      rw [wired.params]
      obtain ⟨v, hv⟩ : ∃ v, v = u.built e t w := ⟨_, rfl⟩
      have params : v.params = u.params := by rw [hv]; rfl
      have list : ∀ n, v.list n = u.list n := fun n => by rw [hv, built_list]
      have self : v.ed e = w := by rw [hv, built_ed_self]
      have good : v.params.Good := params ▸ g
      have fresh : ∀ n, e ∉ v.list n := fun n => by rw [list]; exact hu.notMem free n
      have apart : v.apart := hu.apart.congr params list
      have laid' : Laid T C v (k.setNext e 0#32) := laid.frame params list rfl rfl fun n x hx =>
        setNext_ne fun same => hu.notMem free n (same ▸ hx)
      refine goes_bind (Q := fun _ => Wired T v k []) (goes_modify ?_) fun _ _ h => ?_
      · exact wired.retable (hv ▸ opened ▸ wired.toSameTables.built e t _) params rfl rfl rfl rfl
      · rw [← params]
        refine goes_bind (h.goes_buildEndpoint good (by rwa [params]) (by rwa [params]) _) fun _ _ h => ?_
        have linked := goes_linkEndpoint_kept (E := Kept T C v.params k.status) (G := Kept T C v.params k.status) good apart h
          laid' (by rwa [params]) fresh setNext_self (by rwa [self])
        rw [self, type] at linked
        refine goes_bind linked fun b t' h => goes_ite (fun no => ?_) fun yes => ?_
        · rw [if_neg (by simpa using no)] at h
          refine goes_bind (Q := fun _ => Kept T C v.params k.status) (goes_modify ?_) fun _ _ h => goes_raise h
          refine Kept.retable (k := k.setNext e 0#32) h laid' (fun _ _ hx => apart.valid hx) (v := (v.freeTd t).freeEd e)
            ((h.toSameTables.freeTd t).freeEd e) ?_ (fun n => ?_) ?_ ?_ ?_ ?_
          · simp
          · simp
          · simp
          · simp
          · simp
          · simp
        · rw [if_pos (by simpa using yes)] at h
          exact goes_read (goes_pure h)
    · exact goes_raise same

/-! ### Closing -/

/-- An interrupt endpoint's slot is a node of its depth (10_state.md R42 (e)). -/
theorem slotSuits_interrupt {e : Nat} (h : u.slotSuits e = true) (ty : (u.ed e).type = .interrupt) :
    (u.ed e).depth < 6 ∧ ∃ gr < 2 ^ (5 - (u.ed e).depth), (u.ed e).slot = node (u.ed e).depth gr := by
  simp only [State.slotSuits, ty, Bool.and_eq_true, decide_eq_true_eq] at h
  obtain ⟨⟨depth, low⟩, high⟩ := h
  exact ⟨by omega, (u.ed e).slot - nodeBase (u.ed e).depth, by omega, by rw [node]; omega⟩

/-- With no ED at address 0 a pointer to an ED is none to the end of a list. -/
theorem edAddr_ne_zero (g : p.Good) (h : 0 < p.descBase) {e : Nat} (he : e < p.ned) : edAddr p e ≠ 0#32 := fun no => by
  have := congrArg BitVec.toNat no
  rw [g.edAddr_toNat he.le] at this
  simp only [BitVec.toNat_ofNat] at this
  omega

section
variable {E G : State → Prop} (g : u.params.Good) (hu : u.apart) (noZero : T → 0 < u.params.descBase)
include g hu noZero

/-- An endpoint unlinked: lists and links agree again, its tables otherwise as they were. -/
theorem goes_unlinkEndpoint_kept {e : Nat} (wired : Wired T u k [] s) (laid : Laid T C u k) (suits : u.slotSuits e = true) :
    Goes (fun _ t => ∃ j l k', l ⊆ u.list j ∧ Wired T (u.setList j l) k' [] t ∧ Laid T C (u.setList j l) k' ∧
      k'.status = k.status) E G (unlinkEndpoint e (u.ed e).type) s := by
  have class_ : ∀ {j}, j = 63 ∨ j = 64 → Goes (fun _ t => ∃ j l k', l ⊆ u.list j ∧ Wired T (u.setList j l) k' [] t ∧
      Laid T C (u.setList j l) k' ∧ k'.status = k.status) E G (classRemove j e) s := fun {j} hj =>
    goes_mono (wired.goes_classRemove g fun _ hx => hu.valid hx) fun _ _ ⟨i, hi, h⟩ =>
      ⟨j, _, _, List.erase_subset, h, laid_unlinked hu hj hi laid, by
        unfold Links.unlinked
        split <;> rfl⟩
  cases ty : (u.ed e).type with
  | control => exact class_ (.inl rfl)
  | bulk => exact class_ (.inr rfl)
  | interrupt =>
    obtain ⟨depth, gr, group, slot⟩ := slotSuits_interrupt suits ty
    refine goes_mono (wired.goes_periodicRemove g rfl slot fun _ _ hx => hu.valid hx) fun _ _ ⟨i, hi, h⟩ =>
      ⟨_, _, _, List.erase_subset, h, laid_removed hu depth group hi (fun e he => ?_) laid, ?_⟩
    · by_cases yes : T
      · exact .inl (edAddr_ne_zero g (noZero yes) he)
      · exact .inr yes
    · unfold Links.removed
      split <;> rfl

theorem goes_closeRest_kept {e : Nat} {q : Quiesced} (wired : Wired T u k [] s) (laid : Laid T C u k)
    (suits : u.slotSuits e = true) :
    Goes (fun _ => Kept T C u.params k.status) (Kept T C u.params k.status) G (closeRest e q) s := by
  have rest : Goes (fun _ => Kept T C u.params k.status) (Kept T C u.params k.status) G (do
      unlinkEndpoint e ((← get).ed e).type
      let s ← get
      let ts ← orStop .brokenQueue (s.queue e)
      let all := ts ++ [(s.ed e).tail]
      set ((s.freeTds all).freeEd e)
      return { res0 := all.length } : Cmd Results) s := by
    refine goes_read ?_
    rw [wired.ed]
    refine goes_bind (goes_unlinkEndpoint_kept g hu noZero wired laid suits) fun _ s ⟨j, l, k', sub, wired, laid, status⟩ =>
      goes_read (goes_bind (Q := fun _ t => t = s) (goes_orStop fun _ _ => rfl) ?_)
    rintro ts s rfl
    refine goes_bind (Q := fun _ => Kept T C u.params k.status) (goes_set ?_) fun _ _ h => goes_pure h
    rw [← status]
    refine Kept.retable (u := u.setList j l) wired laid (fun n x hx => ?_)
      (v := ((u.setList j l).freeTds (ts ++ [(s.ed e).tail])).freeEd e)
      ((wired.toSameTables.freeTds _).freeEd e) ?_ (fun n => ?_) ?_ ?_ ?_ ?_
    · by_cases hn : n = j
      · rw [hn, setList_list_self] at hx
        exact hu.valid (sub hx)
      · rw [setList_list_ne u hn] at hx
        exact hu.valid hx
    · rw [freeEd_params, freeTds_params]
    · rw [freeEd_list, freeTds_list]
    · rw [freeTds_frame]
      rfl
    · rw [freeTds_frame]
      rfl
    · rw [freeTds_frame]
      rfl
    · rw [freeTds_frame]
      rfl
  exact goes_ite (fun _ => goes_bind (Q := fun _ _ => False)
    (goes_raise ⟨u, k, wired, laid, fun _ _ hx => hu.valid hx, rfl, rfl⟩) fun _ _ no => no.elim) fun _ => rest

end

theorem goes_checkEd_kept {E G : State → Prop} (e : Nat) (wired : Wired T u k [] s) (hE : E s) :
    Goes (fun _ t => Wired T u k [] t ∧ u.validEd e = true) E G (checkEd e) s :=
  goes_read (goes_ite (fun yes => goes_pure ⟨wired, by rwa [wired.validEd] at yes⟩) fun _ => goes_raise hE)

theorem goes_commonChecks_kept {E G : State → Prop} (i : Instr) (wired : Wired T u k [] s) (hE : E s) :
    Goes (fun _ => Wired T u k []) E G (commonChecks i) s := by
  have context : Goes (fun _ => Wired T u k []) E G
      (if blocking i && i.ctx == .interrupt then raise .context else pure () : Cmd Unit) s :=
    goes_ite (fun _ => goes_raise hE) fun _ => goes_pure wired
  exact goes_read (goes_ite (fun _ => context) fun _ => goes_bind (Q := fun _ _ => False) (goes_raise hE)
    fun _ _ no => no.elim)

theorem lt_of_validEd {e : Nat} (h : u.validEd e = true) : e < u.params.ned := by
  simp only [State.validEd, Bool.and_eq_true, decide_eq_true_eq] at h
  exact h.1

/-! ### A run that opens or closes -/

/-- What opening and closing need of the tables. -/
structure Settled (T : Prop) (s : State) : Prop where
  alone : s.sched = []
  legal : s.params.legal = true
  placed : s.placed
  suits : s.slotsSuit
  noZero : T → 0 < s.params.descBase
  seen : T → s.tableSeen = true

section
variable (h : Settled T s)
include h

theorem Settled.good : s.params.Good := Params.legal_good h.legal

theorem Settled.wired : Wired T s s.links [] s := wired_links h.good h.alone h.seen

theorem Settled.kept (laid : Laid T C s s.links) : Kept T C s.params s.links.status s :=
  ⟨s, s.links, h.wired, laid, fun _ _ he => h.placed.apart.valid he, rfl, rfl⟩

theorem kept_open {i : Instr} (idle : s.seq = .idle) (laid : Laid T C s s.links)
    (hi : (∃ ctx, i = .edOpen ctx) ∨ ∃ ctx e, i = .edClose ctx e) (e : exec i s = .next t) :
    Kept T C s.params s.links.status t := by
  rw [exec_quiet idle h.alone] at e
  have begun : Wired T s s.links [] (s.begun (encode i)) := h.wired.update .other rfl rfl rfl rfl
  have same : ∀ {t}, Wired T s s.links [] t → Kept T C s.params s.links.status t := fun w =>
    ⟨s, s.links, w, laid, fun _ _ he => h.placed.apart.valid he, rfl, rfl⟩
  refine kept_finish (goes_bind (goes_commonChecks_kept i begun (same begun)) fun _ _ w => ?_) e
  rcases hi with ⟨ctx, rfl⟩ | ⟨ctx, ed, rfl⟩
  · exact goes_edOpenBody_kept h.good h.placed _ w laid
  · refine goes_bind (goes_checkEd_kept ed w (same w)) fun _ _ ⟨w, valid⟩ =>
      goes_bind (w.goes_quiesce h.good (fun _ w => same w) (lt_of_validEd valid) _) fun q _ w =>
        goes_closeRest_kept h.good h.placed.apart h.noZero w laid (h.suits ed (alloc_of_validEd valid))

theorem kept_close {run : Running} {w r e : Nat} {f0 : BitVec 16} (seq : s.seq = .wait run w f0 r (.close e))
    (valid : s.validEd e = true) (laid : Laid T C s s.links) (next : step s = .next t) :
    Kept T C s.params s.links.status t := by
  have same : ∀ {t}, Wired T s s.links [] t → Kept T C s.params s.links.status t := fun w =>
    ⟨s, s.links, w, laid, fun _ _ he => h.placed.apart.valid he, rfl, rfl⟩
  have run : step s = continueWait f0 r (.close e) s := by rw [step, seq]
  rw [run] at next
  exact kept_finish (goes_bind (h.wired.goes_waitFrom (fun _ w => same w) f0 r) fun q _ w =>
    goes_closeRest_kept h.good h.placed.apart h.noZero w laid (h.suits e (alloc_of_validEd valid))) next

end

/-- The two ways in which the obligations have an endpoint opened or closed. -/
theorem kept_either (h : Settled T s) (laid : Laid T C s s.links)
    (e : s.seq = .idle ∧ (∃ i, ((∃ ctx, i = .edOpen ctx) ∨ ∃ ctx e, i = .edClose ctx e) ∧ exec i s = .next t) ∨
      (∃ run w f0 r e, s.seq = .wait run w f0 r (.close e) ∧ s.validEd e = true) ∧ step s = .next t) :
    Kept T C s.params s.links.status t := by
  rcases e with ⟨idle, i, hi, e⟩ | ⟨⟨run, w, f0, r, e, seq, valid⟩, next⟩
  · exact kept_open h idle laid hi e
  · exact kept_close h seq valid laid next

/-- Settles O44: the commands keep the class list's links canonical as they change the list. -/
theorem classLayoutKept : Obligations.ClassLayoutKept := by
  intro j s t alone legal placed suits hj layout e
  have h : Settled False s := ⟨alone, legal, placed, suits, False.elim, False.elim⟩
  have valid : ∀ n, ∀ e ∈ s.list n, e < s.params.ned := fun _ _ he => placed.apart.valid he
  have laid : Laid False (· = j) s s.links := ⟨False.elim, fun j' _ same => by
    subst same
    exact (classLayout_iff h.wired valid).1 layout⟩
  obtain ⟨v, k, wired, laid, valid, _, _⟩ := kept_either h laid e
  have class_ := laid.classes j hj rfl
  refine ⟨(classLayout_iff wired valid).2 class_, ?_⟩
  have read : hcRegRead t.hc (if j = 63 then 0x20 else 0x28) = t.hc.classHead j := by
    rcases hj with rfl | rfl <;> rfl
  rw [read, wired.head, class_.head, wired.params, wired.list]

end Sys2Proof.Machine
end

section
/-! SUPPORT. The other commands keep lists and links as they are while no other agent moves: they write descriptors and
registers that are no links (40_endpoint.md, 42_transfer.md, 44_coherence.md). -/

namespace Sys2Proof.Machine

variable {α : Type} {T : Prop} {u v s t : State} {k : Links} {xs : List Nat} {E G : State → Prop}

/-- Tables with the lists of `u`, and the links `k`. -/
def Linked (T : Prop) (u : State) (k : Links) (s : State) : Prop :=
  ∃ v, Wired T v k [] s ∧ v.params = u.params ∧ ∀ n, v.list n = u.list n

theorem Wired.linked (h : Wired T u k [] s) : Linked T u k s := ⟨u, h, rfl, fun _ => rfl⟩

theorem Wired.linkedTo (h : Wired T v k [] s) (same : SamePlaces u v) : Linked T u k s := ⟨v, h, same.params, same.list⟩

theorem Linked.kept {C : Nat → Prop} (h : Linked T u k s) (laid : Laid T C u k)
    (valid : ∀ n, ∀ e ∈ u.list n, e < u.params.ned) : Kept T C u.params k.status s := by
  obtain ⟨v, wired, params, list⟩ := h
  exact ⟨v, k, wired, laid.frame params list rfl rfl fun _ _ _ => rfl,
    fun n e he => by rw [params]; exact valid n e (by rwa [list] at he), params, rfl⟩

/-! ### A flush with nothing dirty -/

theorem flushLine_clean (clean : s.cacheClean = true) (b : Nat) : s.flushLine b = s := by
  unfold State.flushLine
  split
  · rfl
  · split
    · rfl
    · rename_i l hl
      have := List.all_eq_true.1 clean _ (mem_of_tableFind hl)
      rw [if_neg (by simpa using this)]

theorem goes_flush_clean (h : Wired T u k xs s) (clean : s.cacheClean = true) (a : Word) (n : Nat) :
    Goes (fun _ => Wired T u k xs) E G (flush a n) s := by
  have lines : ∀ ls (s : State), Wired T u k xs s → s.cacheClean = true →
      Goes (fun _ => Wired T u k xs) E G (flushLines ls) s := by
    intro ls
    induction ls with
    | nil => exact fun s h _ => goes_pure h
    | cons b ls ih =>
      intro s h clean
      have run : turn s = .ok ⟨⟩ { s with seq := s.seq.advance } := turn_quiet h.alone
      unfold Goes flushLines
      rw [run_bind_ok run, run_bind_ok (run_modify _ _), flushLine_clean (s := { s with seq := s.seq.advance }) clean b]
      exact ih _ (h.update .other rfl rfl rfl rfl) clean
  exact goes_read (lines _ s h clean)

/-! ### Queues -/

/-- A TD that a walk from the head of a queue passes is one of the table's. -/
theorem State.shape.before_lt (hu : u.shape) {e t : Nat} {found : Option (List Nat)} (he : (u.ed e).alloc = true)
    (before : u.before e t = some found) : ∀ x ∈ found.getD [], x < u.params.ntd := by
  obtain ⟨q, hq⟩ := hu.shaped e he
  obtain ⟨⟨l, w⟩, walk, rfl⟩ := Option.map_eq_some_iff.1 before
  obtain ⟨chain, _, notYet, _⟩ := walkUntil_some walk
  have tail : (u.ed e).tail ∉ l := fun hm => by simpa using notYet _ hm
  obtain ⟨r, rfl, _⟩ := chain_prefix hq.chain chain tail
  intro x hx
  dsimp only at hx
  split at hx
  · exact (hq.owned x (List.mem_append_left _ (List.mem_append_left r hx))).1
  · cases hx

theorem State.shape.tail_lt (hu : u.shape) {e : Nat} (he : (u.ed e).alloc = true) : (u.ed e).tail < u.params.ntd := by
  obtain ⟨q, hq⟩ := hu.shaped e he
  exact (hq.owned _ (List.mem_append_right q (List.mem_singleton_self _))).1

/-- A group taken off changes tables only. -/
theorem cutGroup_shape (s : State) (e : Nat) (before grp : List Nat) (after : Nat) :
    ∃ a b c, s.cutGroup e before grp after = { s with edt := a, tdt := b, idxValid := c } := by
  cases last : before.getLast? with
  | none =>
    rw [cutGroup_first last, freeTds_frame]
    exact ⟨_, _, _, rfl⟩
  | some prev =>
    rw [cutGroup_after last, freeTds_frame]
    exact ⟨_, _, _, rfl⟩

/-! ### The commands -/

section
variable (g : u.params.Good) (h : Wired T u k [] s)
include g h

theorem linked_readGroup (l : List Nat) (n : Nat) (c : Word) :
    Goes (fun _ => Wired T u k []) E G (readGroup l n c) s := by
  induction l generalizing s n c with
  | nil => exact goes_pure h
  | cons x l ih =>
    exact goes_read (goes_bind (h.goes_inval g _ _ fun _ he => .inl he) fun _ _ h =>
      goes_bind (h.goes_memRead g _) fun _ _ h => goes_bind (h.goes_memRead g _) fun _ _ h =>
        goes_bind (h.goes_memRead g _) fun _ _ h => goes_read (ih h _ _))

theorem linked_suspend (e : Nat) (args : Args) :
    Goes (fun _ => Linked T u k) (Linked T u k) G (edSuspendBody e args) s :=
  goes_bind (goes_checkEd_kept e h h.linked) fun _ _ ⟨h, valid⟩ => goes_read (by
    rw [h.params]
    exact goes_bind (h.goes_rmw g (Wired.plain_ed g (lt_of_validEd valid)) _) fun _ _ h => goes_pure h.linked)

theorem linked_resume (e : Nat) (args : Args) :
    Goes (fun _ => Linked T u k) (Linked T u k) G (edResumeBody e args) s :=
  goes_bind (goes_checkEd_kept e h h.linked) fun _ _ ⟨h, valid⟩ => goes_read (by
    rw [h.params]
    exact goes_bind (h.goes_rmw g (Wired.plain_ed g (lt_of_validEd valid)) _) fun _ _ h =>
      goes_bind (h.goes_listFilled _) fun _ _ h => goes_pure h.linked)

theorem linked_clearHalt (e : Nat) (c : Bool) (args : Args) :
    Goes (fun _ => Linked T u k) (Linked T u k) G (edClearHaltBody e c args) s :=
  goes_bind (goes_checkEd_kept e h h.linked) fun _ _ ⟨h, valid⟩ =>
    goes_bind (h.goes_clearHalt g (lt_of_validEd valid) c) fun _ _ h => goes_pure h.linked

omit g in
theorem linked_quiesceRest (q : Quiesced) : Goes (fun _ => Linked T u k) (Linked T u k) G (quiesceRest q) s := by
  cases q with
  | timeout => exact goes_raise h.linked
  | already => exact goes_pure h.linked
  | ok => exact goes_pure h.linked

theorem linked_quiesce (e : Nat) (args : Args) :
    Goes (fun _ => Linked T u k) (Linked T u k) (Linked T u k) (edQuiesceBody e args) s :=
  goes_bind (goes_checkEd_kept e h h.linked) fun _ _ ⟨h, valid⟩ =>
    goes_bind (h.goes_quiesce g (fun _ h => h.linked) (lt_of_validEd valid) _) fun q _ h => linked_quiesceRest h q

theorem linked_tdQueue (hu : u.shape) (e : Nat) (more r : Bool) (di : BitVec 3) (dp : BitVec 2) (args : Args) :
    Goes (fun _ => Linked T u k) (Linked T u k) G (tdQueueBody e more r di dp args) s := by
  refine goes_bind (goes_checkEd_kept e h h.linked) fun _ s ⟨h, valid⟩ => goes_ite (fun _ => goes_raise h.linked) fun _ =>
    goes_read ?_
  rw [h.allocTd]
  split
  · exact goes_raise h.linked
  · rename_i n hn
    obtain ⟨ntd, _, _⟩ := allocTd_some hn
    have ned := lt_of_validEd valid
    have tail := hu.tail_lt (alloc_of_validEd valid)
    obtain ⟨w, hw⟩ : ∃ w, w = u.reserved e n (togglePolicy dp (u.ed e).afterSetup).2 := ⟨_, rfl⟩
    have places : SamePlaces u w := by rw [hw]; exact samePlaces_reserved _ _ _
    have params : w.params = u.params := places.params
    have good : w.params.Good := params ▸ g
    have first : SameTables w ((s.setEd e { s.ed e with afterSetup :=
          (togglePolicy dp (u.ed e).afterSetup).2 }).setTd n { alloc := true, owner := e }) := by
      rw [h.ed, hw]
      exact (h.toSameTables.setEd e _).setTd n _
    have ntd : n < w.params.ntd := by rwa [params]
    have tail : (u.ed e).tail < w.params.ntd := by rwa [params]
    have ned : e < w.params.ned := by rwa [params]
    rw [h.ed, h.params, ← params]
    refine goes_bind (Q := fun _ => Wired T w k []) (goes_modify (h.retable first params rfl rfl rfl rfl)) fun _ _ h =>
      goes_bind (h.goes_writeTd good ntd _ _ _ _) fun _ _ h => goes_bind (h.goes_flushTd good ntd) fun _ _ h =>
        goes_bind (h.goes_writeTd good tail _ _ _ _) fun _ _ h => goes_bind (h.goes_flushTd good tail) fun _ s₂ h => ?_
    obtain ⟨x, hx⟩ : ∃ x, x = w.filled e n (queuedStatus more args.arg1) := ⟨_, rfl⟩
    have filled : SamePlaces w x := by rw [hx]; exact samePlaces_filled _ _ _
    have places : SamePlaces u x := places.trans filled
    have old : (u.ed e).tail = (w.ed e).tail := by rw [hw, reserved_ed_self]
    refine goes_bind (Q := fun _ => Wired T x k []) (goes_modify (h.retable ?_ filled.params rfl rfl rfl rfl))
      fun _ _ h => ?_
    · rw [h.td, h.ed, hx, old]
      exact ((h.toSameTables.setTd _ _).setIndexed _ true).setEd e _
    · have params : x.params = w.params := filled.params
      rw [← params]
      refine goes_bind (h.goes_rmw (params ▸ good) (plain_edWord (params ▸ good) (params ▸ ned) _ (by decide) (by decide)) _)
        fun _ _ h => goes_bind (h.goes_listFilled _) fun _ _ h => goes_pure (h.linkedTo places)

theorem linked_xferComplete (e : Nat) (args : Args) :
    Goes (fun _ => Linked T u k) (Linked T u k) G (xferCompleteBody e args) s := by
  refine goes_bind (goes_checkEd_kept e h h.linked) fun _ s ⟨h, valid⟩ => goes_read ?_
  split
  · exact goes_raise h.linked
  · rename_i t owned
    refine goes_ite (fun _ => goes_bind (Q := fun _ => Wired T u k [])
      (goes_modify (h.update .other rfl rfl rfl rfl)) fun _ _ h => goes_raise h.linked) fun _ => ?_
    refine goes_bind (Q := fun _ t' => s = t') (goes_orStop fun _ _ => rfl) ?_
    rintro c _ rfl
    cases c with
    | unfinished x =>
      exact goes_bind (Q := fun _ => Wired T u k []) (goes_modify (h.update .other rfl rfl rfl rfl)) fun _ _ h =>
        goes_raise h.linked
    | finished gr after =>
      have places : SamePlaces u ((u.freeTds gr).setEd e { u.ed e with head := after }) :=
        ((SamePlaces.refl u).freeTds gr).setEd rfl fun _ => ⟨rfl, rfl, rfl⟩
      obtain ⟨v, hv⟩ : ∃ v, v = (u.freeTds gr).setEd e { u.ed e with head := after } := ⟨_, rfl⟩
      rw [← hv] at places
      refine goes_bind (linked_readGroup g h gr 0 0#32) fun r s h =>
        goes_bind (Q := fun _ => Wired T v k []) (goes_modify ?_) fun _ _ h => goes_ite (fun _ => ?_) fun _ =>
          goes_pure (h.linkedTo places)
      · refine h.retable (v := v) ?_ places.params ?_ ?_ ?_ ?_
        · rw [h.ed, hv]
          exact (h.toSameTables.freeTds gr).setEd e _
        · rw [freeTds_frame]
          rfl
        · rw [freeTds_frame]
          rfl
        · rw [freeTds_frame]
          rfl
        · rw [freeTds_frame]
          rfl
      · have ned : e < v.params.ned := by rw [places.params]; exact lt_of_validEd valid
        exact goes_bind (h.goes_clearHalt (places.params ▸ g) ned false) fun _ _ h => goes_pure (h.linkedTo places)

omit h in
theorem linked_relink {e : Nat} (he : e < u.params.ned) (h : Wired T u k [e] s) (hd : Word) {before grp : List Nat}
    (after : Nat) (small : ∀ x ∈ before, x < u.params.ntd) :
    Goes (fun _ => Wired T u k [e]) E G (relink e hd before grp after) s := by
  refine goes_read ?_
  rw [h.params]
  have head := plain_edWord g he 8#32 (by decide) (by decide)
  refine goes_ite (fun _ => goes_bind (h.goes_memWrite g head _) fun _ _ h => h.goes_flush g _ _ fun e' he' hm => ?_)
    fun _ => goes_ite (fun hm => ?_) fun _ => goes_pure h
  · change _ ∈ rangeLines u.params (edAddr u.params e + 8#32).toNat 4 at hm
    rw [rangeLines_word g head.aligned, slotWord_line g (g.edAddr_slot e) (by decide)] at hm
    exact List.mem_singleton.2 (edAddr_inj g he' he (List.mem_singleton.1 hm))
  · have last : before.getLastD 0 ∈ before := getLastD_mem fun empty => by
      rw [empty] at hm
      cases hm
    exact h.goes_rmw g (plain_tdWord g (small _ last) _ (by decide) (by decide)) _

theorem linked_abortRest (hu : u.shape) {e : Nat} (valid : u.validEd e = true) (t : Nat) (q : Quiesced) :
    Goes (fun _ => Linked T u k) (Linked T u k) G (abortRest e t q) s := by
  have ned := lt_of_validEd valid
  refine goes_ite (fun _ => goes_raise h.linked) fun _ => goes_read ?_
  refine goes_bind (Q := fun found t' => s = t' ∧ u.before e t = some found)
    (goes_orStop fun found hf => ⟨rfl, by rwa [h.before] at hf⟩) ?_
  rintro found _ ⟨rfl, before⟩
  have small := hu.before_lt (alloc_of_validEd valid) before
  have rest : ∀ {s'}, Wired T u k [] s' → Goes (fun _ => Linked T u k) (Linked T u k) G
      (do let before := found.getD []
          inval (edHeadAddr s.params e) 4
          let h ← memRead (edHeadAddr s.params e)
          let s ← get
          let g ← orStop .brokenQueue (walkGroup s (s.ed e).tail s.params.ntd t)
          set (s.cutGroup e before g.1 g.2)
          relink e h before g.1 g.2
          clearHalt e false
          return { res0 := g.1.length } : Cmd Results) s' := fun h' => by
    rw [h.params]
    refine goes_bind (Wired.goes_invalEd g h' _ (by decide) (by decide) ned) fun _ _ h =>
      goes_bind (h.goes_memRead g _) fun hd s₂ h => goes_read ?_
    refine goes_bind (Q := fun _ t' => s₂ = t') (goes_orStop fun _ _ => rfl) ?_
    rintro gr _ rfl
    obtain ⟨v, hv⟩ : ∃ v, v = u.cutGroup e (found.getD []) gr.1 gr.2 := ⟨_, rfl⟩
    have places : SamePlaces u v := by rw [hv]; exact samePlaces_cutGroup _ _ _ _
    have good : v.params.Good := places.params ▸ g
    have ned' : e < v.params.ned := by rwa [places.params]
    refine goes_bind (Q := fun _ => Wired T v k [e]) (goes_set ?_) fun _ _ h =>
      goes_bind (linked_relink good ned' h hd gr.2 (by rw [places.params]; exact small)) fun _ _ h =>
        goes_bind (h.cons_self.goes_clearHalt good ned' false) fun _ _ h => goes_pure (h.linkedTo places)
    obtain ⟨a, b, c, cut⟩ := cutGroup_shape s₂ e (found.getD []) gr.1 gr.2
    refine h.retable (hv ▸ h.toSameTables.cutGroup e _ _ _) places.params ?_ ?_ ?_ ?_
    · rw [cut]
    · rw [cut]
    · rw [cut]
    · rw [cut]
  exact goes_ite (fun _ => goes_bind (Q := fun _ => Wired T u k []) (goes_modify (h.update .other rfl rfl rfl rfl))
    fun _ _ h => rest h) fun _ => rest h

theorem linked_xferAbort (hu : u.shape) (e : Nat) (args : Args) :
    Goes (fun _ => Linked T u k) (Linked T u k) (Linked T u k) (xferAbortBody e args) s := by
  refine goes_bind (goes_checkEd_kept e h h.linked) fun _ s ⟨h, valid⟩ => goes_read ?_
  split
  · exact goes_raise h.linked
  · exact goes_ite (fun _ => goes_raise h.linked) fun _ =>
      goes_bind (h.goes_quiesce g (fun _ h => h.linked) (lt_of_validEd valid) _) fun q _ h =>
        linked_abortRest g h hu valid _ q

omit g in
/-- A drain with nothing to drain (43_done_queue.md R352). -/
theorem linked_dqDrain (none : k.status.getLsbD 1 = false) (args : Args) :
    Goes (fun _ => Linked T u k) (Linked T u k) G (dqDrainBody args) s := by
  have drained : Goes (fun _ => Wired T u k []) (Linked T u k) G drain s := by
    refine goes_bind (h.goes_mmioRead _) fun w _ ⟨hw, h'⟩ => goes_ite (fun yes => ?_) fun _ => goes_pure h'
    rw [hw, show hcRegRead s.hc 0x0C = s.hc.interruptStatus from rfl, h.status, none] at yes
    cases yes
  exact goes_bind drained fun _ _ h => goes_bind (Q := fun _ => Wired T u k [])
    (goes_modify (h.update .other rfl rfl rfl rfl)) fun _ _ h => goes_pure h.linked

end

end Sys2Proof.Machine
end

section
/-! SUPPORT. Every step of the started machine keeps the canonical tree layout while no other agent moves
(10_state.md R42, 41_scheduler.md R256 to R260). -/

namespace Sys2Proof.Machine

variable {α : Type} {T : Prop} {u s t : State} {k : Links} {E G : State → Prop}

/-! ### The commands that neither open nor close an endpoint -/

theorem goes_weaken {Q Q' : α → State → Prop} {E' G' : State → Prop} {c : Cmd α} (h : Goes Q E G c s)
    (hQ : ∀ a t, Q a t → Q' a t) (hE : ∀ t, E t → E' t) (hG : ∀ t, G t → G' t) : Goes Q' E' G' c s := by
  unfold Goes at h ⊢
  split at h
  · exact hQ _ _ h
  · exact hE _ h
  · exact hG _ h
  · exact h

/-- The common checks change nothing, and a command that passes them has its `STARTED` condition
(30_encoding.md R144 (3)). -/
theorem goes_commonChecks_passed (i : Instr) (hE : E s) :
    Goes (fun _ t => s = t ∧ gateOpen s.started (startGate i) = true) E G (commonChecks i) s :=
  goes_read (goes_ite (fun gate => goes_ite (fun _ => goes_raise hE) fun _ => goes_pure ⟨rfl, gate⟩) fun _ =>
    goes_bind (Q := fun _ _ => False) (goes_raise hE) fun _ _ no => no.elim)

/-- The command neither opens nor closes an endpoint. -/
def keepsLists : Instr → Bool
  | .edOpen _ | .edClose _ _ => false
  | _ => true

section
variable (g : u.params.Good) (h : Wired T u k [] s)
include g h

omit g in
theorem linked_cflush (clean : s.cacheClean = true) (args : Args) :
    Goes (fun _ => Linked T u k) (Linked T u k) G (cflushBody args) s := by
  have rest : Goes (fun _ => Linked T u k) (Linked T u k) G (do
      let p := (← get).params
      flush args.arg0 args.arg1.toNat
      return { res0 := namedLines p args.arg0.toNat args.arg1.toNat } : Cmd Results) s :=
    goes_read (goes_bind (goes_flush_clean h clean _ _) fun _ _ h => goes_pure h.linked)
  exact goes_ite (fun _ => goes_bind (Q := fun _ _ => False) (goes_raise h.linked) fun _ _ no => no.elim) fun _ => rest

theorem linked_cinval (args : Args) : Goes (fun _ => Linked T u k) (Linked T u k) G (cinvalBody args) s := by
  have rest : Goes (fun _ => Linked T u k) (Linked T u k) G (do
      let p := (← get).params
      inval args.arg0 args.arg1.toNat
      return { res0 := namedLines p args.arg0.toNat args.arg1.toNat } : Cmd Results) s :=
    goes_read (goes_bind (h.goes_inval g _ _ (ys := []) fun _ no => nomatch no) fun _ _ h => goes_pure h.linked)
  exact goes_ite (fun _ => goes_bind (Q := fun _ _ => False) (goes_raise h.linked) fun _ _ no => no.elim) fun _ => rest

/-- No command but opening and closing touches a list or a link; `SCHED_START` is refused on the started machine. -/
theorem linked_body (hu : u.shape) (clean : s.cacheClean = true) (none : k.status.getLsbD 1 = false) {i : Instr}
    (other : keepsLists i = true) (gate : gateOpen true (startGate i) = true) (args : Args) :
    Goes (fun _ => Linked T u k) (Linked T u k) (Linked T u k) (bodyOf i args) s := by
  cases i with
  | nop ctx => exact goes_pure h.linked
  | schedStart ctx => cases gate
  | edOpen ctx => cases other
  | edClose ctx e => cases other
  | edSuspend ctx e => exact linked_suspend g h e args
  | edResume ctx e => exact linked_resume g h e args
  | edClearHalt ctx e c => exact linked_clearHalt g h e c args
  | edQuiesce ctx e => exact linked_quiesce g h e args
  | schedBitpos ctx d n =>
    change Goes _ _ _ (schedBitposBody d n args) s
    unfold schedBitposBody
    split
    · exact goes_raise h.linked
    · exact goes_pure h.linked
  | schedIdepth ctx iv => exact goes_read (goes_pure h.linked)
  | schedLoad ctx i => exact goes_read (goes_ite (fun _ => goes_raise h.linked) fun _ => goes_pure h.linked)
  | tdQueue ctx e more r di dp => exact linked_tdQueue g h hu e more r di dp args
  | xferComplete ctx e => exact linked_xferComplete g h e args
  | xferAbort ctx e => exact linked_xferAbort g h hu e args
  | ccClassify ctx cc => exact goes_pure h.linked
  | dqDrain ctx => exact linked_dqDrain h none args
  | cflush ctx => exact linked_cflush h clean args
  | cinval ctx => exact linked_cinval g h args

end

/-! ### The ready machine -/

theorem chained_undisturbed (b : Bool) (after : Word) (l : List Nat) :
    ({ s with sched := [], cmdLost := b } : State).chained after l = s.chained after l := by
  induction l with
  | nil => rfl
  | cons e l ih =>
    cases l with
    | nil => rfl
    | cons x l =>
      simp only [State.chained, ih]
      rfl

/-- No move but the host's next command is to come; that it is taken, or dropped by a busy block, changes nothing
else that the ready machine is made of. -/
theorem State.treeReady.undisturbed (h : s.treeReady) (b : Bool) :
    ({ s with sched := [], cmdLost := b } : State).treeReady where
  legal := h.legal
  placed := SamePlaces.placed (SameTables.other (s := s)).places h.placed
  suits := h.suits
  queues :=
    have shape := SameTables.shape (SameTables.other (s := s)) h.queues.shape
    ⟨shape.shaped, shape.onQueue, shape.indexOwned, h.queues.waiting⟩
  noZeroEd := h.noZeroEd
  started := h.started
  clean := h.clean
  seen := h.seen
  layout := by
    simp only [State.treeLayout, chained_undisturbed]
    exact h.layout
  noDone := h.noDone
  alone := .inl rfl

section
variable (h : s.treeReady) (alone : s.sched = [])
include h

theorem State.treeReady.settled (alone : s.sched = []) : Settled True s :=
  ⟨alone, h.legal, h.placed, h.suits, fun _ => h.noZeroEd, fun _ => h.seen⟩

theorem State.treeReady.laid (alone : s.sched = []) : Laid True (fun _ => False) s s.links :=
  ⟨fun _ => (treeLayout_iff (h.settled alone).wired trivial fun _ _ he => h.placed.apart.valid he).1 h.layout,
    fun _ _ no => no.elim⟩

include alone

theorem State.treeReady.kept {t : State} (l : Linked True s s.links t) :
    Kept True (fun _ => False) s.params s.links.status t :=
  l.kept (h.laid alone) fun _ _ he => h.placed.apart.valid he

theorem kept_exec (idle : s.seq = .idle) {i : Instr} (e : exec i s = .next t) :
    Kept True (fun _ => False) s.params s.links.status t := by
  by_cases other : keepsLists i = true
  · rw [exec_quiet idle alone] at e
    have begun : Wired True s s.links [] (s.begun (encode i)) := (h.settled alone).wired.update .other rfl rfl rfl rfl
    refine kept_finish (goes_weaken (E := Linked True s s.links) (G := Linked True s s.links)
      (goes_bind (goes_commonChecks_passed i begun.linked) ?_) (fun _ _ => h.kept alone) (fun _ => h.kept alone)
      fun _ => h.kept alone) e
    rintro _ _ ⟨rfl, gate⟩
    have started : (s.begun (encode i)).started = true := h.started
    rw [started] at gate
    exact linked_body (h.settled alone).good begun h.queues.shape h.clean h.noDone other gate _
  · refine kept_open (h.settled alone) idle (h.laid alone) ?_ e
    cases i with
    | edOpen ctx => exact .inl ⟨ctx, rfl⟩
    | edClose ctx ed => exact .inr ⟨ctx, ed, rfl⟩
    | _ => exact absurd rfl other

theorem kept_wait {run : Running} {w r : Nat} {f0 : BitVec 16} {c : Cont} (seq : s.seq = .wait run w f0 r c)
    (e : step s = .next t) : Kept True (fun _ => False) s.params s.links.status t := by
  have valid : ∀ {e}, (s.ed e).alloc = true → s.validEd e = true := fun {e} alloc => by
    have := (h.placed.listed e alloc).1
    simp [State.validEd, alloc, this]
  have checked := (waitOwned_iff seq).1 h.queues.waiting
  have wired := (h.settled alone).wired
  have run : step s = continueWait f0 r c s := by rw [step, seq]
  have linked : (∀ q {s'}, Wired True s s.links [] s' → Goes (fun _ => Linked True s s.links)
      (Linked True s s.links) (Linked True s s.links) (afterWait c q) s') →
      Kept True (fun _ => False) s.params s.links.status t := fun after => by
    rw [run] at e
    exact kept_finish (goes_weaken (goes_bind (wired.goes_waitFrom (fun _ w => w.linked) f0 r) fun q _ w => after q w)
      (fun _ _ => h.kept alone) (fun _ => h.kept alone) fun _ => h.kept alone) e
  cases c with
  | quiesce x => exact linked fun q _ w => linked_quiesceRest w q
  | close x => exact kept_close (h.settled alone) seq (valid checked) (h.laid alone) e
  | abort x td =>
    obtain ⟨alloc, _⟩ := checked
    exact linked fun q _ w => linked_abortRest (h.settled alone).good w h.queues.shape (valid alloc) td q

end

/-- A waiting block drops a command and goes on with its wait. -/
theorem step_wait_command {run : Running} {e r : Nat} {f0 : BitVec 16} {c : Cont} {w : Word}
    (seq : s.seq = .wait run e f0 r c) (sched : s.sched = [commandMove w]) :
    step s = step { s with sched := [], cmdLost := true } := by
  have write : otherMove (commandMove w) s = .on { s with cmdLost := true } := by
    have write : otherMove (commandMove w) s = .on (blockRegWrite s 0x0C w) := rfl
    rw [write, blockRegWrite, seq]
    rfl
  have steps : waitSteps f0 s.sched r s = waitSteps f0 [] r { s with sched := [], cmdLost := true } := by
    have first : waitSteps f0 [commandMove w] r s = match otherMove (commandMove w) s with
        | .on s' => waitSteps f0 [] r s'
        | .abandoned s' => .error .gone { s' with sched := [] }
        | .stuck f => .error (.stuck f) s := rfl
    rw [sched, first, write]
    rfl
  have waits : waitFrom f0 r s = waitFrom f0 r { s with sched := [], cmdLost := true } := by
    have run : ∀ s, waitFrom f0 r s = (do
        let q ← fun _ => waitSteps f0 s.sched r s
        modify fun s => { s with seq := .exec s.seq.running }
        return q : Cmd Quiesced) s := fun _ => rfl
    rw [run, run, steps]
    rfl
  have goesOn : ∀ s, s.seq = .wait run e f0 r c → step s = continueWait f0 r c s := fun s seq => by rw [step, seq]
  rw [goesOn s seq, goesOn { s with sched := [], cmdLost := true } seq, continueWait, continueWait]
  refine congrArg finish ?_
  change EStateM.bind _ _ _ = EStateM.bind _ _ _
  rw [EStateM.bind, EStateM.bind, waits]

theorem kept_step (h : s.treeReady) (e : step s = .next t) :
    Kept True (fun _ => False) s.params s.links.status t := by
  have quiet : ({ s with sched := [] } : State).treeReady := h.undisturbed s.cmdLost
  cases seq : s.seq with
  | idle =>
    rcases h.alone with alone | ⟨w, sched⟩
    · have off : s.autoDrainEnabled = false := by simp [State.autoDrainEnabled, h.noDone]
      have stays : step s = .next s := by simp [step, seq, idleStep, alone, idleTurn, off]
      rw [stays] at e
      cases e
      exact (h.settled alone).kept (h.laid alone)
    · rw [step_command seq sched] at e
      unfold runWord at e
      split at e
      · have kept := kept_exec quiet rfl seq e
        exact kept
      · have ended : runReserved w { s with sched := [] } =
            finish (.error (.err .badCmd) (State.begun { s with sched := [] } w)) := by
          rw [runReserved, run_bind_ok (accept_turn_quiet rfl w)]
          rfl
        rw [ended] at e
        cases e
        exact ((quiet.settled rfl).kept (quiet.laid rfl)).update .other rfl rfl rfl rfl
  | wait run x f0 r c =>
    rcases h.alone with alone | ⟨w, sched⟩
    · exact kept_wait h alone seq e
    · rw [step_wait_command seq sched] at e
      have kept := kept_wait (h.undisturbed true) rfl seq e
      exact kept
  | exec run =>
    rw [step, seq] at e
    cases e

/-! ### The machine is ready again -/

theorem Wired.tableSeen {xs : List Nat} (h : Wired T u k xs s) (yes : T) (g : s.params.Good) : s.tableSeen = true :=
  (tableSeen_iff g).2 fun i hi => by
    obtain ⟨phys, load⟩ := h.table yes i hi
    rw [h.params, load, phys]

/-- Dirty lines in a machine whose host writes no memory. -/
theorem dirty_kind : DirtyKind (fun m => ∃ w, m = commandMove w) (fun l => l.dirty) where
  dirty _ h := h
  host _ _ _ _ _ no := by
    obtain ⟨w, no⟩ := no
    cases no

theorem cacheClean_iff {p : Params} : s.cacheClean = true ↔ Confined p (fun l => l.dirty) [] s := by
  simp only [State.cacheClean, List.all_eq_true, Bool.not_eq_true', Confined, List.not_mem_nil, false_and, and_false,
    imp_false, Bool.not_eq_true]
  exact ⟨fun h b l hm => h (b, l) hm, fun h x hx => h x.1 x.2 hx⟩

theorem cacheClean_step (legal : s.params.legal = true) (commands : ∀ m ∈ s.sched, ∃ w, m = commandMove w)
    (clean : s.cacheClean = true) (e : step s = .next t) : t.cacheClean = true := by
  obtain ⟨held, _⟩ := resting_step (p := s.params) (F := False) dirty_kind
    ⟨⟨rfl, commands, False.elim, fun _ => cacheClean_iff.1 clean⟩, False.elim⟩ e
  exact cacheClean_iff.2 (held.dirty (Params.legal_good legal))

theorem treeReady_step (h : s.treeReady) (e : step s = .next t) : t.treeReady := by
  have commands : ∀ m ∈ s.sched, ∃ w, m = commandMove w := fun m hm => by
    rcases h.alone with alone | ⟨w, alone⟩
    · rw [alone] at hm
      cases hm
    · rw [alone] at hm
      exact ⟨w, List.mem_singleton.1 hm⟩
  have noReset : Move.reset ∉ s.sched := fun hm => by
    obtain ⟨w, no⟩ := commands _ hm
    cases no
  obtain ⟨started, _, _⟩ := stickyUntilReset s t noReset e
  obtain ⟨v, k, wired, laid, valid, params, status⟩ := kept_step h e
  have same : t.params = s.params := wired.params.trans params
  have good : t.params.Good := same ▸ Params.legal_good h.legal
  exact {
    legal := same ▸ h.legal
    placed := (placementKept s t e).1 h.placed
    suits := (placementKept s t e).2 h.suits
    queues := (queuesKept s t h.queues e).1
    noZeroEd := same ▸ h.noZeroEd
    started := started h.started
    clean := cacheClean_step h.legal commands h.clean e
    seen := wired.tableSeen trivial good
    layout := (treeLayout_iff wired trivial valid).2 (laid.tree trivial)
    noDone := by
      rw [State.wdhIn, Hc.wdh, wired.status, status]
      exact h.noDone
    alone := .inl wired.alone }

/-- Settles O43: the invariant `Kept`, which each command keeps; the other parts of `State.treeReady` have invariants
of their own. -/
theorem treeLayoutKept : Obligations.TreeLayoutKept := by
  refine ⟨fun s t => treeReady_step, fun s t alone legal placed suits noZero seen layout e => ?_⟩
  have h : Settled True s := ⟨alone, legal, placed, suits, fun _ => noZero, fun _ => seen⟩
  have laid : Laid True (fun _ => False) s s.links :=
    ⟨fun _ => (treeLayout_iff h.wired trivial fun _ _ he => placed.apart.valid he).1 layout, fun _ _ no => no.elim⟩
  obtain ⟨v, k, wired, laid, valid, params, _⟩ := kept_either h laid e
  have same : t.params = s.params := wired.params.trans params
  exact ⟨(treeLayout_iff wired trivial valid).2 (laid.tree trivial), wired.tableSeen trivial (same ▸ h.good)⟩

end Sys2Proof.Machine
end

section
/-! SUPPORT. Single accesses of the host and of the block: a host register access that is not an aligned 32-bit
access (20_memory.md R76), and reads and writes through the cache (R100 to R102). -/

namespace Sys2Proof.Machine

variable {s : State}

/-! ### A stuck move (20_memory.md R76) -/

theorem alignedWordAccess_eq_false {off : BitVec 8} {size : Nat} (h : off.toNat % 4 ≠ 0 ∨ size ≠ 4) :
    alignedWordAccess off size = false := by
  simpa only [alignedWordAccess, Bool.and_eq_false_iff, beq_eq_false_iff_ne] using h

theorem blockRead_narrow {off : BitVec 8} {size : Nat} (h : alignedWordAccess off size = false) (s : State) :
    hostMove (.blockRead off size) s = .error .hostAccess := by
  simp [hostMove, h]

theorem blockWrite_narrow {off : BitVec 8} {size : Nat} (h : alignedWordAccess off size = false) (v : Word)
    (s : State) : hostMove (.blockWrite off size v) s = .error .hostAccess := by
  simp [hostMove, h]

theorem otherMove_host_error {m : HostMove} {f : Fault} (h : hostMove m s = .error f) :
    otherMove (.host m) s = .stuck f := by
  simp only [otherMove, h]

/-- A stuck move is no write of a command word, which every block takes. -/
theorem commandWord_stuck {m : Move} {f : Fault} (h : otherMove m s = .stuck f) : commandWord m = none := by
  cases e : commandWord m with
  | none => rfl
  | some w =>
    have write : m = commandMove w := by
      unfold commandWord at e
      split at e
      · split at e
        · rename_i place
          obtain ⟨rfl, rfl⟩ := place
          cases e
          rfl
        · cases e
      · cases e
    rw [write] at h
    cases h

section
variable {m : Move} {ms : List Move} {f : Fault} (h : otherMove m s = .stuck f) (next : s.sched = m :: ms)
include h

theorem interfere_stuck : interfere (m :: ms) s = .error (.stuck f) s := by
  cases m with
  | block => cases h
  | timer => cases h
  | host m => simp only [interfere, h]
  | hc m => cases h
  | cache m => cases h
  | reset => cases h

theorem waitSteps_stuck (f0 : BitVec 16) (r : Nat) : waitSteps f0 (m :: ms) r s = .error (.stuck f) s := by
  cases m with
  | block => cases h
  | timer => cases h
  | host m => simp only [waitSteps, h]
  | hc m => cases h
  | cache m => cases h
  | reset => cases h

include next

/-- A command written while a stuck move is next meets it before its first step. -/
theorem exec_stuck (idle : s.seq = .idle) (i : Instr) : exec i s = .fault f := by
  have first : turn (s.accept (encode i)) = .error (.stuck f) (s.accept (encode i)) := by
    have run : turn (s.accept (encode i)) = interfere s.sched (s.accept (encode i)) := rfl
    rw [run, next, interfere_stuck (otherMove_stuck h _)]
  rw [exec_eq, runCommand, idle, if_neg (by simp [Seq.busy]), run_bind_error first]
  rfl

theorem step_idle_stuck (idle : s.seq = .idle) : step s = .fault f := by
  have notBlock : m ≠ .block := by
    rintro rfl
    cases h
  simp only [step, idle, idleStep, next, commandWord_stuck h, if_neg notBlock, idleMove, otherMove_stuck h]

theorem step_wait_stuck {run : Running} {e r : Nat} {f0 : BitVec 16} {k : Cont} (wait : s.seq = .wait run e f0 r k) :
    step s = .fault f := by
  have first : waitFrom f0 r s = .error (.stuck f) s :=
    run_bind_error (x := fun s => waitSteps f0 s.sched r s) (by rw [next, waitSteps_stuck h])
  simp only [step, wait, continueWait, run_bind_error first, finish]

end

/-- Settles O22: the port answers no state, and a stuck move that is next ends whatever the block does. -/
theorem narrowHostAccessIsStuck : Obligations.NarrowHostAccessIsStuck := by
  intro s off size v ms narrow
  have bad := alignedWordAccess_eq_false narrow
  refine ⟨blockRead_narrow bad s, blockWrite_narrow bad v s, fun next => ?_⟩
  obtain ⟨m, stuck, next⟩ : ∃ m, otherMove m s = .stuck .hostAccess ∧ s.sched = m :: ms := by
    rcases next with next | next
    · exact ⟨_, otherMove_host_error (blockRead_narrow bad s), next⟩
    · exact ⟨_, otherMove_host_error (blockWrite_narrow bad v s), next⟩
  exact ⟨fun idle => ⟨step_idle_stuck stuck next idle, exec_stuck stuck next idle⟩,
    fun _ _ _ _ _ wait => step_wait_stuck stuck next wait⟩

/-! ### Reads and writes through the cache (20_memory.md R100 to R102) -/

/-- With `COHERENT = 1` there is no cache: accesses are memory's, and the operations on lines do nothing. -/
theorem coherent_accesses (c : s.params.coherent = true) (a v : Word) (b : Nat) (m : CacheMove) :
    s.cacheLoad a = s.physRead a ∧ s.touch a.toNat = s ∧ s.cacheStore a v = s.physWrite a v ∧ s.flushLine b = s ∧
      s.invalLine b = s ∧ cacheMove m s = s :=
  ⟨if_pos c, if_pos c, if_pos c, if_pos c, if_pos c, if_pos c⟩

section
variable (c : s.params.coherent = false)
include c

theorem cacheLoad_cached (a : Word) :
    s.cacheLoad a = load32 (lineAt s (lineBase s.params a.toNat)).data a.toNat := by
  simp [State.cacheLoad, c]

theorem touch_cached (a : Nat) :
    s.touch a = s.setLine (lineBase s.params a) (lineAt s (lineBase s.params a)) := by
  simp [State.touch, c]

theorem find_touch_self (a : Nat) :
    tableFind (lineBase s.params a) (s.touch a).cache = some (lineAt s (lineBase s.params a)) := by
  rw [touch_cached c, find_setLine_self]

theorem find_touch_ne {a b : Nat} (h : b ≠ lineBase s.params a) :
    tableFind b (s.touch a).cache = tableFind b s.cache := by
  rw [touch_cached c, find_setLine_ne s h]

/-- A write is read back. -/
theorem cacheLoad_cacheStore_self (a v : Word) : (s.cacheStore a v).cacheLoad a = v := by
  have store : s.cacheStore a v = s.setLine (lineBase s.params a.toNat)
      ((lineAt s (lineBase s.params a.toNat)).mark true (a.toNat - lineBase s.params a.toNat)
        (store32 (lineAt s (lineBase s.params a.toNat)).data a.toNat v)) := by
    simp [State.cacheStore, c]
  rw [store, cacheLoad_cached (by exact c), setLine_params, lineAt_setLine_self]
  exact load32_store32_self _ _ _

end

/-- A write changes no other word the block reads. -/
theorem cacheLoad_cacheStore_ne (g : s.params.Good) {a b : Word} (v : Word) (ha : a.toNat % 4 = 0)
    (hb : b.toNat % 4 = 0) (h : b ≠ a) : (s.cacheStore a v).cacheLoad b = s.cacheLoad b :=
  cacheLoad_congr g (cacheStore_params s a v) hb fun x hx => by
    rw [view_cacheStore g ha, if_neg (words_disjoint ha hb h hx)]

/-- A word of an absent line is memory's. -/
theorem cacheLoad_absent (g : s.params.Good) {a : Word} (ha : a.toNat % 4 = 0)
    (absent : tableFind (lineBase s.params a.toNat) s.cache = none) : s.cacheLoad a = s.physRead a :=
  cacheLoad_of_view g ha fun x h1 h2 => view_absent g (by rw [lineBase_byte g ha ⟨h1, h2⟩]; exact absent)

/-- A fill of an absent line leaves it clean, with memory's bytes. -/
theorem lineAt_absent {base : Nat} (absent : tableFind base s.cache = none) :
    (lineAt s base).dirty = false ∧
      ∀ x, base ≤ x → x < base + s.params.cacheLine → loadByte (lineAt s base).data x = loadByte s.mem x := by
  have fill : lineAt s base = filledLine s base := by simp only [lineAt, absent]
  rw [fill]
  exact ⟨rfl, fun x h1 h2 => loadByte_memRange ⟨h1, h2⟩⟩

theorem lineAt_present {base : Nat} {l : Line} (present : tableFind base s.cache = some l) : lineAt s base = l := by
  simp only [lineAt, present]

/-- A present line is read as it is, whatever memory holds. -/
theorem cacheLoad_present (c : s.params.coherent = false) {a : Word} {l : Line}
    (present : tableFind (lineBase s.params a.toNat) s.cache = some l) : s.cacheLoad a = load32 l.data a.toNat := by
  rw [cacheLoad_cached c, lineAt_present present]

/-- Settles O23: a write marks its line and leaves memory alone, a read leaves its line as `lineAt` gives it. -/
theorem cacheAccesses : Obligations.CacheAccesses := by
  refine ⟨fun s a v b m c => coherent_accesses c a v b m, fun s a b v legal c ha hb => ?write,
    fun s a legal c ha => ?read⟩
  case write =>
    have g := Params.legal_good legal
    exact ⟨cacheStore_mem_cached c a v, cacheLoad_cacheStore_self c a v, cacheLoad_cacheStore_ne g v ha hb,
      cacheLoad_absent g ha⟩
  case read =>
    intro base
    have filled : tableFind base (s.touch a.toNat).cache = some (lineAt s base) := find_touch_self c a.toNat
    refine ⟨by rw [touch_cached c]; rfl, fun x hx => find_touch_ne c hx, fun l present => ?_, fun absent => ?_⟩
    · rw [filled, lineAt_present present]
      exact ⟨rfl, cacheLoad_present c present⟩
    · obtain ⟨clean, bytes⟩ := lineAt_absent absent
      exact ⟨_, filled, clean, bytes⟩

end Sys2Proof.Machine
end

section
/-! SUPPORT. What a step of the HC can do, said once (20_memory.md R120 to R126): which registers it sets, which bytes
of memory it writes; and properties of the HC's registers over every schedule. -/

namespace Sys2Proof.Machine

variable {s t : State}

/-! ### The steps of the HC, by what they write -/

/-- The done list written to the HCCA as the word `w`. -/
def State.publishDone (s : State) (w : Word) : State :=
  { s with
    mem := store32 s.mem (doneHeadAddr s.params).toNat w
    hc := { s.hc with dq := 0#32, interruptStatus := s.hc.interruptStatus ||| wdhBit } }

theorem hcFrame_serving (wb : Option Bool) (h : s.hc.serve ≠ none) : hcFrame wb s = s := by
  obtain ⟨v, serves⟩ := Option.ne_none_iff_exists'.1 h
  simp only [hcFrame, serves]

/-- A frame step writes the done list back where the draw says so, the list is not empty and `WDH` is 0 (20_memory.md
R126). -/
theorem hcFrame_publishes (h : s.hc.serve = none) (flag : Bool) (waits : s.hc.dq ≠ 0#32) (free : s.hc.wdh = false) :
    hcFrame (some flag) s =
      (frameStart s).publishDone (s.hc.dq ||| (BitVec.ofBool flag).setWidth 32) := by
  simp only [hcFrame, h]
  exact if_pos ⟨waits, free⟩

theorem hcFrame_keepsDone (h : s.hc.serve = none) {wb : Option Bool}
    (stays : wb = none ∨ s.hc.dq = 0#32 ∨ s.hc.wdh = true) : hcFrame wb s = frameStart s := by
  simp only [hcFrame, h]
  cases wb with
  | none => rfl
  | some flag =>
    refine if_neg fun ⟨waits, free⟩ => ?_
    rcases stays with no | no | no
    · cases no
    · exact waits no
    · exact Bool.false_ne_true (free.symm.trans no)

/-- The words a serve writes of its TD and its ED, the TD's link to the done list left aside (20_memory.md R124,
R125). -/
def Serve.writes (v : Serve) (d : TdView) (a : Word) : Prop :=
  a = ptrOf d.head ∨ a = ptrOf d.head + 4#32 ∨ a = v.ed + 8#32

/-- What a step of the HC can do. -/
inductive HcDoes (s : State) : State → Prop
  /-- the move is not enabled -/
  | nothing : HcDoes s s
  | frame : HcDoes s (frameStart s)
  | writeBack (free : s.hc.wdh = false) (w : Word) : HcDoes s ((frameStart s).publishDone w)
  | restartControl : HcDoes s { s with hc := { s.hc with cpos := s.hc.controlHead } }
  | restartBulk : HcDoes s { s with hc := { s.hc with bpos := s.hc.bulkHead } }
  /-- a serve begins or goes on, nothing being written -/
  | goOn (v : Serve) (ph : Phase) : HcDoes s (servePhase s v ph)
  | word {v : Serve} {d : TdView} {a : Word} (serves : s.hc.serve = some v) (works : v.phase.view = some d)
    (place : v.writes d a) (w : Word) (ph : Phase) : HcDoes s (servePhase (s.physWrite a w) v ph)
  /-- the TD becomes the head of the done list -/
  | link {v : Serve} {d : TdView} (serves : s.hc.serve = some v) (works : v.phase.view = some d) (ph : Phase) :
    HcDoes s (servePhase
      { s.physWrite (ptrOf d.head + 8#32) s.hc.dq with hc := { s.hc with dq := ptrOf d.head } } v ph)
  | data {v : Serve} {d : TdView} {a : Word} (serves : s.hc.serve = some v) (works : v.phase.view = some d)
    (lands : (inBuffer d a && isIn v.control d && !blockOwns s.params a.toNat) = true) (b : Byte) (ph : Phase) :
    HcDoes s (servePhase { s with mem := storeByte s.mem a.toNat b } v ph)
  | moveOn (p : Pos) (w : Word) : HcDoes s { s with hc := { s.hc.setPosition p (ptrOf w) with serve := none } }
  | reserved {off : BitVec 8} (free : hccaReserved off.toNat = true) (b : Byte) :
    HcDoes s { s with mem := storeByte s.mem (s.params.hccaBase + off.toNat) b }
  | status (bits : Word) :
    HcDoes s { s with hc := { s.hc with interruptStatus := s.hc.interruptStatus ||| bits } }

theorem hcFrame_does (wb : Option Bool) (s : State) : HcDoes s (hcFrame wb s) := by
  by_cases serves : s.hc.serve = none
  · by_cases stays : wb = none ∨ s.hc.dq = 0#32 ∨ s.hc.wdh = true
    · rw [hcFrame_keepsDone serves stays]
      exact .frame
    · simp only [not_or, Bool.not_eq_true] at stays
      obtain ⟨draw, waits, free⟩ := stays
      obtain ⟨flag, rfl⟩ := Option.ne_none_iff_exists'.1 draw
      rw [hcFrame_publishes serves flag waits free]
      exact .writeBack free _
  · rw [hcFrame_serving wb serves]
    exact .nothing

theorem hcRestart_does (bulk : Bool) (s : State) : HcDoes s (hcRestart bulk s) := by
  unfold hcRestart
  split
  · split
    · exact .restartBulk
    · exact .nothing
  · split
    · exact .restartControl
    · exact .nothing

theorem hcServe_does (p : Pos) (s : State) : HcDoes s (hcServe p s) := by
  unfold hcServe
  split
  · exact .nothing
  · dsimp only
    split
    · exact .goOn _ _
    · exact .nothing

theorem hcEvent_does (s : State) : HcDoes s (hcEvent s) := by
  unfold hcEvent
  split
  · exact .nothing
  · rename_i v serves
    cases phase : v.phase with
    | readHead => exact .goOn _ _
    | readTail h => exact .goOn _ _
    | readTdControl h => exact .goOn _ _
    | readTdCbp h c => exact .goOn _ _
    | readTdNext h c cbp => exact .goOn _ _
    | readTdBe h c cbp nx => exact .goOn _ _
    | process d wrote => exact .nothing
    | progressControl d t ec => exact .word serves (by rw [phase]; rfl) (.inl rfl) _ _
    | retireCbp d cbp carry halt => exact .word serves (by rw [phase]; rfl) (.inr (.inl rfl)) _ _
    | retireNext d carry halt => exact .link serves (by rw [phase]; rfl) _
    | retireHead d carry halt => exact .word serves (by rw [phase]; rfl) (.inr (.inr rfl)) _ _
    | readNext => exact .moveOn _ _

theorem hcOutcome_does (m : HcMove) (s : State) : HcDoes s (hcOutcome m s) := by
  unfold hcOutcome
  split
  · exact .nothing
  · rename_i v serves
    split
    · rename_i d wrote phase
      have works : v.phase.view = some d := by rw [phase]; rfl
      split
      · split
        · exact .nothing
        · exact .goOn _ _
      · split
        · exact .word serves works (.inr (.inl rfl)) _ _
        · exact .nothing
      · split
        · exact .word serves works (.inl rfl) _ _
        · exact .nothing
      · split
        · rename_i lands
          exact .data serves works lands _ _
        · exact .nothing
      · exact .nothing
    · exact .nothing

theorem hcMove_does (m : HcMove) (s : State) : HcDoes s (hcMove m s) := by
  cases m with
  | frame wb => exact hcFrame_does wb s
  | restart bulk => exact hcRestart_does bulk s
  | serve p => exact hcServe_does p s
  | event => exact hcEvent_does s
  | noProgress => exact hcOutcome_does .noProgress s
  | progress cbp u => exact hcOutcome_does (.progress cbp u) s
  | retire cc t ec cbp carry => exact hcOutcome_does (.retire cc t ec cbp carry) s
  | data a b => exact hcOutcome_does (.data a b) s
  | reserved off b =>
    dsimp only [hcMove]
    split
    · rename_i free
      exact .reserved free b
    · exact .nothing
  | status bits => exact .status _

/-! ### The registers a step of the HC leaves (20_memory.md R91 to R97, R120) -/

/-- The registers that are not the HC's to write are the same, and no status bit has fallen. -/
structure Hc.KeepsRegisters (h h' : Hc) : Prop where
  control : h'.control = h.control
  commandStatus : h'.commandStatus = h.commandStatus
  controlHead : h'.controlHead = h.controlHead
  bulkHead : h'.bulkHead = h.bulkHead
  hcca : h'.hcca = h.hcca
  others : h'.others = h.others
  status : ∀ k, h.interruptStatus.getLsbD k = true → h'.interruptStatus.getLsbD k = true

theorem keepsRegisters_setPosition (h : Hc) (p : Pos) (a : Word) : h.KeepsRegisters (h.setPosition p a) := by
  cases p <;> exact ⟨rfl, rfl, rfl, rfl, rfl, rfl, fun _ => id⟩

theorem getLsbD_or_left {w : Word} {k : Nat} (bits : Word) (h : w.getLsbD k = true) : (w ||| bits).getLsbD k = true := by
  rw [BitVec.getLsbD_or, h, Bool.true_or]

theorem HcDoes.keepsRegisters (does : HcDoes s t) : s.hc.KeepsRegisters t.hc := by
  cases does with
  | writeBack => exact ⟨rfl, rfl, rfl, rfl, rfl, rfl, fun _ => getLsbD_or_left _⟩
  | status => exact ⟨rfl, rfl, rfl, rfl, rfl, rfl, fun _ => getLsbD_or_left _⟩
  | moveOn p w =>
    obtain ⟨h1, h2, h3, h4, h5, h6, h7⟩ := keepsRegisters_setPosition s.hc p (ptrOf w)
    exact ⟨h1, h2, h3, h4, h5, h6, h7⟩
  | _ => exact ⟨rfl, rfl, rfl, rfl, rfl, rfl, fun _ => id⟩

/-! ### The bytes of memory a step of the HC changes (20_memory.md R120, R126, R127) -/

theorem byte_of_storeByte {m : List Host.Cell} {a x : Nat} {b : Byte}
    (h : loadByte (storeByte m a b) x ≠ loadByte m x) : x = a :=
  Decidable.byContradiction fun ne => h (loadByte_storeByte_ne m ne b)

theorem byte_of_store32 {m : List Host.Cell} {a x : Nat} {w : Word}
    (h : loadByte (store32 m a w) x ≠ loadByte m x) : a ≤ x ∧ x < a + 4 :=
  Decidable.byContradiction fun out => h (loadByte_store32_ne m (by omega) w)

theorem loadByte_store16_ne (m : List Host.Cell) {x a : Nat} (h : x < a ∨ a + 2 ≤ x) (v : BitVec 16) :
    loadByte (store16 m a v) x = loadByte m x := by
  rw [store16, loadByte_storeByte_ne _ (by omega), loadByte_storeByte_ne _ (by omega)]

theorem byte_of_store16 {m : List Host.Cell} {a x : Nat} {v : BitVec 16}
    (h : loadByte (store16 m a v) x ≠ loadByte m x) : a ≤ x ∧ x < a + 2 :=
  Decidable.byContradiction fun out => h (loadByte_store16_ne m (by omega) v)

theorem ptrOf_mod (w : Word) : (ptrOf w).toNat % 16 = 0 := by
  have low : ptrOf w &&& 0xF#32 = 0#32 := by
    rw [ptrOf, BitVec.and_assoc, BitVec.and_comm (~~~_)]
    simp
  have := congrArg BitVec.toNat low
  rwa [BitVec.toNat_and, show (0xF#32 : Word).toNat = 2 ^ 4 - 1 from rfl, Nat.and_two_pow_sub_one_eq_mod] at this

@[simp] theorem ptrOf_ptrOf (w : Word) : ptrOf (ptrOf w) = ptrOf w := ptrOf_aligned (ptrOf_mod w)

/-- A word of an aligned descriptor lies in it. -/
theorem ptrOf_add_toNat (w k : Word) (hk : k.toNat < 16) : (ptrOf w + k).toNat = (ptrOf w).toNat + k.toNat := by
  have := ptrOf_mod w
  have := (ptrOf w).isLt
  rw [BitVec.toNat_add, Nat.mod_eq_of_lt (by omega)]

theorem doneHeadAddr_toNat {p : Params} (g : p.Good) : (doneHeadAddr p).toNat = p.hccaBase + 0x84 := by
  have := g.hccaLow
  rw [doneHeadAddr, BitVec.toNat_ofNat, Nat.mod_eq_of_lt (by omega)]

theorem isIn_cases {w : Word} {d : TdView} (h : isIn w d = true) :
    w.extractLsb' 11 2 = 2#2 ∨ (w.extractLsb' 11 2 ≠ 1#2 ∧ d.control.extractLsb' 19 2 = 2#2) := by
  unfold isIn at h
  split at h
  · cases h
  · rename_i is
    exact .inl (BitVec.eq_of_toNat_eq is)
  · rename_i notOut _
    exact .inr ⟨fun is => notOut (by rw [is]; rfl), by simpa [dpOf] using h⟩

/-- The bytes of the HCCA a step of the HC may write: those beyond the interrupt table, and of `HccaDoneHead` only
where `WDH` is 0. -/
def State.hccaWritable (s : State) (x : Nat) : Prop :=
  s.params.hccaBase + 0x80 ≤ x ∧ x < s.params.hccaBase + 0x100 ∧
    (s.hc.wdh = true → ¬ (s.params.hccaBase + 0x84 ≤ x ∧ x < s.params.hccaBase + 0x88))

/-- The bytes a serve may write while it works on a TD: the TD's first three words, the ED's `HeadP`, and the buffer
of an IN TD where the block owns nothing. -/
def Serve.writable (p : Params) (v : Serve) (d : TdView) (x : Nat) : Prop :=
  ((ptrOf d.head).toNat ≤ x ∧ x < (ptrOf d.head).toNat + 12) ∨ inWord (v.ed + 8#32) x = true ∨
    (d.cbp ≠ 0#32 ∧ d.cbp.toNat ≤ x ∧ x ≤ d.be.toNat ∧
      (v.control.extractLsb' 11 2 = 2#2 ∨
        (v.control.extractLsb' 11 2 ≠ 1#2 ∧ d.control.extractLsb' 19 2 = 2#2)) ∧
      ¬ (p.descBase ≤ x ∧ x < p.descBase + p.stride * (p.ned + 1)) ∧
      ¬ (p.tdBase ≤ x ∧ x < p.tdBase + p.stride * p.ntd) ∧
      ¬ (p.hccaBase ≤ x ∧ x < p.hccaBase + 0x100))

theorem writable_of_writes {p : Params} {v : Serve} {d : TdView} {a : Word} (place : v.writes d a) {x : Nat}
    (hx : a.toNat ≤ x ∧ x < a.toNat + 4) : v.writable p d x := by
  rcases place with rfl | rfl | rfl
  · exact .inl (by omega)
  · have := ptrOf_add_toNat d.head 4#32 (by decide)
    have four : (4#32 : Word).toNat = 4 := rfl
    exact .inl (by omega)
  · exact .inr (.inl (decide_eq_true hx))

theorem writable_of_link {p : Params} {v : Serve} {d : TdView} {x : Nat}
    (hx : (ptrOf d.head + 8#32).toNat ≤ x ∧ x < (ptrOf d.head + 8#32).toNat + 4) : v.writable p d x := by
  have := ptrOf_add_toNat d.head 8#32 (by decide)
  have eight : (8#32 : Word).toNat = 8 := rfl
  exact .inl (by omega)

theorem writable_of_data {p : Params} {v : Serve} {d : TdView} {a : Word}
    (lands : (inBuffer d a && isIn v.control d && !blockOwns p a.toNat) = true) : v.writable p d a.toNat := by
  simp only [inBuffer, blockOwns, Bool.and_eq_true, bne_iff_ne, decide_eq_true_eq, Bool.not_eq_true',
    Bool.or_eq_false_iff, decide_eq_false_iff_not] at lands
  obtain ⟨⟨⟨⟨some, low⟩, high⟩, dir⟩, ⟨desc, tds⟩, hcca⟩ := lands
  exact .inr (.inr ⟨some, low, high, isIn_cases dir, desc, tds, hcca⟩)

theorem hccaWritable_frame {x : Nat} (hx : s.params.hccaBase + 0x80 ≤ x ∧ x < s.params.hccaBase + 0x80 + 2) :
    s.hccaWritable x := ⟨by omega, by omega, fun _ => by omega⟩

theorem hccaWritable_reserved {off : Nat} (small : off < 256) (free : hccaReserved off = true) :
    s.hccaWritable (s.params.hccaBase + off) := by
  simp only [hccaReserved, Bool.or_eq_true, beq_iff_eq, decide_eq_true_eq] at free
  exact ⟨by omega, by omega, fun _ => by omega⟩

/-- A byte that a step of the HC changes lies where the HC may write. -/
theorem HcDoes.changed (does : HcDoes s t) (g : s.params.Good) {x : Nat} (changed : loadByte t.mem x ≠ loadByte s.mem x) :
    s.hccaWritable x ∨ ∃ v d, s.hc.serve = some v ∧ v.phase.view = some d ∧ v.writable s.params d x := by
  cases does with
  | frame => exact .inl (hccaWritable_frame (byte_of_store16 changed))
  | writeBack free w =>
    left
    by_cases published : loadByte (frameStart s).mem x = loadByte s.mem x
    · have hx := byte_of_store32 (m := (frameStart s).mem) (by rwa [published])
      have place : (doneHeadAddr (frameStart s).params).toNat = s.params.hccaBase + 0x84 := doneHeadAddr_toNat g
      exact ⟨by omega, by omega, fun wdh => by rw [free] at wdh; cases wdh⟩
    · exact hccaWritable_frame (byte_of_store16 published)
  | word serves works place w ph =>
    exact .inr ⟨_, _, serves, works, writable_of_writes place (byte_of_store32 changed)⟩
  | link serves works ph => exact .inr ⟨_, _, serves, works, writable_of_link (byte_of_store32 changed)⟩
  | data serves works lands b ph =>
    obtain rfl := byte_of_storeByte changed
    exact .inr ⟨_, _, serves, works, writable_of_data lands⟩
  | reserved free b =>
    obtain rfl := byte_of_storeByte changed
    exact .inl (hccaWritable_reserved (BitVec.isLt _) free)
  | _ => exact absurd rfl changed

/-- Settles O25: what a step of the HC does sets neither of these registers and writes nothing else. -/
theorem hcLeavesTheBlockAlone : Obligations.HcLeavesTheBlockAlone := by
  intro m s
  obtain ⟨w, c, shape⟩ := hcMove_shape m s
  have does := hcMove_does m s
  obtain ⟨control, commandStatus, controlHead, bulkHead, hcca, others, status⟩ := does.keepsRegisters
  exact ⟨by rw [shape], control, commandStatus, controlHead, bulkHead, hcca, others, status,
    fun legal x changed => does.changed (Params.legal_good legal) changed⟩

/-! ### Pointers (20_memory.md R97, R122) -/

/-- The head registers, the positions and the done list have bits [3:0] zero. -/
structure Hc.PointersAligned (h : Hc) : Prop where
  controlHead : ptrOf h.controlHead = h.controlHead
  bulkHead : ptrOf h.bulkHead = h.bulkHead
  ppos : ptrOf h.ppos = h.ppos
  cpos : ptrOf h.cpos = h.cpos
  bpos : ptrOf h.bpos = h.bpos
  dq : ptrOf h.dq = h.dq

theorem pointersAligned_iff : s.pointersAligned = true ↔ s.hc.PointersAligned := by
  simp only [State.pointersAligned, List.all_cons, List.all_nil, Bool.and_true, Bool.and_eq_true, beq_iff_eq]
  exact ⟨fun ⟨h1, h2, h3, h4, h5, h6⟩ => ⟨h1, h2, h3, h4, h5, h6⟩,
    fun ⟨h1, h2, h3, h4, h5, h6⟩ => ⟨h1, h2, h3, h4, h5, h6⟩⟩

theorem HcDoes.pointersAligned (does : HcDoes s t) (h : s.hc.PointersAligned) : t.hc.PointersAligned := by
  cases does with
  | nothing => exact h
  | frame => exact { h with ppos := ptrOf_ptrOf _ }
  | writeBack => exact { h with ppos := ptrOf_ptrOf _, dq := (by decide : ptrOf 0#32 = 0#32) }
  | restartControl => exact { h with cpos := h.controlHead }
  | restartBulk => exact { h with bpos := h.bulkHead }
  | goOn => exact { h with }
  | word => exact { h with }
  | link => exact { h with dq := ptrOf_ptrOf _ }
  | data => exact { h with }
  | moveOn p w =>
    cases p with
    | periodic => exact { h with ppos := ptrOf_ptrOf _ }
    | control => exact { h with cpos := ptrOf_ptrOf _ }
    | bulk => exact { h with bpos := ptrOf_ptrOf _ }
  | reserved => exact h
  | status => exact { h with }

/-- A register write sets a pointer with bits [3:0] cleared (logs 17, 26). -/
theorem pointersAligned_regWrite {h : Hc} (a : h.PointersAligned) (off : Nat) (v : Word) :
    (hcRegWrite h off v).PointersAligned := by
  unfold hcRegWrite
  split
  case h_5 => exact { a with ppos := ptrOf_ptrOf _ }
  case h_6 => exact { a with controlHead := ptrOf_ptrOf _ }
  case h_7 => exact { a with cpos := ptrOf_ptrOf _ }
  case h_8 => exact { a with bulkHead := ptrOf_ptrOf _ }
  case h_9 => exact { a with bpos := ptrOf_ptrOf _ }
  case h_10 => exact { a with dq := ptrOf_ptrOf _ }
  all_goals exact { a with }

/-! ### Properties of the HC over every schedule -/

theorem hostMove_keeps {Q : Hc → Prop} (regs : ∀ h off v, Q h → Q (hcRegWrite h off v)) {m : HostMove}
    (e : hostMove m s = .ok t) (h : Q s.hc) : Q t.hc := by
  cases m with
  | hcWrite off v =>
    cases e
    split
    · exact h
    · exact regs _ _ _ h
  | blockRead off size =>
    simp only [hostMove] at e
    split at e <;> cases e
    exact h
  | blockWrite off size v =>
    simp only [hostMove] at e
    split at e <;> cases e
    obtain ⟨_, _, _, _, _, _, _, _, _, _, shape⟩ := blockRegWrite_shape s off.toNat v
    rw [shape]
    exact h
  | hcRead off =>
    cases e
    exact h
  | memRead a =>
    cases e
    split
    · exact h
    · obtain ⟨k, shape⟩ := touch_shape s a.toNat
      rw [shape]
      exact h
  | memWrite a b =>
    cases e
    split
    · exact h
    · obtain ⟨w, k, shape⟩ := cacheStoreByte_shape s a.toNat b
      rw [shape]
      exact h

section
variable {Q : Hc → Prop} (moves : ∀ m s, Q s.hc → Q (hcMove m s).hc)
include moves

theorem hcMoves_keeps (ms : List HcMove) (s : State) (h : Q s.hc) : Q (hcMoves ms s).hc :=
  List.foldlRecOn (motive := fun s => Q s.hc) ms _ h fun s h m _ => moves m s h

theorem hcLead_keeps (ms : List Move) (s : State) (h : Q s.hc) : Q (hcLead ms s).hc := by
  induction ms generalizing s with
  | nil => exact h
  | cons m ms ih =>
    cases m with
    | hc m => exact ih _ (moves m s h)
    | block => exact h
    | host m => exact h
    | cache m => exact h
    | timer => exact h
    | reset => exact h

theorem flushWords_keeps (data : List Host.Cell) (ws : List Nat) (s : State) (h : Q s.hc) :
    Q (flushWords data ws s).hc := by
  induction ws generalizing s with
  | nil => exact h
  | cons a ws ih => exact ih _ (hcLead_keeps moves _ s h)

theorem evictWords_keeps (data : List Host.Cell) (ws : List Nat) (inter : List (List HcMove)) (s : State)
    (h : Q s.hc) : Q (evictWords data ws inter s).hc := by
  induction ws generalizing s inter with
  | nil => exact h
  | cons a ws ih => exact ih _ _ (hcMoves_keeps moves _ s h)

theorem flushLine_keeps (b : Nat) (s : State) (h : Q s.hc) : Q (s.flushLine b).hc := by
  unfold State.flushLine
  split
  · exact h
  · split
    · exact h
    · split
      · exact flushWords_keeps moves _ _ s h
      · exact h

theorem cacheMove_keeps (m : CacheMove) (s : State) (h : Q s.hc) : Q (cacheMove m s).hc := by
  unfold cacheMove
  split
  · exact h
  · cases m with
    | writeBack base inter =>
      dsimp only
      split
      · exact h
      · split
        · exact evictWords_keeps moves _ _ _ s h
        · exact h
    | drop base =>
      dsimp only
      split
      · exact h
      · split <;> exact h

variable (regs : ∀ h off v, Q h → Q (hcRegWrite h off v))
include regs

/-- A property of the HC that its steps and the writes of its registers keep is carried, whoever moves. -/
theorem carried_of_hc : Carried (fun _ => True) (fun s => Q s.hc) where
  moves _ _ _ _ := trivial
  seq _ _ := id
  sched _ _ _ := id
  move m s t _ e h := by
    cases m with
    | block => cases e; exact h
    | timer => cases e; exact h
    | reset => cases e
    | hc m => cases e; exact moves m s h
    | cache m => cases e; exact cacheMove_keeps moves m s h
    | host m =>
      simp only [otherMove] at e
      split at e
      · rename_i answers
        cases e
        exact hostMove_keeps regs answers h
      · cases e
  reset _ _ := id
  touched s a h := by
    obtain ⟨k, shape⟩ := touch_shape s a
    rw [shape]
    exact h
  stored s a v h := by
    obtain ⟨w, k, shape⟩ := cacheStore_shape s a v
    rw [shape]
    exact h
  flushed s b := flushLine_keeps moves b s
  invalidated s b h := by
    obtain ⟨k, shape⟩ := invalLine_shape s b
    rw [shape]
    exact h
  mmio _ _ _ := regs _ _ _

end

/-- The block's own updates leave the HC alone. -/
theorem updates_of_hc (Q : Hc → Prop) : Updates (fun s => Q s.hc) where
  lost _ _ := id
  ended _ _ := id
  results _ _ := id
  raised _ _ := id
  unlocked _ := id
  start _ := id
  lock _ := id
  setEd _ _ _ := id
  setTd _ _ _ := id
  setIndexed _ _ _ := id
  setList _ _ _ := id
  fault _ _ _ := id
  record _ _ _ := id

/-- Settles O11: every pointer the HC or a register write sets is aligned or was one of the others before. -/
theorem pointersAlignedKept : Obligations.PointersAlignedKept := by
  intro s t aligned e
  have carried := carried_of_hc (fun m s => (hcMove_does m s).pointersAligned)
    fun _ off v a => pointersAligned_regWrite a off v
  exact pointersAligned_iff.2
    (step_keeps_of_updates carried (updates_of_hc Hc.PointersAligned) (pointersAligned_iff.1 aligned) e)

end Sys2Proof.Machine
end

section
/-! SUPPORT. The steps of the HC in full: the frame step, the restart of a position, and a serve from its first event
to its last (20_memory.md R121 to R126). -/

namespace Sys2Proof.Machine

variable {s : State}

/-! ### The frame step (20_memory.md R121, R122, R126) -/

theorem frameStart_hc (g : s.params.Good) : (frameStart s).hc = { s.hc with
    fmNumber := s.hc.fmNumber + 1#16
    ppos := ptrOf (s.physRead (tableAddr s.params ((s.hc.fmNumber + 1#16).toNat % 32))) } := by
  have entry := g.tableAddr_toNat (i := (s.hc.fmNumber + 1#16).toNat % 32) (by omega)
  have seen : load32 (frameStart s).mem (tableAddr s.params ((s.hc.fmNumber + 1#16).toNat % 32)).toNat =
      s.physRead (tableAddr s.params ((s.hc.fmNumber + 1#16).toNat % 32)) :=
    load32_congr fun x _ high => loadByte_store16_ne _ (by omega) _
  rw [← seen]
  rfl

theorem loadByte_frameStart (s : State) :
    loadByte (frameStart s).mem (s.params.hccaBase + 0x80) = (s.hc.fmNumber + 1#16).extractLsb' 0 8 ∧
      loadByte (frameStart s).mem (s.params.hccaBase + 0x81) = (s.hc.fmNumber + 1#16).extractLsb' 8 8 := by
  refine ⟨?_, loadByte_storeByte_self _ _ _⟩
  exact (loadByte_storeByte_ne _ (by omega) _).trans (loadByte_storeByte_self _ _ _)

theorem loadByte_frameStart_ne {x : Nat} (out : ¬ (s.params.hccaBase + 0x80 ≤ x ∧ x < s.params.hccaBase + 0x82)) :
    loadByte (frameStart s).mem x = loadByte s.mem x :=
  loadByte_store16_ne _ (by omega) _

theorem physRead_frameStart_doneHead (g : s.params.Good) :
    (frameStart s).physRead (doneHeadAddr s.params) = s.physRead (doneHeadAddr s.params) := by
  have place := doneHeadAddr_toNat g
  exact load32_congr fun x low _ => loadByte_frameStart_ne (by omega)

theorem loadByte_publishDone_ne (g : s.params.Good) (w : Word) {x : Nat}
    (out : ¬ (s.params.hccaBase + 0x84 ≤ x ∧ x < s.params.hccaBase + 0x88)) :
    loadByte (s.publishDone w).mem x = loadByte s.mem x := by
  have place := doneHeadAddr_toNat g
  exact loadByte_store32_ne _ (by omega) _

/-- A frame step in any case: what the frame's number and the writeback change, and that the rest stays. -/
theorem hcFrame_frame (g : s.params.Good) (h : s.hc.serve = none) (wb : Option Bool) :
    hcFrame wb s = { s with
      mem := (hcFrame wb s).mem
      hc := { s.hc with
        fmNumber := s.hc.fmNumber + 1#16
        ppos := ptrOf (s.physRead (tableAddr s.params ((s.hc.fmNumber + 1#16).toNat % 32)))
        dq := (hcFrame wb s).hc.dq
        interruptStatus := (hcFrame wb s).hc.interruptStatus } } ∧
    ∀ x, ¬ (s.params.hccaBase + 0x84 ≤ x ∧ x < s.params.hccaBase + 0x88) →
      loadByte (hcFrame wb s).mem x = loadByte (frameStart s).mem x := by
  have start : frameStart s = { s with mem := (frameStart s).mem, hc := (frameStart s).hc } := rfl
  by_cases stays : wb = none ∨ s.hc.dq = 0#32 ∨ s.hc.wdh = true
  · rw [hcFrame_keepsDone h stays]
    refine ⟨?_, fun x _ => rfl⟩
    conv_lhs => rw [start, frameStart_hc g]
    rfl
  · simp only [not_or, Bool.not_eq_true] at stays
    obtain ⟨draw, waits, free⟩ := stays
    obtain ⟨flag, rfl⟩ := Option.ne_none_iff_exists'.1 draw
    rw [hcFrame_publishes h flag waits free]
    refine ⟨?_, fun x out => loadByte_publishDone_ne (s := frameStart s) g _ out⟩
    conv_lhs => rw [State.publishDone, start, frameStart_hc g]
    rfl

/-! ### A serve, event by event (20_memory.md R123 to R125) -/

theorem hcMoves_cons (m : HcMove) (ms : List HcMove) (s : State) : hcMoves (m :: ms) s = hcMoves ms (hcMove m s) := rfl

theorem hcMoves_append (ms ms' : List HcMove) (s : State) : hcMoves (ms ++ ms') s = hcMoves ms' (hcMoves ms s) :=
  List.foldl_append

theorem hcServe_disabled {p : Pos} (h : s.hc.serve = none)
    (off : s.hc.position p = 0#32 ∨ s.hc.listEnabled p = false) : hcMove (.serve p) s = s := by
  simp only [hcMove, hcServe, h]
  refine if_neg fun ⟨named, on⟩ => ?_
  rcases off with off | off
  · exact named off
  · exact Bool.false_ne_true (off.symm.trans on)

/-- The serve that begins at a position. -/
def State.serveAt (s : State) (p : Pos) : Serve :=
  { pos := p, ed := s.hc.position p, control := s.physRead (s.hc.position p), phase := .readNext }

/-- `HeadP` of the ED at a position. -/
def State.headAt (s : State) (p : Pos) : Word := s.physRead (s.hc.position p + 8#32)

/-- The words of the TD a `HeadP` names. -/
def State.tdView (s : State) (h : Word) : TdView :=
  { head := h, control := s.physRead (ptrOf h), cbp := s.physRead (ptrOf h + 4#32)
    next := s.physRead (ptrOf h + 8#32), be := s.physRead (ptrOf h + 12#32) }

/-- Memory and the done list as a serve leaves them. -/
def State.leave (s : State) (m : List Host.Cell) (dq : Word) : State := { s with mem := m, hc := { s.hc with dq := dq } }

@[simp] theorem leave_mem (m : List Host.Cell) (dq : Word) : (s.leave m dq).mem = m := rfl

@[simp] theorem leave_dq (m : List Host.Cell) (dq : Word) : (s.leave m dq).hc.dq = dq := rfl

@[simp] theorem leave_leave (m m' : List Host.Cell) (dq dq' : Word) : (s.leave m dq).leave m' dq' = s.leave m' dq' := rfl

/-- A serve at a position has ended, and the position has moved on by `NextED`. -/
def State.served (s : State) (p : Pos) (m : List Host.Cell) (dq : Word) : State :=
  { s with
    mem := m
    hc := { s.hc.setPosition p (ptrOf (load32 m (s.hc.position p + 12#32).toNat)) with dq := dq } }

section
variable {v : Serve} {d : TdView}

theorem event_readHead : hcMove .event (servePhase s v .readHead) =
    servePhase s v (.readTail (s.physRead (v.ed + 8#32))) := rfl

theorem event_readTail (h : Word) : hcMove .event (servePhase s v (.readTail h)) =
    servePhase s v
      (if h.getLsbD 0 || ptrOf h == ptrOf (s.physRead (v.ed + 4#32)) then .readNext else .readTdControl h) := rfl

theorem event_readTdControl (h : Word) : hcMove .event (servePhase s v (.readTdControl h)) =
    servePhase s v (.readTdCbp h (s.physRead (ptrOf h))) := rfl

theorem event_readTdCbp (h c : Word) : hcMove .event (servePhase s v (.readTdCbp h c)) =
    servePhase s v (.readTdNext h c (s.physRead (ptrOf h + 4#32))) := rfl

theorem event_readTdNext (h c cbp : Word) : hcMove .event (servePhase s v (.readTdNext h c cbp)) =
    servePhase s v (.readTdBe h c cbp (s.physRead (ptrOf h + 8#32))) := rfl

theorem event_readTdBe (h c cbp nx : Word) : hcMove .event (servePhase s v (.readTdBe h c cbp nx)) =
    servePhase s v (.process
      { head := h, control := c, cbp := cbp, next := nx, be := s.physRead (ptrOf h + 12#32) } false) := rfl

/-- The four reads of a TD. -/
theorem events_readTd (h : Word) : hcMoves [.event, .event, .event, .event] (servePhase s v (.readTdControl h)) =
    servePhase s v (.process (s.tdView h) false) := by
  rw [hcMoves_cons, event_readTdControl, hcMoves_cons, event_readTdCbp, hcMoves_cons, event_readTdNext,
    hcMoves_cons, event_readTdBe]
  rfl

theorem noProgress_process : hcMove .noProgress (servePhase s v (.process d false)) = servePhase s v .readNext := rfl

theorem inBuffer_of_le {a : Word} (h : d.cbp ≠ 0#32 ∧ d.cbp.toNat ≤ a.toNat ∧ a.toNat ≤ d.be.toNat) :
    inBuffer d a = true := by
  simpa only [inBuffer, Bool.and_eq_true, bne_iff_ne, decide_eq_true_eq, and_assoc] using h

theorem progress_process {a : Word} (inside : inBuffer d a = true) (ne : a ≠ d.cbp)
    (update : Option (BitVec 2 × BitVec 2)) :
    hcMove (.progress a update) (servePhase s v (.process d false)) =
      servePhase (s.leave (store32 s.mem (ptrOf d.head + 4#32).toNat a) s.hc.dq) v
        (match update with
          | none => .readNext
          | some (t, ec) => .progressControl d t ec) := by
  have allowed : (inBuffer d a && a != d.cbp) = true := by simp [inside, ne]
  exact if_pos allowed

theorem event_progressControl (t ec : BitVec 2) : hcMove .event (servePhase s v (.progressControl d t ec)) =
    servePhase (s.leave (store32 s.mem (ptrOf d.head).toNat (withToggle d.control t ec)) s.hc.dq) v .readNext := rfl

theorem progressControl_process {a : Word} (inside : inBuffer d a = true) (ne : a ≠ d.cbp) (t ec : BitVec 2) :
    hcMoves [.progress a (some (t, ec)), .event] (servePhase s v (.process d false)) =
      servePhase
        (s.leave
          (store32 (store32 s.mem (ptrOf d.head + 4#32).toNat a) (ptrOf d.head).toNat (withToggle d.control t ec))
          s.hc.dq) v .readNext := by
  rw [hcMoves_cons, progress_process inside ne, hcMoves_cons, event_progressControl]
  simp only [leave_mem, leave_dq, leave_leave]
  rfl

theorem event_retireCbp (a : Word) (carry halt : Bool) : hcMove .event (servePhase s v (.retireCbp d a carry halt)) =
    servePhase (s.leave (store32 s.mem (ptrOf d.head + 4#32).toNat a) s.hc.dq) v (.retireNext d carry halt) := rfl

theorem event_retireNext (carry halt : Bool) : hcMove .event (servePhase s v (.retireNext d carry halt)) =
    servePhase (s.leave (store32 s.mem (ptrOf d.head + 8#32).toNat s.hc.dq) (ptrOf d.head)) v
      (.retireHead d carry halt) := rfl

theorem getLsbD_of_small {c : Word} {i : Nat} (small : c.toNat < 16) (high : 4 ≤ i) : c.getLsbD i = false :=
  Nat.testBit_lt_two_pow (small.trans_le (Nat.pow_le_pow_right (n := 2) (by decide) high))

/-- The word a retirement writes to `HeadP` (20_memory.md R125 (4)). -/
theorem retiredHead_eq (nx : Word) (carry halt : Bool) :
    ptrOf nx ||| (if carry then carryBit else 0#32) ||| (if halt then haltBit else 0#32) =
      nx.extractLsb' 4 28 ++ 0#2 ++ BitVec.ofBool carry ++ BitVec.ofBool halt := by
  have smallCarry : (if carry then carryBit else 0#32).toNat < 16 := by cases carry <;> decide
  have smallHalt : (if halt then haltBit else 0#32).toNat < 16 := by cases halt <;> decide
  apply BitVec.eq_of_getLsbD_eq
  intro i hi
  simp only [ptrOf, BitVec.getLsbD_or, BitVec.getLsbD_and, BitVec.getLsbD_not, BitVec.getLsbD_append,
    BitVec.getLsbD_extractLsb']
  by_cases low : i < 4
  · interval_cases i <;> cases carry <;> cases halt <;> simp [carryBit, haltBit]
  · rw [getLsbD_of_small smallCarry (by omega), getLsbD_of_small smallHalt (by omega),
      getLsbD_of_small (c := 0xF#32) (by decide) (by omega)]
    simp [hi, show ¬ i < 1 by omega, show ¬ i - 1 < 1 by omega, show ¬ i - 1 - 1 < 2 by omega,
      show i - 1 - 1 - 2 < 28 by omega, show 4 + (i - 1 - 1 - 2) = i by omega]

theorem event_retireHead (carry halt : Bool) : hcMove .event (servePhase s v (.retireHead d carry halt)) =
    servePhase (s.leave (store32 s.mem (v.ed + 8#32).toNat
      (d.next.extractLsb' 4 28 ++ 0#2 ++ BitVec.ofBool carry ++ BitVec.ofBool halt)) s.hc.dq) v .readNext := by
  rw [← retiredHead_eq]
  rfl

/-- The memory a retirement leaves: its four writes in order (20_memory.md R125). -/
def retiredMem (s : State) (v : Serve) (d : TdView) (cc : BitVec 4) (t ec : BitVec 2) (a : Word) (carry : Bool) :
    List Host.Cell :=
  store32
    (store32
      (store32 (store32 s.mem (ptrOf d.head).toNat (withRetired d.control cc t ec)) (ptrOf d.head + 4#32).toNat a)
      (ptrOf d.head + 8#32).toNat s.hc.dq)
    (v.ed + 8#32).toNat (d.next.extractLsb' 4 28 ++ 0#2 ++ BitVec.ofBool carry ++ BitVec.ofBool (cc != 0#4))

theorem retire_process {a : Word} (allowed : a = 0#32 ∨ inBuffer d a = true) (cc : BitVec 4) (t ec : BitVec 2)
    (carry : Bool) :
    hcMoves [.retire cc t ec a carry, .event, .event, .event] (servePhase s v (.process d false)) =
      servePhase (s.leave (retiredMem s v d cc t ec a carry) (ptrOf d.head)) v .readNext := by
  have first : hcMove (.retire cc t ec a carry) (servePhase s v (.process d false)) =
      servePhase (s.leave (store32 s.mem (ptrOf d.head).toNat (withRetired d.control cc t ec)) s.hc.dq) v
        (.retireCbp d a carry (cc != 0#4)) := by
    have drawn : (a == 0#32 || inBuffer d a) = true := by simpa using allowed
    exact if_pos drawn
  rw [hcMoves_cons, first, hcMoves_cons, event_retireCbp, hcMoves_cons, event_retireNext, hcMoves_cons,
    event_retireHead]
  simp only [leave_mem, leave_dq, leave_leave]
  rfl

/-- The end of a serve sets no other field, as none was in progress when it began. -/
theorem setPosition_serve_none {h : Hc} (free : h.serve = none) (p : Pos) (a : Word) :
    { h.setPosition p a with serve := none } = h.setPosition p a := by
  have same : (h.setPosition p a).serve = none := by cases p <;> exact free
  rw [← same]

/-- The last event of a serve: the position moves on by `NextED`. -/
theorem event_readNext (free : s.hc.serve = none) (p : Pos) (m : List Host.Cell) (dq : Word) :
    hcMove .event (servePhase (s.leave m dq) (s.serveAt p) .readNext) = s.served p m dq := by
  rw [State.served, ← setPosition_serve_none free]
  cases p <;> rfl

end

/-! ### A whole serve -/

section
variable {p : Pos} (h : s.hc.serve = none) (named : s.hc.position p ≠ 0#32) (on : s.hc.listEnabled p = true)
include h named on

/-- A serve in its first phase. -/
theorem hcServe_begins : hcMove (.serve p) s =
    servePhase s (s.serveAt p) (if (s.physRead (s.hc.position p)).getLsbD 14 then .readNext else .readHead) := by
  simp only [hcMove, hcServe, h]
  exact if_pos ⟨named, on⟩

theorem serve_skipped (skip : (s.physRead (s.hc.position p)).getLsbD 14 = true) :
    hcMoves [.serve p, .event] s = s.served p s.mem s.hc.dq := by
  rw [hcMoves_cons, hcServe_begins h named on, if_pos skip]
  exact event_readNext h p _ _

variable (noSkip : (s.physRead (s.hc.position p)).getLsbD 14 = false)
include noSkip

theorem serve_readsTail : hcMoves [.serve p, .event, .event] s =
    servePhase s (s.serveAt p)
      (if (s.headAt p).getLsbD 0 || ptrOf (s.headAt p) == ptrOf (s.physRead (s.hc.position p + 4#32)) then .readNext
        else .readTdControl (s.headAt p)) := by
  rw [hcMoves_cons, hcServe_begins h named on, noSkip, if_neg Bool.false_ne_true]
  rfl

theorem serve_idle (idle : (s.headAt p).getLsbD 0 = true ∨
      ptrOf (s.headAt p) = ptrOf (s.physRead (s.hc.position p + 4#32))) :
    hcMoves [.serve p, .event, .event, .event] s = s.served p s.mem s.hc.dq := by
  have run : hcMoves [.serve p, .event, .event, .event] s = hcMove .event (hcMoves [.serve p, .event, .event] s) := rfl
  rw [run, serve_readsTail h named on noSkip, if_pos (by simpa using idle)]
  exact event_readNext h p _ _

variable (ready : ¬ ((s.headAt p).getLsbD 0 = true ∨
  ptrOf (s.headAt p) = ptrOf (s.physRead (s.hc.position p + 4#32))))
include ready

/-- A serve that comes to its TD has read all the words of it and changed nothing. -/
theorem serve_reachesTd : hcMoves (.serve p :: List.replicate 6 .event) s =
    servePhase s (s.serveAt p) (.process (s.tdView (s.headAt p)) false) := by
  have run : hcMoves (.serve p :: List.replicate 6 .event) s =
      hcMoves [.event, .event, .event, .event] (hcMoves [.serve p, .event, .event] s) := rfl
  rw [run, serve_readsTail h named on noSkip, if_neg (by simpa using ready), events_readTd]

/-- What a serve does after it has read its TD, and its last event. -/
theorem serve_ends {ms : List HcMove} {m : List Host.Cell} {dq : Word}
    (work : hcMoves ms (servePhase s (s.serveAt p) (.process (s.tdView (s.headAt p)) false)) =
      servePhase (s.leave m dq) (s.serveAt p) .readNext) :
    hcMoves ((.serve p :: List.replicate 6 .event) ++ (ms ++ [.event])) s = s.served p m dq := by
  rw [hcMoves_append, serve_reachesTd h named on noSkip ready, hcMoves_append, work]
  exact event_readNext h p m dq

end

/-- Settles O24: the frame step by its equations, the restart by definition, a serve by `serve_skipped`, `serve_idle`
and, past its TD's words, `serve_ends`. -/
theorem frameStep : Obligations.FrameStep := by
  refine ⟨fun s wb legal => ?frame, fun s => ⟨rfl, rfl⟩, fun s p free => ?serve⟩
  case frame =>
    have g := Params.legal_good legal
    intro u fn hcca
    refine ⟨hcFrame_serving wb, fun free => ?_⟩
    obtain ⟨shape, others⟩ := hcFrame_frame g free wb
    obtain ⟨low, high⟩ := loadByte_frameStart s
    refine ⟨shape, (others _ (by omega)).trans low, (others _ (by omega)).trans high,
      fun x frame done => (others x done).trans (loadByte_frameStart_ne frame), fun b draw waits clear => ?_,
      fun stays => ?_⟩
    · subst draw
      rw [show u = _ from hcFrame_publishes free b waits clear]
      exact ⟨load32_store32_self _ _ _, rfl, rfl⟩
    · rw [show u = _ from hcFrame_keepsDone free stays]
      exact ⟨physRead_frameStart_doneHead g, rfl, rfl⟩
  case serve =>
    intro ed enabled moved
    have atPosition : ed = s.hc.position p := by cases p <;> rfl
    have ofList : enabled = s.hc.listEnabled p := by cases p <;> rfl
    have moves : moved = s.hc.setPosition p := by funext a; cases p <;> rfl
    clear_value ed enabled moved
    subst atPosition ofList moves
    intro ctl head idle td old cbp be begun inside ends
    refine ⟨hcServe_disabled free, fun named on => ⟨serve_skipped free named on, serve_idle free named on,
      fun noSkip ready => ?_⟩⟩
    have finishes {ms : List HcMove} {m : List Host.Cell} {dq : Word} := serve_ends (ms := ms) (m := m) (dq := dq)
      free named on noSkip ready
    refine ⟨finishes (ms := [.noProgress]) noProgress_process, fun a within ne => ?_, fun cc t ec a carry allowed => ?_⟩
    · have inBuf : inBuffer (s.tdView head) a = true := inBuffer_of_le within
      exact ⟨finishes (ms := [.progress a none]) (progress_process inBuf ne none), fun t ec =>
        finishes (ms := [.progress a (some (t, ec)), .event]) (progressControl_process inBuf ne t ec)⟩
    · exact finishes (ms := [.retire cc t ec a carry, .event, .event, .event])
        (retire_process (allowed.imp_right inBuffer_of_le) cc t ec carry)

end Sys2Proof.Machine
end

section
/-! SUPPORT. The command word (30_encoding.md R140 to R145): a word is put together from its five fields, and a
word decodes exactly where its fields are those of a well-formed command; what a word that is no command's ends
with, and the common checks of one that is (R144). -/

namespace Sys2Proof

open Machine

/-! ### Words and their fields (30_encoding.md R140) -/

theorem ofBool_getLsbD {n : Nat} (x : BitVec n) (k : Nat) : BitVec.ofBool (x.getLsbD k) = x.extractLsb' k 1 := by
  ext j hj
  obtain rfl : j = 0 := by omega
  simp

theorem bit_ctxField (w : Word) : (ctxField w).bit = w.extractLsb' 8 1 := by
  rw [← ofBool_getLsbD, ctxField]
  cases w.getLsbD 8 <;> rfl

/-- The five fields side by side are the whole word. -/
theorem word_of_fields (w : Word) : bField w ++ aField w ++ rsvField w ++ (ctxField w).bit ++ opField w = w := by
  have b_a : bField w ++ aField w = w.extractLsb' 16 16 := BitVec.extractLsb'_append_extractLsb'_eq_extractLsb' rfl
  have rsv : w.extractLsb' 16 16 ++ rsvField w = w.extractLsb' 9 23 :=
    BitVec.extractLsb'_append_extractLsb'_eq_extractLsb' rfl
  have ctx : w.extractLsb' 9 23 ++ w.extractLsb' 8 1 = w.extractLsb' 8 24 :=
    BitVec.extractLsb'_append_extractLsb'_eq_extractLsb' rfl
  rw [bit_ctxField, b_a, rsv, ctx]
  exact BitVec.extractLsb'_append_extractLsb' (w := 24) (len := 8)

/-- No bit of a word lies outside the five fields. -/
theorem encode_of_fields {w : Word} {i : Instr} (op : opField w = i.opcode) (ctx : ctxField w = i.ctx)
    (rsv : rsvField w = 0#7) (a : aField w = i.fieldA) (b : bField w = i.fieldB) : encode i = w := by
  rw [encode, ← op, ← ctx, ← rsv, ← a, ← b, word_of_fields]

/-! ### Operands that share a byte (30_encoding.md R143) -/

/-- `CC`, the low half of `A`. -/
theorem ccByte_of_high {a : BitVec 8} (high : a.extractLsb' 4 4 = 0#4) : 0#4 ++ a.extractLsb' 0 4 = a := by
  rw [← high]
  exact BitVec.extractLsb'_append_extractLsb' (w := 4) (len := 4)

/-- `CLRTOG`, bit 0 of `B`. -/
theorem clrtogByte_of_high {b : BitVec 8} (high : b.extractLsb' 1 7 = 0#7) :
    0#7 ++ BitVec.ofBool (b.getLsbD 0) = b := by
  rw [← high, ofBool_getLsbD]
  exact BitVec.extractLsb'_append_extractLsb' (w := 7) (len := 1)

/-- `MORE`, `R`, `DI` and `DP`, bits 0, 1, [4:2] and [6:5] of `B`. -/
theorem queueByte_of_high {b : BitVec 8} (high : b.getLsbD 7 = false) :
    0#1 ++ b.extractLsb' 5 2 ++ b.extractLsb' 2 3 ++ BitVec.ofBool (b.getLsbD 1) ++
      BitVec.ofBool (b.getLsbD 0) = b := by
  have top : 0#1 = b.extractLsb' 7 1 := by rw [← ofBool_getLsbD, high]; rfl
  have dp : b.extractLsb' 7 1 ++ b.extractLsb' 5 2 = b.extractLsb' 5 3 :=
    BitVec.extractLsb'_append_extractLsb'_eq_extractLsb' rfl
  have di : b.extractLsb' 5 3 ++ b.extractLsb' 2 3 = b.extractLsb' 2 6 :=
    BitVec.extractLsb'_append_extractLsb'_eq_extractLsb' rfl
  have r : b.extractLsb' 2 6 ++ b.extractLsb' 1 1 = b.extractLsb' 1 7 :=
    BitVec.extractLsb'_append_extractLsb'_eq_extractLsb' rfl
  rw [top, ofBool_getLsbD, ofBool_getLsbD, dp, di, r]
  exact BitVec.extractLsb'_append_extractLsb' (w := 7) (len := 1)

theorem ccByte_fields (cc : BitVec 4) :
    (0#4 ++ cc).extractLsb' 4 4 = 0#4 ∧ (0#4 ++ cc).extractLsb' 0 4 = cc :=
  ⟨BitVec.extractLsb'_append_eq_left, BitVec.extractLsb'_append_eq_right⟩

theorem clrtogByte_fields (c : Bool) :
    (0#7 ++ BitVec.ofBool c).extractLsb' 1 7 = 0#7 ∧ (0#7 ++ BitVec.ofBool c).getLsbD 0 = c :=
  ⟨BitVec.extractLsb'_append_eq_left, by simp only [BitVec.getLsbD_append]; simp⟩

theorem queueByte_fields (more r : Bool) (di : BitVec 3) (dp : BitVec 2) :
    let b := 0#1 ++ dp ++ di ++ BitVec.ofBool r ++ BitVec.ofBool more
    b.getLsbD 7 = false ∧ b.getLsbD 0 = more ∧ b.getLsbD 1 = r ∧ b.extractLsb' 2 3 = di ∧ b.extractLsb' 5 2 = dp := by
  refine ⟨?_, ?_, ?_, ?_, ?_⟩
  · simp only [BitVec.getLsbD_append]; simp
  · simp only [BitVec.getLsbD_append]; simp
  · simp only [BitVec.getLsbD_append]; simp
  · rw [BitVec.extractLsb'_append_eq_of_le (by decide), BitVec.extractLsb'_append_eq_of_le (by decide)]
    exact BitVec.extractLsb'_append_eq_right
  · rw [BitVec.extractLsb'_append_eq_of_le (by decide), BitVec.extractLsb'_append_eq_of_le (by decide),
      BitVec.extractLsb'_append_eq_of_le (by decide)]
    exact BitVec.extractLsb'_append_eq_right

/-! ### The decoder and the encoder -/

/-- A command is decoded only where its reserved fields are 0. -/
theorem whenZero_zero {c : Bool} {i j : Instr} (h : whenZero c i = .ok j) : c = true := by
  cases c <;> trivial

theorem toNat_ofNat_of_fits {n : Nat} (h : fitsByte n = true) : (BitVec.ofNat 8 n).toNat = n := by
  simp only [fitsByte, decide_eq_true_eq] at h
  exact Nat.mod_eq_of_lt h

/-- Settles O1: the fields of the word are the command's (`Laws.encode_fields`), and the decoder reads each operand
back out of its field. -/
theorem decodeOfEncode : Obligations.DecodeOfEncode := by
  intro i wf
  obtain ⟨op, ctx, rsv, a, b⟩ := Laws.encode_fields i
  simp only [decode, op, ctx, rsv, a, b]
  cases i with
  | nop | schedStart | edOpen | dqDrain | cflush | cinval => rfl
  | edClose _ e | edSuspend _ e | edResume _ e | edQuiesce _ e | schedIdepth _ e | schedLoad _ e | xferComplete _ e
    | xferAbort _ e =>
    simp [Instr.opcode, Instr.ctx, Instr.fieldA, Instr.fieldB, whenZero, toNat_ofNat_of_fits wf, -BitVec.toNat_ofNat]
  | edClearHalt _ e c =>
    obtain ⟨high, clrtog⟩ := clrtogByte_fields c
    simp only [Instr.opcode, Instr.ctx, Instr.fieldA, Instr.fieldB, toNat_ofNat_of_fits wf, high, clrtog]
    rfl
  | schedBitpos _ d n =>
    obtain ⟨wfd, wfn⟩ := Bool.and_eq_true_iff.1 wf
    simp only [Instr.opcode, Instr.ctx, Instr.fieldA, Instr.fieldB, toNat_ofNat_of_fits wfd, toNat_ofNat_of_fits wfn]
    rfl
  | tdQueue _ e more r di dp =>
    obtain ⟨high, isMore, isR, isDi, isDp⟩ := queueByte_fields more r di dp
    simp only [Instr.opcode, Instr.ctx, Instr.fieldA, Instr.fieldB, toNat_ofNat_of_fits wf, high, isMore, isR, isDi,
      isDp]
    rfl
  | ccClassify _ cc =>
    obtain ⟨high, isCc⟩ := ccByte_fields cc
    simp only [Instr.opcode, Instr.ctx, Instr.fieldA, Instr.fieldB, high, isCc]
    rfl

/-- A word that decodes is the word of its command: the opcode picks the command, the guard of `whenZero` clears the
reserved bits, and each operand goes back into the field it was read from. -/
theorem encode_of_decode {w : Word} {i : Instr} (h : decode w = .ok i) : encode i = w := by
  unfold decode at h
  dsimp only at h
  split at h
  case h_19 => cases h -- a reserved opcode
  all_goals
    rename_i op
    have zero := whenZero_zero h
    cases whenZero_ok h
    simp only [Bool.and_eq_true, Bool.not_eq_true', beq_iff_eq] at zero
    refine encode_of_fields (BitVec.eq_of_toNat_eq op) rfl (by simp only [zero]) ?_ ?_ <;>
      simp only [Instr.fieldA, Instr.fieldB, zero, BitVec.ofNat_toNat, BitVec.setWidth_eq]
  case h_7 => -- `ED_CLEAR_HALT`
    exact (clrtogByte_of_high zero.2).symm
  case h_12 => -- `TD_QUEUE`
    exact (queueByte_of_high zero.2).symm
  case h_15 => -- `CC_CLASSIFY`
    exact (ccByte_of_high zero.2).symm

/-- Settles O2: `wf_of_decode` and `encode_of_decode`. -/
theorem encodeOfDecode : Obligations.EncodeOfDecode := fun _ _ h => ⟨wf_of_decode h, encode_of_decode h⟩

/-- Settles O3: each word is the encoder's word of its command, and the decoder gives that command back. -/
theorem tableWordsDecode : Obligations.TableWordsDecode :=
  ⟨decodeOfEncode (.nop .thread) rfl, decodeOfEncode (.edClose .thread 5) rfl,
    decodeOfEncode (.edClearHalt .thread 0 true) rfl, decodeOfEncode (.edQuiesce .interrupt 0) rfl,
    decodeOfEncode (.schedBitpos .thread 0 16) rfl, decodeOfEncode (.tdQueue .thread 0 true false 7#3 2#2) rfl,
    decodeOfEncode (.ccClassify .thread 4#4) rfl⟩

namespace Machine

/-! ### Commands that end before their own pseudocode (30_encoding.md R144) -/

variable {s : State} {i : Instr}

/-- A command that raised an error before it changed anything: accepted, and ended with the code. -/
theorem finish_err_begun (idle : s.seq = .idle) (w : Word) (e : ErrCode) :
    finish (.error (.err e) (s.begun w)) = .next (s.taken.ended e) := by
  simp [finish, State.endWithError, State.endCommand, State.begun, State.taken, State.ended, cmdDoneBit, idle]

/-- A word that encodes no well-formed command does not decode. -/
theorem runWord_reserved {w : Word} (foreign : ∀ i : Instr, i.wf = true → encode i ≠ w) (s : State) :
    runWord w s = runReserved w s := by
  unfold runWord
  split
  · next i h => exact absurd (encode_of_decode h) (foreign i (wf_of_decode h))
  · rfl

theorem runReserved_quiet (quiet : s.quiet) (w : Word) : runReserved w s = .next (s.taken.ended .badCmd) := by
  obtain ⟨idle, alone⟩ := quiet
  rw [runReserved, run_bind_ok (accept_turn_quiet alone w), run_raise, finish_err_begun idle]

/-- Settles O4: `step_command` takes the write, `runWord_reserved` and `runReserved_quiet` end it. -/
theorem reservedWordsEnd : Obligations.ReservedWordsEnd := by
  intro s w idle sched foreign
  have quiet : ({ s with sched := [] } : State).quiet := ⟨idle, rfl⟩
  rw [step_command idle sched, runWord_reserved foreign, runReserved_quiet quiet]
  rfl

theorem exec_badState (quiet : s.quiet) (shut : gateOpen s.started (startGate i) = false) :
    exec i s = .next (s.taken.ended .badState) := by
  obtain ⟨idle, alone⟩ := quiet
  have stops := run_commonChecks_gate (s := s.begun (encode i)) shut
  rw [exec_quiet idle alone, run_bind_error stops, finish_err_begun idle]

theorem exec_context (quiet : s.quiet) (gate : gateOpen s.started (startGate i) = true)
    (wrong : (blocking i && i.ctx == .interrupt) = true) : exec i s = .next (s.taken.ended .context) := by
  obtain ⟨idle, alone⟩ := quiet
  have stops := run_commonChecks_context (s := s.begun (encode i)) gate wrong
  rw [exec_quiet idle alone, run_bind_error stops, finish_err_begun idle]

/-- A command with an endpoint handle begins with the check of the handle (40_endpoint.md R219). -/
theorem bodyOf_checkEd {e : Nat} (handle : edHandle i = some e) (args : Args) :
    ∃ rest, bodyOf i args = checkEd e >>= rest := by
  cases i <;> cases handle <;> exact ⟨_, rfl⟩

theorem exec_notFound {e : Nat} (quiet : s.quiet) (gate : gateOpen s.started (startGate i) = true)
    (context : (blocking i && i.ctx == .interrupt) = false) (handle : edHandle i = some e)
    (absent : s.validEd e = false) : exec i s = .next (s.taken.ended .notFound) := by
  obtain ⟨idle, alone⟩ := quiet
  obtain ⟨rest, body⟩ := bodyOf_checkEd handle s.args
  have stops := run_checkEd_notFound (s := s.begun (encode i)) absent
  rw [exec_quiet_body idle alone gate context, body, run_bind_error stops, finish_err_begun idle]

theorem validEd_eq_false {e : Nat} : s.validEd e = false ↔ s.params.ned ≤ e ∨ (s.ed e).alloc = false := by
  simp [State.validEd, imp_iff_not_or]

/-- Settles O6: the columns of R142 as the statement writes them are `startGate`, `blocking` and `edHandle`, command
by command; each check that fails is one of `exec_badState`, `exec_context` and `exec_notFound`. -/
theorem commonChecksStop : Obligations.CommonChecksStop := by
  intro i s quiet shut wrongContext handle
  have gate : shut ↔ gateOpen s.started (startGate i) = false := by
    cases i <;> simp [shut, startGate, gateOpen]
  have context : wrongContext ↔ (blocking i && i.ctx == .interrupt) = true := by
    cases i <;> simp [wrongContext, blocking, Instr.ctx]
  have handled : handle = edHandle i := by cases i <;> rfl
  rw [gate, context, handled, Bool.not_eq_false, Bool.not_eq_true]
  exact ⟨exec_badState quiet, exec_context quiet, fun e g c h absent =>
    exec_notFound quiet g c h (validEd_eq_false.2 absent)⟩

end Machine
end Sys2Proof
end

section
/-! SUPPORT. The endpoint commands that change one endpoint's control words alone, and the frame wait, while no other
agent moves (40_endpoint.md R205 to R207, R215 to R218). -/

namespace Sys2Proof.Machine

variable {α β : Type} {s t : State} {i : Instr}

/-! ### The end of a command -/

/-- A command that answered results that fit their registers ends with them (10_state.md R26, R41). -/
theorem finish_ok {r : Results} (h0 : r.res0 < 2 ^ 32) (h1 : r.res1 < 2 ^ 32) (h2 : r.res2 < 2 ^ 32) (t : State) :
    finish (.ok r t) = .next { t.endedOk (BitVec.ofNat 32 r.res0) (BitVec.ofNat 32 r.res1) (BitVec.ofNat 32 r.res2) with
      seq := .idle } := by
  simp only [finish, State.endOk, State.writeResults, resultWord_fits h0, resultWord_fits h1, resultWord_fits h2, h0, h1, h2,
    and_self, if_true]
  rfl

/-- The same without results. -/
theorem finish_ok_none (t : State) : finish (.ok {} t) = .next { t.endedOk 0 0 0 with seq := .idle } :=
  finish_ok (r := {}) (by decide) (by decide) (by decide) t

/-- A command on a valid endpoint of the started machine runs the rest of its body (30_encoding.md R144, 40_endpoint.md
R219). -/
theorem exec_checked (i : Instr) {e : Nat} {rest : PUnit → Cmd Results} (quiet : s.quiet)
    (gate : gateOpen s.started (startGate i) = true) (context : (blocking i && i.ctx == .interrupt) = false)
    (valid : s.validEd e = true) (body : bodyOf i s.args = checkEd e >>= rest) :
    exec i s = finish (rest ⟨⟩ (s.begun (encode i))) := by
  obtain ⟨idle, alone⟩ := quiet
  have check : checkEd e (s.begun (encode i)) = .ok ⟨⟩ (s.begun (encode i)) := run_checkEd_ok valid
  rw [exec_quiet_body idle alone gate context, body, run_bind_ok check]

/-- What accesses and an answer without results leave of a command (10_state.md R41). -/
theorem finish_quietly (idle : s.seq = .idle) {w : Word} (q : Quietly (s.begun w) t) :
    finish (.ok {} t) = .next { s.taken.endedOk 0 0 0 with mem := t.mem, cache := t.cache } := by
  obtain ⟨m, k, q, rfl⟩ := q
  rw [finish_ok_none]
  simp [State.begun, State.taken, State.endedOk, State.ended, idle]

/-! ### One word of an endpoint -/

theorem edControl_aligned {p : Params} (g : p.Good) {e : Nat} (he : e < p.ned) : (edControlAddr p e).toNat % 4 = 0 :=
  (Wired.plain_ed g he).aligned

theorem edHead_aligned {p : Params} (g : p.Good) {e : Nat} (he : e < p.ned) : (edHeadAddr p e).toNat % 4 = 0 :=
  (plain_edWord g he 0x8#32 (by decide) (by decide)).aligned

/-- A byte outside a word is not the write's. -/
theorem loadByte_store32_outside (m : List Host.Cell) {a : Word} {x : Nat} (h : inWord a x = false) (v : Word) :
    loadByte (store32 m a.toNat v) x = loadByte m x := by
  simp only [inWord, decide_eq_false_iff_not] at h
  rw [loadByte_store32_eq, if_neg h]

/-- `RMW` of a word: memory holds the new word, and no other byte of it changes (00_scope.md R12). -/
theorem rmw_word (g : s.params.Good) (alone : s.sched = []) {a : Word} (ha : a.toNat % 4 = 0) (f : Word → Word) :
    ∃ t, rmw a f s = .ok ⟨⟩ t ∧ Quietly s t ∧ t.physRead a = f (s.physRead a) ∧
      ∀ x, inWord a x = false → loadByte t.mem x = loadByte s.mem x := by
  obtain ⟨m, k, q, run, bytes, _, _⟩ := rmw_quiet g alone ha f
  refine ⟨_, run, ⟨m, k, q, rfl⟩, ?_, fun x hx => (bytes x).trans (loadByte_store32_outside _ hx _)⟩
  exact (load32_congr fun x _ _ => bytes x).trans (load32_store32_self ..)

/-- Settles O45: the one access of `ED_SUSPEND` is `rmw_word`. -/
theorem edSuspendCompletes : Obligations.EdSuspendCompletes := by
  intro ctx e s quiet legal started valid c
  have g := Params.legal_good legal
  obtain ⟨t, run, q, word, frame⟩ := rmw_word (s := s.begun (encode (.edSuspend ctx e))) g quiet.2
    (edControl_aligned g (lt_of_validEd valid)) setSkip
  refine ⟨t.mem, t.cache, ?_, word, frame⟩
  rw [exec_checked (.edSuspend ctx e) quiet started rfl valid rfl, run_bind_ok (run_get _)]
  exact (congrArg finish (run_bind_ok run)).trans (finish_quietly quiet.1 q)

/-- Settles O46: `rmw_word`, then the list-filled write of the endpoint's type. -/
theorem edResumeCompletes : Obligations.EdResumeCompletes := by
  intro ctx e s quiet legal started valid c
  have g := Params.legal_good legal
  obtain ⟨t, run, q, word, frame⟩ := rmw_word (s := s.begun (encode (.edResume ctx e))) g quiet.2
    (edControl_aligned g (lt_of_validEd valid)) clearSkip
  have alone : t.sched = [] := by obtain ⟨m, k, q, rfl⟩ := q; exact quiet.2
  obtain ⟨q', filled⟩ := listFilled_quiet alone (s.ed e).type
  refine ⟨t.mem, t.cache, ?_, word, frame⟩
  rw [exec_checked (.edResume ctx e) quiet started rfl valid rfl, run_bind_ok (run_get _)]
  refine (congrArg finish ((run_bind_ok run).trans (run_bind_ok filled))).trans ?_
  rw [run_pure, finish_ok_none]
  obtain ⟨m, k, q, rfl⟩ := q
  cases (s.ed e).type <;>
    simp [State.begun, State.taken, State.endedOk, State.ended, quiet.1, Hc.filled, clfBit, blfBit]

theorem clearHaltWord (clrtog : Bool) (w : Word) : clearHaltBit (if clrtog then clearCarry w else w) =
    w &&& (if clrtog then ~~~0x3#32 else ~~~0x1#32) := by
  cases clrtog with
  | false => rfl
  | true => exact BitVec.and_assoc ..

/-- Settles O47: the two words of `clearHalt_quiet` lie apart in the endpoint's slot. -/
theorem edClearHaltCompletes : Obligations.EdClearHaltCompletes := by
  intro ctx e clrtog s quiet legal started valid c h
  have g := Params.legal_good legal
  have he : e ≤ s.params.ned := (lt_of_validEd valid).le
  obtain ⟨m, k, q, run, bytes⟩ := clearHalt_quiet (s := s.begun (encode (.edClearHalt ctx e clrtog))) g quiet.2 he clrtog
  change ∀ x, loadByte m x = loadByte (store32 (store32 s.mem h.toNat
    (clearHaltBit (if clrtog then clearCarry (s.physRead h) else s.physRead h))) c.toNat (clearSkip (s.physRead c))) x at bytes
  have apart : h.toNat = c.toNat + 8 := g.edWord_toNat he 8#32 (by have := g.line_ge; simp; omega)
  refine ⟨m, k, ?_, ?_, ?_, fun x hc hh => ?_⟩
  · rw [exec_checked (.edClearHalt ctx e clrtog) quiet started rfl valid rfl]
    exact (congrArg finish (run_bind_ok run)).trans (finish_quietly quiet.1 ⟨m, k, q, rfl⟩)
  · rw [load32_congr fun x _ _ => bytes x, load32_store32_ne _ (.inr (by omega)), load32_store32_self, clearHaltWord]
  · rw [load32_congr fun x _ _ => bytes x, load32_store32_self]
    rfl
  · rw [bytes, loadByte_store32_outside _ hc, loadByte_store32_outside _ hh]

end Sys2Proof.Machine
end

section
/-! SUPPORT. The frame wait while no other agent moves: how a blocking command enters it, and how it ends (40_endpoint.md
R205 to R207). -/

namespace Sys2Proof.Machine

variable {α β : Type} {s t : State} {i : Instr} {run : Running}

/-! ### Where the sequencer stands -/

/-- The sequencer stands somewhere in the command `run`, and no move of another agent is to come. -/
def AtPoint (run : Running) (s : State) : Prop := s.sched = [] ∧ ∃ n, s.seq = .exec { run with point := n }

theorem AtPoint.congr (h : AtPoint run s) (hs : t.sched = s.sched) (hq : t.seq = s.seq) : AtPoint run t :=
  ⟨hs.trans h.1, by rw [hq]; exact h.2⟩

theorem atPoint_turn : Keeps (AtPoint run) turn := fun s ⟨alone, n, at_⟩ => by
  rw [KeepsAt, turn_quiet alone]
  exact ⟨alone, n + 1, by simp only [at_]; rfl⟩

theorem atPoint_memRead (a : Word) : Keeps (AtPoint run) (memRead a) :=
  keeps_bind atPoint_turn fun _ => keeps_get_bind fun s h =>
    keepsAt_bind (keepsAt_set (by
      obtain ⟨k, touched⟩ := touch_shape s a.toNat
      rw [touched]
      exact h.congr rfl rfl)) fun _ s' _ h' => keeps_pure _ s' h'

theorem atPoint_memWrite (a v : Word) : Keeps (AtPoint run) (memWrite a v) :=
  keeps_bind atPoint_turn fun _ => keeps_modify fun s h => by
    obtain ⟨m, k, stored⟩ := cacheStore_shape s a v
    rw [stored]
    exact h.congr rfl rfl

theorem atPoint_invalLines (bs : List Nat) : Keeps (AtPoint run) (invalLines bs) := by
  induction bs with
  | nil => exact keeps_pure _
  | cons b bs ih =>
    refine keeps_bind atPoint_turn fun _ => keeps_bind (keeps_modify fun s h => ?_) fun _ => ih
    obtain ⟨k, dropped⟩ := invalLine_shape s b
    rw [dropped]
    exact h.congr rfl rfl

theorem atPoint_flushLines (bs : List Nat) : Keeps (AtPoint run) (flushLines bs) := by
  induction bs with
  | nil => exact keeps_pure _
  | cons b bs ih =>
    refine keeps_bind atPoint_turn fun _ => keeps_bind (keeps_modify fun s h => ?_) fun _ => ih
    obtain ⟨m, k, c, ms, suffix, flushed⟩ := flushLine_shape s b
    rw [h.1] at suffix
    rw [flushed]
    exact h.congr ((List.suffix_nil.1 suffix).trans h.1.symm) rfl

theorem atPoint_rmw (a : Word) (f : Word → Word) : Keeps (AtPoint run) (rmw a f) :=
  keeps_bind (keeps_get_bind fun s h => atPoint_invalLines _ s h) fun _ => keeps_bind (atPoint_memRead a) fun _ =>
    keeps_bind (atPoint_memWrite a _) fun _ => keeps_get_bind fun s h => atPoint_flushLines _ s h

theorem atPoint_mmioRead (off : Nat) : Keeps (AtPoint run) (mmioRead off) :=
  keeps_bind atPoint_turn fun _ => keeps_get_bind fun s h => keeps_pure _ s h

/-- A command begins with its word, its context and the operands captured (10_state.md R24). -/
theorem atPoint_begun (alone : s.sched = []) (i : Instr) :
    AtPoint { word := encode i, ctx := i.ctx, args := s.args } (s.begun (encode i)) := by
  obtain ⟨_, ctx, _⟩ := Laws.encode_fields i
  exact ⟨alone, 1, by rw [← ctx]; rfl⟩

/-! ### `QUIESCE` (40_endpoint.md R206) -/

theorem Quietly.sched (q : Quietly s t) : t.sched = s.sched := by
  obtain ⟨m, k, q, rfl⟩ := q
  rfl

theorem Quietly.hc (q : Quietly s t) : t.hc = s.hc := by
  obtain ⟨m, k, q, rfl⟩ := q
  rfl

theorem Quietly.trans {u : State} (h : Quietly s t) (h' : Quietly t u) : Quietly s u := by
  obtain ⟨m, k, q, rfl⟩ := h
  obtain ⟨m', k', q', rfl⟩ := h'
  exact ⟨m', k', q', rfl⟩

/-- A word read after an invalidate of its line is memory's (44_coherence.md R404). -/
theorem inval_memRead (g : s.params.Good) (alone : s.sched = []) {a : Word} (ha : a.toNat % 4 = 0) :
    ∃ t u, inval a 4 s = .ok ⟨⟩ t ∧ memRead a t = .ok (s.physRead a) u ∧ Quietly s u ∧ u.mem = s.mem := by
  obtain ⟨k, q, run, view, _, _⟩ := inval_quiet g alone (rangeLines_word g ha)
  obtain ⟨k', q', run', _, _⟩ := memRead_quiet (s := { s with cache := k, seq := q }) alone a
  have word : ({ s with cache := k, seq := q } : State).cacheLoad a = s.physRead a :=
    cacheLoad_of_view (s := { s with cache := k, seq := q }) g ha fun x h1 h2 => by
      rw [view, if_pos (lineBase_byte g ha ⟨h1, h2⟩)]
  rw [word] at run'
  exact ⟨_, _, run, run', ⟨s.mem, k', q', rfl⟩, rfl⟩

/-- A halted endpoint needs no wait, and no skip bit. -/
theorem quiesce_halted (g : s.params.Good) (alone : s.sched = []) {e : Nat} (he : e < s.params.ned)
    (halted : (s.physRead (edHeadAddr s.params e)).getLsbD 0 = true) (k : Cont) :
    ∃ t, quiesce e k s = .ok .already t ∧ Quietly s t ∧ t.mem = s.mem := by
  obtain ⟨t, u, dropped, read, q, mem⟩ := inval_memRead g alone (edHead_aligned g he)
  refine ⟨u, ?_, q, mem⟩
  unfold quiesce
  rw [run_bind_ok (run_get s), run_bind_ok dropped, run_bind_ok read, if_pos halted]
  rfl

/-- A wait that begins with the frame number just sampled goes on at its first poll. -/
theorem waitFrame_waits (alone : s.sched = []) (e : Nat) (k : Cont) : waitFrame e s.hc.fmNumber k s =
    .error .gone { s with seq := .wait s.seq.running e s.hc.fmNumber 0 k } := by
  have steps : waitSteps s.hc.fmNumber s.sched 0 { s with seq := .wait s.seq.running e s.hc.fmNumber 0 k } =
      .error .gone { s with seq := .wait s.seq.running e s.hc.fmNumber 0 k } := by
    rw [alone, waitSteps, if_neg (by simp [State.frameMoved]), ← alone]
  exact (run_bind_ok (run_modify _ s)).trans (run_bind_error steps)

/-- An endpoint that is not halted is skipped, and its quiescence waited for. -/
theorem quiesce_waits (g : s.params.Good) (at_ : AtPoint run s) {e : Nat} (he : e < s.params.ned)
    (running : (s.physRead (edHeadAddr s.params e)).getLsbD 0 = false) (k : Cont) :
    ∃ t n, quiesce e k s = .error .gone { t with seq := .wait { run with point := n } e s.hc.fmNumber 0 k } ∧ Quietly s t ∧
      t.physRead (edControlAddr s.params e) = setSkip (s.physRead (edControlAddr s.params e)) ∧
      ∀ x, inWord (edControlAddr s.params e) x = false → loadByte t.mem x = loadByte s.mem x := by
  obtain ⟨s₁, s₂, dropped, read, q, mem⟩ := inval_memRead g at_.1 (edHead_aligned g he)
  have at₁ : AtPoint run s₁ := (keeps_get_bind (fun s h => atPoint_invalLines _ s h) s at_).ok dropped
  have at₂ : AtPoint run s₂ := (atPoint_memRead _ s₁ at₁).ok read
  have params : s₂.params = s.params := q.tables.params
  obtain ⟨s₃, skipped, q', word, frame⟩ := rmw_word (params ▸ g) at₂.1 (edControl_aligned g he) setSkip
  have at₃ : AtPoint run s₃ := (atPoint_rmw _ _ s₂ at₂).ok skipped
  have sampled := mmioRead_quiet at₃.1 0x3C
  obtain ⟨alone, n, at₄⟩ := (atPoint_mmioRead _ s₃ at₃).ok sampled
  have frameNumber : (hcRegRead s₃.hc 0x3C).setWidth 16 = s.hc.fmNumber := by
    rw [q'.hc, q.hc]
    exact BitVec.setWidth_setWidth_of_le _ (by decide)
  have waits := waitFrame_waits alone e k
  rw [show ({ s₃ with seq := s₃.seq.advance } : State).hc.fmNumber = s.hc.fmNumber by
    show s₃.hc.fmNumber = _; rw [q'.hc, q.hc], at₄] at waits
  refine ⟨s₃, n, ?_, q.trans q', ?_, fun x hx => ?_⟩
  · unfold quiesce
    rw [run_bind_ok (run_get s), run_bind_ok dropped, run_bind_ok read, if_neg (by rw [running]; exact Bool.false_ne_true)]
    exact (run_bind_ok skipped).trans ((run_bind_ok sampled).trans (by rw [frameNumber]; exact waits))
  · rw [word, State.physRead, mem]
    rfl
  · rw [frame x hx, mem]

/-- A command that waits, as the host sees it. -/
theorem finish_waits (w : Word) (q : Quietly (s.begun w) t) (wait : Seq) :
    finish (.error .gone { t with seq := wait }) =
      .next { s.taken with mem := t.mem, cache := t.cache, seq := wait } := by
  obtain ⟨m, k, q, rfl⟩ := q
  rfl

theorem tdHandle_ofNat {n : Nat} (h : n < 2 ^ 16) : tdHandle (BitVec.ofNat 32 n) = some n := by
  have high : (BitVec.ofNat 32 n).extractLsb' 16 16 = 0#16 := by
    apply BitVec.eq_of_toNat_eq
    simp only [BitVec.extractLsb'_toNat, BitVec.toNat_ofNat, Nat.shiftRight_eq_div_pow]
    omega
  have low : ((BitVec.ofNat 32 n).extractLsb' 0 16).toNat = n := by
    simp only [BitVec.extractLsb'_toNat, BitVec.toNat_ofNat, Nat.shiftRight_eq_div_pow]
    omega
  rw [tdHandle, if_pos high, low]

/-- An operand that names a TD of the endpoint (42_transfer.md R310). -/
theorem ownedTd_ofNat (g : s.params.Good) {e n : Nat} (hn : n < s.params.ntd) (alloc : (s.td n).alloc = true)
    (owner : (s.td n).owner = e) : s.ownedTd e (BitVec.ofNat 32 n) = some n := by
  simp only [State.ownedTd, tdHandle_ofNat (show n < 2 ^ 16 by have := g.ntd; omega)]
  exact if_pos ⟨hn, alloc, owner⟩

/-- Settles O40: each of the three commands is its checks and then `quiesce_waits`. -/
theorem blockingCommandsWait : Obligations.BlockingCommandsWait := by
  intro i e k s quiet legal started valid command running c
  have g := Params.legal_good legal
  obtain ⟨rest, ctx, body⟩ : ∃ rest : Quiesced → Cmd Results, i.ctx = .thread ∧
      exec i s = finish ((quiesce e k >>= rest) (s.begun (encode i))) := by
    rcases command with ⟨rfl, rfl⟩ | ⟨rfl, rfl⟩ | ⟨t, rfl, rfl, arg, ht, alloc, owner, ne⟩
    · exact ⟨_, rfl, exec_checked (.edQuiesce .thread e) quiet started rfl valid rfl⟩
    · exact ⟨_, rfl, exec_checked (.edClose .thread e) quiet started rfl valid rfl⟩
    · refine ⟨abortRest e t, rfl,
        (exec_checked (.xferAbort .thread e) quiet started rfl valid rfl).trans (congrArg finish ?_)⟩
      have owned : (s.begun (encode (.xferAbort .thread e))).ownedTd e s.args.arg0 = some t := by
        rw [show s.args.arg0 = _ from arg]
        exact ownedTd_ofNat g ht alloc owner
      rw [run_bind_ok (run_get _)]
      simp only [owned]
      exact congrFun (if_neg ne) _
  obtain ⟨t, n, waits, q, word, frame⟩ := quiesce_waits (s := s.begun (encode i)) g
    (atPoint_begun quiet.2 i) (lt_of_validEd valid) running k
  rw [ctx] at waits
  exact ⟨_, n, body.trans ((congrArg finish (run_bind_error waits)).trans (finish_waits _ q _)), rfl, word, frame⟩

/-! ### The end of the wait -/

theorem step_wait {e r : Nat} {f0 : BitVec 16} {k : Cont} (wait : s.seq = .wait run e f0 r k) :
    step s = finish ((waitFrom f0 r >>= afterWait k) s) := by
  rw [step, wait]
  rfl

/-- The poll that finds the frame number changed ends the wait. -/
theorem waitFrom_moved (alone : s.sched = []) {f0 : BitVec 16} (moved : s.hc.fmNumber ≠ f0) (r : Nat) :
    waitFrom f0 r s = .ok .ok { s with seq := .exec s.seq.running } := by
  have steps : waitSteps f0 s.sched r s = .ok .ok s := by
    rw [alone, waitSteps, if_pos (by simpa [State.frameMoved] using moved), ← alone]
  exact run_bind_ok steps

/-- A poll that finds it unchanged does not. -/
theorem waitFrom_waits (alone : s.sched = []) (r : Nat) : waitFrom s.hc.fmNumber r s = .error .gone s := by
  have steps : waitSteps s.hc.fmNumber s.sched r s = .error .gone s := by
    rw [alone, waitSteps, if_neg (by simp [State.frameMoved]), ← alone]
  exact run_bind_error steps

/-- Settles O39: `quiesce_halted` at once, `waitFrom_moved` and `waitFrom_waits` at a poll. -/
theorem edQuiesceCompletes : Obligations.EdQuiesceCompletes := by
  refine ⟨fun e s quiet legal started valid halted => ?_, fun s run w e r f0 wait alone => ⟨fun moved => ?_, fun same => ?_⟩⟩
  · obtain ⟨t, run, ⟨m, k, q, rfl⟩, mem⟩ := quiesce_halted (s := s.begun (encode (.edQuiesce .thread e)))
      (Params.legal_good legal) quiet.2 (lt_of_validEd valid) halted (.quiesce e)
    cases mem
    refine ⟨k, ?_⟩
    rw [exec_checked (.edQuiesce .thread e) quiet started rfl valid rfl, run_bind_ok run]
    refine (finish_ok (r := { res0 := 1 }) (by decide) (by decide) (by decide) _).trans ?_
    simp [State.begun, State.taken, State.endedOk, State.ended, quiet.1]
  · rw [step_wait wait, run_bind_ok (waitFrom_moved alone moved r)]
    exact finish_ok_none _
  · subst same
    rw [step_wait wait, run_bind_error (waitFrom_waits alone r)]
    rfl

/-- The third timer event ends the wait (40_endpoint.md R207). -/
theorem waitSteps_timers {r : Nat} {f0 : BitVec 16} (few : r < 3) (ms : List Move) (s : State) :
    ∃ q, waitSteps f0 (List.replicate (3 - r) .timer ++ ms) r s = .ok .timeout { s with sched := ms, seq := q } := by
  interval_cases r <;> exact ⟨_, rfl⟩

/-- What follows the wait ends a command whose endpoint did not come to rest (40_endpoint.md R205, R208, 42_transfer.md
R310). -/
theorem afterWait_timeout (k : Cont) (s : State) : afterWait k .timeout s = .error (.err .quiesceTimeout) s := by
  cases k <;> rfl

/-- Settles O41: `waitSteps_timers`, then `afterWait_timeout`. -/
theorem thirdTimeoutEnds : Obligations.ThirdTimeoutEnds := by
  intro s run e r f0 k ms wait few sched
  obtain ⟨q, steps⟩ := waitSteps_timers (f0 := f0) few ms s
  rw [← sched] at steps
  have ended : waitFrom f0 r s = .ok .timeout { s with sched := ms, seq := .exec q.running } := run_bind_ok steps
  rw [step_wait wait, run_bind_ok ended, afterWait_timeout]
  rfl

end Sys2Proof.Machine
end

section
/-! SUPPORT. `ED_OPEN` up to its first access: its checks, and the slots it takes (40_endpoint.md R200 to R203). -/

namespace Sys2Proof.Machine

variable {s t : State}

/-! ### The checks of ED_OPEN -/

theorem openReservedClear_iff {template interval : Word} : openReservedClear template interval = true ↔
    interval.extractLsb' 8 24 = 0#24 ∧ template.extractLsb' 14 2 = 0#2 ∧ template.extractLsb' 29 3 = 0#3 := by
  simp only [openReservedClear, Bool.and_eq_true, beq_iff_eq, and_assoc]

/-- The type of a template, code by code (20_memory.md R85). -/
theorem templateType_of (template : Word) : templateType template =
    if template.extractLsb' 27 2 = 0#2 then some .control else if template.extractLsb' 27 2 = 1#2 then none
    else if template.extractLsb' 27 2 = 2#2 then some .bulk else some .interrupt := by
  have codes : ∀ b : BitVec 2, b = 0#2 ∨ b = 1#2 ∨ b = 2#2 ∨ b = 3#2 := by decide
  unfold templateType
  rcases codes (template.extractLsb' 27 2) with h | h | h | h <;> rw [h] <;> rfl

theorem templateType_isochronous {template : Word} (h : template.extractLsb' 27 2 = 1#2) : templateType template = none := by
  rw [templateType_of, h]
  rfl

theorem templateType_other {template : Word} (h : template.extractLsb' 27 2 ≠ 1#2) :
    ∃ ty, templateType template = some ty := by
  rw [templateType_of, if_neg h]
  split_ifs <;> exact ⟨_, rfl⟩

theorem edOpenBody_reserved {args : Args} (h : openReservedClear args.arg1 args.arg2 = false) (s : State) :
    edOpenBody args s = .error (.err .badArg) s := by
  simp only [edOpenBody, h]
  rfl

theorem edOpenBody_isochronous {args : Args} (clear : openReservedClear args.arg1 args.arg2 = true)
    (ty : templateType args.arg1 = none) (s : State) : edOpenBody args s = .error (.err .isochronous) s := by
  simp only [edOpenBody, clear, ty]
  rfl

theorem edOpenBody_noMem {args : Args} {ty : EdType} (clear : openReservedClear args.arg1 args.arg2 = true)
    (typed : templateType args.arg1 = some ty) (full : s.allocEd = none ∨ s.allocTd = none) :
    edOpenBody args s = .error (.err .noMem) s := by
  simp only [edOpenBody, clear, typed]
  refine (run_bind_ok (run_get s)).trans ?_
  rcases full with full | full
  · rw [full]
    rfl
  · rw [full]
    cases s.allocEd <;> rfl

theorem allocEd_eq_none (h : ∀ e < s.params.ned, (s.ed e).alloc = true) : s.allocEd = none :=
  List.find?_eq_none.2 fun e he => by simp [h e (List.mem_range.1 he)]

theorem allocTd_eq_none (h : ∀ t < s.params.ntd, (s.td t).alloc = true) : s.allocTd = none :=
  List.find?_eq_none.2 fun t ht => by simp [h t (List.mem_range.1 ht)]

theorem exec_edOpen_refused {ctx : Ctx} (quiet : s.quiet) (started : s.started = true) {code : ErrCode}
    (stops : edOpenBody s.args (s.begun (encode (.edOpen ctx))) = .error (.err code) (s.begun (encode (.edOpen ctx)))) :
    exec (.edOpen ctx) s = .next (s.taken.ended code) := by
  rw [exec_quiet_body (i := .edOpen ctx) quiet.1 quiet.2 started rfl]
  exact (congrArg finish stops).trans (finish_err_begun quiet.1 _ code)

/-- Settles O35: the three refusals of the body, in the order of its checks. -/
theorem edOpenRefused : Obligations.EdOpenRefused := by
  intro ctx s quiet started reserved
  have clear : openReservedClear s.args.arg1 s.args.arg2 = true ↔ ¬ reserved := by
    simp only [State.args, openReservedClear_iff, reserved, ne_eq, not_or, Decidable.not_not]
  refine ⟨fun no => ?_, fun yes iso => ?_, fun yes other full => ?_⟩
  · exact exec_edOpen_refused quiet started (edOpenBody_reserved (Bool.eq_false_iff.2 fun yes => clear.1 yes no) _)
  · have typed : templateType s.args.arg1 = none := templateType_isochronous iso
    exact exec_edOpen_refused quiet started (edOpenBody_isochronous (clear.2 yes) typed _)
  · obtain ⟨ty, typed⟩ : ∃ ty, templateType s.args.arg1 = some ty := templateType_other other
    exact exec_edOpen_refused quiet started
      (edOpenBody_noMem (clear.2 yes) typed (full.imp allocEd_eq_none allocTd_eq_none))

end Sys2Proof.Machine
end

section
/-! SUPPORT. What a piece of a command does to memory while no other agent moves, said byte by byte and word by word: which
bytes of memory may change, and which words memory and the block go on to agree on (20_memory.md R100 to R104,
44_coherence.md R404). -/

namespace Sys2Proof.Machine

variable {α β : Type} {s t u : State} {W W' : Nat → Prop} {A A' : Word → Prop}

/-! ### Words between the block and memory -/

/-- Memory holds the word `v` at `a`, and the block sees it. -/
def State.holds (s : State) (a v : Word) : Prop := s.physRead a = v ∧ s.cacheLoad a = v

/-- The block sees the word `v` at `a`, and a flush of its line makes memory hold it. -/
def State.staged (s : State) (a v : Word) : Prop := s.cacheLoad a = v ∧ s.due a

theorem State.holds.staged (g : s.params.Good) {a v : Word} (ha : a.toNat % 4 = 0) (h : s.holds a v) : s.staged a v :=
  ⟨h.2, fun _ hx => .inr (bytes_of_words g ha (h.1.trans h.2.symm) hx)⟩

/-- From `s` to `t` no byte of memory outside `W` has changed, and the words outside `A` that memory and the block agreed
on are as they were. -/
structure Touched (W : Nat → Prop) (A : Word → Prop) (s t : State) : Prop where
  params : t.params = s.params
  sched : t.sched = s.sched
  bytes : ∀ x, ¬ W x → loadByte t.mem x = loadByte s.mem x
  words : ∀ a v, a.toNat % 4 = 0 → ¬ A a → s.holds a v → t.holds a v

namespace Touched

theorem mono (h : Touched W A s t) (hW : ∀ x, W x → W' x) (hA : ∀ a, A a → A' a) : Touched W' A' s t :=
  { h with
    bytes := fun x no => h.bytes x (mt (hW x) no)
    words := fun a v ha no => h.words a v ha (mt (hA a) no) }

theorem trans (h : Touched W A s t) (h' : Touched W A t u) : Touched W A s u where
  params := h'.params.trans h.params
  sched := h'.sched.trans h.sched
  bytes x no := (h'.bytes x no).trans (h.bytes x no)
  words a v ha no hv := h'.words a v ha no (h.words a v ha no hv)

/-- A change of other fields alone. -/
theorem other (hp : t.params = s.params) (hs : t.sched = s.sched) (hm : t.mem = s.mem) (hc : t.cache = s.cache) :
    Touched W A s t where
  params := hp
  sched := hs
  bytes x _ := by rw [hm]
  words a v _ _ h := by
    obtain ⟨phys, load⟩ := h
    refine ⟨by rw [State.physRead, hm]; exact phys, ?_⟩
    simp only [State.cacheLoad, State.physRead, lineAt, filledLine, hp, hm, hc] at load ⊢
    exact load

theorem refl (s : State) : Touched W A s s := .other rfl rfl rfl rfl

end Touched

/-! ### One access -/

section
variable (g : s.params.Good) (alone : s.sched = [])
include g alone

omit alone in
/-- Where memory agrees with the block on the bytes of a word, it holds the word. -/
theorem holds_of_bytes {a v : Word} (ha : a.toNat % 4 = 0) (load : s.cacheLoad a = v)
    (bytes : ∀ x, a.toNat ≤ x ∧ x < a.toNat + 4 → s.view x = loadByte s.mem x) : s.holds a v :=
  ⟨(cacheLoad_of_view g ha fun x h1 h2 => bytes x ⟨h1, h2⟩).symm.trans load, load⟩

omit g alone in
/-- What waits for a write-back still does after a write. -/
theorem staged_pending (b : Nat) :
    Staged s s b fun x => if lineBase s.params x = b ∧ s.pending x = true then some (s.view x) else none where
  shape := ⟨s.mem, s.cache, s.seq, rfl⟩
  view x := by split <;> rfl
  mem x := by
    split
    · rename_i coherent
      rw [if_neg fun h => by simp [State.pending, coherent] at h]
      rfl
    · rfl
  inside x h := by
    by_contra no
    exact h (if_neg fun h => no h.1)
  pending _ x h := by
    by_contra no
    exact h (if_neg fun h => no h.2)
  outside _ _ := rfl

/-- `MemWrite` of a word. -/
theorem memWrite_touched {a : Word} (ha : a.toNat % 4 = 0) (v : Word) : ∃ t, memWrite a v s = .ok ⟨⟩ t ∧ Quietly s t ∧
    Touched (fun x => s.params.coherent = true ∧ inWord a x = true) (· = a) s t ∧ t.staged a v ∧
      ∀ b w, b.toNat % 4 = 0 → b ≠ a → s.staged b w → t.staged b w := by
  obtain ⟨t, run, q, words, load, due⟩ := memWrite_words g alone ha v
  obtain ⟨t', run', S⟩ := (staged_pending (lineBase s.params a.toNat)).write g alone ha rfl v
  cases run.symm.trans run'
  have bytes : ∀ x, ¬ (s.params.coherent = true ∧ inWord a x = true) → loadByte t.mem x = loadByte s.mem x := fun x no => by
    rw [S.mem]
    split
    · rename_i coherent
      have out : ¬ (a.toNat ≤ x ∧ x < a.toNat + 4) := fun h => no ⟨coherent, decide_eq_true h⟩
      rw [wordOver, if_neg out, if_neg fun h => by simp [State.pending, coherent] at h]
      rfl
    · rfl
  have pending : ∀ x, s.pending x = true → t.pending x = true := fun x h => by
    by_cases line : lineBase s.params x = lineBase s.params a.toNat
    · refine S.pending ?_ x ?_
      · by_contra coherent
        simp [State.pending, coherent] at h
      · rw [wordOver]
        split
        · exact Option.some_ne_none _
        · rw [if_pos ⟨line, h⟩]
          exact Option.some_ne_none _
    · rw [S.outside x line, h]
  refine ⟨t, run, q, ⟨q.tables.params, q.sched, bytes, fun b w hb ne h => ?_⟩, ⟨load, due⟩, fun b w hb ne h => ?_⟩
  · exact ⟨(words b hb ne).1.trans h.1, (words b hb ne).2.trans h.2⟩
  · refine ⟨(words b hb ne).2.trans h.1, fun x hx => (h.2 x hx).imp (pending x) fun same => ?_⟩
    have out := words_disjoint ha hb ne hx
    rw [bytes x fun h => out (of_decide_eq_true h.2), same, S.view, wordOver, if_neg out]
    split <;> rfl

/-- `Flush` of one line. -/
theorem flush_touched {a : Word} {n b : Nat} (hl : rangeLines s.params a.toNat n = [b]) (hb : b % s.params.cacheLine = 0) :
    ∃ t, flush a n s = .ok ⟨⟩ t ∧ Quietly s t ∧
      Touched (fun x => s.params.coherent = false ∧ lineBase s.params x = b) (fun _ => False) s t ∧
      ∀ c v, c.toNat % 4 = 0 → s.staged c v → t.staged c v ∧ (lineBase s.params c.toNat = b → t.holds c v) := by
  obtain ⟨m, k, q, run, bytes, view, pending⟩ := flush_quiet g alone hl hb
  obtain ⟨t, ht⟩ : ∃ t, t = ({ s with mem := m, cache := k, seq := q } : State) := ⟨_, rfl⟩
  have params : t.params = s.params := by rw [ht]
  have mem : t.mem = m := by rw [ht]
  rw [← ht] at run view pending
  rw [← mem] at bytes
  have load : ∀ c : Word, c.toNat % 4 = 0 → t.cacheLoad c = s.cacheLoad c := fun c hc =>
    cacheLoad_congr g params hc fun x _ => view x
  have agrees : ∀ x, loadByte s.mem x = s.view x → t.view x = loadByte t.mem x := fun x same => by
    rw [view, bytes]
    split
    · rfl
    · exact same.symm
  refine ⟨t, run, ⟨m, k, q, ht⟩, ⟨params, by rw [ht], fun x no => ?_, fun c v hc _ h => ?_⟩, fun c v hc h => ?_⟩
  · rw [bytes, if_neg]
    rintro ⟨line, waits⟩
    refine no ⟨?_, line⟩
    by_contra coherent
    simp [State.pending, coherent] at waits
  · exact holds_of_bytes (params ▸ g) hc ((load c hc).trans h.2) fun x hx =>
      agrees x (bytes_of_words g hc (h.1.trans h.2.symm) hx)
  · have line : ∀ x, c.toNat ≤ x ∧ x < c.toNat + 4 → lineBase s.params x = b → t.view x = loadByte t.mem x := fun x hx line =>
      (h.2 x hx).elim (fun waits => by rw [view, bytes, if_pos ⟨line, waits⟩]) (agrees x)
    refine ⟨⟨(load c hc).trans h.1, fun x hx => ?_⟩, fun same => ?_⟩
    · by_cases here : lineBase s.params x = b
      · exact .inr (line x hx here).symm
      · refine (h.2 x hx).imp (fun waits => ?_) fun same => (agrees x same).symm
        rw [pending, waits, decide_eq_true here, Bool.and_self]
    · exact holds_of_bytes (params ▸ g) hc ((load c hc).trans h.1) fun x hx =>
        line x hx ((lineBase_byte g hc hx).trans same)

/-- `RMW` of a word. -/
theorem rmw_touched {a : Word} (ha : a.toNat % 4 = 0) (f : Word → Word) : ∃ t, rmw a f s = .ok ⟨⟩ t ∧ Quietly s t ∧
    Touched (fun x => inWord a x = true) (· = a) s t ∧ t.holds a (f (s.physRead a)) := by
  obtain ⟨m, k, q, run, bytes, fresh, others⟩ := rmw_quiet g alone ha f
  obtain ⟨t, ht⟩ : ∃ t, t = ({ s with mem := m, cache := k, seq := q } : State) := ⟨_, rfl⟩
  have params : t.params = s.params := by rw [ht]
  have mem : t.mem = m := by rw [ht]
  rw [← ht] at run fresh others
  rw [← mem] at bytes
  have frame : ∀ x, ¬ inWord a x = true → loadByte t.mem x = loadByte s.mem x := fun x no =>
    (bytes x).trans (loadByte_store32_outside _ (Bool.eq_false_iff.2 no) _)
  have seen : ∀ c : Word, c.toNat % 4 = 0 → lineBase s.params c.toNat = lineBase s.params a.toNat →
      t.cacheLoad c = t.physRead c := fun c hc line =>
    cacheLoad_of_view (params ▸ g) hc fun x h1 h2 => (fresh x (by rw [params, lineBase_byte g hc ⟨h1, h2⟩, line])).1
  have word : t.physRead a = f (s.physRead a) := (load32_congr fun x _ _ => bytes x).trans (load32_store32_self ..)
  refine ⟨t, run, ⟨m, k, q, ht⟩, ⟨params, by rw [ht], frame, fun c v hc ne h => ?_⟩, word, (seen a ha rfl).trans word⟩
  have phys : t.physRead c = v := (physRead_congr fun x hx =>
    frame x fun h => words_disjoint ha hc ne hx (of_decide_eq_true h)).trans h.1
  refine ⟨phys, ?_⟩
  by_cases line : lineBase s.params c.toNat = lineBase s.params a.toNat
  · rw [seen c hc line, phys]
  · exact (cacheLoad_congr g params hc fun x hx =>
      (others x fun same => line ((lineBase_byte g hc hx).symm.trans same)).1).trans h.2

/-- A word written and its line flushed: memory holds it. -/
theorem publish_touched {a a' : Word} {n : Nat} (ha : a.toNat % 4 = 0)
    (hl : rangeLines s.params a'.toNat n = [lineBase s.params a.toNat]) (v : Word) :
    ∃ t, (do memWrite a v; flush a' n : Cmd Unit) s = .ok ⟨⟩ t ∧ Quietly s t ∧
      Touched (fun x => if s.params.coherent = true then inWord a x = true
        else lineBase s.params x = lineBase s.params a.toNat) (· = a) s t ∧ t.holds a v := by
  obtain ⟨t, run, q, touched, staged, _⟩ := memWrite_touched g alone ha v
  have params := touched.params
  obtain ⟨u, run', q', touched', words⟩ := flush_touched (params ▸ g) (touched.sched.trans alone)
    (by rw [params]; exact hl) (by rw [params]; exact lineBase_mod _ _)
  rw [params] at touched' words
  refine ⟨u, (run_bind_ok run).trans run', q.trans q', ?_, (words a v ha staged).2 rfl⟩
  refine (touched.mono (fun x h => ?_) fun _ h => h).trans (touched'.mono (fun x h => ?_) fun _ no => no.elim)
  · rw [if_pos h.1]
    exact h.2
  · rw [if_neg (by rw [h.1]; exact Bool.false_ne_true)]
    exact h.2

end

end Sys2Proof.Machine
end

section
/-! SUPPORT. A new endpoint built in memory, and the class lists, while no other agent moves (40_endpoint.md R200, R204,
R212 to R214). -/

namespace Sys2Proof.Machine

variable {s t u : State}

/-! ### Lines -/

section
variable {p : Params} (g : p.Good)
include g

/-- The bytes a flush of a slot can write. -/
theorem inLines_slot {a x : Nat} (ha : a % p.cacheLine = 0) : inLines p a 16 x = true ↔
    if p.coherent = true then a ≤ x ∧ x < a + 16 else lineBase p x = a := by
  have last : (a + 16 - 1) / p.cacheLine = a / p.cacheLine := by
    have line : lineBase p (a + 15) = lineBase p a :=
      (lineBase_unique ha (by omega) (by have := g.line_ge; omega)).trans (lineBase_self g.line_pos ha).symm
    exact Nat.eq_of_mul_eq_mul_right g.line_pos line
  have base : lineBase p x = a ↔ x / p.cacheLine = a / p.cacheLine := by
    constructor
    · rintro rfl
      exact (Nat.mul_div_cancel _ g.line_pos).symm
    · intro h
      exact (congrArg (· * p.cacheLine) h).trans (lineBase_self g.line_pos ha)
  simp only [inLines, last]
  split
  · simp
  · rw [base, decide_eq_true_iff]
    omega

theorem inLines_slot_word {a x i : Nat} (ha : a % p.cacheLine = 0) (hi : i + 4 ≤ 16) (hx : a + i ≤ x ∧ x < a + i + 4) :
    inLines p a 16 x = true := by
  rw [inLines_slot g ha]
  split
  · omega
  · exact lineBase_unique ha (by omega) (by have := g.line_ge; omega)

/-- The bytes a flush of the interrupt table can write. -/
theorem inLines_table {i x : Nat} (hi : i < 32)
    (hx : if p.coherent = true then inWord (tableAddr p i) x = true else lineBase p x = lineBase p (tableAddr p i).toNat) :
    inLines p p.hccaBase 128 x = true := by
  have at_ := g.tableAddr_toNat (i := i) (by omega)
  unfold inLines
  split
  · rename_i coherent
    rw [if_pos coherent, inWord, decide_eq_true_iff, at_] at hx
    exact decide_eq_true (by omega)
  · rename_i cached
    rw [if_neg cached, at_] at hx
    have same : x / p.cacheLine = (p.hccaBase + 4 * i) / p.cacheLine := Nat.eq_of_mul_eq_mul_right g.line_pos hx
    rw [decide_eq_true_iff, same]
    exact ⟨by decide, Nat.div_le_div_right (by omega), Nat.div_le_div_right (by omega)⟩

end

/-! ### Words written before their lines are flushed -/

/-- Words written one after the other. -/
def memWrites : List (Word × Word) → Cmd Unit
  | [] => pure ()
  | w :: ws => do
    memWrite w.1 w.2
    memWrites ws

theorem memWrites_touched (ws : List (Word × Word)) (g : s.params.Good) (alone : s.sched = [])
    (aligned : ∀ w ∈ ws, w.1.toNat % 4 = 0) (once : (ws.map (·.1)).Nodup) :
    ∃ t, memWrites ws s = .ok ⟨⟩ t ∧ Quietly s t ∧
      Touched (fun x => s.params.coherent = true ∧ ∃ w ∈ ws, inWord w.1 x = true) (fun a => a ∈ ws.map (·.1)) s t ∧
      (∀ w ∈ ws, t.staged w.1 w.2) ∧ ∀ b v, b.toNat % 4 = 0 → b ∉ ws.map (·.1) → s.staged b v → t.staged b v := by
  induction ws generalizing s with
  | nil => exact ⟨s, rfl, ⟨s.mem, s.cache, s.seq, rfl⟩, .refl s, fun _ h => (nomatch h), fun _ _ _ _ h => h⟩
  | cons w ws ih =>
    obtain ⟨fresh, once⟩ := List.nodup_cons.1 once
    have first := aligned w List.mem_cons_self
    obtain ⟨t, run, q, touched, staged, kept⟩ := memWrite_touched g alone first w.2
    have params := touched.params
    obtain ⟨u, run', q', touched', staged', kept'⟩ := ih (params ▸ g) (touched.sched.trans alone)
      (fun w' h => aligned w' (List.mem_cons_of_mem _ h)) once
    rw [params] at touched'
    refine ⟨u, (run_bind_ok run).trans run', q.trans q', (touched.mono ?_ ?_).trans (touched'.mono ?_ ?_), ?_, ?_⟩
    · exact fun x ⟨coherent, h⟩ => ⟨coherent, w, List.mem_cons_self, h⟩
    · exact fun a h => h ▸ List.mem_cons_self
    · exact fun x ⟨coherent, w', hw, h⟩ => ⟨coherent, w', List.mem_cons_of_mem _ hw, h⟩
    · exact fun a h => List.mem_cons_of_mem _ h
    · intro w' h
      rcases List.mem_cons.1 h with rfl | h
      · exact kept' _ _ first fresh staged
      · exact staged' w' h
    · intro b v hb no h
      obtain ⟨ne, no⟩ := List.ne_and_not_mem_of_not_mem_cons no
      exact kept' b v hb no (kept b v hb ne h)

/-! ### A new endpoint (40_endpoint.md R200, R204) -/

/-- The eight words of a new endpoint's two descriptors. -/
def slotWords (p : Params) (e t : Nat) (template : Word) : List (Word × Word) :=
  [(tdAddr p t, 0#32), (tdAddr p t + 4#32, 0#32), (tdAddr p t + 8#32, 0#32), (tdAddr p t + 0xC#32, 0#32),
    (edControlAddr p e, template), (edTailAddr p e, tdAddr p t), (edHeadAddr p e, tdAddr p t), (edNextAddr p e, 0#32)]

theorem buildEndpoint_eq (p : Params) (e t : Nat) (template : Word) : buildEndpoint p e t template =
    (do
      memWrites (slotWords p e t template)
      flush (edAddr p e) 16
      flush (tdAddr p t) 16) := by
  simp only [buildEndpoint, writeTd, memWrites, slotWords, bind_assoc, pure_bind]

section
variable {p : Params} (g : p.Good) {e t : Nat} (he : e < p.ned) (ht : t < p.ntd)
include g he ht

/-- Each of the words lies in one of the two slots. -/
theorem slotWords_slot (template : Word) : ∀ w ∈ slotWords p e t template, ∃ i, i % 4 = 0 ∧ i + 4 ≤ 16 ∧
    (w.1.toNat = (edAddr p e).toNat + i ∨ w.1.toNat = (tdAddr p t).toNat + i) := by
  have line := g.line_ge
  have ed : ∀ k : Word, k.toNat < 16 → (edAddr p e + k).toNat = (edAddr p e).toNat + k.toNat := fun k hk =>
    g.edWord_toNat he.le k (by omega)
  have td : ∀ k : Word, k.toNat < 16 → (tdAddr p t + k).toNat = (tdAddr p t).toNat + k.toNat := fun k hk =>
    g.tdWord_toNat ht k (by omega)
  simp only [slotWords, List.forall_mem_cons]
  exact ⟨⟨0, rfl, by omega, .inr rfl⟩, ⟨4, rfl, by omega, .inr (td _ (by decide))⟩, ⟨8, rfl, by omega, .inr (td _ (by decide))⟩,
    ⟨12, rfl, by omega, .inr (td _ (by decide))⟩, ⟨0, rfl, by omega, .inl rfl⟩, ⟨4, rfl, by omega, .inl (ed _ (by decide))⟩,
    ⟨8, rfl, by omega, .inl (ed _ (by decide))⟩, ⟨12, rfl, by omega, .inl (ed _ (by decide))⟩, fun _ h => nomatch h⟩

theorem slotWords_once (template : Word) : ((slotWords p e t template).map (·.1)).Nodup := by
  have line := g.line_ge
  have ed : ∀ k : Word, k.toNat < 16 → (edAddr p e + k).toNat = (edAddr p e).toNat + k.toNat := fun k hk =>
    g.edWord_toNat he.le k (by omega)
  have td : ∀ k : Word, k.toNat < 16 → (tdAddr p t + k).toNat = (tdAddr p t).toNat + k.toNat := fun k hk =>
    g.tdWord_toNat ht k (by omega)
  have apart := g.ed_td_apart he.le ht
  refine List.Nodup.of_map BitVec.toNat ?_
  simp only [slotWords, List.map_cons, List.map_nil, edControlAddr, edTailAddr, edHeadAddr, edNextAddr,
    ed 4#32 (by decide), ed 8#32 (by decide), ed 0xC#32 (by decide), td 4#32 (by decide), td 8#32 (by decide),
    td 0xC#32 (by decide), List.nodup_cons, List.nodup_nil, List.mem_cons, List.not_mem_nil, BitVec.toNat_ofNat,
    and_true, or_false]
  refine ⟨?_, ?_, ?_, ?_, ?_, ?_, ?_, not_false⟩ <;> omega

end

/-- Building an endpoint writes the two slots' lines alone, and leaves the eight words in memory. -/
theorem buildEndpoint_touched (g : s.params.Good) (alone : s.sched = []) {e t : Nat} (he : e < s.params.ned)
    (ht : t < s.params.ntd) (template : Word) :
    ∃ u, buildEndpoint s.params e t template s = .ok ⟨⟩ u ∧ Quietly s u ∧
      Touched (fun x => inLines s.params (edAddr s.params e).toNat 16 x = true ∨
        inLines s.params (tdAddr s.params t).toNat 16 x = true) (fun _ => True) s u ∧
      ∀ w ∈ slotWords s.params e t template, u.holds w.1 w.2 := by
  obtain ⟨p, hp⟩ : ∃ p, p = s.params := ⟨_, rfl⟩
  rw [← hp] at g he ht ⊢
  have edSlot := g.edAddr_aligned he.le
  have tdSlot := g.tdAddr_aligned ht
  have slot := slotWords_slot g he ht template
  have aligned : ∀ w ∈ slotWords p e t template, w.1.toNat % 4 = 0 := fun w hw => by
    obtain ⟨i, hi, _, at_ | at_⟩ := slot w hw
    · have := slot_mod4 g edSlot
      omega
    · have := slot_mod4 g tdSlot
      omega
  obtain ⟨s₁, run₁, q₁, touched₁, staged₁, _⟩ := memWrites_touched (s := s) (slotWords p e t template) (hp ▸ g) alone aligned
    (slotWords_once g he ht template)
  have params₁ := touched₁.params.trans hp.symm
  obtain ⟨s₂, run₂, q₂, touched₂, words₂⟩ := flush_touched (params₁ ▸ g) (touched₁.sched.trans alone)
    (by rw [params₁]; exact rangeLines_slot g edSlot) (by rw [params₁]; exact edSlot)
  have params₂ := touched₂.params.trans params₁
  obtain ⟨s₃, run₃, q₃, touched₃, words₃⟩ := flush_touched (params₂ ▸ g) (touched₂.sched.trans (touched₁.sched.trans alone))
    (by rw [params₂]; exact rangeLines_slot g tdSlot) (by rw [params₂]; exact tdSlot)
  rw [← hp] at touched₁
  rw [params₁] at touched₂ words₂
  rw [params₂] at touched₃ words₃
  refine ⟨s₃, ?_, (q₁.trans q₂).trans q₃, ((touched₁.mono ?_ fun _ _ => trivial).trans
    (touched₂.mono ?_ fun _ no => no.elim)).trans (touched₃.mono ?_ fun _ no => no.elim), fun w hw => ?_⟩
  · rw [buildEndpoint_eq, run_bind_ok run₁, run_bind_ok run₂, run₃]
  · rintro x ⟨_, w, hw, hx⟩
    have hx := of_decide_eq_true hx
    obtain ⟨i, _, hi, at_ | at_⟩ := slot w hw
    · exact .inl (inLines_slot_word g edSlot hi (by omega))
    · exact .inr (inLines_slot_word g tdSlot hi (by omega))
  · rintro x ⟨cached, line⟩
    exact .inl ((inLines_slot g edSlot).2 (by rw [cached]; exact line))
  · rintro x ⟨cached, line⟩
    exact .inr ((inLines_slot g tdSlot).2 (by rw [cached]; exact line))
  · have line := g.line_ge
    obtain ⟨staged, held⟩ := words₂ w.1 w.2 (aligned w hw) (staged₁ w hw)
    obtain ⟨i, _, hi, at_ | at_⟩ := slot w hw
    · refine touched₃.words _ _ (aligned w hw) id (held ?_)
      exact lineBase_unique edSlot (by omega) (by omega)
    · refine (words₃ w.1 w.2 (aligned w hw) staged).2 ?_
      exact lineBase_unique tdSlot (by omega) (by omega)

end Sys2Proof.Machine
end

section
/-! SUPPORT. An endpoint put into a class list and taken off it while no other agent moves (40_endpoint.md R212 to R214):
what the HC's registers and memory hold afterwards. -/

namespace Sys2Proof.Machine

variable {s t u : State} {k : Nat}

/-! ### The class list's registers -/

/-- The HC with the head of a class list replaced. -/
def Hc.withHead (h : Hc) (k : Nat) (v : Word) : Hc :=
  if k = 63 then { h with controlHead := v } else { h with bulkHead := v }

/-- A list's enable bit cleared and, where it was set, set again. -/
theorem enable_restored (c : Word) (k : Nat) : (if (c &&& classEnable k != 0#32) = true then
    c &&& ~~~classEnable k ||| classEnable k else c &&& ~~~classEnable k) = c := by
  obtain ⟨i, hi, bit⟩ : ∃ i < 32, classEnable k = BitVec.twoPow 32 i := by
    unfold classEnable
    split
    · exact ⟨4, by decide, by decide⟩
    · exact ⟨5, by decide, by decide⟩
  rw [bit, BitVec.and_twoPow]
  ext j hj
  by_cases set : c.getLsbD i = true
  · have one : BitVec.twoPow 32 i ≠ 0#32 := fun no => by simpa [hi] using congrArg (·.getLsbD i) no
    simp only [set, if_true, bne_iff_ne, ne_eq, one, not_false_eq_true, BitVec.getElem_or, BitVec.getElem_and,
      BitVec.getElem_not, BitVec.getElem_twoPow]
    by_cases same : j = i
    · subst same
      simpa [hj] using set.symm
    · simp [same]
  · simp only [set, if_false, bne_self_eq_false, Bool.false_eq_true, BitVec.getElem_and, BitVec.getElem_not,
      BitVec.getElem_twoPow]
    by_cases same : j = i
    · subst same
      simpa [hj] using set
    · simp [same]

/-- The HC with the enable bit of a class list cleared. -/
def Hc.disabled (h : Hc) (k : Nat) : Hc := { h with control := h.control &&& ~~~classEnable k }

theorem classDisable_quiet (alone : s.sched = []) (k : Nat) : ∃ q, classDisable k s =
    .ok (s.hc.control &&& classEnable k != 0#32) { s with hc := s.hc.disabled k, seq := q } :=
  ⟨_, (run_bind_ok (mmioRead_quiet alone _)).trans
    (run_bind_ok (mmioWrite_quiet (s := { s with seq := s.seq.advance }) alone _ _))⟩

theorem classRestore_quiet (alone : s.sched = []) (k : Nat) (was : Bool) : ∃ q, classRestore k was s =
    .ok ⟨⟩ { s with
      hc := { s.hc with control := if was = true then s.hc.control ||| classEnable k else s.hc.control }, seq := q } := by
  cases was with
  | false => exact ⟨s.seq, rfl⟩
  | true =>
    exact ⟨_, (run_bind_ok (mmioRead_quiet alone _)).trans
      (mmioWrite_quiet (s := { s with seq := s.seq.advance }) alone _ _)⟩

/-- A write of the head register of a class list. -/
theorem hcRegWrite_classHead (hk : k = 63 ∨ k = 64) (h : Hc) {v : Word} (hv : ptrOf v = v) :
    hcRegWrite h (classHeadReg k) v = h.withHead k v := by
  rcases hk with rfl | rfl
  · show ({ h with controlHead := ptrOf v } : Hc) = { h with controlHead := v }
    rw [hv]
  · show ({ h with bulkHead := ptrOf v } : Hc) = { h with bulkHead := v }
    rw [hv]

/-- An update of the block's own state that does not see memory, the cache, the sequencer's position and the HC. -/
structure Inward (f : State → State) (s : State) : Prop where
  commutes : ∀ m c q h, f { s with mem := m, cache := c, seq := q, hc := h } =
    { f s with mem := m, cache := c, seq := q, hc := h }
  params : (f s).params = s.params
  sched : (f s).sched = s.sched

/-- The end of a change of a class list: `f` changes the block's own lists, and the list is enabled as it was. -/
theorem classRestore_ends {f : State → State} {h : Hc} (inward : Inward f s) (alone : s.sched = [])
    (control : h.control = s.hc.control &&& ~~~classEnable k) (q : Quietly { s with hc := h } t) :
    ∃ u, (do modify f; classRestore k (s.hc.control &&& classEnable k != 0#32) : Cmd PUnit) t = .ok ⟨⟩ u ∧
      Quietly { f s with hc := { h with control := s.hc.control } } u ∧ Touched (fun _ => False) (fun _ => False) t u := by
  obtain ⟨m, c, q, rfl⟩ := q
  have updated := run_modify f { s with mem := m, cache := c, seq := q, hc := h }
  rw [inward.commutes m c q h] at updated
  obtain ⟨q', restored⟩ := classRestore_quiet (s := { f s with mem := m, cache := c, seq := q, hc := h })
    (inward.sched.trans alone) k (s.hc.control &&& classEnable k != 0#32)
  simp only [control, enable_restored] at restored
  exact ⟨_, (run_bind_ok updated).trans restored, ⟨m, c, q', rfl⟩, .other inward.params inward.sched rfl rfl⟩

/-! ### Into the list and off it -/

theorem inward_appended (k e : Nat) (s : State) :
    Inward (fun s => (s.setList k (s.list k ++ [e])).setEd e { s.ed e with slot := k }) s :=
  ⟨fun _ _ _ _ => rfl, rfl, rfl⟩

theorem inward_erased (k e : Nat) (s : State) : Inward (fun s => s.setList k ((s.list k).erase e)) s :=
  ⟨fun _ _ _ _ => rfl, rfl, rfl⟩

theorem withHead_disabled (h : Hc) (k : Nat) (v : Word) :
    { (h.disabled k).withHead k v with control := h.control } = h.withHead k v := by
  unfold Hc.withHead
  split <;> rfl

/-- The bytes and the words of a `NextED`. -/
def nextBytes (p : Params) (J : Nat → Prop) (x : Nat) : Prop := ∃ b, J b ∧ inWord (edNextAddr p b) x = true
def nextWords (p : Params) (J : Nat → Prop) (a : Word) : Prop := ∃ b, J b ∧ a = edNextAddr p b

/-- The link of a class list: the head register, or the `NextED` of the endpoint `before`. -/
def classLink (p : Params) (k : Nat) (before : Option Nat) (v : Word) : Cmd PUnit :=
  match before with
  | none => mmioWrite (classHeadReg k) v
  | some b => rmw (edNextAddr p b) fun _ => v

/-- A change of a class list: its link set while it is disabled, and the block's own lists changed. -/
theorem classChange_touched (g : s.params.Good) (alone : s.sched = []) (hk : k = 63 ∨ k = 64) {v : Word} (hv : ptrOf v = v)
    {f : State → State} (inward : Inward f s) {before : Option Nat} (valid : ∀ b, before = some b → b < s.params.ned) :
    ∃ s₁ u, classDisable k s = .ok (s.hc.control &&& classEnable k != 0#32) s₁ ∧
      (do
        classLink s.params k before v
        modify f
        classRestore k (s.hc.control &&& classEnable k != 0#32) : Cmd PUnit) s₁ = .ok ⟨⟩ u ∧
      Quietly { f s with hc := if before = none then s.hc.withHead k v else s.hc } u ∧
      Touched (nextBytes s.params (before = some ·)) (nextWords s.params (before = some ·)) s u ∧
      ∀ b, before = some b → u.holds (edNextAddr s.params b) v := by
  obtain ⟨q₁, disabled⟩ := classDisable_quiet alone k
  obtain ⟨s₁, hs₁⟩ : ∃ s₁, s₁ = ({ s with hc := s.hc.disabled k, seq := q₁ } : State) := ⟨_, rfl⟩
  have touched₁ : Touched (nextBytes s.params (before = some ·)) (nextWords s.params (before = some ·)) s s₁ := by
    rw [hs₁]
    exact .other rfl rfl rfl rfl
  have alone₁ := touched₁.sched.trans alone
  rw [← hs₁] at disabled
  cases before with
  | none =>
    obtain ⟨s₂, link, shape, moved⟩ : ∃ s₂, classLink s.params k none v s₁ = .ok ⟨⟩ s₂ ∧
        Quietly { s with hc := (s.hc.disabled k).withHead k v } s₂ ∧
        Touched (nextBytes s.params (none = some ·)) (nextWords s.params (none = some ·)) s₁ s₂ := by
      refine ⟨_, mmioWrite_quiet alone₁ _ _, ?_, .other rfl rfl rfl rfl⟩
      rw [hcRegWrite_classHead hk _ hv, hs₁]
      exact ⟨_, _, _, rfl⟩
    obtain ⟨u, run, q, touched⟩ := classRestore_ends (k := k) inward alone (by unfold Hc.withHead; split <;> rfl) shape
    rw [withHead_disabled] at q
    exact ⟨s₁, u, disabled, (run_bind_ok link).trans run, q, (touched₁.trans moved).trans
      (touched.mono (fun _ no => no.elim) fun _ no => no.elim), fun _ no => nomatch no⟩
  | some b =>
    have params := touched₁.params
    obtain ⟨s₂, link, q₂, touched₂, held⟩ := rmw_touched (params ▸ g) alone₁ (edNext_aligned g (valid b rfl)) fun _ => v
    obtain ⟨u, run, q, touched⟩ := classRestore_ends (k := k) (h := s.hc.disabled k) (t := s₂) inward alone rfl
      (by obtain ⟨m, c, q, rfl⟩ := q₂; rw [hs₁]; exact ⟨m, c, q, rfl⟩)
    refine ⟨s₁, u, disabled, (run_bind_ok link).trans run, q, (touched₁.trans (touched₂.mono ?_ ?_)).trans
      (touched.mono (fun _ no => no.elim) fun _ no => no.elim), ?_⟩
    · exact fun x hx => ⟨b, rfl, hx⟩
    · exact fun a ha => ⟨b, rfl, ha⟩
    · rintro b' ⟨⟩
      exact touched.words _ _ (edNext_aligned g (valid b rfl)) id held

theorem classInsert_touched (g : s.params.Good) (alone : s.sched = []) (hk : k = 63 ∨ k = 64) {e : Nat}
    (valid : ∀ x ∈ s.list k, x < s.params.ned) :
    ∃ u, classInsert k e s = .ok ⟨⟩ u ∧
      Quietly { s.appended k e with hc := if s.list k = [] then s.hc.withHead k (edAddr s.params e) else s.hc } u ∧
      Touched (nextBytes s.params ((s.list k).getLast? = some ·)) (nextWords s.params ((s.list k).getLast? = some ·)) s u ∧
      ∀ b, (s.list k).getLast? = some b → u.holds (edNextAddr s.params b) (edAddr s.params e) := by
  obtain ⟨s₁, u, disabled, run, q, rest⟩ := classChange_touched g alone hk (ptrOf_edPointer g (some e)) (inward_appended k e s)
    fun b hb => valid b (List.mem_of_getLast? hb)
  simp only [List.getLast?_eq_none_iff] at q
  refine ⟨u, ?_, q, rest⟩
  unfold classInsert
  rw [run_bind_ok (run_get s), run_bind_ok disabled, ← run]
  cases (s.list k).getLast? <;> rfl

/-- The endpoint before position `i` of a list. -/
def beforeAt (l : List Nat) (i : Nat) : Option Nat := if i = 0 then none else some (l.getD (i - 1) 0)

theorem classRemove_touched (g : s.params.Good) (alone : s.sched = []) (hk : k = 63 ∨ k = 64) {e i : Nat}
    (valid : ∀ x ∈ s.list k, x < s.params.ned) (hi : (s.list k).idxOf? e = some i) :
    let v := edPointer s.params (s.list k)[i + 1]?
    ∃ u, classRemove k e s = .ok ⟨⟩ u ∧
      Quietly { s.setList k ((s.list k).erase e) with hc := if i = 0 then s.hc.withHead k v else s.hc } u ∧
      Touched (nextBytes s.params (beforeAt (s.list k) i = some ·)) (nextWords s.params (beforeAt (s.list k) i = some ·)) s u ∧
      ∀ b, beforeAt (s.list k) i = some b → u.holds (edNextAddr s.params b) v := by
  intro v
  obtain ⟨s₁, u, disabled, run, q, rest⟩ := classChange_touched (before := beforeAt (s.list k) i) g alone hk
    (ptrOf_edPointer g (s.list k)[i + 1]?) (inward_erased k e s) fun b hb => by
      unfold beforeAt at hb
      split at hb
      · cases hb
      · cases hb
        exact valid _ (getD_mem_of_idxOf hi)
  have first : beforeAt (s.list k) i = none ↔ i = 0 := by simp [beforeAt]
  simp only [first] at q
  refine ⟨u, ?_, q, rest⟩
  have found := run_orStop_some .brokenPlacement i s
  unfold classRemove
  simp only
  rw [run_bind_ok (run_get s), hi, run_bind_ok found, run_bind_ok disabled, ← run, beforeAt]
  split <;> rfl

end Sys2Proof.Machine
end

section
/-! SUPPORT. `ED_OPEN` from its checks on while no other agent moves (40_endpoint.md R200 to R204, R212): the slots taken,
the endpoint built, and the endpoint of a class linked. -/

namespace Sys2Proof.Machine

variable {s t u : State} {J : Nat → Prop}

/-! ### The tables after an open -/

section
variable (e n k : Nat) (w : Ed)

theorem opened_ed (x : Nat) : ((s.built e n w).appended k e).ed x = if x = e then { w with slot := k } else s.ed x := by
  split
  · rename_i h
    rw [h, appended_ed_self, built_ed_self]
  · rename_i h
    rw [appended_ed_ne h, built_ed_ne h]

theorem opened_td (x : Nat) :
    ((s.built e n w).appended k e).td x = if x = n then { alloc := true, owner := e } else s.td x := by
  rw [appended_td]
  split
  · rename_i h
    rw [h, built_td_self]
  · rename_i h
    exact built_td_ne h e w

theorem opened_list (x : Nat) : ((s.built e n w).appended k e).list x = if x = k then s.list k ++ [e] else s.list x := by
  split
  · rename_i h
    rw [h, appended_list_self, built_list]
  · rename_i h
    rw [appended_list_ne h, built_list]

end

/-! ### The words of a new endpoint and the links -/

/-- The bytes that a change of the links can write: the interrupt table's lines and the `NextED` of the endpoints `J`. -/
def linkBytes (p : Params) (J : Nat → Prop) (x : Nat) : Prop := inLines p p.hccaBase 128 x = true ∨ nextBytes p J x

/-- The words that a change of the links can write. -/
def linkWords (p : Params) (J : Nat → Prop) (a : Word) : Prop := (∃ i < 32, a = tableAddr p i) ∨ nextWords p J a

theorem plain_notLink {p : Params} {a : Word} (plain : Plain p a) (hJ : ∀ b, J b → b < p.ned) : ¬ linkWords p J a := by
  rintro (⟨i, hi, rfl⟩ | ⟨b, hb, rfl⟩)
  · exact plain.table i hi rfl
  · exact plain.next b (hJ b hb) rfl

theorem next_notLink {p : Params} (g : p.Good) {e : Nat} (he : e < p.ned) (hJ : ∀ b, J b → b < p.ned) (no : ¬ J e) :
    ¬ linkWords p J (edNextAddr p e) := by
  rintro (⟨i, hi, same⟩ | ⟨b, hb, same⟩)
  · exact table_ne_next g hi he same.symm
  · exact edNext_ne g he (hJ b hb) (fun h => no (h ▸ hb)) same

/-- The words of a new endpoint, but its `NextED`, are no links. -/
theorem slotWords_plain {p : Params} (g : p.Good) {e n : Nat} (he : e < p.ned) (hn : n < p.ntd) (template : Word) :
    ∀ w ∈ slotWords p e n template, w.1 = edNextAddr p e ∨ Plain p w.1 := by
  have td : ∀ k : Word, k.toNat % 4 = 0 → k.toNat < 16 → Plain p (tdAddr p n + k) := plain_tdWord g hn
  have ed : ∀ k : Word, k.toNat % 4 = 0 → k.toNat < 12 → Plain p (edAddr p e + k) := plain_edWord g he
  simp only [slotWords, List.forall_mem_cons]
  exact ⟨.inr (Wired.plain_td g hn), .inr (td _ (by decide) (by decide)), .inr (td _ (by decide) (by decide)),
    .inr (td _ (by decide) (by decide)), .inr (Wired.plain_ed g he), .inr (ed _ (by decide) (by decide)),
    .inr (ed _ (by decide) (by decide)), .inl trivial, fun _ h => nomatch h⟩

/-- A change of other endpoints' links leaves the words of a new endpoint. -/
theorem slotWords_kept {p : Params} (g : p.Good) {e n : Nat} (he : e < p.ned) (hn : n < p.ntd) {template : Word}
    (hJ : ∀ b, J b → b < p.ned) (no : ¬ J e) {W : Nat → Prop} (touched : Touched W (linkWords p J) s t)
    (held : ∀ w ∈ slotWords p e n template, s.holds w.1 w.2) : ∀ w ∈ slotWords p e n template, t.holds w.1 w.2 := by
  intro w hw
  rcases slotWords_plain g he hn template w hw with next | plain
  · exact touched.words _ _ (next ▸ edNext_aligned g he) (next ▸ next_notLink g he hJ no) (held w hw)
  · exact touched.words _ _ plain.aligned (plain_notLink plain hJ) (held w hw)

/-- What memory holds of a new endpoint that was built with its `NextED` 0. -/
theorem slotWords_physRead {p : Params} {e n : Nat} {template : Word}
    (held : ∀ w ∈ slotWords p e n template, s.holds w.1 w.2) :
    (s.physRead (edControlAddr p e) = template ∧ s.physRead (edTailAddr p e) = tdAddr p n ∧
      s.physRead (edHeadAddr p e) = tdAddr p n ∧ s.physRead (edNextAddr p e) = 0#32) ∧
    s.physRead (tdAddr p n) = 0#32 ∧ s.physRead (tdAddr p n + 4#32) = 0#32 ∧
      s.physRead (tdAddr p n + 8#32) = 0#32 ∧ s.physRead (tdAddr p n + 12#32) = 0#32 := by
  simp only [slotWords, List.forall_mem_cons] at held
  obtain ⟨t0, t4, t8, t12, control, tail, head, next, _⟩ := held
  exact ⟨⟨control.1, tail.1, head.1, next.1⟩, t0.1, t4.1, t8.1, t12.1⟩

/-- The queue of a new endpoint is its placeholder, to which `HeadP` and `TailP` point (10_state.md R42 (d)). -/
theorem hardwareAgrees_opened (g : s.params.Good) {e n : Nat} (hn : n < s.params.ntd) (head : (s.ed e).head = n)
    (tail : (s.ed e).tail = n) (td : s.td n = { alloc := true, owner := e }) (index : s.indexed n = false)
    (headP : s.physRead (edHeadAddr s.params e) = tdAddr s.params n)
    (tailP : s.physRead (edTailAddr s.params e) = tdAddr s.params n) : s.hardwareAgrees e [] [] where
  queue :=
    { chain := head.trans tail.symm
      once := List.nodup_singleton _
      owned := fun t ht => by
        rw [List.mem_singleton.1 ht, tail, td]
        exact ⟨hn, rfl, rfl⟩
      empty := by
        rw [tail, td]
        exact ⟨rfl, index⟩ }
  unfinished _ h := nomatch h
  head t h := by
    cases h
    rw [headP, tail]
    refine ptrOf_aligned ?_
    obtain ⟨q, hq⟩ := Nat.dvd_of_mod_eq_zero (g.tdAddr_slot n)
    obtain ⟨r, hr⟩ := Nat.dvd_of_mod_eq_zero g.line_dvd
    rw [hq, hr, Nat.mul_assoc, Nat.mul_mod_right]
  next _ h := nomatch h
  tail := by rw [tailP, tail]

/-! ### The body of `ED_OPEN` -/

section
variable {args : Args} {ty : EdType} {e n : Nat} {s₁ : State}
  (clear : openReservedClear args.arg1 args.arg2 = true) (typed : templateType args.arg1 = some ty)
  (he : s.allocEd = some e) (hn : s.allocTd = some n)
  (built : buildEndpoint s.params e n args.arg1
    (s.built e n (openedEd s.params args.arg0 args.arg1 (args.arg2.extractLsb' 0 8).toNat ty n)) = .ok ⟨⟩ s₁)
include clear typed he hn built

theorem edOpenBody_linked (linked : linkEndpoint e ty s₁ = .ok true u) : edOpenBody args s =
    .ok { res0 := e, res1 := (u.ed e).slot, res2 := if ty = .interrupt then (u.ed e).bw else 0 } u := by
  simp only [edOpenBody, clear, typed]
  refine (run_bind_ok (run_get s)).trans ?_
  simp only [he, hn]
  exact (run_bind_ok (run_modify _ s)).trans ((run_bind_ok built).trans (run_bind_ok linked))

theorem edOpenBody_rejected (linked : linkEndpoint e ty s₁ = .ok false u) :
    edOpenBody args s = .error (.err .bandwidth) ((u.freeTd n).freeEd e) := by
  simp only [edOpenBody, clear, typed]
  refine (run_bind_ok (run_get s)).trans ?_
  simp only [he, hn]
  exact (run_bind_ok (run_modify _ s)).trans ((run_bind_ok built).trans (run_bind_ok linked))

end

theorem exec_edOpen_quiet (quiet : s.quiet) (started : s.started = true) (ctx : Ctx) :
    exec (.edOpen ctx) s = finish (edOpenBody s.args (s.begun (encode (.edOpen ctx)))) :=
  exec_quiet_body (i := .edOpen ctx) quiet.1 quiet.2 started rfl

/-! ### An endpoint of a class -/

theorem linkEndpoint_class {k e : Nat} {ty : EdType} (hk : ty = .control ∧ k = 63 ∨ ty = .bulk ∧ k = 64)
    (linked : classInsert k e s = .ok ⟨⟩ u) : linkEndpoint e ty s = .ok true u := by
  rcases hk with ⟨rfl, rfl⟩ | ⟨rfl, rfl⟩ <;> exact run_bind_ok linked

theorem openedEd_class (p : Params) (key template : Word) (iv n : Nat) {k : Nat} {ty : EdType}
    (hk : ty = .control ∧ k = 63 ∨ ty = .bulk ∧ k = 64) : { openedEd p key template iv ty n with slot := k } =
      { alloc := true, key := key, type := ty, speed := if template.getLsbD 13 then .low else .full
        interval := 0, depth := 0, bw := 0, slot := k, head := n, tail := n } := by
  rcases hk with ⟨rfl, rfl⟩ | ⟨rfl, rfl⟩ <;> rfl

/-- An endpoint of a class is built and linked last in its list; beside the two slots memory changes in the `NextED` of the
endpoint before it. -/
theorem edOpenBody_class (g : s.params.Good) (alone : s.sched = []) (placed : s.placed) {args : Args} {ty : EdType}
    {k e n : Nat} (clear : openReservedClear args.arg1 args.arg2 = true) (typed : templateType args.arg1 = some ty)
    (hk : ty = .control ∧ k = 63 ∨ ty = .bulk ∧ k = 64) (he : s.allocEd = some e) (hn : s.allocTd = some n) :
    let w := openedEd s.params args.arg0 args.arg1 (args.arg2.extractLsb' 0 8).toNat ty n
    ∃ u, edOpenBody args s = .ok { res0 := e, res1 := k } u ∧
      Quietly { (s.built e n w).appended k e with
        hc := if s.list k = [] then s.hc.withHead k (edAddr s.params e) else s.hc } u ∧
      (∀ w ∈ slotWords s.params e n args.arg1, u.holds w.1 w.2) ∧
      (∀ b, (s.list k).getLast? = some b → u.holds (edNextAddr s.params b) (edAddr s.params e)) ∧
      ∀ x, inLines s.params (edAddr s.params e).toNat 16 x = false → inLines s.params (tdAddr s.params n).toNat 16 x = false →
        ¬ nextBytes s.params ((s.list k).getLast? = some ·) x → loadByte u.mem x = loadByte s.mem x := by
  intro w
  obtain ⟨ned, free, _⟩ := allocEd_some he
  obtain ⟨ntd, _, _⟩ := allocTd_some hn
  have last : ∀ b, (s.list k).getLast? = some b → b < s.params.ned := fun b hb =>
    placed.apart.valid (List.mem_of_getLast? hb)
  have other : ¬ (s.list k).getLast? = some e := fun h => placed.notMem free k (List.mem_of_getLast? h)
  obtain ⟨s₁, built, q₁, touched₁, held₁⟩ := buildEndpoint_touched (s := s.built e n w) g alone ned ntd args.arg1
  have params : s₁.params = s.params := touched₁.params
  have list : s₁.list k = s.list k := congrFun q₁.tables.list k
  obtain ⟨u, linked, q₂, touched₂, held₂⟩ := classInsert_touched (s := s₁) (e := e) (params ▸ g)
    (touched₁.sched.trans alone) (hk.imp And.right And.right) fun b hb => by
      rw [list] at hb
      rw [params]
      exact placed.apart.valid hb
  rw [list, params] at q₂ touched₂ held₂
  have shape : Quietly { (s.built e n w).appended k e with
      hc := if s.list k = [] then s.hc.withHead k (edAddr s.params e) else s.hc } u := by
    obtain ⟨m, c, q, rfl⟩ := q₁
    obtain ⟨m', c', q', rfl⟩ := q₂
    exact ⟨m', c', q', rfl⟩
  have class_ : ty ≠ .interrupt := by rcases hk with ⟨rfl, _⟩ | ⟨rfl, _⟩ <;> decide
  have slot : (u.ed e).slot = k := by
    rw [shape.tables.ed]
    exact congrArg Ed.slot ((opened_ed e n k w e).trans (if_pos rfl))
  refine ⟨u, ?_, shape, ?_, held₂, fun x ed td next => ?_⟩
  · rw [edOpenBody_linked clear typed he hn built (linkEndpoint_class hk linked), slot, if_neg class_]
  · exact slotWords_kept g ned ntd last other (touched₂.mono (fun _ h => h) fun _ h => .inr h) held₁
  · refine (touched₂.bytes x next).trans (touched₁.bytes x ?_)
    rintro (h | h)
    · exact Bool.false_ne_true (ed.symm.trans h)
    · exact Bool.false_ne_true (td.symm.trans h)

/-- Settles O36: `edOpenBody_class` at the state in which the command begins. -/
theorem edOpenClassCompletes : Obligations.EdOpenClassCompletes := by
  intro ctx s ty k e n quiet legal started placed reserved low high code he hn p
  have g : p.Good := Params.legal_good legal
  obtain ⟨ned, _, _⟩ := allocEd_some he
  obtain ⟨ntd, free, _⟩ := allocTd_some hn
  have hk : ty = .control ∧ k = 63 ∨ ty = .bulk ∧ k = 64 := code.imp And.right And.right
  have typed : templateType s.args.arg1 = some ty := by
    refine (templateType_of s.arg1).trans ?_
    rcases code with ⟨h, rfl, _⟩ | ⟨h, rfl, _⟩ <;> rw [h] <;> rfl
  have begun : SameTables s (s.begun (encode (.edOpen ctx))) := .other
  obtain ⟨t, run, shape, held, next, frame⟩ := edOpenBody_class (s := s.begun (encode (.edOpen ctx))) g quiet.2
    (begun.places.placed placed) (args := s.args) (openReservedClear_iff.2 ⟨reserved, low, high⟩) typed hk he hn
  have fitsE : e < 2 ^ 32 := by have : s.params.ned ≤ 255 := g.ned.2; omega
  have fitsK : k < 2 ^ 32 := by rcases hk with ⟨_, rfl⟩ | ⟨_, rfl⟩ <;> decide
  obtain ⟨u, hu⟩ : ∃ u, u = ({ t.endedOk (BitVec.ofNat 32 e) (BitVec.ofNat 32 k) 0 with seq := .idle } : State) := ⟨_, rfl⟩
  have tables := shape.tables
  obtain ⟨w, opened⟩ : ∃ w, w = openedEd p s.arg0 s.arg1 (s.arg2.extractLsb' 0 8).toNat ty n := ⟨_, rfl⟩
  obtain ⟨_, _, headW, tailW, _⟩ := openedEd_spec p s.arg0 s.arg1 (s.arg2.extractLsb' 0 8).toNat ty n
  rw [← opened] at headW tailW
  have ed : ∀ x, u.ed x = if x = e then { w with slot := k } else s.ed x := fun x => by
    rw [hu, opened]
    exact (congrFun tables.ed x).trans (opened_ed e n k _ x)
  have td : ∀ x, u.td x = if x = n then { alloc := true, owner := e } else s.td x := fun x => by
    rw [hu]
    exact (congrFun tables.td x).trans (opened_td e n k _ x)
  have mem : u.mem = t.mem := by rw [hu]; rfl
  have read : ∀ a, u.physRead a = t.physRead a := fun a => by rw [State.physRead, mem]; rfl
  have params : u.params = p := by rw [hu]; exact tables.params
  obtain ⟨⟨control, tail, head, nextP⟩, words⟩ := slotWords_physRead held
  simp only [← read] at control tail head nextP words
  refine ⟨u, ?_, ?_, fun x => ?_, td, fun x => ?_, ?_, fun queues => ?_, control, tail, head, nextP, words.1, words.2.1, words.2.2.1,
    words.2.2.2, fun b hb => (read _).trans (next b hb).1, fun x hE hT hN => ?_⟩
  · rw [exec_edOpen_quiet quiet started, run, finish_ok fitsE fitsK (Nat.two_pow_pos 32), hu]
    rfl
  · obtain ⟨m, c, q, rfl⟩ := shape
    rw [hu, quiet.1.symm]
    rfl
  · rw [ed, opened, openedEd_class p _ _ _ _ hk]
  · rw [hu]
    exact (congrFun tables.list x).trans (opened_list e n k _ x)
  · rw [hu]
    rcases hk with ⟨rfl, rfl⟩ | ⟨rfl, rfl⟩ <;> exact shape.hc
  · refine hardwareAgrees_opened (params ▸ g) (by rw [params]; exact ntd) ?_ ?_ ?_ ?_ (by rw [params]; exact head)
      (by rw [params]; exact tail)
    · rw [ed, if_pos rfl]
      exact headW
    · rw [ed, if_pos rfl]
      exact tailW
    · rw [td, if_pos rfl]
    · rw [hu]
      exact (congrFun tables.indexed n).trans (queues.shape.indexed_free free)
  · rw [mem]
    refine frame x hE hT ?_
    rintro ⟨b, hb, hx⟩
    exact Bool.false_ne_true ((hN b hb).symm.trans hx)

end Sys2Proof.Machine
end

section
/-! SUPPORT. The interrupt tree while no other agent moves (41_scheduler.md R254 to R259): the links an insertion and a
removal write, and what the search for a group answers for a new endpoint. -/

namespace Sys2Proof.Machine

variable {s t u : State} {J J' : Nat → Prop}

/-! ### Links -/

theorem linkWords_mono {p : Params} (h : ∀ b, J b → J' b) (a : Word) (ha : linkWords p J a) : linkWords p J' a :=
  ha.imp id fun ⟨b, hb, at_⟩ => ⟨b, h b hb, at_⟩

/-- The bytes a flush of an endpoint's `NextED` can write. -/
theorem inLines_next {p : Params} (g : p.Good) {b x : Nat} (hb : b < p.ned)
    (hx : if p.coherent = true then inWord (edNextAddr p b) x = true
      else lineBase p x = lineBase p (edNextAddr p b).toNat) : inLines p (edAddr p b).toNat 16 x = true := by
  rw [inLines_slot g (g.edAddr_aligned hb.le)]
  split
  · rename_i coherent
    rw [if_pos coherent, inWord, decide_eq_true_iff, edNext_toNat g hb] at hx
    rw [g.edAddr_toNat hb.le]
    omega
  · rename_i cached
    rw [if_neg cached, edNext_line g] at hx
    exact hx

/-- The `NextED` of an endpoint set. -/
theorem relink_touched (g : s.params.Good) (alone : s.sched = []) {b : Nat} (hb : b < s.params.ned) (mine : J b) (v : Word) :
    ∃ u, rmw (edNextAddr s.params b) (fun _ => v) s = .ok ⟨⟩ u ∧ Quietly s u ∧
      Touched (linkBytes s.params J) (linkWords s.params J) s u ∧ u.holds (edNextAddr s.params b) v ∧
      ∀ x, inWord (edNextAddr s.params b) x = false → loadByte u.mem x = loadByte s.mem x := by
  obtain ⟨u, run, q, touched, held⟩ := rmw_touched g alone (edNext_aligned g hb) fun _ => v
  exact ⟨u, run, q, touched.mono (fun x hx => .inr ⟨b, mine, hx⟩) fun a ha => .inr ⟨b, mine, ha⟩, held,
    fun x hx => touched.bytes x (Bool.eq_false_iff.1 hx)⟩

/-- An entry of the interrupt table written and flushed. -/
theorem publishTable_touched (g : s.params.Good) (alone : s.sched = []) {i : Nat} (hi : i < 32) (v : Word) :
    ∃ u, (do memWrite (tableAddr s.params i) v; flush (tableAddr s.params i) 4 : Cmd Unit) s = .ok ⟨⟩ u ∧ Quietly s u ∧
      Touched (linkBytes s.params J) (linkWords s.params J) s u := by
  obtain ⟨u, run, q, touched, _⟩ := publish_touched g alone (table_aligned g hi)
    (rangeLines_word g (table_aligned g hi)) v
  exact ⟨u, run, q, touched.mono (fun x hx => .inl (inLines_table g hi hx)) fun a ha => .inl ⟨i, hi, ha⟩⟩

/-- What `repoint` does at a position below no endpoint, below a node it has done, and below another. -/
theorem repoint_entry {d q : Nat} {link entry : Word} {ps done : List Nat} (hn : s.shallower q d = none) :
    repoint d link entry (q :: ps) done s = (do
      (do memWrite (tableAddr s.params (tableIndex q)) entry; flush (tableAddr s.params (tableIndex q)) 4)
      repoint d link entry ps done : Cmd Unit) s := by
  refine (run_bind_ok (run_get s)).trans ?_
  simp only [hn, bind_assoc]

theorem repoint_done {d q n : Nat} {link entry : Word} {ps done : List Nat} (hn : s.shallower q d = some n)
    (hd : done.contains n = true) : repoint d link entry (q :: ps) done s = repoint d link entry ps done s := by
  refine (run_bind_ok (run_get s)).trans ?_
  simp only [hn, if_pos hd]

theorem repoint_next {d q n : Nat} {link entry : Word} {ps done : List Nat} (hn : s.shallower q d = some n)
    (hd : ¬ done.contains n = true) : repoint d link entry (q :: ps) done s = (do
      rmw (edNextAddr s.params ((s.list n).getLastD 0)) fun _ => link
      repoint d link entry ps (n :: done) : Cmd Unit) s := by
  refine (run_bind_ok (run_get s)).trans ?_
  simp only [hn, if_neg hd]

/-- The pointers into a node's chain are table entries and the `NextED` of the last endpoints of shallower nodes. -/
theorem repoint_touched (d : Nat) (link entry : Word) (ps done : List Nat) (g : s.params.Good) (alone : s.sched = [])
    (valid : ∀ b, J b → b < s.params.ned) (last : ∀ q ∈ ps, ∀ n, s.shallower q d = some n → J ((s.list n).getLastD 0)) :
    ∃ u, repoint d link entry ps done s = .ok ⟨⟩ u ∧ Quietly s u ∧
      Touched (linkBytes s.params J) (linkWords s.params J) s u := by
  induction ps generalizing s done with
  | nil => exact ⟨s, rfl, ⟨s.mem, s.cache, s.seq, rfl⟩, .refl s⟩
  | cons q ps ih =>
    have rest : ∀ {t} done, Quietly s t → Touched (linkBytes s.params J) (linkWords s.params J) s t →
        ∃ u, repoint d link entry ps done t = .ok ⟨⟩ u ∧ Quietly s u ∧
          Touched (linkBytes s.params J) (linkWords s.params J) s u := fun {t} done same touched => by
      have params := touched.params
      obtain ⟨u, run, same', touched'⟩ := ih done (params ▸ g) (touched.sched.trans alone) (by rwa [params])
        fun q' hq n hn => by
          rw [same.tables.shallower] at hn
          rw [same.tables.list]
          exact last q' (List.mem_cons_of_mem _ hq) n hn
      rw [params] at touched'
      exact ⟨u, run, same.trans same', touched.trans touched'⟩
    cases hn : s.shallower q d with
    | none =>
      obtain ⟨t, run, same, touched⟩ := publishTable_touched (J := J) (i := tableIndex q) g alone (bitrev_lt 5 q) entry
      obtain ⟨u, run', ends⟩ := rest done same touched
      exact ⟨u, (repoint_entry hn).trans ((run_bind_ok run).trans run'), ends⟩
    | some n =>
      by_cases hd : done.contains n = true
      · obtain ⟨u, run', ends⟩ := rest done ⟨s.mem, s.cache, s.seq, rfl⟩ (.refl s)
        exact ⟨u, (repoint_done hn hd).trans run', ends⟩
      · have mine := last q List.mem_cons_self n hn
        obtain ⟨t, run, same, touched, _⟩ := relink_touched g alone (valid _ mine) mine link
        obtain ⟨u, run', ends⟩ := rest (n :: done) same touched
        exact ⟨u, (repoint_next hn hd).trans ((run_bind_ok run).trans run'), ends⟩

/-! ### An insertion -/

/-- An endpoint in some list. -/
def State.listed (s : State) (b : Nat) : Prop := ∃ k, b ∈ s.list k

theorem periodicInsert_rejected {x : Nat} (h : s.placementGroup x = none) : periodicInsert x s = .ok false s := by
  refine (run_bind_ok (run_get s)).trans ?_
  simp only [h]
  rfl

/-- The link to an endpoint that is put last in a node's list, after the endpoint `before` or first (41_scheduler.md R256). -/
def insertLink (p : Params) (d gr x : Nat) (before : Option Nat) : Cmd Unit :=
  match before with
  | some b => rmw (edNextAddr p b) fun _ => edAddr p x
  | none => repoint d (edAddr p x) (edAddr p x) (groupPositions d gr) []

theorem periodicInsert_placed {x gr d k : Nat} (hg : s.placementGroup x = some gr) (hd : (s.ed x).depth = d)
    (hk : node d gr = k) : periodicInsert x s = (do
      (do memWrite (edNextAddr s.params x) (edPointer s.params (s.hop (gr * 2 ^ d) (d + 1)))
          flush (edNextAddr s.params x) 4)
      insertLink s.params d gr x (s.list k).getLast?
      modify fun s => { s.appended k x with plock := false }
      return true : Cmd Bool) { s with plock := true } := by
  subst hd hk
  refine (run_bind_ok (run_get s)).trans ?_
  simp only [hg, bind_assoc]
  refine (run_bind_ok (run_modify _ s)).trans ?_
  cases (s.list (node (s.ed x).depth gr)).getLast? <;> rfl

theorem insertLink_touched (g : s.params.Good) (alone : s.sched = []) (valid : ∀ b, s.listed b → b < s.params.ned)
    (d gr x k : Nat) : ∃ u, insertLink s.params d gr x (s.list k).getLast? s = .ok ⟨⟩ u ∧ Quietly s u ∧
      Touched (linkBytes s.params s.listed) (linkWords s.params s.listed) s u := by
  cases hl : (s.list k).getLast? with
  | some last =>
    have mine : s.listed last := ⟨k, List.mem_of_getLast? hl⟩
    obtain ⟨u, run, q, touched, _⟩ := relink_touched g alone (valid last mine) mine (edAddr s.params x)
    exact ⟨u, run, q, touched⟩
  | none => exact repoint_touched d _ _ _ _ g alone valid fun q _ n hn => ⟨n, getLastD_mem (shallower_ne_nil hn)⟩

/-- What an insertion of the endpoint `x` may write: its slot's lines, links of listed endpoints and table entries. -/
def insertBytes (s : State) (x y : Nat) : Prop :=
  inLines s.params (edAddr s.params x).toNat 16 y = true ∨ linkBytes s.params s.listed y

/-- An insertion names the new endpoint's successor in its `NextED`, and writes links of listed endpoints and table entries
beside it. -/
theorem periodicInsert_touched (g : s.params.Good) (alone : s.sched = []) {x gr d : Nat} (hx : x < s.params.ned)
    (valid : ∀ b, s.listed b → b < s.params.ned) (fresh : ¬ s.listed x) (hd : (s.ed x).depth = d)
    (hg : s.placementGroup x = some gr) :
    ∃ u, periodicInsert x s = .ok true u ∧ Quietly { s.appended (node d gr) x with plock := false } u ∧
      Touched (insertBytes s x) (linkWords s.params fun b => b = x ∨ s.listed b) s u ∧
      u.holds (edNextAddr s.params x) (edPointer s.params (s.hop (gr * 2 ^ d) (d + 1))) := by
  obtain ⟨k, hk⟩ : ∃ k, node d gr = k := ⟨_, rfl⟩
  have aligned := edNext_aligned g hx
  obtain ⟨s₁, run₁, q₁, touched₁, held₁⟩ := publish_touched (s := { s with plock := true }) g alone aligned
    (rangeLines_word g aligned) (edPointer s.params (s.hop (gr * 2 ^ d) (d + 1)))
  have params₁ : s₁.params = s.params := touched₁.params
  have list₁ : s₁.list = s.list := q₁.tables.list
  have listed₁ : s₁.listed = s.listed := by
    unfold State.listed
    rw [list₁]
  obtain ⟨s₂, run₂, q₂, touched₂⟩ := insertLink_touched (params₁ ▸ g) (touched₁.sched.trans alone)
    (by rwa [params₁, listed₁]) d gr x k
  rw [params₁, list₁] at run₂
  rw [params₁, listed₁] at touched₂
  obtain ⟨u, hu⟩ : ∃ u, u = ({ s₂.appended k x with plock := false } : State) := ⟨_, rfl⟩
  have ends : Touched (linkBytes s.params s.listed) (linkWords s.params s.listed) s₂ u := by
    rw [hu]
    exact .other rfl rfl rfl rfl
  have other : ¬ linkWords s.params s.listed (edNextAddr s.params x) := next_notLink g hx valid fresh
  have locked : Touched (insertBytes s x) (linkWords s.params fun b => b = x ∨ s.listed b) s { s with plock := true } :=
    .other rfl rfl rfl rfl
  have inSlot := locked.trans (touched₁.mono (fun _ hy => .inl (inLines_next g hx hy)) fun _ ha => .inr ⟨x, .inl rfl, ha⟩)
  have inLinks : Touched (insertBytes s x) (linkWords s.params fun b => b = x ∨ s.listed b) s₁ u :=
    (touched₂.trans ends).mono (fun _ h => .inr h) (linkWords_mono fun _ h => .inr h)
  refine ⟨u, ?_, ?_, inSlot.trans inLinks, ?_⟩
  · rw [periodicInsert_placed hg hd hk, run_bind_ok run₁, run_bind_ok run₂, run_bind_ok (run_modify _ s₂), hu]
    rfl
  · obtain ⟨m, c, q, rfl⟩ := q₁
    obtain ⟨m', c', q', rfl⟩ := q₂
    rw [hu, hk]
    exact ⟨m', c', q', rfl⟩
  · exact ends.words _ _ aligned other (touched₂.words _ _ aligned other held₁)

end Sys2Proof.Machine
end

section
/-! SUPPORT. `ED_OPEN` of an interrupt endpoint while no other agent moves (40_endpoint.md R200, R203, 41_scheduler.md R253
to R256): the group the search answers, and the endpoint linked there or freed again. -/

namespace Sys2Proof.Machine

variable {s t u : State}

/-! ### The search for a group (41_scheduler.md R254, R255) -/

theorem groupWorst_congr (h : ∀ k, t.listLoad k = s.listLoad k) (d gr : Nat) : t.groupWorst d gr = s.groupWorst d gr := by
  simp only [State.groupWorst, State.load, State.posLoad, h]

/-- An endpoint in no list loads no branch. -/
theorem groupWorst_built {e : Nat} (fresh : ¬ s.listed e) (n : Nat) (w : Ed) (d gr : Nat) :
    (s.built e n w).groupWorst d gr = s.groupWorst d gr := by
  refine groupWorst_congr (fun k => ?_) d gr
  simp only [State.listLoad, built_list]
  refine congrArg List.sum (List.map_congr_left fun b hb => ?_)
  have ne : b ≠ e := fun same => fresh ⟨k, same ▸ hb⟩
  rw [built_ed_ne ne]

theorem groupWorst_opened (same : SameTables s t) {e : Nat} (fresh : ¬ s.listed e) (n : Nat) (w : Ed) (d gr : Nat) :
    (t.built e n w).groupWorst d gr = s.groupWorst d gr := by
  refine (groupWorst_built (fun ⟨k, h⟩ => fresh ⟨k, by rwa [same.list] at h⟩) n w d gr).trans (groupWorst_congr (fun k => ?_) d gr)
  simp only [State.listLoad, same.list, same.ed]

/-- A group of a depth, and none is better and each before it worse. -/
structure State.best (s : State) (d gr : Nat) : Prop where
  group : gr < 2 ^ (5 - d)
  least : ∀ g' < 2 ^ (5 - d), s.groupWorst d gr ≤ s.groupWorst d g'
  first : ∀ g' < gr, s.groupWorst d gr < s.groupWorst d g'

theorem bestGroup_best (s : State) (d : Nat) : ∃ gr, s.bestGroup d = some (gr, s.groupWorst d gr) ∧ s.best d gr := by
  obtain ⟨l, hl⟩ : ∃ l, l = (List.range (2 ^ (5 - d))).map fun gr => (gr, s.groupWorst d gr) := ⟨_, rfl⟩
  have at_ : ∀ {i}, i < 2 ^ (5 - d) → l[i]? = some (i, s.groupWorst d i) := fun hi => by
    simp [hl, List.getElem?_range hi]
  have size : l.length = 2 ^ (5 - d) := by simp [hl]
  have answers : s.bestGroup d = bestOf l := by rw [hl, State.bestGroup]
  cases found : bestOf l with
  | none =>
    have empty := congrArg List.length (bestOf_none found)
    have := Nat.two_pow_pos (5 - d)
    simp only [size, List.length_nil] at empty
    omega
  | some x =>
    obtain ⟨before, after, split, worse, noBetter⟩ := bestOf_some found
    have group : before.length < 2 ^ (5 - d) := by
      rw [← size, split]
      simp
    have here := at_ group
    rw [split, List.getElem?_append_right le_rfl, Nat.sub_self, List.getElem?_cons_zero] at here
    cases here
    have earlier : ∀ g' < before.length, s.groupWorst d before.length < s.groupWorst d g' := fun g' hg => by
      have there := at_ (hg.trans group)
      rw [split, List.getElem?_append_left hg] at there
      exact worse _ (List.mem_of_getElem? there)
    refine ⟨before.length, answers.trans found, group, fun g' hg => ?_, earlier⟩
    have member := List.mem_of_getElem? (at_ hg)
    rw [split] at member
    rcases List.mem_append.1 member with member | member
    · exact (worse _ member).le
    · rcases List.mem_cons.1 member with same | member
      · exact (congrArg Prod.snd same).symm.le
      · exact noBetter _ member

theorem placementGroup_of_fits {x d : Nat} (hd : (s.ed x).depth = d)
    (fits : ∃ g' < 2 ^ (5 - d), (s.ed x).bw + s.groupWorst d g' ≤ perSpeed s.params.maxPeriodicBw (s.ed x).speed) :
    ∃ gr, s.placementGroup x = some gr ∧ s.best d gr ∧
      (s.ed x).bw + s.groupWorst d gr ≤ perSpeed s.params.maxPeriodicBw (s.ed x).speed := by
  obtain ⟨gr, found, best⟩ := bestGroup_best s d
  obtain ⟨g', hg, room⟩ := fits
  have room := (Nat.add_le_add_left (best.least g' hg) _).trans room
  refine ⟨gr, ?_, best, room⟩
  simp only [State.placementGroup, hd, found]
  exact if_neg room.not_gt

theorem placementGroup_of_over {x d : Nat} (hd : (s.ed x).depth = d)
    (exceeds : ∀ g' < 2 ^ (5 - d), perSpeed s.params.maxPeriodicBw (s.ed x).speed < (s.ed x).bw + s.groupWorst d g') :
    s.placementGroup x = none := by
  obtain ⟨gr, found, best⟩ := bestGroup_best s d
  simp only [State.placementGroup, hd, found]
  exact if_pos (exceeds gr best.group)

/-! ### Interval and depth (41_scheduler.md R253) -/

theorem intervalLog_le (round : IntervalRound) (iv : Nat) : intervalLog round iv ≤ 5 := by
  have low : log2Below (max iv 1) ≤ 4 := by
    unfold log2Below
    split_ifs <;> omega
  simp only [intervalLog]
  split
  · exact le_rfl
  · cases round with
    | floor => exact low.trans (by decide)
    | nearest => dsimp only; split <;> omega

theorem idepth_interval (round : IntervalRound) (iv : Nat) : (idepth round iv).1 = 2 ^ (5 - (idepth round iv).2) := by
  have := intervalLog_le round iv
  simp only [idepth]
  congr 1
  omega

/-! ### The endpoint linked or freed -/

/-- A change of links after an endpoint was built, which sets its `NextED`: what memory holds of it. -/
theorem slotWords_relinked {p : Params} (g : p.Good) {e n : Nat} (he : e < p.ned) (hn : n < p.ntd) {template v : Word}
    {J : Nat → Prop} (hJ : ∀ b, J b → b < p.ned) {W : Nat → Prop} (touched : Touched W (linkWords p J) s t)
    (held : ∀ w ∈ slotWords p e n template, s.holds w.1 w.2) (next : t.holds (edNextAddr p e) v) :
    (t.physRead (edControlAddr p e) = template ∧ t.physRead (edTailAddr p e) = tdAddr p n ∧
      t.physRead (edHeadAddr p e) = tdAddr p n ∧ t.physRead (edNextAddr p e) = v) ∧
    t.physRead (tdAddr p n) = 0#32 ∧ t.physRead (tdAddr p n + 4#32) = 0#32 ∧
      t.physRead (tdAddr p n + 8#32) = 0#32 ∧ t.physRead (tdAddr p n + 12#32) = 0#32 := by
  have kept : ∀ {a v}, Plain p a → s.holds a v → t.physRead a = v := fun plain h =>
    (touched.words _ _ plain.aligned (plain_notLink plain hJ) h).1
  have ed : ∀ k : Word, k.toNat % 4 = 0 → k.toNat < 12 → Plain p (edAddr p e + k) := plain_edWord g he
  have td : ∀ k : Word, k.toNat % 4 = 0 → k.toNat < 16 → Plain p (tdAddr p n + k) := plain_tdWord g hn
  simp only [slotWords, List.forall_mem_cons] at held
  obtain ⟨t0, t4, t8, t12, control, tail, head, _, _⟩ := held
  exact ⟨⟨kept (Wired.plain_ed g he) control, kept (ed _ (by decide) (by decide)) tail,
    kept (ed _ (by decide) (by decide)) head, next.1⟩, kept (Wired.plain_td g hn) t0, kept (td _ (by decide) (by decide)) t4,
    kept (td _ (by decide) (by decide)) t8, kept (td _ (by decide) (by decide)) t12⟩

theorem State.placed.listed_lt (h : s.placed) {b : Nat} (hb : s.listed b) : b < s.params.ned :=
  let ⟨_, member⟩ := hb
  h.apart.valid member

theorem State.placed.not_listed (h : s.placed) {e : Nat} (free : (s.ed e).alloc = false) : ¬ s.listed e :=
  fun ⟨k, member⟩ => h.notMem free k member

theorem listed_of_list (h : t.list = s.list) : t.listed = s.listed := by
  unfold State.listed
  rw [h]

section
variable {args : Args} {e n gr d : Nat} {w : Ed} (g : s.params.Good) (alone : s.sched = []) (placed : s.placed)
  (clear : openReservedClear args.arg1 args.arg2 = true) (typed : templateType args.arg1 = some .interrupt)
  (he : s.allocEd = some e) (hn : s.allocTd = some n)
  (opened : openedEd s.params args.arg0 args.arg1 (args.arg2.extractLsb' 0 8).toNat .interrupt n = w)
include g alone placed clear typed he hn opened

/-- An interrupt endpoint is built and linked last in the group the search answers. -/
theorem edOpenBody_interrupt (hd : w.depth = d) (hg : (s.built e n w).placementGroup e = some gr) :
    ∃ u, edOpenBody args s = .ok { res0 := e, res1 := node d gr, res2 := w.bw } u ∧
      Quietly { (s.built e n w).appended (node d gr) e with plock := false } u ∧
      ((u.physRead (edControlAddr s.params e) = args.arg1 ∧ u.physRead (edTailAddr s.params e) = tdAddr s.params n ∧
          u.physRead (edHeadAddr s.params e) = tdAddr s.params n ∧
          u.physRead (edNextAddr s.params e) = edPointer s.params (s.hop (gr * 2 ^ d) (d + 1))) ∧
        u.physRead (tdAddr s.params n) = 0#32 ∧ u.physRead (tdAddr s.params n + 4#32) = 0#32 ∧
          u.physRead (tdAddr s.params n + 8#32) = 0#32 ∧ u.physRead (tdAddr s.params n + 12#32) = 0#32) ∧
      ∀ x, inLines s.params (edAddr s.params e).toNat 16 x = false → inLines s.params (tdAddr s.params n).toNat 16 x = false →
        ¬ linkBytes s.params s.listed x → loadByte u.mem x = loadByte s.mem x := by
  obtain ⟨ned, free, _⟩ := allocEd_some he
  obtain ⟨ntd, _, _⟩ := allocTd_some hn
  obtain ⟨s₁, built, q₁, touched₁, held₁⟩ := buildEndpoint_touched (s := s.built e n w) g alone ned ntd args.arg1
  have params : s₁.params = s.params := touched₁.params
  have list : s₁.list = s.list := q₁.tables.list.trans (funext fun k => built_list e n w k)
  have listed : s₁.listed = s.listed := listed_of_list list
  have depth : (s₁.ed e).depth = d := by rw [q₁.tables.ed, built_ed_self, hd]
  have hop : s₁.hop (gr * 2 ^ d) (d + 1) = s.hop (gr * 2 ^ d) (d + 1) := by simp only [State.hop, list]
  obtain ⟨u, linked, q₂, touched₂, next⟩ := periodicInsert_touched (s := s₁) (x := e) (gr := gr) (params ▸ g)
    (touched₁.sched.trans alone) (by rwa [params]) (by rw [params, listed]; exact fun b => placed.listed_lt)
    (by rw [listed]; exact placed.not_listed free) depth (by rw [q₁.tables.placementGroup]; exact hg)
  rw [params, hop] at next
  rw [params, listed] at touched₂
  have shape : Quietly { (s.built e n w).appended (node d gr) e with plock := false } u := by
    obtain ⟨m, c, q, rfl⟩ := q₁
    obtain ⟨m', c', q', rfl⟩ := q₂
    exact ⟨m', c', q', rfl⟩
  have entry : u.ed e = { w with slot := node d gr } := by
    rw [shape.tables.ed]
    exact (opened_ed e n _ w e).trans (if_pos rfl)
  refine ⟨u, ?_, shape, slotWords_relinked g ned ntd ?_ touched₂ held₁ next, fun x ed td link => ?_⟩
  · subst opened
    rw [edOpenBody_linked clear typed he hn built linked, entry, if_pos rfl]
  · rintro b (rfl | hb)
    · exact ned
    · exact placed.listed_lt hb
  · refine (touched₂.bytes x ?_).trans (touched₁.bytes x ?_)
    · unfold insertBytes
      rw [params, listed]
      rintro (h | h)
      · exact Bool.false_ne_true (ed.symm.trans h)
      · exact link h
    · rintro (h | h)
      · exact Bool.false_ne_true (ed.symm.trans h)
      · exact Bool.false_ne_true (td.symm.trans h)

omit placed in
/-- Where the search answers no group the two slots are free again, and they alone have been written. -/
theorem edOpenBody_over (hg : (s.built e n w).placementGroup e = none) :
    ∃ u, edOpenBody args s = .error (.err .bandwidth) ((u.freeTd n).freeEd e) ∧ Quietly (s.built e n w) u ∧
      ∀ x, inLines s.params (edAddr s.params e).toNat 16 x = false → inLines s.params (tdAddr s.params n).toNat 16 x = false →
        loadByte u.mem x = loadByte s.mem x := by
  obtain ⟨ned, _, _⟩ := allocEd_some he
  obtain ⟨ntd, _, _⟩ := allocTd_some hn
  obtain ⟨u, built, q, touched, _⟩ := buildEndpoint_touched (s := s.built e n w) g alone ned ntd args.arg1
  subst opened
  refine ⟨u, edOpenBody_rejected clear typed he hn built (periodicInsert_rejected ?_), q, fun x ed td => touched.bytes x ?_⟩
  · rw [q.tables.placementGroup]
    exact hg
  · rintro (h | h)
    · exact Bool.false_ne_true (ed.symm.trans h)
    · exact Bool.false_ne_true (td.symm.trans h)

end

/-! ### The two obligations -/

/-- The captured fields of an interrupt endpoint (40_endpoint.md R200). -/
theorem openedEd_interrupt (p : Params) (key template : Word) (iv n : Nat) :
    openedEd p key template iv .interrupt n =
      { alloc := true, key := key, type := .interrupt, speed := if template.getLsbD 13 then .low else .full
        interval := 2 ^ (5 - (idepth p.intervalRound iv).2), depth := (idepth p.intervalRound iv).2
        bw := (template.extractLsb' 16 11).toNat +
          perSpeed p.overheadInterrupt (if template.getLsbD 13 then .low else .full)
        head := n, tail := n } := by
  rw [← idepth_interval]
  rfl

/-- Settles O37: `edOpenBody_interrupt` at the group `placementGroup_of_fits` finds. -/
theorem edOpenInterruptCompletes : Obligations.EdOpenInterruptCompletes := by
  intro ctx s e n quiet legal started placed reserved low high code he hn p sp d bw fits
  have g : p.Good := Params.legal_good legal
  obtain ⟨ned, edFree, _⟩ := allocEd_some he
  obtain ⟨ntd, tdFree, _⟩ := allocTd_some hn
  have typed : templateType s.args.arg1 = some .interrupt := (templateType_of s.arg1).trans (by rw [code]; rfl)
  obtain ⟨b, hb⟩ : ∃ b, b = s.begun (encode (.edOpen ctx)) := ⟨_, rfl⟩
  have begun : SameTables s b := hb ▸ .other
  obtain ⟨w, hw⟩ : ∃ w : Ed, w = { alloc := true, key := s.arg0, type := .interrupt, speed := sp, interval := 2 ^ (5 - d)
                                   depth := d, bw := bw, head := n, tail := n } := ⟨_, rfl⟩
  have opened : openedEd p s.arg0 s.arg1 (s.arg2.extractLsb' 0 8).toNat .interrupt n = w :=
    (openedEd_interrupt ..).trans hw.symm
  obtain ⟨depthW, bwW, speedW⟩ : w.depth = d ∧ w.bw = bw ∧ w.speed = sp := by rw [hw]; exact ⟨rfl, rfl, rfl⟩
  have self : (b.built e n w).ed e = w := built_ed_self e n w
  have worst := groupWorst_opened begun (placed.not_listed edFree) n w d
  have params : (b.built e n w).params = p := begun.params
  obtain ⟨gr, found, best, room⟩ := placementGroup_of_fits (s := b.built e n w) (x := e) (self ▸ depthW)
    (by simpa only [self, worst, params, bwW, speedW] using fits)
  obtain ⟨group, least, first⟩ := best
  simp only [self, worst, params, bwW, speedW] at room least first
  obtain ⟨t, run, shape, ⟨⟨control, tail, head, next⟩, td0, td4, td8, td12⟩, frame⟩ :=
    edOpenBody_interrupt (s := b) (args := s.args) (w := w) (d := d) (begun.params ▸ g) (hb ▸ quiet.2)
      (begun.places.placed placed) (openReservedClear_iff.2 ⟨reserved, low, high⟩) typed (by rw [begun.allocEd]; exact he)
      (by rw [begun.allocTd]; exact hn) (by rw [begun.params]; exact opened) (by rw [hw]) found
  rw [begun.params] at control tail head next td0 td4 td8 td12 frame
  rw [begun.hop] at next
  obtain ⟨u, hu⟩ : ∃ u, u = t.endOk { res0 := e, res1 := node d gr, res2 := w.bw } := ⟨_, rfl⟩
  have tables : SameTables ((b.built e n w).appended (node d gr) e) u :=
    (SameTables.other (t := { (b.built e n w).appended (node d gr) e with plock := false })).trans
      (shape.tables.trans (hu ▸ .other))
  have ed : ∀ x, u.ed x = if x = e then { w with slot := node d gr } else s.ed x := fun x => by
    rw [tables.ed, ← begun.ed, opened_ed]
  have td : ∀ x, u.td x = if x = n then { alloc := true, owner := e } else s.td x := fun x => by
    rw [tables.td, ← begun.td, opened_td]
  have mem : u.mem = t.mem := by rw [hu]; rfl
  have read : ∀ a, u.physRead a = t.physRead a := fun a => by rw [State.physRead, mem]; rfl
  have paramsU : u.params = p := tables.params.trans begun.params
  have fitsE : e < 2 ^ 32 := by have : s.params.ned ≤ 255 := g.ned.2; omega
  have fitsK : node d gr < 2 ^ 32 := (node_lt (Nat.lt_succ_of_le (Nat.sub_le 5 _)) group).trans (by decide)
  have draws : t.draws = s.draws := by obtain ⟨m, c, q, rfl⟩ := shape; rw [hb]; rfl
  simp only [← read] at control tail head next td0 td4 td8 td12
  refine ⟨u, gr, ?_, group, room, least, first, ?_, fun small => ⟨?_, ?_⟩, fun x => ?_, td, fun x => ?_, control, tail, head,
    next, fun queues => ?_, td0, td4, td8, td12, fun x hE hT hL hN => ?_⟩
  · rw [exec_edOpen_quiet quiet started, ← hb, run, hu]
    rfl
  · obtain ⟨m, c, q, rfl⟩ := shape
    simp only [hu, State.endOk, State.writeResults, resultWord_fits fitsE, resultWord_fits fitsK]
    rw [hb, State.endCommand, ← quiet.1]
    rfl
  · rw [hu]
    exact (resultWord_fits (bwW.symm ▸ small) ..).trans (by rw [bwW])
  · rw [hu]
    have small : w.bw < 2 ^ 32 := bwW ▸ small
    exact (writeResults_draws_fits t (r := { res0 := e, res1 := node d gr, res2 := w.bw }) fitsE fitsK small).trans draws
  · rw [ed, hw]
  · rw [tables.list, ← begun.list, opened_list]
    split
    · rename_i same
      rw [same]
    · rfl
  · refine hardwareAgrees_opened (paramsU ▸ g) (by rw [paramsU]; exact ntd) ?_ ?_ ?_ ?_ (by rw [paramsU]; exact head)
      (by rw [paramsU]; exact tail)
    · rw [ed, if_pos rfl, hw]
    · rw [ed, if_pos rfl, hw]
    · rw [td, if_pos rfl]
    · rw [tables.indexed, appended_indexed, built_indexed, begun.indexed]
      exact queues.shape.indexed_free tdFree
  · rw [mem, frame x hE hT ?_, hb]
    · rfl
    · rintro (table | ⟨j, hj, hx⟩)
      · exact Bool.false_ne_true (hL.symm.trans table)
      · exact Bool.false_ne_true ((hN j (placed.listed_lt (listed_of_list begun.list ▸ hj))).symm.trans hx)

/-- Settles O38: `placementGroup_of_over`, so `edOpenBody_over`. -/
theorem edOpenOverBudget : Obligations.EdOpenOverBudget := by
  intro ctx s e n quiet legal started placed reserved low high code he hn p sp d bw exceeds
  have g : p.Good := Params.legal_good legal
  obtain ⟨_, edFree, _⟩ := allocEd_some he
  have typed : templateType s.args.arg1 = some .interrupt := (templateType_of s.arg1).trans (by rw [code]; rfl)
  obtain ⟨b, hb⟩ : ∃ b, b = s.begun (encode (.edOpen ctx)) := ⟨_, rfl⟩
  have begun : SameTables s b := hb ▸ .other
  obtain ⟨w, hw⟩ : ∃ w, w = openedEd p s.arg0 s.arg1 (s.arg2.extractLsb' 0 8).toNat .interrupt n := ⟨_, rfl⟩
  obtain ⟨depthW, bwW, speedW⟩ : w.depth = d ∧ w.bw = bw ∧ w.speed = sp := by
    rw [hw, openedEd_interrupt]
    exact ⟨rfl, rfl, rfl⟩
  have self : (b.built e n w).ed e = w := built_ed_self e n w
  have worst := groupWorst_opened begun (placed.not_listed edFree) n w d
  have params : (b.built e n w).params = p := begun.params
  have rejected : (b.built e n w).placementGroup e = none := placementGroup_of_over (self ▸ depthW)
    (by simpa only [self, worst, params, bwW, speedW] using exceeds)
  obtain ⟨t, run, shape, frame⟩ := edOpenBody_over (s := b) (args := s.args) (w := w) (begun.params ▸ g) (hb ▸ quiet.2)
    (openReservedClear_iff.2 ⟨reserved, low, high⟩) typed (by rw [begun.allocEd]; exact he)
    (by rw [begun.allocTd]; exact hn) (by rw [begun.params, hw]; rfl) rejected
  rw [begun.params] at frame
  obtain ⟨u, hu⟩ : ∃ u, u = ((t.freeTd n).freeEd e).endWithError .bandwidth := ⟨_, rfl⟩
  have tables : SameTables (((b.built e n w).freeTd n).freeEd e) u :=
    ((shape.tables.freeTd n).freeEd e).trans (hu ▸ .other)
  refine ⟨u, ?_, ?_, ?_, fun x hx => ?_, ?_, fun x hx => ?_, ?_, fun x hx => ?_, fun x hE hT => ?_⟩
  · rw [exec_edOpen_quiet quiet started, ← hb, run, hu]
    rfl
  · obtain ⟨m, c, q, rfl⟩ := shape
    rw [hu, hb, State.endWithError, State.endCommand, ← quiet.1]
    rfl
  · rw [tables.ed, freeEd_ed_self]
  · rw [tables.ed, freeEd_ed_ne _ hx, freeTd_ed, built_ed_ne hx, begun.ed]
  · rw [tables.td, freeEd_td, freeTd_td_self]
  · rw [tables.td, freeEd_td, freeTd_td_ne _ hx, built_td_ne hx, begun.td]
  · rw [tables.indexed, freeEd_indexed, freeTd_indexed_self]
  · rw [tables.indexed, freeEd_indexed, freeTd_indexed_ne _ hx, built_indexed, begun.indexed]
  · rw [hu]
    exact (frame x hE hT).trans (by rw [hb]; rfl)

end Sys2Proof.Machine
end

section
/-! SUPPORT. `ED_CLOSE` from the end of its wait on while no other agent moves (40_endpoint.md R208 to R214, 41_scheduler.md
R259): the endpoint unlinked, its queue and then its slot freed. -/

namespace Sys2Proof.Machine

variable {s t u : State} {e i : Nat}

/-! ### The place of an endpoint in its list -/

theorem getElem_of_idxOf {l : List Nat} (hi : l.idxOf? e = some i) : l[i]? = some e := by
  obtain ⟨a, b, rfl, _, rfl⟩ := idxOf_split hi
  simp

theorem index_of_nodup {l : List Nat} {j : Nat} (once : l.Nodup) (hi : l[i]? = some e) (hj : l[j]? = some e) : i = j :=
  (List.getElem?_inj (List.getElem?_eq_some_iff.1 hi).1 once).1 (hi.trans hj.symm)

theorem beforeAt_eq_some {l : List Nat} {b : Nat} (hi : l[i]? = some e) :
    beforeAt l i = some b ↔ ∃ j, i = j + 1 ∧ l[j]? = some b := by
  obtain ⟨lt, _⟩ := List.getElem?_eq_some_iff.1 hi
  cases i with
  | zero => simp [beforeAt]
  | succ j =>
    have here : l[j]? = some (l.getD j 0) := by rw [List.getD_eq_getElem?_getD, List.getElem?_eq_getElem (by omega)]; rfl
    rw [beforeAt, if_neg (Nat.succ_ne_zero j), Nat.add_sub_cancel, ← here]
    exact ⟨fun h => ⟨j, rfl, h⟩, fun ⟨_, same, h⟩ => Nat.succ.inj same ▸ h⟩

/-- The endpoint before another in its list is allocated and is not the other. -/
theorem State.placed.beforeAt (h : s.placed) {k b : Nat} (hi : (s.list k)[i]? = some e)
    (hb : Machine.beforeAt (s.list k) i = some b) : b < s.params.ned ∧ b ≠ e := by
  obtain ⟨j, rfl, at_⟩ := (beforeAt_eq_some hi).1 hb
  refine ⟨h.apart.valid (List.mem_of_getElem? at_), ?_⟩
  rintro rfl
  have := index_of_nodup (h.once k) hi at_
  omega

/-- The last endpoint of a shallower node is not one of the node. -/
theorem State.placed.shallower_last (h : s.placed) {q d gr n : Nat} (hd : d < 6) (group : gr < 2 ^ (5 - d))
    (member : e ∈ s.list (node d gr)) (hq : q ∈ groupPositions d gr) (hn : s.shallower q d = some n) :
    (s.list n).getLastD 0 < s.params.ned ∧ (s.list n).getLastD 0 ≠ e := by
  have last := getLastD_mem (shallower_ne_nil hn)
  refine ⟨h.apart.valid last, fun same => ?_⟩
  obtain ⟨d', less, rfl, _⟩ := shallower_some.1 hn
  have small := position_lt hd group (mem_groupPositions.1 hq)
  have nodes := h.apart.unique (same ▸ last) member
  obtain ⟨depths, _⟩ := node_inj (less.trans hd) (path_lt small (less.trans hd)) hd group nodes
  omega

/-! ### Out of the tree (41_scheduler.md R259) -/

/-- The link to an endpoint that is taken off a node's list: the `NextED` of the endpoint before it, or the pointers into the
node's chain. -/
def removeLink (p : Params) (d gr : Nat) (before : Option Nat) (succ : Word) : Cmd Unit :=
  match before with
  | some b => rmw (edNextAddr p b) fun _ => succ
  | none => repoint d succ (tablePointer p succ) (groupPositions d gr) []

theorem periodicRemove_found {d gr k : Nat} (hd : (s.ed e).depth = d) (hs : (s.ed e).slot = k) (hk : node d gr = k)
    (hi : (s.list k).idxOf? e = some i) : periodicRemove e s = (do
      removeLink s.params d gr (beforeAt (s.list k) i)
        (edPointer s.params ((s.list k)[i + 1]?.or (s.hop (gr * 2 ^ d) (d + 1))))
      modify fun s => { s.setList k ((s.list k).erase e) with plock := false } : Cmd Unit) { s with plock := true } := by
  have group : k - nodeBase d = gr := by rw [← hk]; exact Nat.add_sub_cancel_left ..
  have found := run_orStop_some .brokenPlacement i s
  refine (run_bind_ok (run_get s)).trans ?_
  simp only [hd, hs, hi, group]
  refine (run_bind_ok found).trans ((run_bind_ok (run_modify _ s)).trans ?_)
  rw [beforeAt]
  by_cases first : i = 0
  · rw [if_pos first, if_neg (by omega)]
    cases (s.list k)[i + 1]? <;> rfl
  · rw [if_neg first, if_pos (by omega)]
    cases (s.list k)[i + 1]? <;> rfl

/-! ### Out of its list (40_endpoint.md R208) -/

/-- The endpoint to which the one before `e` points when `e` is off its list: the next of the list, or in the tree the first
on the path beyond it. -/
def State.follower (s : State) (e i : Nat) : Option Nat :=
  (s.list (s.ed e).slot)[i + 1]?.or
    (if (s.ed e).type = .interrupt then
      s.hop (((s.ed e).slot - nodeBase (s.ed e).depth) * 2 ^ (s.ed e).depth) ((s.ed e).depth + 1) else none)

theorem follower_of_class (ty : (s.ed e).type ≠ .interrupt) : s.follower e i = (s.list (s.ed e).slot)[i + 1]? := by
  rw [State.follower, if_neg ty, Option.or_none]

/-- The endpoints but one. -/
def State.others (s : State) (e b : Nat) : Prop := b < s.params.ned ∧ b ≠ e

/-- The links after the endpoint `e`, at place `i` of its list, has been taken off: the head register of a class, the
`NextED` of the endpoint before, and bytes unchanged but those of the links. -/
structure State.relinked (s : State) (e i : Nat) (u : State) : Prop where
  tree : (s.ed e).type = .interrupt → u.hc = s.hc
  head : (s.ed e).type ≠ .interrupt → i = 0 → u.hc = s.hc.withHead (s.ed e).slot (edPointer s.params (s.follower e i)) ∧
    ∀ x, loadByte u.mem x = loadByte s.mem x
  later : (s.ed e).type ≠ .interrupt → i ≠ 0 → u.hc = s.hc
  before : ∀ b, beforeAt (s.list (s.ed e).slot) i = some b →
    u.physRead (edNextAddr s.params b) = edPointer s.params (s.follower e i) ∧
      ∀ x, inWord (edNextAddr s.params b) x = false → loadByte u.mem x = loadByte s.mem x
  bytes : ∀ x, ¬ linkBytes s.params (s.others e) x → loadByte u.mem x = loadByte s.mem x

/-- The links are a matter of the tables, of memory and of the HC. -/
theorem State.relinked.of_same (same : SameTables s t) (mem : t.mem = s.mem) (hc : t.hc = s.hc) (h : t.relinked e i u) :
    s.relinked e i u := by
  have follower : t.follower e i = s.follower e i := by simp only [State.follower, same.ed, same.list, same.hop]
  have others : t.others e = s.others e := by unfold State.others; rw [same.params]
  obtain ⟨tree, head, later, before, bytes⟩ := h
  simp only [same.ed, same.list, same.params, follower, others, mem, hc] at tree head later before bytes
  exact ⟨tree, head, later, before, bytes⟩

/-- What taking an endpoint off its list leaves: the block's own list without it, and the links. -/
structure State.unlinked (s : State) (e i : Nat) (u : State) : Prop where
  rest : u = { s.setList (s.ed e).slot ((s.list (s.ed e).slot).erase e) with
    plock := u.plock, seq := u.seq, mem := u.mem, cache := u.cache, hc := u.hc }
  links : s.relinked e i u

theorem State.unlinked.tables (h : s.unlinked e i u) :
    SameTables (s.setList (s.ed e).slot ((s.list (s.ed e).slot).erase e)) u := by
  rw [h.rest]
  exact .other

/-- Off the control or the bulk list. -/
theorem classRemove_unlinked (g : s.params.Good) (alone : s.sched = []) (placed : s.placed)
    (hk : (s.ed e).slot = 63 ∨ (s.ed e).slot = 64) (ty : (s.ed e).type ≠ .interrupt)
    (hi : (s.list (s.ed e).slot).idxOf? e = some i) :
    ∃ u, classRemove (s.ed e).slot e s = .ok ⟨⟩ u ∧ s.unlinked e i u := by
  obtain ⟨u, run, q, touched, held⟩ := classRemove_touched g alone hk (fun _ h => placed.apart.valid h) hi
  have at_ := getElem_of_idxOf hi
  have succ := follower_of_class (i := i) ty
  have hc : u.hc = if i = 0 then s.hc.withHead (s.ed e).slot (edPointer s.params (s.follower e i)) else s.hc := by
    obtain ⟨m, c, q, rfl⟩ := q
    rw [succ]
  have frame : ∀ x, ¬ nextBytes s.params (beforeAt (s.list (s.ed e).slot) i = some ·) x → loadByte u.mem x = loadByte s.mem x :=
    touched.bytes
  refine ⟨u, run, ?_, fun no => absurd no ty, fun _ first => ⟨hc.trans (if_pos first), fun x => frame x ?_⟩,
    fun _ later => hc.trans (if_neg later), fun b hb => ⟨?_, fun x hx => frame x ?_⟩, fun x hx => frame x ?_⟩
  · obtain ⟨m, c, q, rfl⟩ := q
    rfl
  · rintro ⟨b, hb, _⟩
    obtain ⟨j, same, _⟩ := (beforeAt_eq_some at_).1 hb
    omega
  · rw [succ]
    exact (held b hb).1
  · rintro ⟨b', hb', there⟩
    cases hb.symm.trans hb'
    exact Bool.false_ne_true (hx.symm.trans there)
  · rintro ⟨b, hb, there⟩
    exact hx (.inr ⟨b, placed.beforeAt at_ hb, there⟩)

/-- Off a node of the tree. -/
theorem periodicRemove_unlinked (g : s.params.Good) (alone : s.sched = []) (placed : s.placed)
    (suits : s.slotSuits e = true) (ty : (s.ed e).type = .interrupt) (hi : (s.list (s.ed e).slot).idxOf? e = some i) :
    ∃ u, periodicRemove e s = .ok ⟨⟩ u ∧ s.unlinked e i u := by
  obtain ⟨depth, gr, group, slot⟩ := slotSuits_interrupt suits ty
  obtain ⟨k, hk⟩ : ∃ k, (s.ed e).slot = k := ⟨_, rfl⟩
  obtain ⟨d, hd⟩ : ∃ d, (s.ed e).depth = d := ⟨_, rfl⟩
  rw [hd] at depth group slot
  have node_ : node d gr = k := slot.symm.trans hk
  have gr_ : k - nodeBase d = gr := by rw [← node_]; exact Nat.add_sub_cancel_left ..
  rw [hk] at hi
  have at_ := getElem_of_idxOf hi
  have member := List.mem_of_getElem? at_
  obtain ⟨v, hv⟩ : ∃ v, v = edPointer s.params (s.follower e i) := ⟨_, rfl⟩
  have succ : s.follower e i = (s.list k)[i + 1]?.or (s.hop (gr * 2 ^ d) (d + 1)) := by
    rw [State.follower, if_pos ty, hk, hd, gr_]
  obtain ⟨t, ht⟩ : ∃ t : State, t = { s with plock := true } := ⟨_, rfl⟩
  have linked : ∃ u, removeLink s.params d gr (beforeAt (s.list k) i) v t = .ok ⟨⟩ u ∧ Quietly t u ∧
      Touched (linkBytes s.params (s.others e)) (linkWords s.params (s.others e)) t u ∧
      ∀ b, beforeAt (s.list k) i = some b → u.physRead (edNextAddr s.params b) = v ∧
        ∀ x, inWord (edNextAddr s.params b) x = false → loadByte u.mem x = loadByte s.mem x := by
    subst ht
    cases hb : beforeAt (s.list k) i with
    | none =>
      obtain ⟨u, run, q, touched⟩ := repoint_touched (J := s.others e) (s := { s with plock := true }) d v
        (tablePointer s.params v) (groupPositions d gr) [] g alone (fun _ h => h.1) fun q hq n hn =>
          placed.shallower_last depth group (node_ ▸ member) hq hn
      exact ⟨u, run, q, touched, fun _ no => nomatch no⟩
    | some b =>
      obtain ⟨valid, ne⟩ := placed.beforeAt at_ hb
      obtain ⟨u, run, q, touched, held, frame⟩ := relink_touched (J := s.others e) (s := { s with plock := true }) g alone valid
        ⟨valid, ne⟩ v
      refine ⟨u, run, q, touched, ?_⟩
      rintro _ ⟨⟩
      exact ⟨held.1, frame⟩
  obtain ⟨u, run, q, touched, before⟩ := linked
  obtain ⟨w, hw⟩ : ∃ w, w = ({ u.setList k ((u.list k).erase e) with plock := false } : State) := ⟨_, rfl⟩
  have mem : w.mem = u.mem := by rw [hw]; rfl
  have hc : w.hc = s.hc := by
    obtain ⟨m, c, q, rfl⟩ := q
    rw [hw, ht]
    rfl
  refine ⟨w, ?_, ?_, fun _ => hc, fun no => absurd ty no, fun no => absurd ty no, fun b hb => ?_, fun x hx => ?_⟩
  · rw [periodicRemove_found hd hk node_ hi, ← succ, ← hv, ← ht, run_bind_ok run, hw]
    rfl
  · obtain ⟨m, c, q, rfl⟩ := q
    rw [hw, hk, ht]
    rfl
  · rw [hk] at hb
    rw [← hv, mem, State.physRead, mem]
    exact before b hb
  · rw [mem]
    exact (touched.bytes x hx).trans (by rw [ht])

theorem unlinkEndpoint_unlinked (g : s.params.Good) (alone : s.sched = []) (placed : s.placed)
    (suits : s.slotSuits e = true) (hi : (s.list (s.ed e).slot).idxOf? e = some i) :
    ∃ u, unlinkEndpoint e (s.ed e).type s = .ok ⟨⟩ u ∧ s.unlinked e i u := by
  cases ty : (s.ed e).type with
  | interrupt => exact periodicRemove_unlinked g alone placed suits ty hi
  | control =>
    have slot : (s.ed e).slot = 63 := by simpa [State.slotSuits, ty] using suits
    obtain ⟨u, run, ends⟩ := classRemove_unlinked g alone placed (.inl slot) (by rw [ty]; decide) hi
    exact ⟨u, by rwa [slot] at run, ends⟩
  | bulk =>
    have slot : (s.ed e).slot = 64 := by simpa [State.slotSuits, ty] using suits
    obtain ⟨u, run, ends⟩ := classRemove_unlinked g alone placed (.inr slot) (by rw [ty]; decide) hi
    exact ⟨u, by rwa [slot] at run, ends⟩

/-! ### The queue freed (40_endpoint.md R208, R219) -/

/-- The TDs of a queue and its placeholder are no more than there are slots. -/
theorem State.queueIs.length_le {q : List Nat} (h : s.queueIs e q) : (q ++ [(s.ed e).tail]).length ≤ s.params.ntd := by
  have slots := (List.subperm_of_subset h.once fun x hx => List.mem_range.2 (h.owned x hx).1).length_le
  rwa [List.length_range] at slots

theorem State.queueIs.queue_eq {q : List Nat} (h : s.queueIs e q) : s.queue e = some q := by
  have tail : ∀ x ∈ q, (x == (s.ed e).tail) = false := fun x hx =>
    beq_false_of_ne fun same => List.disjoint_of_nodup_append h.once hx (List.mem_singleton.2 same)
  have size : q.length ≤ s.params.ntd := by
    have := h.length_le
    rw [List.length_append] at this
    omega
  exact congrArg (Option.map (·.1)) (walkUntil_of_chain (halt := fun u => u == (s.ed e).tail) h.chain
    (beq_self_eq_true _) tail size)

/-- What follows the wait of `ED_CLOSE`. -/
theorem closeRest_closed (g : s.params.Good) (alone : s.sched = []) (placed : s.placed) (suits : s.slotSuits e = true)
    {q : List Nat} (queue : s.queue e = some q) (hi : (s.list (s.ed e).slot).idxOf? e = some i) {how : Quiesced}
    (moved : how ≠ .timeout) : ∃ u, s.unlinked e i u ∧ closeRest e how s =
      .ok { res0 := (q ++ [(s.ed e).tail]).length } ((u.freeTds (q ++ [(s.ed e).tail])).freeEd e) := by
  obtain ⟨u, run, ends⟩ := unlinkEndpoint_unlinked g alone placed suits hi
  have tables := ends.tables
  have queue_ : u.queue e = some q := by rw [tables.queue, queue_setList, queue]
  have found := run_orStop_some .brokenQueue q u
  refine ⟨u, ends, ?_⟩
  have tail : (u.ed e).tail = (s.ed e).tail := by rw [tables.ed]; rfl
  simp only [closeRest, if_neg moved]
  refine (run_bind_ok (run_get s)).trans ((run_bind_ok run).trans ((run_bind_ok (run_get u)).trans ?_))
  rw [queue_, run_bind_ok found, tail]
  rfl

/-- What the end of the command leaves of the state in which it began. -/
theorem State.unlinked.ended {b v : State} {c : List (Nat × Line)} {q : Seq} {ts : List Nat} {r : Word}
    (un : { b with cache := c, seq := q }.unlinked e i v)
    (hu : u = { ((v.freeTds ts).freeEd e).endedOk r 0 0 with seq := .idle }) :
    u = { b.endedOk r 0 0 with
      seq := .idle, edt := u.edt, tdt := u.tdt, idxValid := u.idxValid, place := u.place, mem := u.mem
      cache := u.cache, hc := u.hc } := by
  obtain ⟨l, q', m, c', h, rest⟩ : ∃ l q' m c' h, v = { State.setList { b with cache := c, seq := q } _ _ with
    plock := l, seq := q', mem := m, cache := c', hc := h } := ⟨_, _, _, _, _, un.rest⟩
  obtain ⟨x, y, frame⟩ : ∃ x y, v.freeTds ts = { v with tdt := x, idxValid := y } := ⟨_, _, freeTds_frame v ts⟩
  rw [hu, frame, rest]
  rfl

/-- The tables after the endpoint and its TDs are freed. -/
theorem State.unlinked.closed_tables {v : State} (un : t.unlinked e i v) (same : SameTables s t) (ts : List Nat) :
    SameTables (((s.setList (s.ed e).slot ((s.list (s.ed e).slot).erase e)).freeTds ts).freeEd e)
      ((v.freeTds ts).freeEd e) := by
  have tables := un.tables
  rw [same.ed, same.list] at tables
  exact (((same.setList _ _).trans tables).freeTds ts).freeEd e

/-- Settles O42: `closeRest_closed` at once, the endpoint being halted, and at the poll that ends the wait. -/
theorem edCloseCompletes : Obligations.EdCloseCompletes := by
  intro e q s legal placed suits valid queue alone p k freed isInt closed
  have g : p.Good := Params.legal_good legal
  have alloc := alloc_of_validEd valid
  obtain ⟨i, hi⟩ : ∃ i, (s.list k).idxOf? e = some i := by
    cases found : (s.list k).idxOf? e with
    | none => exact absurd (placed.listed e alloc).2 (List.idxOf?_eq_none_iff.1 found)
    | some i => exact ⟨i, rfl⟩
  have at_ := getElem_of_idxOf hi
  have fits : freed.length < 2 ^ 32 := by
    have : s.params.ntd ≤ 65535 := g.ntd.2
    exact queue.length_le.trans_lt (by omega)
  have close : ∀ (b : State) (how : Quiesced) c q', SameTables s b → b.mem = s.mem → b.hc = s.hc → b.sched = [] →
      how ≠ .timeout → ∃ u, finish (closeRest e how { b with cache := c, seq := q' }) = .next u ∧ closed b u := by
    intro b how c q' tables mem hc alone moved
    obtain ⟨t, ht⟩ : ∃ t, t = ({ b with cache := c, seq := q' } : State) := ⟨_, rfl⟩
    have same : SameTables s t := tables.trans (ht ▸ .other)
    obtain ⟨v, un, run⟩ := closeRest_closed (s := t) (e := e) (i := i) (same.params ▸ g) (by rw [ht]; exact alone)
      (same.places.placed placed) (same.places.slotsSuit suits e (by rw [same.ed]; exact alloc))
      (by rw [same.queue]; exact queue.queue_eq) (by rw [same.list, same.ed]; exact hi) moved
    obtain ⟨u, hu⟩ : ∃ u, u = ({ ((v.freeTds freed).freeEd e).endedOk (BitVec.ofNat 32 freed.length) 0 0 with
      seq := .idle } : State) := ⟨_, rfl⟩
    have shape := State.unlinked.ended (ht ▸ un) hu
    have ends := (un.closed_tables same freed).trans (hu ▸ .other : SameTables _ u)
    obtain ⟨tree, head, later, before, bytes⟩ := un.links.of_same same (by rw [ht, ← mem]) (by rw [ht, ← hc])
    have hcU : u.hc = v.hc := by
      rw [hu, freeTds_frame]
      rfl
    have memU : u.mem = v.mem := by
      rw [hu, freeTds_frame]
      rfl
    have read : ∀ a, u.physRead a = v.physRead a := fun a => by rw [State.physRead, memU]; rfl
    refine ⟨u, ?_, shape, fun x => ?_, fun x => ?_, fun x => ?_, fun x => ?_, fun int => ?_, fun class_ first => ?_,
      fun class_ later_ => ?_, fun j hj b hb => ?_, fun x table next => ?_⟩
    · rw [← ht, run, same.ed, hu]
      exact finish_ok (r := { res0 := freed.length }) fits (Nat.two_pow_pos 32) (Nat.two_pow_pos 32) _
    · rw [ends.ed, closed_ed]
    · rw [ends.td, freeEd_td, freeTds_td]
      rfl
    · rw [ends.indexed, freeEd_indexed, freeTds_indexed]
      rfl
    · rw [ends.list, closed_list]
    · rw [hcU]
      exact tree int
    · rw [List.head?_eq_getElem?] at first
      cases index_of_nodup (placed.once k) first at_
      obtain ⟨set, kept⟩ := head class_ rfl
      rw [follower_of_class class_] at set
      refine ⟨hcU.trans (set.trans ?_), fun x => by rw [memU, kept]⟩
      have slot := suits e alloc
      cases ty : (s.ed e).type with
      | control => exact if_pos (by simpa [State.slotSuits, ty] using slot)
      | bulk =>
        have bulk : (s.ed e).slot = 64 := by simpa [State.slotSuits, ty] using slot
        exact if_neg (by rw [bulk]; decide)
      | interrupt => exact absurd ty class_
    · rw [hcU]
      refine later class_ fun first => later_ ?_
      rw [List.head?_eq_getElem?, ← first]
      exact at_
    · cases index_of_nodup (placed.once k) hj at_
      obtain ⟨link, kept⟩ := before b ((beforeAt_eq_some at_).2 ⟨j, rfl, hb⟩)
      exact ⟨(read _).trans link, fun x hx => by rw [memU, kept x hx]⟩
    · rw [memU]
      refine bytes x ?_
      rintro (inTable | ⟨j, ⟨valid, ne⟩, there⟩)
      · exact Bool.false_ne_true (table.symm.trans inTable)
      · exact Bool.false_ne_true ((next j valid ne).symm.trans there)
  refine ⟨fun idle started halted => ?_, fun run w f0 r wait moved => ?_⟩
  · obtain ⟨t, run, ⟨m, c, q', rfl⟩, mem⟩ := quiesce_halted (s := s.begun (encode (.edClose .thread e)))
      g alone (lt_of_validEd valid) halted (.close e)
    cases mem
    rw [exec_checked (.edClose .thread e) ⟨idle, alone⟩ started rfl valid rfl, run_bind_ok run]
    exact close s.taken .already c q' .other rfl rfl alone (by decide)
  · rw [step_wait wait, run_bind_ok (waitFrom_moved alone moved r)]
    exact close s .ok s.cache (.exec s.seq.running) .other rfl rfl alone (by decide)

end Sys2Proof.Machine
end

section
/-! SUPPORT. The functions of the periodic scheduler (41_scheduler.md R251 to R255): bit reversal and the table indices of
a node, interval and depth, the load of a branch, and the search for a group. -/

namespace Sys2Proof.Machine

variable {s : State}

/-! ### Bit reversal (41_scheduler.md R251, R261) -/

theorem bitrev_succ (k n : Nat) : bitrev (k + 1) n = n % 2 * 2 ^ k + bitrev k (n / 2) := rfl

theorem testBit_bitrev (k n j : Nat) : (bitrev k n).testBit j = (decide (j < k) && n.testBit (k - 1 - j)) := by
  induction k generalizing n with
  | zero => simp [bitrev]
  | succ k ih =>
    have low : n % 2 < 2 := Nat.mod_lt _ (by decide)
    rw [bitrev_succ, Nat.mul_comm, Nat.testBit_two_pow_mul_add _ (bitrev_lt k _), ih, Nat.testBit_div_two]
    rcases Nat.lt_trichotomy j k with below | rfl | above
    · rw [if_pos below, decide_eq_true below, decide_eq_true (Nat.lt_succ_of_lt below)]
      congr 2
      omega
    · simp
    · rw [if_neg above.not_gt, decide_eq_false (by omega : ¬ j < k + 1), Bool.false_and]
      exact Nat.testBit_lt_two_pow (low.trans_le (Nat.le_self_pow (by omega) 2))

/-- The bits reversed twice are the low bits as they were. -/
theorem bitrev_bitrev_mod (k n : Nat) : bitrev k (bitrev k n) = n % 2 ^ k := by
  refine Nat.eq_of_testBit_eq fun j => ?_
  rw [testBit_bitrev, testBit_bitrev, Nat.testBit_mod_two_pow]
  by_cases inside : j < k
  · have back : k - 1 - (k - 1 - j) = j := by omega
    rw [back, decide_eq_true (by omega : k - 1 - j < k), Bool.true_and]
  · rw [decide_eq_false inside, Bool.false_and, Bool.false_and]

theorem bitrev_involutive {k n : Nat} (hn : n < 2 ^ k) : bitrev k (bitrev k n) = n :=
  (bitrev_bitrev_mod k n).trans (Nat.mod_eq_of_lt hn)

theorem bitrev_eq_iff {k n g : Nat} (hg : g < 2 ^ k) : bitrev k n = g ↔ n % 2 ^ k = bitrev k g := by
  constructor
  · rintro rfl
    exact (bitrev_bitrev_mod k n).symm
  · intro h
    have twice := congrArg (bitrev k) (bitrev_bitrev_mod k n)
    rwa [h, bitrev_involutive (bitrev_lt k n), bitrev_involutive hg] at twice

/-- The group of a position depends on the low bits of the table index alone. -/
theorem bitrev_div (k d n : Nat) : bitrev (k + d) n / 2 ^ d = bitrev k n := by
  induction k generalizing n with
  | zero => rw [Nat.zero_add, Nat.div_eq_of_lt (bitrev_lt d n), bitrev]
  | succ k ih =>
    rw [Nat.succ_add, bitrev_succ, bitrev_succ, Nat.pow_add, ← Nat.mul_assoc, Nat.add_comm,
      Nat.add_mul_div_right _ _ (Nat.two_pow_pos d), ih, Nat.add_comm]

theorem group_of_index {d : Nat} (hd : d ≤ 5) (i : Nat) : bitrev 5 i / 2 ^ d = bitrev (5 - d) i := by
  rw [← bitrev_div (5 - d) d i, Nat.sub_add_cancel hd]

/-- Siblings, which differ in the highest bit of their natural index, have adjacent groups (41_scheduler.md R262). -/
theorem bitrev_sibling {k n : Nat} (hn : n < 2 ^ k) : bitrev (k + 1) (n + 2 ^ k) = bitrev (k + 1) n + 1 := by
  induction k generalizing n with
  | zero =>
    obtain rfl : n = 0 := Nat.lt_one_iff.1 hn
    rfl
  | succ k ih =>
    have half : (n + 2 ^ (k + 1)) / 2 = n / 2 + 2 ^ k := by omega
    have parity : (n + 2 ^ (k + 1)) % 2 = n % 2 := by omega
    rw [bitrev_succ (k + 1), bitrev_succ (k + 1), half, parity, ih (by omega), Nat.add_assoc]

/-- Settles O32: `testBit_bitrev`, so `bitrev_involutive`; and `group_of_index` with `bitrev_eq_iff`. -/
theorem bitReversal : Obligations.BitReversal := by
  refine ⟨fun k n hn => ⟨bitrev_lt k n, bitrev_involutive hn, fun j hj => ?_⟩, fun d hd g hg i _ => ?_⟩
  · rw [testBit_bitrev, decide_eq_true hj, Bool.true_and]
  · rw [group_of_index hd, bitrev_eq_iff hg]

/-! ### The rounded interval (41_scheduler.md R253) -/

theorem log2Below_spec {v : Nat} (low : 1 ≤ v) (high : v < 32) : 2 ^ log2Below v ≤ v ∧ v < 2 * 2 ^ log2Below v := by
  unfold log2Below
  split_ifs <;> omega

theorem idepth_long (round : IntervalRound) {iv : Nat} (long : 32 ≤ max iv 1) : (idepth round iv).1 = 32 := by
  simp only [idepth, intervalLog, if_pos long]
  rfl

theorem idepth_floor {iv : Nat} (short : max iv 1 < 32) : (idepth .floor iv).1 = 2 ^ log2Below (max iv 1) := by
  simp only [idepth, intervalLog, if_neg short.not_ge]

theorem idepth_nearest {iv lo : Nat} (short : max iv 1 < 32) (hlo : 2 ^ log2Below (max iv 1) = lo) :
    (idepth .nearest iv).1 = if max iv 1 - lo ≤ 2 * lo - max iv 1 then lo else 2 * lo := by
  simp only [idepth, intervalLog, if_neg short.not_ge, Nat.pow_succ', hlo, apply_ite (2 ^ ·)]

/-- Settles O31: `idepth_interval` for both, `idepth_long` from 32 on, `idepth_floor` and `idepth_nearest`
below, the power of two being `log2Below`'s. -/
theorem intervalDepth : Obligations.IntervalDepth := fun round iv => by
  refine ⟨Nat.sub_le _ _, idepth_interval round iv, idepth_long round, fun short => ?_⟩
  obtain ⟨below, above⟩ := log2Below_spec (Nat.le_max_right iv 1) short
  refine ⟨_, _, rfl, below, above, ?_⟩
  cases round with
  | floor => exact idepth_floor short
  | nearest => exact idepth_nearest short rfl

/-! ### The search for a group (41_scheduler.md R255) -/

/-- The worst load of a group, as the statement of the search writes it. -/
structure State.worstLoad (s : State) (d g w : Nat) : Prop where
  bound : ∀ q, g * 2 ^ d ≤ q → q < (g + 1) * 2 ^ d → s.load (bitrev 5 q) ≤ w
  reached : ∃ q, g * 2 ^ d ≤ q ∧ q < (g + 1) * 2 ^ d ∧ s.load (bitrev 5 q) = w

theorem groupWorst_worstLoad (s : State) (d g : Nat) : s.worstLoad d g (s.groupWorst d g) := by
  have pos := Nat.two_pow_pos d
  obtain ⟨l, hl⟩ : ∃ l, l = (List.range (2 ^ d)).map fun j => s.load (bitrev 5 (g * 2 ^ d + j)) := ⟨_, rfl⟩
  have worst : s.groupWorst d g = l.foldl max 0 := by rw [hl, State.groupWorst]
  have member : ∀ {x}, x ∈ l ↔ ∃ q, g * 2 ^ d ≤ q ∧ q < (g + 1) * 2 ^ d ∧ s.load (bitrev 5 q) = x := fun {x} => by
    simp only [hl, List.mem_map, List.mem_range, Nat.add_one_mul]
    constructor
    · rintro ⟨j, hj, rfl⟩
      exact ⟨g * 2 ^ d + j, by omega, by omega, rfl⟩
    · rintro ⟨q, low, high, rfl⟩
      exact ⟨q - g * 2 ^ d, by omega, by rw [Nat.add_sub_cancel' low]⟩
  obtain ⟨bound, _, reached⟩ := foldl_max_spec l 0
  have first : s.load (bitrev 5 (g * 2 ^ d)) ∈ l := member.2 ⟨g * 2 ^ d, le_rfl, by rw [Nat.add_one_mul]; omega, rfl⟩
  rw [worst]
  refine ⟨fun q low high => bound _ (member.2 ⟨q, low, high, rfl⟩), member.1 ?_⟩
  rcases reached with zero | reached
  · have : s.load (bitrev 5 (g * 2 ^ d)) = l.foldl max 0 := Nat.le_antisymm (bound _ first) (by omega)
    rwa [← this]
  · exact reached

theorem State.worstLoad.eq {d g w : Nat} (h : s.worstLoad d g w) : s.groupWorst d g = w := by
  have worst := groupWorst_worstLoad s d g
  obtain ⟨q, low, high, rfl⟩ := h.reached
  obtain ⟨q', low', high', same⟩ := worst.reached
  exact Nat.le_antisymm (same ▸ h.bound q' low' high') (worst.bound q low high)

/-- An answer of the search is the best group, and the endpoint fits there. -/
theorem placementGroup_some {x g : Nat} (found : s.placementGroup x = some g) : s.best (s.ed x).depth g ∧
    (s.ed x).bw + s.groupWorst (s.ed x).depth g ≤ perSpeed s.params.maxPeriodicBw (s.ed x).speed := by
  obtain ⟨gr, answer, best⟩ := bestGroup_best s (s.ed x).depth
  simp only [State.placementGroup, answer] at found
  split at found
  · cases found
  · next fits =>
    cases found
    exact ⟨best, not_lt.1 fits⟩

/-- Where the search rejects an endpoint it fits into no group. -/
theorem placementGroup_none {x g : Nat} (rejected : s.placementGroup x = none) (hg : g < 2 ^ (5 - (s.ed x).depth)) :
    ¬ (s.ed x).bw + s.groupWorst (s.ed x).depth g ≤ perSpeed s.params.maxPeriodicBw (s.ed x).speed := fun fits => by
  obtain ⟨gr, found, _⟩ := placementGroup_of_fits rfl ⟨g, hg, fits⟩
  exact Option.some_ne_none gr (found.symm.trans rejected)

/-- Settles O33: what `placementGroup` answers, the worst load of a group being its `groupWorst`. -/
theorem placementSearch : Obligations.PlacementSearch := by
  refine fun s x _ => ⟨fun g found => ?_, fun rejected g w hg ⟨bound, reached⟩ => ?_⟩
  · obtain ⟨⟨group, least, first⟩, fits⟩ := placementGroup_some found
    obtain ⟨bound, reached⟩ := groupWorst_worstLoad s (s.ed x).depth g
    refine ⟨group, _, ⟨bound, reached⟩, fits, fun g' w' hg' ⟨bound', reached'⟩ => ?_⟩
    have worst := State.worstLoad.eq ⟨bound', reached'⟩
    exact ⟨worst ▸ least g' hg', fun earlier => worst ▸ first g' earlier⟩
  · have worst := State.worstLoad.eq ⟨bound, reached⟩
    exact worst ▸ placementGroup_none rejected hg

/-! ### The commands that only answer (41_scheduler.md R262 to R264) -/

/-- Three results that fit their registers are what a command that changes nothing else ends with. -/
theorem exec_answers {i : Instr} {r : Results} (quiet : s.quiet) (gate : gateOpen s.started (startGate i) = true)
    (context : (blocking i && i.ctx == .interrupt) = false)
    (body : bodyOf i s.args (s.begun (encode i)) = .ok r (s.begun (encode i)))
    (h0 : r.res0 < 2 ^ 32) (h1 : r.res1 < 2 ^ 32) (h2 : r.res2 < 2 ^ 32) :
    exec i s = .next (s.taken.endedOk (BitVec.ofNat 32 r.res0) (BitVec.ofNat 32 r.res1) (BitVec.ofNat 32 r.res2)) := by
  obtain ⟨idle, alone⟩ := quiet
  rw [exec_quiet_body idle alone gate context, body, finish_ok h0 h1 h2]
  simp [State.begun, State.taken, State.endedOk, State.ended, idle]

theorem exec_raises {i : Instr} {code : ErrCode} (quiet : s.quiet) (gate : gateOpen s.started (startGate i) = true)
    (context : (blocking i && i.ctx == .interrupt) = false)
    (body : bodyOf i s.args (s.begun (encode i)) = .error (.err code) (s.begun (encode i))) :
    exec i s = .next (s.taken.ended code) := by
  obtain ⟨idle, alone⟩ := quiet
  rw [exec_quiet_body idle alone gate context, body, finish_err_begun idle]

theorem schedBitposBody_inside {d n : Nat} (hd : d ≤ 5) (hn : n < 2 ^ (5 - d)) (args : Args) (s : State) :
    schedBitposBody d n args s =
      .ok { res0 := bitrev (5 - d) n * 2 ^ d, res1 := node d (bitrev (5 - d) n), res2 := 2 ^ d } s := by
  rw [schedBitposBody, bitposResults, if_neg (by omega)]
  rfl

theorem schedBitposBody_outside {d n : Nat} (h : 5 < d ∨ 2 ^ (5 - d) ≤ n) (args : Args) (s : State) :
    schedBitposBody d n args s = .error (.err .badArg) s := by
  rw [schedBitposBody, bitposResults, if_pos h]
  rfl

theorem exec_schedBitpos_inside (quiet : s.quiet) (ctx : Ctx) {d n : Nat} (hd : d ≤ 5) (hn : n < 2 ^ (5 - d)) :
    exec (.schedBitpos ctx d n) s = .next (s.taken.endedOk (BitVec.ofNat 32 (bitrev (5 - d) n * 2 ^ d))
      (BitVec.ofNat 32 (node d (bitrev (5 - d) n))) (BitVec.ofNat 32 (2 ^ d))) := by
  have group := bitrev_lt (5 - d) n
  have position := first_lt (by omega) group
  have slot := node_lt (by omega) group
  have size : 2 ^ d ≤ 2 ^ 5 := Nat.pow_le_pow_right (by decide) hd
  exact exec_answers (i := .schedBitpos ctx d n) quiet rfl rfl (schedBitposBody_inside hd hn s.args _)
    (by dsimp only; omega) (by dsimp only; omega) (by dsimp only; omega)

theorem exec_schedBitpos_outside (quiet : s.quiet) (ctx : Ctx) {d n : Nat} (h : 5 < d ∨ 2 ^ (5 - d) ≤ n) :
    exec (.schedBitpos ctx d n) s = .next (s.taken.ended .badArg) :=
  exec_raises (i := .schedBitpos ctx d n) quiet rfl rfl (schedBitposBody_outside h s.args _)

/-- Settles O28: the results of `schedBitposBody` fit their registers; the table indices are those of `bitrev_eq_iff`,
the siblings those of `bitrev_sibling`. -/
theorem schedBitposCompletes : Obligations.SchedBitposCompletes := by
  refine ⟨fun ctx d n s quiet => ⟨fun hd hn => exec_schedBitpos_inside quiet ctx hd hn,
    exec_schedBitpos_outside quiet ctx⟩, fun d hd n hn i _ => ?_, fun d n hd hn => ?_⟩
  · rw [group_of_index hd, bitrev_eq_iff (bitrev_lt _ _), bitrev_involutive hn]
  · have size : 5 - d = 4 - d + 1 := by omega
    rw [size, bitrev_sibling hn]

theorem idepth_le (round : IntervalRound) (iv : Nat) : (idepth round iv).1 ≤ 32 :=
  Nat.pow_le_pow_right (n := 2) (by decide) (intervalLog_le round iv)

/-- Settles O29: depth and interval fit their registers. -/
theorem schedIdepthCompletes : Obligations.SchedIdepthCompletes := fun ctx iv s quiet => by
  have interval := idepth_le s.params.intervalRound iv
  have depth : (idepth s.params.intervalRound iv).2 ≤ 5 := Nat.sub_le _ _
  exact exec_answers (i := .schedIdepth ctx iv)
    (r := { res0 := (idepth s.params.intervalRound iv).2, res1 := (idepth s.params.intervalRound iv).1 })
    quiet rfl rfl rfl (by dsimp only; omega) (by dsimp only; omega) (Nat.two_pow_pos 32)

theorem schedLoadBody_inside {i : Nat} (hi : i ≤ 31) (args : Args) (s : State) :
    schedLoadBody i args s = .ok { res0 := s.load i } s :=
  (run_bind_ok (run_get s)).trans (by rw [if_neg (not_lt.2 hi), run_pure])

theorem schedLoadBody_outside {i : Nat} (hi : 31 < i) (args : Args) (s : State) :
    schedLoadBody i args s = .error (.err .badArg) s :=
  (run_bind_ok (run_get s)).trans (by rw [if_pos hi, run_raise])

/-- A single result, which may need more bits than its register has (log 8). -/
theorem finish_res0 (n : Nat) (t : State) : finish (.ok { res0 := n } t) =
    .next { t.endedOk (resultWord t.draws 0 n) 0 0 with
      seq := .idle, draws := if n < 2 ^ 32 then t.draws else t.draws + 1 } := by
  simp only [finish, State.endOk, State.writeResults, resultWord_fits (Nat.two_pow_pos 32), Nat.two_pow_pos, and_true]
  rfl

/-- Settles O30: the load is the answer where it fits its register, a free value where it does not (log 8). -/
theorem schedLoadCompletes : Obligations.SchedLoadCompletes := fun ctx i s quiet started => by
  refine ⟨fun inside => ?_, fun outside =>
    exec_raises (i := .schedLoad ctx i) quiet started rfl (schedLoadBody_outside outside s.args _)⟩
  obtain ⟨idle, alone⟩ := quiet
  refine ⟨resultWord s.draws 0 (s.load i), if s.load i < 2 ^ 32 then s.draws else s.draws + 1, ?_,
    fun fits => ⟨resultWord_fits fits _ _, if_pos fits⟩⟩
  have load : (s.begun (encode (.schedLoad ctx i))).load i = s.load i := rfl
  rw [exec_quiet_body (i := .schedLoad ctx i) idle alone started rfl, bodyOf, schedLoadBody_inside inside, finish_res0, load]
  simp [State.begun, State.taken, State.endedOk, State.ended, idle]

end Sys2Proof.Machine
end

section
/-! SUPPORT. `SCHED_START` while no other agent moves (41_scheduler.md R250, R258, R265): the dummy ED and the interrupt
table, each written word by word and then flushed. -/

namespace Sys2Proof.Machine

variable {s t : State}

/-! ### The lines of a range (44_coherence.md R403) -/

theorem mem_rangeLines {p : Params} {a n b : Nat} (h : b ∈ rangeLines p a n) : n ≠ 0 ∧
    ∃ k, b = k * p.cacheLine ∧ a / p.cacheLine ≤ k ∧ k ≤ (a + n - 1) / p.cacheLine := by
  obtain ⟨k, hk, rfl⟩ := List.mem_map.1 h
  rw [List.mem_range, lineCount] at hk
  split at hk
  · exact absurd hk (Nat.not_lt_zero k)
  · next nonempty =>
    have order : a / p.cacheLine ≤ (a + n - 1) / p.cacheLine := Nat.div_le_div_right (by omega)
    exact ⟨nonempty, _, rfl, Nat.le_add_right _ k, by omega⟩

/-- The bytes of a range's lines are those a flush of the range can write. -/
theorem inLines_of_rangeLines {p : Params} (g : p.Good) {a n x : Nat} (cached : p.coherent = false)
    (h : lineBase p x ∈ rangeLines p a n) : inLines p a n x = true := by
  obtain ⟨nonempty, k, same, first, last⟩ := mem_rangeLines h
  obtain rfl : x / p.cacheLine = k := Nat.eq_of_mul_eq_mul_right g.line_pos same
  rw [inLines, if_neg (by rw [cached]; exact Bool.false_ne_true), decide_eq_true_iff]
  exact ⟨nonempty, first, last⟩

theorem rangeLines_lt {p : Params} {a n b : Nat} (h : b ∈ rangeLines p a n) : b < a + n := by
  obtain ⟨nonempty, k, rfl, _, last⟩ := mem_rangeLines h
  have below : k * p.cacheLine ≤ a + n - 1 := (Nat.mul_le_mul_right _ last).trans (Nat.div_mul_le_self _ _)
  omega

/-! ### Words published together -/

theorem flushLines_cons (b : Nat) (bs : List Nat) : flushLines (b :: bs) = (do flushLines [b]; flushLines bs) := by
  simp only [flushLines, bind_assoc, pure_bind]

/-- `Flush` of the lines at the given bases. -/
theorem flushLines_touched (bs : List Nat) (g : s.params.Good) (alone : s.sched = [])
    (bases : ∀ b ∈ bs, b % s.params.cacheLine = 0 ∧ b < 2 ^ 32) :
    ∃ t, flushLines bs s = .ok ⟨⟩ t ∧ Quietly s t ∧
      Touched (fun x => s.params.coherent = false ∧ lineBase s.params x ∈ bs) (fun _ => False) s t ∧
      ∀ c v, c.toNat % 4 = 0 → s.staged c v → t.staged c v ∧ (lineBase s.params c.toNat ∈ bs → t.holds c v) := by
  induction bs generalizing s with
  | nil => exact ⟨s, rfl, ⟨s.mem, s.cache, s.seq, rfl⟩, .refl s, fun _ _ _ h => ⟨h, fun no => nomatch no⟩⟩
  | cons b bs ih =>
    obtain ⟨base, low⟩ := bases b List.mem_cons_self
    have one : rangeLines s.params (BitVec.ofNat 32 b).toNat 16 = [b] := by
      rw [BitVec.toNat_ofNat, Nat.mod_eq_of_lt low, rangeLines_slot g base]
    obtain ⟨t, run, q, touched, words⟩ := flush_touched g alone one base
    have params := touched.params
    obtain ⟨u, run', q', touched', words'⟩ := ih (params ▸ g) (touched.sched.trans alone)
      (by rw [params]; exact fun b' hb => bases b' (List.mem_cons_of_mem _ hb))
    rw [params] at touched' words'
    rw [flush, run_bind_ok (run_get s), one] at run
    refine ⟨u, ?_, q.trans q', (touched.mono ?_ fun _ h => h).trans (touched'.mono ?_ fun _ h => h), fun c v hc h => ?_⟩
    · rw [flushLines_cons, run_bind_ok run, run']
    · exact fun x ⟨cached, h⟩ => ⟨cached, h ▸ List.mem_cons_self⟩
    · exact fun x ⟨cached, h⟩ => ⟨cached, List.mem_cons_of_mem _ h⟩
    · obtain ⟨staged, held⟩ := words c v hc h
      obtain ⟨staged', held'⟩ := words' c v hc staged
      refine ⟨staged', fun member => ?_⟩
      rcases List.mem_cons.1 member with same | later
      · exact touched'.words c v hc id (held same)
      · exact held' later

/-- Words of a range written, and the range flushed: memory holds them. -/
theorem publishWords_touched (ws : List (Word × Word)) (g : s.params.Good) (alone : s.sched = [])
    (aligned : ∀ w ∈ ws, w.1.toNat % 4 = 0) (once : (ws.map (·.1)).Nodup) {a : Word} {n : Nat} (low : a.toNat + n ≤ 2 ^ 32)
    (inside : ∀ w ∈ ws, a.toNat ≤ w.1.toNat ∧ w.1.toNat + 4 ≤ a.toNat + n) :
    ∃ t, (do memWrites ws; flush a n : Cmd Unit) s = .ok ⟨⟩ t ∧ Quietly s t ∧
      Touched (fun x => inLines s.params a.toNat n x = true) (· ∈ ws.map (·.1)) s t ∧ ∀ w ∈ ws, t.holds w.1 w.2 := by
  obtain ⟨t, run, q, touched, staged, _⟩ := memWrites_touched ws g alone aligned once
  have params := touched.params
  obtain ⟨u, run', q', touched', words⟩ := flushLines_touched (rangeLines t.params a.toNat n) (params ▸ g)
    (touched.sched.trans alone) fun b hb => ⟨Wired.rangeLines_aligned _ _ b hb, (rangeLines_lt hb).trans_le low⟩
  rw [params] at touched' words
  refine ⟨u, ?_, q.trans q', (touched.mono ?_ fun _ h => h).trans (touched'.mono ?_ fun _ no => no.elim), fun w hw => ?_⟩
  · rw [run_bind_ok run, flush, run_bind_ok (run_get t), run']
  · rintro x ⟨coherent, w, hw, here⟩
    have here := of_decide_eq_true here
    have := inside w hw
    rw [inLines, if_pos coherent, decide_eq_true_iff]
    omega
  · rintro x ⟨cached, line⟩
    exact inLines_of_rangeLines g cached line
  · have := inside w hw
    exact (words w.1 w.2 (aligned w hw) (staged w hw)).2 (lineBase_mem_rangeLines (by omega) (by omega))

/-! ### The dummy ED and the table (41_scheduler.md R250) -/

/-- The four words of the dummy ED. -/
def dummyWords (p : Params) : List (Word × Word) :=
  [(dummyEd p, skipBit), (dummyEd p + 4#32, 0#32), (dummyEd p + 8#32, 0#32), (dummyEd p + 0xC#32, 0#32)]

/-- The table entries, each with the dummy ED's address. -/
def tableWords (p : Params) : List (Word × Word) := (List.range 32).map fun i => (tableAddr p i, dummyEd p)

theorem fillTable_eq (p : Params) (is : List Nat) :
    fillTable p is = memWrites (is.map fun i => (tableAddr p i, dummyEd p)) := by
  induction is with
  | nil => rfl
  | cons i is ih => rw [fillTable, ih]; rfl

theorem schedStartBody_eq (args : Args) (s : State) : schedStartBody args s = (do
    (do memWrites (dummyWords s.params); flush (dummyEd s.params) 16)
    (do memWrites (tableWords s.params); flush (tableAddr s.params 0) 128)
    modify fun s => { s with started := true }
    return {} : Cmd Results) s := by
  refine (run_bind_ok (run_get s)).trans ?_
  simp only [fillTable_eq, dummyWords, tableWords, memWrites, bind_assoc, pure_bind]

section
variable {p : Params} (g : p.Good)
include g

theorem dummyEd_toNat : (dummyEd p).toNat = p.descBase + p.cacheLine * p.ned := g.edAddr_toNat le_rfl

theorem dummyEd_low : (dummyEd p).toNat + 16 ≤ 2 ^ 32 := by
  have line := g.line_ge
  have low := g.descLow
  rw [Nat.mul_add] at low
  rw [dummyEd_toNat g]
  omega

theorem dummyWords_slot : ∀ w ∈ dummyWords p, ∃ k, k % 4 = 0 ∧ k + 4 ≤ 16 ∧ w.1.toNat = (dummyEd p).toNat + k := by
  have line := g.line_ge
  have word : ∀ k : Word, k.toNat < 16 → (dummyEd p + k).toNat = (dummyEd p).toNat + k.toNat := fun k hk =>
    g.edWord_toNat le_rfl k (by omega)
  simp only [dummyWords, List.forall_mem_cons]
  exact ⟨⟨0, rfl, by omega, rfl⟩, ⟨4, rfl, by omega, word _ (by decide)⟩, ⟨8, rfl, by omega, word _ (by decide)⟩,
    ⟨12, rfl, by omega, word _ (by decide)⟩, fun _ h => nomatch h⟩

theorem dummyWords_aligned : ∀ w ∈ dummyWords p, w.1.toNat % 4 = 0 := fun w hw => by
  have slot := slot_mod4 g (g.edAddr_aligned le_rfl)
  obtain ⟨k, hk, _, at_⟩ := dummyWords_slot g w hw
  rw [← dummyEd_eq] at slot
  omega

omit g in
theorem dummyWords_once (p : Params) : ((dummyWords p).map (·.1)).Nodup := by
  simp [dummyWords]

theorem tableWords_at : ∀ w ∈ tableWords p, ∃ i < 32, w.1 = tableAddr p i ∧ w.1.toNat = p.hccaBase + 4 * i := fun w hw => by
  obtain ⟨i, hi, rfl⟩ := List.mem_map.1 hw
  have hi := List.mem_range.1 hi
  exact ⟨i, hi, rfl, g.tableAddr_toNat (by omega)⟩

omit g in
theorem entry_mem_tableWords (p : Params) {i : Nat} (hi : i < 32) : (tableAddr p i, dummyEd p) ∈ tableWords p := by
  rw [tableWords]
  exact List.mem_map.2 ⟨i, List.mem_range.2 hi, rfl⟩

theorem tableWords_once : ((tableWords p).map (·.1)).Nodup := by
  rw [tableWords, List.map_map]
  refine List.Nodup.map_on (fun i hi j hj same => ?_) List.nodup_range
  by_contra ne
  exact table_ne g (List.mem_range.1 hi) (List.mem_range.1 hj) ne same

/-- The dummy ED's slot and the HCCA lie apart. -/
theorem dummyWords_not_table : ∀ w ∈ dummyWords p, w.1 ∉ (tableWords p).map (·.1) := fun w hw member => by
  obtain ⟨w', hw', same⟩ := List.mem_map.1 member
  obtain ⟨k, _, hk, at_⟩ := dummyWords_slot g w hw
  obtain ⟨i, hi, _, at'⟩ := tableWords_at g w' hw'
  have line := g.line_ge
  have apart := g.descHcca
  rw [Nat.mul_add] at apart
  rw [← same, dummyEd_toNat g] at at_
  omega

end

/-! ### `SCHED_START` -/

/-- The dummy ED and the table are in memory and nothing else of memory has changed but in their lines. -/
theorem schedStartBody_touched (g : s.params.Good) (alone : s.sched = []) (args : Args) :
    ∃ t, schedStartBody args s = .ok {} { t with started := true } ∧ Quietly s t ∧
      (∀ x, inLines s.params (dummyEd s.params).toNat 16 x = false → inLines s.params s.params.hccaBase 128 x = false →
        loadByte t.mem x = loadByte s.mem x) ∧
      (∀ w ∈ dummyWords s.params, t.holds w.1 w.2) ∧ ∀ w ∈ tableWords s.params, t.holds w.1 w.2 := by
  obtain ⟨p, hp⟩ : ∃ p, p = s.params := ⟨_, rfl⟩
  rw [← hp] at g ⊢
  have table := g.tableAddr_toNat (i := 0) (by omega)
  have high := g.hccaLow
  obtain ⟨t, run, q, touched, dummy⟩ := publishWords_touched (s := s) (dummyWords p) (hp ▸ g) alone (dummyWords_aligned g)
    (dummyWords_once p) (dummyEd_low g) fun w hw => by
      obtain ⟨k, _, hk, at_⟩ := dummyWords_slot g w hw
      omega
  have params := touched.params.trans hp.symm
  obtain ⟨u, run', q', touched', entries⟩ := publishWords_touched (a := tableAddr p 0) (n := 128) (tableWords p) (params ▸ g)
    (touched.sched.trans alone)
    (fun w hw => by
      obtain ⟨i, hi, at_, _⟩ := tableWords_at g w hw
      rw [at_]
      exact table_aligned g hi)
    (tableWords_once g) (by omega) fun w hw => by
      obtain ⟨i, hi, _, at_⟩ := tableWords_at g w hw
      omega
  rw [params, table] at touched'
  rw [← hp] at touched
  refine ⟨u, ?_, q.trans q', fun x noDummy noTable => ?_, fun w hw => ?_, entries⟩
  · rw [schedStartBody_eq, ← hp, run_bind_ok run, run_bind_ok run', run_bind_ok (run_modify _ u)]
    rfl
  · exact (touched'.bytes x (Bool.eq_false_iff.1 noTable)).trans (touched.bytes x (Bool.eq_false_iff.1 noDummy))
  · exact touched'.words _ _ (dummyWords_aligned g w hw) (dummyWords_not_table g w hw) (dummy w hw)

/-- What accesses and `STARTED` leave of a command without results (10_state.md R41). -/
theorem finish_started (idle : s.seq = .idle) {w : Word} (q : Quietly (s.begun w) t) :
    finish (.ok {} { t with started := true }) =
      .next { s.taken.endedOk 0 0 0 with started := true, mem := t.mem, cache := t.cache } := by
  obtain ⟨m, k, q, rfl⟩ := q
  rw [finish_ok_none]
  simp [State.begun, State.taken, State.endedOk, State.ended, idle]

/-- Where every table entry is the dummy ED and no endpoint is open, the tree is canonical (41_scheduler.md R258). -/
theorem treeLayout_of_empty (empty : ∀ k, s.list k = [])
    (entries : ∀ i < 32, s.physRead (tableAddr s.params i) = dummyEd s.params) : s.treeLayout = true := by
  have hop : ∀ q, s.hop q 0 = none := fun q =>
    (hop_of_clear (Nat.zero_le 6) le_rfl fun _ _ _ => empty _).trans hop_end
  simp only [State.treeLayout, Bool.and_eq_true, List.all_eq_true, List.mem_range, hop, empty, State.chained, beq_iff_eq]
  exact ⟨entries, fun _ _ _ _ => trivial⟩

/-- `SCHED_START` on a quiet block: memory and cache are those of a state in which its words are published. -/
theorem exec_schedStart (quiet : s.quiet) (g : s.params.Good) (fresh : s.started = false) (ctx : Ctx) :
    ∃ t : State, exec (.schedStart ctx) s =
        .next { s.taken.endedOk 0 0 0 with started := true, mem := t.mem, cache := t.cache } ∧ t.params = s.params ∧
      (∀ x, inLines s.params (dummyEd s.params).toNat 16 x = false → inLines s.params s.params.hccaBase 128 x = false →
        loadByte t.mem x = loadByte s.mem x) ∧
      (∀ w ∈ dummyWords s.params, t.holds w.1 w.2) ∧ ∀ w ∈ tableWords s.params, t.holds w.1 w.2 := by
  obtain ⟨idle, alone⟩ := quiet
  have gate : gateOpen s.started (startGate (.schedStart ctx)) = true := by rw [fresh]; rfl
  rw [exec_quiet_body (i := .schedStart ctx) idle alone gate rfl, bodyOf]
  generalize encode (.schedStart ctx) = w
  obtain ⟨t, run, q, published⟩ := schedStartBody_touched (s := s.begun w) g alone s.args
  exact ⟨t, by rw [run, finish_started idle q], q.tables.params, published⟩

/-- Settles O34: what `exec_schedStart` publishes, seen from the state in which the command has ended. -/
theorem schedStartCompletes : Obligations.SchedStartCompletes := by
  intro ctx s quiet legal fresh
  have g := Params.legal_good legal
  obtain ⟨t, run, params, frame, dummy, entries⟩ := exec_schedStart quiet g fresh ctx
  obtain ⟨u, hu⟩ : ∃ u, u = ({ s.taken.endedOk 0 0 0 with started := true, mem := t.mem, cache := t.cache } : State) :=
    ⟨_, rfl⟩
  rw [← hu] at run
  have kept : u.params = s.params := by rw [hu]; rfl
  have list : u.list = s.list := by rw [hu]; rfl
  have mem : u.mem = t.mem := by rw [hu]
  have cache : u.cache = t.cache := by rw [hu]
  have phys : ∀ a, u.physRead a = t.physRead a := fun a => by rw [State.physRead, mem]; rfl
  have load : ∀ a, u.cacheLoad a = t.cacheLoad a := fun a => by
    simp only [State.cacheLoad, lineAt, filledLine, phys, mem, cache, kept, params]
  simp only [dummyWords, List.forall_mem_cons] at dummy
  obtain ⟨control, tail, head, next, _⟩ := dummy
  have entry : ∀ i < 32, t.holds (tableAddr s.params i) (dummyEd s.params) := fun i hi =>
    entries (tableAddr s.params i, dummyEd s.params) (entry_mem_tableWords s.params hi)
  refine ⟨u, run, by rw [hu], (phys _).trans control.1, (phys _).trans tail.1, (phys _).trans head.1, (phys _).trans next.1,
    fun i hi => (phys _).trans (entry i hi).1, ?_, fun empty => ?_, fun x noDummy noTable => ?_⟩
  · refine (tableSeen_iff (kept ▸ g)).2 fun i hi => ?_
    rw [kept, phys, load, (entry i hi).1, (entry i hi).2]
  · refine treeLayout_of_empty (fun k => by rw [list]; exact empty k) fun i hi => ?_
    rw [kept, phys, (entry i hi).1]
  · rw [mem]
    exact frame x noDummy noTable

end Sys2Proof.Machine
end

section
/-! SUPPORT. The transfer commands where they change no endpoint and no TD: `CC_CLASSIFY`, the bytes a TD has transferred,
what the commands refuse, and the faults of `XFER_COMPLETE` (42_transfer.md R300, R303, R305, R306, R310, R315 to R317). -/

namespace Sys2Proof

/-- Settles O50: the four clauses are the branches of R317. -/
theorem actualBytes : Obligations.ActualBytes := by
  intro len cbp be rem
  refine ⟨fun empty => if_pos empty, fun some whole => ?_, fun some part out => ?_, fun some part low high => ?_⟩
  · rw [Machine.actualBytes, if_neg some, if_pos whole]
  · rw [Machine.actualBytes, if_neg some, if_neg part]
    exact if_pos out
  · have inside : ¬ (rem < 0 ∨ (len : Int) < rem) := by omega
    have value : Machine.actualBytes len cbp be = len - rem.toNat := by
      rw [Machine.actualBytes, if_neg some, if_neg part]
      exact if_neg inside
    omega

namespace Machine

variable {s : State} {e t : Nat}

/-! ### `CC_CLASSIFY` -/

theorem ccClass_value_le (cc : BitVec 4) : (ccClass cc).value ≤ 4 := by
  cases ccClass cc <;> decide

/-- Settles O27: the value is that of `ccClass`, code by code the table of R316. -/
theorem ccClassifyCompletes : Obligations.CcClassifyCompletes := by
  intro ctx cc s quiet
  have small := ccClass_value_le cc
  refine ⟨(ccClass cc).value, exec_answers (i := .ccClassify ctx cc) (r := { res0 := (ccClass cc).value }) quiet rfl rfl rfl
    (by dsimp only; omega) (Nat.two_pow_pos 32) (Nat.two_pow_pos 32), ?_⟩
  revert cc
  decide

/-! ### Operands -/

/-- The checks of `TD_QUEUE` on its operands (42_transfer.md R300, R303). -/
theorem queueArgsOk_iff {dp : BitVec 2} {buf len : Word} : queueArgsOk dp buf len = true ↔
    ¬ (dp = 3#2 ∨ 8192 < len.toNat ∨ 8192 < buf.toNat % 4096 + len.toNat ∨
      (0 < len.toNat ∧ 2 ^ 32 ≤ buf.toNat + len.toNat - 1)) := by
  simp only [queueArgsOk, Bool.and_eq_true, bne_iff_ne, ne_eq, decide_eq_true_eq, Bool.not_eq_true', Bool.and_eq_false_iff,
    decide_eq_false_iff_not, not_or, not_and_or, not_lt, not_le, and_assoc]

theorem tdQueueBody_badArg (more r : Bool) (di : BitVec 3) {dp : BitVec 2} {args : Args} (valid : s.validEd e = true)
    (bad : queueArgsOk dp args.arg0 args.arg1 = false) :
    tdQueueBody e more r di dp args s = .error (.err .badArg) s := by
  refine (run_bind_ok (run_checkEd_ok valid)).trans ?_
  simp only [bad]
  rfl

theorem tdQueueBody_noMem (more r : Bool) (di : BitVec 3) {dp : BitVec 2} {args : Args} (valid : s.validEd e = true)
    (good : queueArgsOk dp args.arg0 args.arg1 = true) (full : s.allocTd = none) :
    tdQueueBody e more r di dp args s = .error (.err .noMem) s := by
  refine (run_bind_ok (run_checkEd_ok valid)).trans ?_
  simp only [good]
  refine (run_bind_ok (run_get s)).trans ?_
  rw [full]
  rfl

/-- A TD handle is an operand below 2^16 (30_encoding.md R141, R143). -/
theorem highHalf_eq_zero {w : Word} : w.extractLsb' 16 16 = 0#16 ↔ w.toNat < 2 ^ 16 := by
  rw [← BitVec.toNat_inj]
  simp only [BitVec.extractLsb'_toNat, BitVec.toNat_ofNat, Nat.shiftRight_eq_div_pow]
  omega

theorem tdHandle_eq (w : Word) : tdHandle w = if w.toNat < 2 ^ 16 then some w.toNat else none := by
  unfold tdHandle
  simp only [highHalf_eq_zero]
  split
  · rw [BitVec.extractLsb'_toNat, Nat.shiftRight_zero, Nat.mod_eq_of_lt (by assumption)]
  · rfl

theorem ownedTd_of_lt (ht : t < 2 ^ 16) (known : t < s.params.ntd) (alloc : (s.td t).alloc = true)
    (owner : (s.td t).owner = e) : s.ownedTd e (BitVec.ofNat 32 t) = some t := by
  simp only [State.ownedTd, tdHandle_ofNat ht]
  exact if_pos ⟨known, alloc, owner⟩

/-- An operand that names a TD of the endpoint names that of its own number (42_transfer.md R305, R310). -/
theorem ownedTd_names {w : Word} (h : s.ownedTd e w = some t) : t = w.toNat ∧ w.toNat < 2 ^ 16 := by
  rw [State.ownedTd, tdHandle_eq] at h
  by_cases low : w.toNat < 2 ^ 16
  · simp only [if_pos low] at h
    split at h
    · cases h
      exact ⟨rfl, low⟩
    · cases h
  · simp only [if_neg low] at h
    cases h

theorem xferCompleteBody_badArg {args : Args} (valid : s.validEd e = true) (foreign : s.ownedTd e args.arg0 = none) :
    xferCompleteBody e args s = .error (.err .badArg) s := by
  refine (run_bind_ok (run_checkEd_ok valid)).trans ((run_bind_ok (run_get s)).trans ?_)
  rw [foreign]
  rfl

theorem xferAbortBody_badArg {args : Args} (valid : s.validEd e = true)
    (refused : ∀ t, s.ownedTd e args.arg0 = some t → t = (s.ed e).tail) :
    xferAbortBody e args s = .error (.err .badArg) s := by
  refine (run_bind_ok (run_checkEd_ok valid)).trans ((run_bind_ok (run_get s)).trans ?_)
  cases owned : s.ownedTd e args.arg0 with
  | none => rfl
  | some t => simp only [if_pos (refused t owned)]; rfl

/-- Settles O49: each refusal is an end of the command's body before its first access. -/
theorem transferOperandErrors : Obligations.TransferOperandErrors := by
  intro ctx e s quiet started valid buf len bad
  refine ⟨fun more r di dp no => ?_, fun more r di dp ok full => ?_, fun foreign => ?_, fun tail => ?_⟩
  · have refused : queueArgsOk dp s.arg0 s.arg1 = false := Bool.eq_false_iff.2 fun ok => queueArgsOk_iff.1 ok no
    exact exec_raises (i := .tdQueue ctx e more r di dp) quiet started rfl (tdQueueBody_badArg more r di valid refused)
  · exact exec_raises (i := .tdQueue ctx e more r di dp) quiet started rfl
      (tdQueueBody_noMem more r di valid (queueArgsOk_iff.2 ok) (allocTd_eq_none full))
  · have none_ : s.ownedTd e s.arg0 = none := by
      cases owned : s.ownedTd e s.arg0 with
      | none => rfl
      | some t =>
        obtain ⟨rfl, low⟩ := ownedTd_names owned
        obtain ⟨known, alloc, owner⟩ := ownedTd_some owned
        rcases foreign with high | beyond | free | other
        · exact absurd (highHalf_eq_zero.2 low) high
        · exact absurd known (not_lt.2 beyond)
        · cases alloc.symm.trans free
        · exact absurd owner other
    exact ⟨exec_raises (i := .xferComplete ctx e) quiet started rfl (xferCompleteBody_badArg valid none_),
      exec_raises (i := .xferAbort .thread e) quiet started rfl
        (xferAbortBody_badArg valid fun t owned => by cases none_.symm.trans owned)⟩
  · exact exec_raises (i := .xferAbort .thread e) quiet started rfl
      (xferAbortBody_badArg valid fun t owned => (ownedTd_names owned).1.trans tail)

/-! ### The faults of `XFER_COMPLETE` -/

/-- The walk over a group stops at the first TD that is the placeholder or not finished (42_transfer.md R305). -/
theorem checkGroup_unfinished {tail n u : Nat} {l : List Nat} (chain : Chain s t l u) (fits : l.length ≤ n)
    (before : ∀ x ∈ l, x ≠ tail ∧ (s.td x).finished = true ∧ (s.td x).more = true)
    (stop : u = tail ∨ (s.td u).finished = false) : checkGroup s tail n t = some (.unfinished u) := by
  induction l generalizing n t with
  | nil =>
    cases chain
    cases n <;> exact if_pos stop
  | cons x l ih =>
    obtain ⟨rfl, nx, next, chain⟩ := chain
    obtain ⟨notTail, finished, more⟩ := before t List.mem_cons_self
    cases n with
    | zero => cases fits
    | succ n =>
      have go : ¬ (t = tail ∨ (s.td t).finished = false) := by simp [notTail, finished]
      simp only [checkGroup, if_neg go, next, more, if_true,
        ih chain (Nat.le_of_succ_le_succ fits) fun y hy => before y (List.mem_cons_of_mem _ hy)]
      rfl

/-- A command that logged a developer fault and changed nothing else. -/
theorem finish_fault_begun (idle : s.seq = .idle) (w : Word) (code : FaultCode) (info : Word) :
    finish (.error (.err .fault) ((s.begun w).logFault code info)) =
      .next ((s.taken.logFault code info).ended .fault) := by
  change Host.Outcome.next { (s.taken.logFault code info).ended .fault with seq := .idle } = _
  rw [← idle]
  rfl

theorem xferCompleteBody_order {args : Args} (valid : s.validEd e = true) (owned : s.ownedTd e args.arg0 = some t)
    (later : t ≠ (s.ed e).head) :
    xferCompleteBody e args s = .error (.err .fault) (s.logFault .order (infoWord e t)) := by
  refine (run_bind_ok (run_checkEd_ok valid)).trans ((run_bind_ok (run_get s)).trans ?_)
  simp only [owned, if_pos later]
  rfl

theorem xferCompleteBody_notFinished {args : Args} {u : Nat} (valid : s.validEd e = true)
    (owned : s.ownedTd e args.arg0 = some t) (head : t = (s.ed e).head)
    (check : checkGroup s (s.ed e).tail s.params.ntd t = some (.unfinished u)) :
    xferCompleteBody e args s = .error (.err .fault) (s.logFault .notFinished (infoWord e u)) := by
  refine (run_bind_ok (run_checkEd_ok valid)).trans ((run_bind_ok (run_get s)).trans ?_)
  simp only [owned, if_neg (not_not.2 head), check]
  rfl

/-- Settles O52: the two faults are those of the body; `checkGroup_unfinished` finds the unfinished TD. -/
theorem xferCompleteFaults : Obligations.XferCompleteFaults := by
  intro ctx e t s quiet started valid arg low known alloc owner
  have owned : s.ownedTd e s.arg0 = some t := by
    rw [arg]
    exact ownedTd_of_lt low known alloc owner
  have exec_ := exec_quiet_body (i := .xferComplete ctx e) quiet.1 quiet.2 started rfl
  refine ⟨fun later => ?_, fun l u head chain fits before stop => ?_⟩
  · have body := xferCompleteBody_order (s := s.begun (encode (.xferComplete ctx e))) (args := s.args) valid owned later
    rw [exec_, bodyOf, body]
    exact finish_fault_begun quiet.1 _ _ _
  · have check : checkGroup (s.begun (encode (.xferComplete ctx e))) (s.ed e).tail s.params.ntd t = some (.unfinished u) :=
      (checkGroup_congr (s := s) (s' := s.begun _) rfl _ _ _).trans (checkGroup_unfinished chain fits before stop)
    have body := xferCompleteBody_notFinished (s := s.begun (encode (.xferComplete ctx e))) (args := s.args) valid owned head
      check
    rw [exec_, bodyOf, body]
    exact finish_fault_begun quiet.1 _ _ _

end Machine
end Sys2Proof
end

section
/-! SUPPORT. The four words of an HC-TD, and slots that lie apart, while no other agent moves (20_memory.md R89, 00_scope.md
R9, 44_coherence.md R403). -/

namespace Sys2Proof.Machine

variable {s t u : State} {p : Params}

/-! ### Slots that lie apart -/

section
variable (g : p.Good)
include g

theorem tdAddr_inj {x y : Nat} (hx : x < p.ntd) (hy : y < p.ntd) (h : tdAddr p x = tdAddr p y) : x = y := by
  by_contra ne
  have apart := g.tdAddr_apart hx hy ne
  have := g.line_pos
  rw [h] at apart
  omega

theorem tdSlot_ne {x y : Nat} (hx : x < p.ntd) (hy : y < p.ntd) (h : x ≠ y) : (tdAddr p x).toNat ≠ (tdAddr p y).toNat :=
  fun same => h (tdAddr_inj g hx hy (BitVec.eq_of_toNat_eq same))

theorem edSlot_ne_tdSlot {e x : Nat} (he : e < p.ned) (hx : x < p.ntd) : (edAddr p e).toNat ≠ (tdAddr p x).toNat := by
  have := g.ed_td_apart he.le hx
  have := g.line_pos
  omega

theorem edTail_aligned {e : Nat} (he : e < p.ned) : (edTailAddr p e).toNat % 4 = 0 :=
  (plain_edWord g he 0x4#32 (by decide) (by decide)).aligned

theorem tdWord_aligned {x : Nat} (hx : x < p.ntd) {k : Word} (hk : k.toNat % 4 = 0) (small : k.toNat < 16) :
    (tdAddr p x + k).toNat % 4 = 0 := (plain_tdWord g hx k hk small).aligned

/-- A TD's address ends in zeros. -/
theorem tdAddr_mod16 (x : Nat) : (tdAddr p x).toNat % 16 = 0 := by
  obtain ⟨q, hq⟩ := Nat.dvd_of_mod_eq_zero (g.tdAddr_slot x)
  obtain ⟨r, hr⟩ := Nat.dvd_of_mod_eq_zero g.line_dvd
  rw [hq, hr, Nat.mul_assoc, Nat.mul_mod_right]

/-- Words of slots that differ are different words. -/
theorem slotWords_ne {a b k k' : Word} (ha : a.toNat % p.cacheLine = 0) (hb : b.toNat % p.cacheLine = 0)
    (hk : k.toNat < 16) (hk' : k'.toNat < 16) (h : a.toNat ≠ b.toNat) : a + k ≠ b + k' := fun same => by
  have line := slotWord_line g ha hk
  rw [same, slotWord_line g hb hk'] at line
  exact h line.symm

/-- A flush of a slot writes no word of another slot. -/
theorem inLines_other_slot {a b x : Nat} {w : Word} (hw : w.toNat % 4 = 0) (line : lineBase p w.toNat = a)
    (hx : w.toNat ≤ x ∧ x < w.toNat + 4) (hb : b % p.cacheLine = 0) (h : a ≠ b) : inLines p b 16 x = false := by
  rw [← Bool.not_eq_true, inLines_slot g hb]
  have there : lineBase p x = a := (lineBase_byte g hw hx).trans line
  have size := g.line_ge
  split
  · exact fun inside => h (there.symm.trans (lineBase_unique hb (by omega) (by omega)))
  · exact fun same => h (there.symm.trans same)

end

/-! ### The words of a TD -/

/-- The four words of an HC-TD (20_memory.md R89). -/
def tdWords (a w0 w1 w2 w3 : Word) : List (Word × Word) := [(a, w0), (a + 4#32, w1), (a + 8#32, w2), (a + 0xC#32, w3)]

theorem writeTd_eq (a w0 w1 w2 w3 : Word) : writeTd a w0 w1 w2 w3 = memWrites (tdWords a w0 w1 w2 w3) := by
  simp only [writeTd, memWrites, tdWords, bind_pure_unit]

theorem tdWords_at (a w0 w1 w2 w3 : Word) : ∀ w ∈ tdWords a w0 w1 w2 w3,
    ∃ k : Word, k.toNat % 4 = 0 ∧ k.toNat + 4 ≤ 16 ∧ w.1 = a + k := by
  simp only [tdWords, List.forall_mem_cons]
  exact ⟨⟨0#32, by decide, by decide, (BitVec.add_zero a).symm⟩, ⟨4#32, by decide, by decide, rfl⟩,
    ⟨8#32, by decide, by decide, rfl⟩, ⟨0xC#32, by decide, by decide, rfl⟩, fun _ h => nomatch h⟩

/-- A word outside a TD's slot is none of its words. -/
theorem not_mem_tdWords (g : p.Good) {a b k w0 w1 w2 w3 : Word} (ha : a.toNat % p.cacheLine = 0)
    (hb : b.toNat % p.cacheLine = 0) (hk : k.toNat < 16) (h : b.toNat ≠ a.toNat) :
    b + k ∉ (tdWords a w0 w1 w2 w3).map (·.1) := fun member => by
  obtain ⟨w, hw, same⟩ := List.mem_map.1 member
  obtain ⟨k', _, hk', at_⟩ := tdWords_at a w0 w1 w2 w3 w hw
  exact slotWords_ne g ha hb (by omega) hk h.symm (at_.symm.trans same)

/-- A TD's four words written and flushed. -/
theorem publishTd_touched (g : s.params.Good) (alone : s.sched = []) {x : Nat} (hx : x < s.params.ntd) (w0 w1 w2 w3 : Word) :
    ∃ t, (do writeTd (tdAddr s.params x) w0 w1 w2 w3; flush (tdAddr s.params x) 16 : Cmd Unit) s = .ok ⟨⟩ t ∧
      Quietly s t ∧
      Touched (fun a => inLines s.params (tdAddr s.params x).toNat 16 a = true)
        (· ∈ (tdWords (tdAddr s.params x) w0 w1 w2 w3).map (·.1)) s t ∧
      ∀ w ∈ tdWords (tdAddr s.params x) w0 w1 w2 w3, t.holds w.1 w.2 := by
  have fits := slot_fits g (g.tdAddr_slot x)
  have line := g.line_ge
  have at_ : ∀ w ∈ tdWords (tdAddr s.params x) w0 w1 w2 w3, w.1.toNat % 4 = 0 ∧
      (tdAddr s.params x).toNat ≤ w.1.toNat ∧ w.1.toNat + 4 ≤ (tdAddr s.params x).toNat + 16 := fun w hw => by
    obtain ⟨k, aligned, small, at_⟩ := tdWords_at _ w0 w1 w2 w3 w hw
    have word := g.tdWord_toNat hx k (by omega)
    rw [at_]
    exact ⟨tdWord_aligned g hx aligned (by omega), by omega, by omega⟩
  rw [writeTd_eq]
  exact publishWords_touched _ g alone (fun w hw => (at_ w hw).1) (by simp [tdWords]) (by omega) fun w hw => (at_ w hw).2

end Sys2Proof.Machine
end

section
/-! SUPPORT. `TD_QUEUE` while no other agent moves (42_transfer.md R300 to R302, R304): the tables it leaves, the two
descriptors and `TailP` in memory, and the HC's list in step with the queue. -/

namespace Sys2Proof.Machine

variable {s t u v : State} {e n : Nat}

/-! ### The tables -/

section
variable (s e n) (a : Bool) (st : Word)

@[simp] theorem reserved_params : (s.reserved e n a).params = s.params := rfl
@[simp] theorem reserved_mem : (s.reserved e n a).mem = s.mem := rfl
@[simp] theorem reserved_hc : (s.reserved e n a).hc = s.hc := rfl
@[simp] theorem filled_params : (s.filled e n st).params = s.params := rfl

theorem queued_params : ((s.reserved e n a).filled e n st).params = s.params := by rw [filled_params, reserved_params]

theorem queued_ed (x : Nat) : ((s.reserved e n a).filled e n st).ed x =
    if x = e then { s.ed e with tail := n, afterSetup := a } else s.ed x := by
  split
  · rename_i h
    rw [h, filled_ed_self, reserved_ed_self]
  · rename_i h
    rw [filled_ed_ne h, reserved_ed_ne h]

theorem queued_td (fresh : n ≠ (s.ed e).tail) (x : Nat) : ((s.reserved e n a).filled e n st).td x =
    if x = n then { alloc := true, owner := e }
    else if x = (s.ed e).tail then { s.td (s.ed e).tail with status := st, next := some n } else s.td x := by
  have tail : ((s.reserved e n a).ed e).tail = (s.ed e).tail := by rw [reserved_ed_self]
  split
  · rename_i h
    rw [h, filled_td_ne (tail ▸ fresh), reserved_td_self]
  · rename_i h
    split
    · rename_i h'
      have filled := filled_td_self (u := s.reserved e n a) (e := e) (n := n) (st := st)
      rw [tail, reserved_td_ne fresh.symm] at filled
      rw [h', filled]
    · rename_i h'
      rw [filled_td_ne (tail ▸ h'), reserved_td_ne h]

theorem queued_indexed (x : Nat) : ((s.reserved e n a).filled e n st).indexed x =
    if x = (s.ed e).tail then true else s.indexed x := by
  have tail : ((s.reserved e n a).ed e).tail = (s.ed e).tail := by rw [reserved_ed_self]
  split
  · rename_i h
    rw [State.filled, tail, h, setEd_indexed, setIndexed_indexed_self]
  · rename_i h
    rw [filled_indexed_ne (tail ▸ h), reserved_indexed]

end

/-- The update of the tables that fills the placeholder `t` (42_transfer.md R300). -/
def State.placeholderFilled (s : State) (e t n : Nat) (st : Word) : State :=
  ((s.setTd t { s.td t with status := st, next := some n }).setIndexed t true).setEd e { s.ed e with tail := n }

theorem filled_eq {t : Nat} (ht : (s.ed e).tail = t) (st : Word) : s.filled e n st = s.placeholderFilled e t n st := by
  rw [State.filled, ht]
  rfl

theorem Quietly.placeholderFilled (h : Quietly s v) (e t n : Nat) (st : Word) :
    Quietly (s.placeholderFilled e t n st) (v.placeholderFilled e t n st) := by
  obtain ⟨m, k, q, rfl⟩ := h
  exact ⟨m, k, q, rfl⟩

theorem reserved_shape (s : State) (e n : Nat) (a : Bool) : ∃ x y, s.reserved e n a = { s with edt := x, tdt := y } :=
  ⟨_, _, rfl⟩

theorem placeholderFilled_shape (s : State) (e t n : Nat) (st : Word) :
    ∃ x y z, s.placeholderFilled e t n st = { s with edt := x, tdt := y, idxValid := z } := ⟨_, _, _, rfl⟩

theorem SameTables.reserved (h : SameTables s t) (e n : Nat) (a : Bool) :
    SameTables (s.reserved e n a) (t.reserved e n a) := by
  rw [State.reserved, State.reserved, h.ed]
  exact (h.setEd e _).setTd n _

theorem SameTables.placeholderFilled (h : SameTables s v) (e t n : Nat) (st : Word) :
    SameTables (s.placeholderFilled e t n st) (v.placeholderFilled e t n st) := by
  rw [State.placeholderFilled, State.placeholderFilled, h.ed, h.td]
  exact ((h.setTd t _).setIndexed t true).setEd e _

/-- The list-filled write on top of other accesses. -/
theorem Quietly.filledHc (h : Quietly s t) (ty : EdType) (q : Seq) :
    Quietly { s with hc := s.hc.filled ty } { t with hc := t.hc.filled ty, seq := q } := by
  obtain ⟨m, k, _, rfl⟩ := h
  exact ⟨m, k, q, rfl⟩

/-! ### The HC's list (10_state.md R42 (d)) -/

/-- The lowest free slot is no TD of the endpoint. -/
theorem allocTd_fresh (hn : s.allocTd = some n) {q : List Nat} (queue : s.queueIs e q) : n ∉ q ++ [(s.ed e).tail] := fun hm => by
  obtain ⟨_, free, _⟩ := allocTd_some hn
  cases free.symm.trans (queue.owned n hm).2.1

section
variable {a more : Bool} {len : Word} (shape : s.shape) (valid : s.validEd e = true) (hn : s.allocTd = some n)
include shape valid hn

/-- The queue has grown by its placeholder. -/
theorem queueIs_queued {q : List Nat} (queue : s.queueIs e q) (short : len.toNat ≤ 8192) :
    ((s.reserved e n a).filled e n (queuedStatus more len)).queueIs e (q ++ [(s.ed e).tail]) := by
  obtain ⟨v, hv⟩ : ∃ v, v = (s.reserved e n a).filled e n (queuedStatus more len) := ⟨_, rfl⟩
  have new := allocTd_fresh hn queue
  have fresh : n ≠ (s.ed e).tail := fun h => new (by simp [h])
  have ed : v.ed e = { s.ed e with tail := n, afterSetup := a } := by rw [hv, queued_ed, if_pos rfl]
  have td := queued_td s e n a (queuedStatus more len) fresh
  simp only [← hv] at td
  have before : ∀ x ∈ q, v.td x = s.td x := fun x hx => by
    have ne : x ≠ (s.ed e).tail := fun h => List.disjoint_of_nodup_append queue.once hx (List.mem_singleton.2 h)
    rw [td, if_neg fun (h : x = n) => new (h ▸ List.mem_append_left _ hx), if_neg ne]
  have next : (v.td (s.ed e).tail).next = some n := by rw [td, if_neg fresh.symm, if_pos rfl]
  have chain : Chain v (v.ed e).head (q ++ [(s.ed e).tail]) (v.ed e).tail := by
    rw [ed]
    exact chain_append (chain_congr (fun x hx => by rw [before x hx]) queue.chain) ⟨rfl, n, next, rfl⟩
  have grown : v.shape := by
    rw [hv]
    exact (local_queued shape (alloc_of_validEd valid) hn (queuedStatus_getLsbD more short)).shape shape
  obtain ⟨q', queue'⟩ := grown.shaped e (by rw [ed]; exact alloc_of_validEd valid)
  have last : (v.ed e).tail ∉ q' := fun hm => List.disjoint_of_nodup_append queue'.once hm (List.mem_singleton_self _)
  rw [← hv, chain_unique chain (by rw [ed]; exact new) queue'.chain last]
  exact queue'

/-- A queue that has grown by its placeholder, the HC's list with it. -/
theorem hardwareAgrees_queued (g : s.params.Good) {retired waiting : List Nat} (agree : s.hardwareAgrees e retired waiting)
    (short : len.toNat ≤ 8192) (tables : SameTables ((s.reserved e n a).filled e n (queuedStatus more len)) u)
    (kept : ∀ a : Word, a.toNat % 4 = 0 → lineBase s.params a.toNat ≠ (tdAddr s.params (s.ed e).tail).toNat →
      lineBase s.params a.toNat ≠ (tdAddr s.params n).toNat → a ≠ edTailAddr s.params e → u.physRead a = s.physRead a)
    (link : u.physRead (tdAddr s.params (s.ed e).tail + 8#32) = tdAddr s.params n)
    (tail : u.physRead (edTailAddr s.params e) = tdAddr s.params n) :
    u.hardwareAgrees e retired (waiting ++ [(s.ed e).tail]) := by
  obtain ⟨p, hp⟩ : ∃ p, p = (s.ed e).tail := ⟨_, rfl⟩
  have new := allocTd_fresh hn agree.queue
  have fresh : n ≠ (s.ed e).tail := fun h => new (by simp [h])
  have params : u.params = s.params := tables.params.trans (queued_params ..)
  have tailU : (u.ed e).tail = n := by rw [tables.ed, queued_ed, if_pos rfl]
  have td := queued_td s e n a (queuedStatus more len) fresh
  simp only [← tables.td] at td
  have placeholder : u.td p = { s.td p with status := queuedStatus more len, next := some n } := by
    rw [td, hp, if_neg fresh.symm, if_pos rfl]
  have before : ∀ x ∈ waiting, u.td x = s.td x := fun x hx => by
    have hx := List.mem_append_right retired hx
    have ne : x ≠ (s.ed e).tail := fun h => List.disjoint_of_nodup_append agree.queue.once hx (List.mem_singleton.2 h)
    rw [td, if_neg fun (h : x = n) => new (h ▸ List.mem_append_left _ hx), if_neg ne]
  have queue := tables.queueIs (queueIs_queued shape valid hn agree.queue short)
  have he := lt_of_validEd valid
  have tail_lt := shape.tail_lt (alloc_of_validEd valid)
  have known := (allocTd_some hn).1
  have head : u.physRead (edHeadAddr s.params e) = s.physRead (edHeadAddr s.params e) := by
    have line : lineBase s.params (edHeadAddr s.params e).toNat = _ := slotWord_line g (g.edAddr_slot e) (by decide)
    refine kept _ (edHead_aligned g he) ?_ ?_ (by simp [edHeadAddr, edTailAddr])
    · exact line.trans_ne (edSlot_ne_tdSlot g he tail_lt)
    · exact line.trans_ne (edSlot_ne_tdSlot g he known)
  have next_ : ∀ x ∈ waiting, u.physRead (tdAddr s.params x + 8#32) = s.physRead (tdAddr s.params x + 8#32) := by
    intro x hx
    have hx := List.mem_append_right retired hx
    obtain ⟨small, _⟩ := agree.queue.owned x (List.mem_append_left _ hx)
    have line : lineBase s.params (tdAddr s.params x + 8#32).toNat = _ := slotWord_line g (g.tdAddr_slot x) (by decide)
    refine kept _ (tdWord_aligned g small (by decide) (by decide)) ?_ ?_ ?_
    · refine line.trans_ne (tdSlot_ne g small tail_lt fun h => ?_)
      exact List.disjoint_of_nodup_append agree.queue.once hx (List.mem_singleton.2 h)
    · exact line.trans_ne (tdSlot_ne g small known fun h => new (h ▸ List.mem_append_left _ hx))
    · exact slotWords_ne g (g.tdAddr_slot x) (g.edAddr_slot e) (by decide) (by decide) (edSlot_ne_tdSlot g he small).symm
  rw [← hp] at queue link ⊢
  refine ⟨by rwa [← List.append_assoc], fun x hx => ?_, fun x hx => ?_, fun x hx nx next => ?_, ?_⟩
  · rcases List.mem_append.1 hx with hx | hx
    · rw [before x hx]
      exact agree.unfinished x hx
    · rw [List.mem_singleton.1 hx, placeholder]
      exact queuedStatus_getLsbD more short
  · rw [params, head]
    refine agree.head x ?_
    rw [← hp]
    rwa [List.head?_append_of_ne_nil _ (List.append_ne_nil_of_right_ne_nil _ (List.cons_ne_nil p []))] at hx
  · rw [params]
    rcases List.mem_append.1 hx with hx | hx
    · rw [before x hx] at next
      rw [next_ x hx, agree.next x hx nx next]
    · rw [List.mem_singleton.1 hx, placeholder] at next
      rw [List.mem_singleton.1 hx, link, Option.some.inj next]
  · rw [params, tail, tailU]

end

/-! ### The body of `TD_QUEUE` -/

/-- The words `TD_QUEUE` writes: the filled placeholder, the new one and `TailP`. -/
def queuedWords (p : Params) (e n t : Nat) (control buf last : Word) : List (Word × Word) :=
  tdWords (tdAddr p t) control buf (tdAddr p n) last ++ tdWords (tdAddr p n) 0#32 0#32 0#32 0#32 ++
    [(edTailAddr p e, tdAddr p n)]

theorem tdQueueBody_eq (valid : s.validEd e = true) (more r : Bool) (di : BitVec 3) {dp : BitVec 2} {args : Args}
    (good : queueArgsOk dp args.arg0 args.arg1 = true) (hn : s.allocTd = some n) {t : Nat} (ht : (s.ed e).tail = t)
    {tog : BitVec 2 × Bool} (htog : togglePolicy dp (s.ed e).afterSetup = tog) :
    tdQueueBody e more r di dp args s = (do
      (do writeTd (tdAddr s.params n) 0#32 0#32 0#32 0#32; flush (tdAddr s.params n) 16)
      (do
        writeTd (tdAddr s.params t) (tdControl tog.1 di dp r t) (if args.arg1 = 0#32 then 0#32 else args.arg0)
          (tdAddr s.params n) (if args.arg1 = 0#32 then 0#32 else args.arg0 + args.arg1 - 1#32)
        flush (tdAddr s.params t) 16)
      modify fun s => s.placeholderFilled e t n (queuedStatus more args.arg1)
      rmw (edTailAddr s.params e) fun _ => tdAddr s.params n
      listFilled (s.ed e).type
      return { res0 := t, res1 := n } : Cmd Results) (s.reserved e n tog.2) := by
  refine (run_bind_ok (run_checkEd_ok valid)).trans ?_
  simp only [good]
  refine (run_bind_ok (run_get s)).trans ?_
  simp only [hn, ht, htog, bind_assoc]
  rfl

/-- The two descriptors are published, then `TailP`; nothing else of memory changes but in their lines. -/
theorem queuedWords_touched {p : Params} (hp : s.params = p) (g : p.Good) (alone : s.sched = []) {t : Nat} (he : e < p.ned)
    (tail : t < p.ntd) (known : n < p.ntd) (fresh : n ≠ t) (control buf last st : Word) (ty : EdType) (r : Results) :
    ∃ u : State, (do
        (do writeTd (tdAddr p n) 0#32 0#32 0#32 0#32; flush (tdAddr p n) 16)
        (do writeTd (tdAddr p t) control buf (tdAddr p n) last; flush (tdAddr p t) 16)
        modify fun s => s.placeholderFilled e t n st
        rmw (edTailAddr p e) fun _ => tdAddr p n
        listFilled ty
        return r : Cmd Results) s = .ok r u ∧
      Quietly { s.placeholderFilled e t n st with hc := s.hc.filled ty } u ∧
      (∀ w ∈ queuedWords p e n t control buf last, u.physRead w.1 = w.2) ∧
      ∀ x, inLines p (tdAddr p t).toNat 16 x = false → inLines p (tdAddr p n).toNat 16 x = false →
        inWord (edTailAddr p e) x = false → loadByte u.mem x = loadByte s.mem x := by
  subst hp
  have slotN := g.tdAddr_slot n
  have slotT := g.tdAddr_slot t
  have slotE := g.edAddr_slot e
  obtain ⟨s₁, run₁, q₁, touched₁, held₁⟩ := publishTd_touched g alone known 0#32 0#32 0#32 0#32
  have params₁ := touched₁.params
  obtain ⟨s₂, run₂, q₂, touched₂, held₂⟩ := publishTd_touched (s := s₁) (params₁ ▸ g) (touched₁.sched.trans alone)
    (params₁ ▸ tail) control buf (tdAddr s.params n) last
  rw [params₁] at run₂ touched₂ held₂
  obtain ⟨s₃, h₃⟩ : ∃ s₃, s₃ = s₂.placeholderFilled e t n st := ⟨_, rfl⟩
  have touched₃ : Touched (fun _ => False) (fun _ => False) s₂ s₃ := by rw [h₃]; exact .other rfl rfl rfl rfl
  have params₃ := touched₃.params.trans (touched₂.params.trans params₁)
  obtain ⟨s₄, run₄, q₄, touched₄, held₄⟩ := rmw_touched (s := s₃) (a := edTailAddr s.params e) (params₃ ▸ g)
    (touched₃.sched.trans (touched₂.sched.trans (touched₁.sched.trans alone))) (edTail_aligned g he)
    fun _ => tdAddr s.params n
  obtain ⟨q, run₅⟩ := listFilled_quiet (touched₄.sched.trans
    (touched₃.sched.trans (touched₂.sched.trans (touched₁.sched.trans alone)))) ty
  have filled := ((q₁.trans q₂).placeholderFilled e t n st).trans (h₃ ▸ q₄)
  refine ⟨_, ?_, filled.filledHc ty q, fun w hw => ?_, fun x noT noN noE => ?_⟩
  · exact (run_bind_ok run₁).trans ((run_bind_ok run₂).trans ((run_bind_ok (run_modify _ s₂)).trans
      ((run_bind_ok (h₃ ▸ run₄)).trans (run_bind_ok run₅))))
  · change s₄.physRead w.1 = w.2
    rcases List.mem_append.1 hw with hw | hw
    · rcases List.mem_append.1 hw with hw | hw
      · obtain ⟨k, aligned, small, at_⟩ := tdWords_at _ _ _ _ _ w hw
        have aligned : w.1.toNat % 4 = 0 := at_ ▸ tdWord_aligned g tail aligned (by omega)
        refine (touched₄.words _ _ aligned (at_ ▸ ?_) (touched₃.words _ _ aligned id (held₂ w hw))).1
        exact slotWords_ne g slotT slotE (by omega) (by decide) (edSlot_ne_tdSlot g he tail).symm
      · obtain ⟨k, aligned, small, at_⟩ := tdWords_at _ _ _ _ _ w hw
        have aligned : w.1.toNat % 4 = 0 := at_ ▸ tdWord_aligned g known aligned (by omega)
        refine (touched₄.words _ _ aligned (at_ ▸ ?_) (touched₃.words _ _ aligned id
          (touched₂.words _ _ aligned (at_ ▸ ?_) (held₁ w hw)))).1
        · exact slotWords_ne g slotN slotE (by omega) (by decide) (edSlot_ne_tdSlot g he known).symm
        · exact not_mem_tdWords g slotT slotN (by omega) (tdSlot_ne g known tail fresh)
    · rw [List.mem_singleton.1 hw]
      exact held₄.1
  · change loadByte s₄.mem x = loadByte s.mem x
    rw [touched₄.bytes x (Bool.eq_false_iff.1 noE), touched₃.bytes x id, touched₂.bytes x (Bool.eq_false_iff.1 noT),
      touched₁.bytes x (Bool.eq_false_iff.1 noN)]

/-- What the end of the command leaves of the state in which it began. -/
theorem tdQueue_ended (idle : s.seq = .idle) {w : Word} {e t n : Nat} {a : Bool} {st r₀ r₁ : Word} {h : Hc}
    (q : Quietly { ((s.begun w).reserved e n a).placeholderFilled e t n st with hc := h } v)
    (hu : u = { v.endedOk r₀ r₁ 0 with seq := .idle }) :
    u = { s.taken.endedOk r₀ r₁ 0 with
      edt := u.edt, tdt := u.tdt, idxValid := u.idxValid, mem := u.mem, cache := u.cache, hc := h } := by
  obtain ⟨x, y, reserved⟩ := reserved_shape (s.begun w) e n a
  obtain ⟨x', y', z, filled⟩ := placeholderFilled_shape ((s.begun w).reserved e n a) e t n st
  obtain ⟨m, k, q', rfl⟩ := q
  rw [hu, filled, reserved, ← idle]
  rfl

/-- Settles O48: `queuedWords_touched` at the state in which the slots are taken. -/
theorem tdQueueCompletes : Obligations.TdQueueCompletes := by
  intro ctx e n more r di dp s quiet legal started ok valid hn p buf len notBoth short page low t tog tdw nw
  have g : p.Good := Params.legal_good legal
  have he : e < p.ned := lt_of_validEd valid
  have shape := ok.shape
  obtain ⟨known, _, _⟩ := allocTd_some hn
  have tail : t < p.ntd := shape.tail_lt (alloc_of_validEd valid)
  have fresh : n ≠ t := fun h => by
    obtain ⟨q, hq⟩ := shape.shaped e (alloc_of_validEd valid)
    exact allocTd_fresh hn hq (by rw [h]; exact List.mem_append_right _ (List.mem_singleton_self _))
  have good : queueArgsOk dp s.arg0 s.arg1 = true := by
    refine queueArgsOk_iff.2 ?_
    rintro (h | h | h | ⟨h, h'⟩)
    · exact notBoth h
    · exact absurd short (not_le.2 h)
    · exact absurd page (not_le.2 h)
    · exact absurd (low h) (not_lt.2 h')
  obtain ⟨w, hw⟩ : ∃ w, w = encode (.tdQueue ctx e more r di dp) := ⟨_, rfl⟩
  obtain ⟨v, run, shapeV, words, frame⟩ := queuedWords_touched (s := (s.begun w).reserved e n tog.2) (p := p)
    (reserved_params ..) g quiet.2 he tail known fresh (tdControl tog.1 di dp r t) (if len = 0#32 then 0#32 else buf)
    (if len = 0#32 then 0#32 else buf + len - 1#32) (queuedStatus more len) (s.ed e).type { res0 := t, res1 := n }
  obtain ⟨u, hu⟩ : ∃ u, u = ({ v.endedOk (BitVec.ofNat 32 t) (BitVec.ofNat 32 n) 0 with seq := .idle } : State) := ⟨_, rfl⟩
  have tables : SameTables ((s.reserved e n tog.2).filled e n (queuedStatus more len)) u := by
    rw [filled_eq (t := t) (by rw [reserved_ed_self])]
    have begun : SameTables s (s.begun w) := .other
    have filled := (begun.reserved e n tog.2).placeholderFilled e t n (queuedStatus more len)
    exact (filled.trans .other).trans (shapeV.tables.trans (hu ▸ .other))
  have mem : u.mem = v.mem := by rw [hu]; rfl
  have read : ∀ a, u.physRead a = v.physRead a := fun a => by rw [State.physRead, mem]; rfl
  simp only [queuedWords, tdWords, List.cons_append, List.nil_append, List.forall_mem_cons, ← read] at words
  obtain ⟨t0, t4, t8, t12, n0, n4, n8, n12, tailP, _⟩ := words
  have bytes : ∀ x, inLines p tdw.toNat 16 x = false → inLines p nw.toNat 16 x = false →
      inWord (edTailAddr p e) x = false → loadByte u.mem x = loadByte s.mem x := fun x h1 h2 h3 => by
    rw [mem, frame x h1 h2 h3]
    rfl
  refine ⟨u, ?_, ?_, fun x => ?_, fun x => ?_, fun x => ?_, t0, t4, t8, t12, n0, n4, n8, n12, tailP, bytes,
    fun retired waiting agree => ?_⟩
  · have fits : p.ntd ≤ 65535 := g.ntd.2
    rw [exec_quiet_body (i := .tdQueue ctx e more r di dp) quiet.1 quiet.2 started rfl, bodyOf, ← hw,
      tdQueueBody_eq (s := s.begun w) valid more r di good hn (t := t) rfl (tog := tog) rfl, hu]
    exact (congrArg finish run).trans (finish_ok (r := { res0 := t, res1 := n }) (tail.trans_le (fits.trans (by decide)))
      (known.trans_le (fits.trans (by decide))) (Nat.two_pow_pos 32) v)
  · refine (tdQueue_ended quiet.1 shapeV hu).trans ?_
    cases ty : (s.ed e).type with
    | control => rfl
    | bulk => rfl
    | interrupt => simp [Hc.filled, State.begun]
  · rw [tables.ed, queued_ed]
  · rw [tables.td, queued_td _ _ _ _ _ fresh]
    rfl
  · rw [tables.indexed, queued_indexed]
  · have kept : ∀ a : Word, a.toNat % 4 = 0 → lineBase p a.toNat ≠ tdw.toNat → lineBase p a.toNat ≠ nw.toNat →
        a ≠ edTailAddr p e → u.physRead a = s.physRead a := fun a aligned noT noN noE =>
      physRead_congr fun x hx => bytes x (inLines_other_slot g aligned rfl hx (g.tdAddr_slot t) noT)
        (inLines_other_slot g aligned rfl hx (g.tdAddr_slot n) noN)
        (decide_eq_false (words_disjoint (edTail_aligned g he) aligned noE hx))
    exact hardwareAgrees_queued shape valid hn g agree short tables kept t8 tailP

end Sys2Proof.Machine
end

section
/-! SUPPORT. A group of TDs taken off a queue (42_transfer.md R305, R310): the tables it leaves, and the HC's list in step
with the queue (10_state.md R42 (d)). -/

namespace Sys2Proof.Machine

variable {s t u v : State} {e : Nat} {before gone rest : List Nat} {after : Nat}

/-! ### The tables -/

section
variable (s e before gone after)

theorem cutGroup_ed (x : Nat) : (s.cutGroup e before gone after).ed x =
    if x = e ∧ before = [] then { s.ed e with head := after } else s.ed x := by
  rcases List.eq_nil_or_concat' before with rfl | ⟨l, p, rfl⟩
  · rw [cutGroup_first rfl, freeTds_ed]
    by_cases h : x = e
    · rw [if_pos ⟨h, rfl⟩, h, setEd_ed_self]
    · rw [if_neg fun no => h no.1, setEd_ed_ne _ h, freeTds_ed]
  · rw [cutGroup_after (prev := p) (by simp), setTd_ed, freeTds_ed, if_neg (by simp)]

theorem cutGroup_td (disjoint : ∀ x, before.getLast? = some x → x ∉ gone) (x : Nat) :
    (s.cutGroup e before gone after).td x = if x ∈ gone then { s.td x with alloc := false }
      else if before.getLast? = some x then { s.td x with next := some after } else s.td x := by
  cases last : before.getLast? with
  | none => rw [cutGroup_first last, setEd_td, freeTds_td, if_neg (nofun : ¬ none = some x)]
  | some p =>
    have out := disjoint p last
    rw [cutGroup_after last, freeTds_td, if_neg out]
    by_cases h : x = p
    · rw [h, setTd_td_self, if_neg out, if_pos rfl]
    · rw [setTd_td_ne _ h, freeTds_td, if_neg fun (no : some p = some x) => h (Option.some.inj no).symm]

theorem cutGroup_indexed (x : Nat) :
    (s.cutGroup e before gone after).indexed x = if x ∈ gone then false else s.indexed x := by
  cases last : before.getLast? with
  | none => rw [cutGroup_first last, setEd_indexed, freeTds_indexed]
  | some p => rw [cutGroup_after last, setTd_indexed, freeTds_indexed]

theorem cutGroup_params : (s.cutGroup e before gone after).params = s.params := by
  obtain ⟨a, b, c, cut⟩ := cutGroup_shape s e before gone after
  rw [cut]

theorem cutGroup_sched : (s.cutGroup e before gone after).sched = s.sched := by
  obtain ⟨a, b, c, cut⟩ := cutGroup_shape s e before gone after
  rw [cut]

theorem cutGroup_mem : (s.cutGroup e before gone after).mem = s.mem := by
  obtain ⟨a, b, c, cut⟩ := cutGroup_shape s e before gone after
  rw [cut]

end

/-- Beside the accesses the group taken off is the same. -/
theorem Quietly.cutGroup (q : Quietly s t) (e : Nat) (before gone : List Nat) (after : Nat) :
    Quietly (s.cutGroup e before gone after) (t.cutGroup e before gone after) := by
  have same := q.tables.cutGroup e before gone after
  obtain ⟨a, b, c, cut⟩ := cutGroup_shape s e before gone after
  obtain ⟨a', b', c', cut'⟩ := cutGroup_shape t e before gone after
  rw [cut, cut'] at same ⊢
  obtain ⟨_, rfl, rfl, rfl, _⟩ := same
  obtain ⟨m, k, q, rfl⟩ := q
  exact ⟨m, k, q, rfl⟩

/-! ### The queue -/

/-- Where a chain begins. -/
theorem chain_start {l : List Nat} {a b : Nat} (h : Chain s a l b) : (l ++ [b]).head? = some a := by
  cases l with
  | nil => exact congrArg some h.symm
  | cons x l => exact congrArg some h.1.symm

section
variable (queue : s.queueIs e (before ++ gone ++ rest)) (follows : (rest ++ [(s.ed e).tail]).head? = some after)
include queue

/-- The parts of the queue and its placeholder share no TD. -/
theorem queue_parts : (before ++ (gone ++ (rest ++ [(s.ed e).tail]))).Nodup := by
  have once := queue.once
  rwa [List.append_assoc, List.append_assoc] at once

theorem parts_length_le : before.length + gone.length ≤ s.params.ntd := by
  have := queue.length_le
  simp only [List.length_append] at this
  omega

theorem gone_not_before {x : Nat} (hx : x ∈ gone) : x ∉ before := fun no =>
  List.disjoint_of_nodup_append (queue_parts queue) no (List.mem_append_left _ hx)

theorem gone_not_after {x : Nat} (hx : x ∈ gone) : x ∉ rest ++ [(s.ed e).tail] := fun no =>
  List.disjoint_of_nodup_append (List.nodup_append.1 (queue_parts queue)).2.1 hx no

theorem last_not_gone (x : Nat) (hx : before.getLast? = some x) : x ∉ gone := fun no =>
  gone_not_before queue no (List.mem_of_getLast? hx)

include follows

/-- The group is cut out of the queue (10_state.md R42 (b)). -/
theorem cutGroup_cut : Cut s (s.cutGroup e before gone after) e before gone rest := by
  have td := cutGroup_td s e before gone after (last_not_gone queue)
  have ed := cutGroup_ed s e before gone after
  have next : ∀ x, before.getLast? ≠ some x → ((s.cutGroup e before gone after).td x).next = (s.td x).next :=
    fun x no => by
      rw [td, if_neg no]
      split <;> rfl
  obtain ⟨c, first, behind⟩ := chain_split queue.chain
  obtain ⟨b, toGone, overGone⟩ := chain_split first
  obtain rfl : c = after := Option.some.inj ((chain_start behind).symm.trans follows)
  have behind : Chain (s.cutGroup e before gone c) c rest (s.ed e).tail := chain_congr (fun x hx => next x fun last =>
    List.disjoint_of_nodup_append (queue_parts queue) (List.mem_of_getLast? last)
      (List.mem_append_right _ (List.mem_append_left _ hx))) behind
  refine ⟨cutGroup_params .., fun x ne => by rw [ed, if_neg fun h => ne h.1], ?_, ?_, ?_, fun x hx => by rw [td, if_pos hx],
    fun x hx => ?_, fun x hx => ?_, cutGroup_indexed s e before gone c⟩
  · rw [ed]
    split <;> rfl
  · rw [ed]
    split <;> rfl
  · rcases List.eq_nil_or_concat' before with rfl | ⟨l, p, rfl⟩
    · rw [ed, if_pos ⟨rfl, rfl⟩]
      exact behind
    · have last : (l ++ [p]).getLast? = some p := by simp
      have pl : p ∉ l := fun hm => List.disjoint_of_nodup_append
        (List.nodup_append.1 (queue_parts queue)).1 hm (List.mem_singleton_self p)
      rw [ed, if_neg (by simp)]
      refine chain_append (chain_redirect toGone pl (fun x ne => next x ?_) ?_) behind
      · rw [last]
        exact fun h => ne (Option.some.inj h).symm
      · rw [td, if_neg (last_not_gone queue p last), if_pos last]
  · rw [td, if_neg hx]
    split <;> exact ⟨rfl, rfl, rfl⟩
  · have out := not_or.1 (mt List.mem_append.2 hx)
    rw [td, if_neg out.2, if_neg fun last => out.1 (List.mem_of_getLast? last)]

theorem queueIs_cut (shape : s.shape) (alloc : (s.ed e).alloc = true) :
    (s.cutGroup e before gone after).queueIs e (before ++ rest) := by
  have cut := cutGroup_cut queue follows
  obtain ⟨q, queue', _⟩ := (cut.confinedTo shape alloc queue).own (cut.alloc.trans alloc)
  have last : (s.ed e).tail ∉ q := fun hm =>
    List.disjoint_of_nodup_append queue'.once hm (by rw [cut.tail]; exact List.mem_singleton_self _)
  have out : (s.ed e).tail ∉ before ++ rest := fun hm => by
    refine List.disjoint_of_nodup_append queue.once ?_ (List.mem_singleton_self _)
    rcases List.mem_append.1 hm with hm | hm
    · exact List.mem_append_left _ (List.mem_append_left _ hm)
    · exact List.mem_append_right _ hm
  have chain := queue'.chain
  rw [cut.tail] at chain
  rwa [chain_unique cut.chain out chain last]

end

/-! ### The HC's list -/

/-- A suffix that holds an element of the first part begins there. -/
theorem suffix_begins {B M R L : List Nat} (same : R ++ L = B ++ M) (once : (B ++ M).Nodup) {x : Nat} (hx : x ∈ L)
    (hb : x ∈ B) : ∃ w ∈ B, L.head? = some w := by
  have apart := List.disjoint_of_nodup_append once
  rcases List.append_eq_append_iff.1 same with ⟨c, rfl, rfl⟩ | ⟨c, rfl, rfl⟩
  · cases c with
    | nil => exact absurd hx (apart hb)
    | cons w c => exact ⟨w, by simp, rfl⟩
  · exact absurd (List.mem_append_right c hx) (apart hb)

/-- A suffix that begins in the middle part holds the whole last part. -/
theorem suffix_of_begins {B G M R L : List Nat} (same : R ++ L = B ++ (G ++ M)) (once : (B ++ (G ++ M)).Nodup) {w : Nat}
    (hw : L.head? = some w) (hg : w ∈ G) : ∃ a, (∀ x ∈ a, x ∈ G) ∧ L = a ++ M := by
  have apart := List.disjoint_of_nodup_append once
  have apart' := List.disjoint_of_nodup_append (List.nodup_append.1 once).2.1
  rcases List.append_eq_append_iff.1 same with ⟨c, rfl, rfl⟩ | ⟨c, rfl, rest⟩
  · cases c with
    | nil => exact ⟨G, fun _ h => h, rfl⟩
    | cons y c =>
      cases hw
      exact absurd (List.mem_append_left M hg) (apart (by simp))
  · rcases List.append_eq_append_iff.1 rest with ⟨d, rfl, rfl⟩ | ⟨d, rfl, rfl⟩
    · exact absurd (List.mem_append_right d (List.mem_of_head? hw)) (apart' hg)
    · exact ⟨d, fun x hx => List.mem_append_right c hx, rfl⟩

theorem filter_notMem_self {l G : List Nat} (h : ∀ x ∈ l, x ∉ G) : l.filter (· ∉ G) = l :=
  List.filter_eq_self.2 fun x hx => decide_eq_true (h x hx)

theorem filter_notMem_nil {l G : List Nat} (h : ∀ x ∈ l, x ∈ G) : l.filter (· ∉ G) = [] :=
  List.filter_eq_nil_iff.2 fun x hx => by simpa using h x hx

/-- Without the middle part a suffix begins where it did, or where it began in that part with the last. -/
theorem head?_filter_suffix {B G M R L : List Nat} (same : R ++ L = B ++ (G ++ M)) (once : (B ++ (G ++ M)).Nodup)
    {w : Nat} (hw : L.head? = some w) : (L.filter (· ∉ G)).head? = if w ∈ G then M.head? else some w := by
  split
  · rename_i inside
    obtain ⟨a, sub, rfl⟩ := suffix_of_begins same once hw inside
    have apart := List.disjoint_of_nodup_append (List.nodup_append.1 once).2.1
    rw [List.filter_append, filter_notMem_nil sub, List.nil_append, filter_notMem_self fun x hx no => apart no hx]
  · rename_i outside
    cases L with
    | nil => cases hw
    | cons y L =>
      cases hw
      simp [outside]

/-- Where the HC stands: the address in `HeadP` (42_transfer.md R310). -/
def State.headPointer (s : State) (e : Nat) : Word := ptrOf (s.physRead (edHeadAddr s.params e))

/-- The TD whose `NextTD` an abort rewrites: the last before the group, where the HC stands before the group (42_transfer.md
R312). -/
def State.relinksTd (s : State) (e : Nat) (before gone : List Nat) (x : Nat) : Prop :=
  s.headPointer e ∉ gone.map (tdAddr s.params) ∧ s.headPointer e ∈ before.map (tdAddr s.params) ∧
    before.getLast? = some x

theorem mem_map_tdAddr {p : Params} (g : p.Good) {x : Nat} {l : List Nat} (hx : x < p.ntd) (hl : ∀ y ∈ l, y < p.ntd) :
    tdAddr p x ∈ l.map (tdAddr p) ↔ x ∈ l := by
  refine ⟨fun h => ?_, List.mem_map_of_mem⟩
  obtain ⟨y, hy, same⟩ := List.mem_map.1 h
  exact tdAddr_inj g (hl y hy) hx same ▸ hy

/-- The HC's list after a group is cut out: `HeadP` leads past the group where it pointed into it, the `NextTD` before the
group where the HC has yet to pass it, and nothing else of the list has changed (42_transfer.md R312). -/
theorem hardwareAgrees_cut (g : s.params.Good) (shape : s.shape) (alloc : (s.ed e).alloc = true)
    (queue : s.queueIs e (before ++ gone ++ rest)) (follows : (rest ++ [(s.ed e).tail]).head? = some after)
    (tables : SameTables (s.cutGroup e before gone after) u)
    (head : u.headPointer e =
      if s.headPointer e ∈ gone.map (tdAddr s.params) then tdAddr s.params after else s.headPointer e)
    (linked : ∀ x, s.relinksTd e before gone x → u.physRead (tdAddr s.params x + 8#32) = tdAddr s.params after)
    (kept : ∀ x < s.params.ntd, ¬ s.relinksTd e before gone x →
      u.physRead (tdAddr s.params x + 8#32) = s.physRead (tdAddr s.params x + 8#32))
    (tail : u.physRead (edTailAddr s.params e) = s.physRead (edTailAddr s.params e))
    {retired waiting : List Nat} (agree : s.hardwareAgrees e retired waiting) :
    u.hardwareAgrees e (retired.filter (· ∉ gone)) (waiting.filter (· ∉ gone)) := by
  have cut := cutGroup_cut queue follows
  have params : u.params = s.params := tables.params.trans cut.params
  have tailU : (u.ed e).tail = (s.ed e).tail := by rw [tables.ed, cut.tail]
  have once := queue_parts queue
  have known : ∀ x ∈ before ++ (gone ++ (rest ++ [(s.ed e).tail])), x < s.params.ntd := fun x hx =>
    (queue.owned x (by rwa [List.append_assoc, List.append_assoc])).1
  have same : retired ++ (waiting ++ [(s.ed e).tail]) = before ++ (gone ++ (rest ++ [(s.ed e).tail])) := by
    rw [← List.append_assoc, queueIs_unique agree.queue queue, List.append_assoc, List.append_assoc]
  -- the first TD the HC has not retired, or the placeholder
  obtain ⟨w, hw⟩ : ∃ w, (waiting ++ [(s.ed e).tail]).head? = some w := Option.isSome_iff_exists.1 (by simp)
  have stands : s.headPointer e = tdAddr s.params w := agree.head w hw
  have known_w : w < s.params.ntd := known w (same ▸ List.mem_append_right retired (List.mem_of_head? hw))
  have inGone : s.headPointer e ∈ gone.map (tdAddr s.params) ↔ w ∈ gone := by
    rw [stands]
    exact mem_map_tdAddr g known_w fun y hy => known y (by simp [hy])
  have inBefore : s.headPointer e ∈ before.map (tdAddr s.params) ↔ w ∈ before := by
    rw [stands]
    exact mem_map_tdAddr g known_w fun y hy => known y (by simp [hy])
  have td : ∀ x, x ∉ gone → (u.td x).finished = (s.td x).finished := fun x hx => by
    rw [tables.td]
    exact (cut.kept x hx).2.2
  refine ⟨?_, fun x hx => ?_, fun x hx => ?_, fun x hx nx next => ?_, by rw [params, tail, tailU]; exact agree.tail⟩
  · rw [← List.filter_append, queueIs_unique agree.queue queue, List.filter_append, List.filter_append,
      filter_notMem_self fun x hx no => gone_not_before queue no hx, filter_notMem_nil fun _ hx => hx,
      filter_notMem_self fun x hx no => gone_not_after queue no (List.mem_append_left _ hx), List.append_nil]
    exact tables.queueIs (queueIs_cut queue follows shape alloc)
  · obtain ⟨hx, out⟩ := List.mem_filter.1 hx
    rw [td x (of_decide_eq_true out)]
    exact agree.unfinished x hx
  · have tailKept : (s.ed e).tail ∉ gone := fun hm => gone_not_after queue hm (by simp)
    have last : [(s.ed e).tail].filter (· ∉ gone) = [(s.ed e).tail] :=
      filter_notMem_self fun x hx => List.mem_singleton.1 hx ▸ tailKept
    rw [tailU, ← last, ← List.filter_append, head?_filter_suffix same once hw, follows] at hx
    change u.headPointer e = _
    rw [head, params]
    split at hx
    · rename_i inside
      rw [if_pos (inGone.2 inside), Option.some.inj hx]
    · rename_i outside
      rw [if_neg (mt inGone.1 outside), stands, Option.some.inj hx]
  · obtain ⟨hx, out⟩ := List.mem_filter.1 hx
    have out := of_decide_eq_true out
    rw [tables.td, cutGroup_td s e before gone after (last_not_gone queue), if_neg out] at next
    have small : x < s.params.ntd := (agree.queue.owned x (by simp [hx])).1
    rw [params]
    split at next
    · rename_i last
      obtain ⟨w', hw', first'⟩ := suffix_begins same once (List.mem_append_left _ hx) (List.mem_of_getLast? last)
      cases hw.symm.trans first'
      rw [linked x ⟨fun no => gone_not_before queue (inGone.1 no) hw', inBefore.2 hw', last⟩, ← Option.some.inj next]
    · rename_i last
      rw [kept x small fun no => last no.2.2, agree.next x hx nx next]

end Sys2Proof.Machine
end

section
/-! SUPPORT. Accesses that the transfer commands put together otherwise than an `RMW` does, while no other agent moves: a slot
read back after an invalidate, a fresh word written, and `CLEAR_HALT` word by word (42_transfer.md R305, R310, 40_endpoint.md
R218). -/

namespace Sys2Proof.Machine

variable {s t u : State}

/-! ### Reading -/

theorem inval_fresh (g : s.params.Good) (alone : s.sched = []) {a : Word} {n b : Nat}
    (hl : rangeLines s.params a.toNat n = [b]) : ∃ t, inval a n s = .ok ⟨⟩ t ∧ Quietly s t ∧ t.mem = s.mem ∧
      ∀ x, lineBase s.params x = b → t.view x = loadByte s.mem x ∧ t.pending x = false := by
  obtain ⟨k, q, run, view, pending, _⟩ := inval_quiet g alone hl
  refine ⟨_, run, ⟨s.mem, k, q, rfl⟩, rfl, fun x hx => ⟨by rw [view, if_pos hx], ?_⟩⟩
  rw [pending, decide_eq_false (not_not.2 hx), Bool.false_and]

/-- After an invalidate of a TD's slot the block sees its words as memory holds them (44_coherence.md R404). -/
theorem inval_slot (g : s.params.Good) (alone : s.sched = []) {x : Nat} (hx : x < s.params.ntd) :
    ∃ t, inval (tdAddr s.params x) 16 s = .ok ⟨⟩ t ∧ Quietly s t ∧ t.mem = s.mem ∧
      ∀ k : Word, k.toNat % 4 = 0 → k.toNat < 16 →
        t.holds (tdAddr s.params x + k) (s.physRead (tdAddr s.params x + k)) := by
  obtain ⟨t, run, q, mem, fresh⟩ := inval_fresh g alone (rangeLines_slot g (g.tdAddr_slot x))
  have params : t.params = s.params := q.tables.params
  refine ⟨t, run, q, mem, fun k aligned small => ?_⟩
  have word := tdWord_aligned g hx aligned small
  have phys : t.physRead (tdAddr s.params x + k) = s.physRead (tdAddr s.params x + k) := by rw [State.physRead, mem]; rfl
  refine ⟨phys, (cacheLoad_of_view (params ▸ g) word fun y h1 h2 => ?_).trans phys⟩
  rw [mem]
  exact (fresh y ((lineBase_byte g word ⟨h1, h2⟩).trans (slotWord_line g (g.tdAddr_slot x) small))).1

/-- A read of a word that memory and the block agree on. -/
theorem memRead_held (g : s.params.Good) (alone : s.sched = []) {a v : Word} (held : s.holds a v) :
    ∃ t, memRead a s = .ok v t ∧ Quietly s t ∧ t.mem = s.mem ∧
      ∀ b w, b.toNat % 4 = 0 → s.holds b w → t.holds b w := by
  obtain ⟨k, q, run, _⟩ := memRead_quiet alone a
  obtain ⟨_, t, run', _, words⟩ := memRead_words g alone a
  cases run.symm.trans run'
  rw [held.2] at run
  exact ⟨_, run, ⟨s.mem, k, q, rfl⟩, rfl, fun b w hb h => ⟨(words b hb).1.trans h.1, (words b hb).2.trans h.2⟩⟩

/-- A word read after an invalidate of its line, which is then as memory has it. -/
theorem inval_memRead_fresh (g : s.params.Good) (alone : s.sched = []) {a : Word} (ha : a.toNat % 4 = 0) :
    ∃ t u, inval a 4 s = .ok ⟨⟩ t ∧ memRead a t = .ok (s.physRead a) u ∧ Quietly s u ∧ u.mem = s.mem ∧
      u.fresh a.toNat := by
  obtain ⟨t, run, q, mem, fresh⟩ := inval_fresh g alone (rangeLines_word g ha)
  obtain ⟨k, q', run', view, pending⟩ := memRead_quiet (q.sched.trans alone) a
  have word : t.cacheLoad a = s.physRead a := by
    rw [cacheLoad_of_view (q.tables.params ▸ g) ha fun x h1 h2 => ?_, State.physRead, mem]
    · rfl
    · rw [mem]
      exact (fresh x (lineBase_byte g ha ⟨h1, h2⟩)).1
  rw [word] at run'
  refine ⟨t, _, run, run', q.trans ⟨t.mem, k, q', rfl⟩, mem, fun x hx => ?_⟩
  have line : lineBase s.params x = lineBase s.params a.toNat := by rw [← q.tables.params]; exact hx
  rw [view, pending]
  exact ⟨(fresh x line).1.trans (by rw [← mem]), (fresh x line).2⟩

/-! ### Writing -/

/-- Freshness is a matter of parameters, memory and cache. -/
theorem State.fresh.congr {a : Nat} (h : s.fresh a) (params : t.params = s.params) (mem : t.mem = s.mem)
    (cache : t.cache = s.cache) : t.fresh a := fun x hx => by
  rw [view_congr params mem cache, pending_congr params cache, mem]
  exact h x (by rw [← params]; exact hx)

/-- A word written into a fresh line and flushed: no other byte of memory changes. -/
theorem publish_fresh (g : s.params.Good) (alone : s.sched = []) {a : Word} (ha : a.toNat % 4 = 0) (fresh : s.fresh a.toNat)
    (v : Word) : ∃ t, (do memWrite a v; flush a 4 : Cmd Unit) s = .ok ⟨⟩ t ∧ Quietly s t ∧ t.physRead a = v ∧
      ∀ x, inWord a x = false → loadByte t.mem x = loadByte s.mem x := by
  obtain ⟨s', write, S⟩ := (Staged.refl s (lineBase s.params a.toNat)).write g alone ha rfl v
  obtain ⟨m, k, q, run, _, _, published, _⟩ := S.publish g alone (lineBase_mod _ _) (rangeLines_word g ha)
  obtain ⟨bytes, _⟩ := published fun x hx => fresh x (hx.trans (lineBase_self g.line_pos (lineBase_mod _ _)))
  have stored : ∀ x, loadByte m x = loadByte (store32 s.mem a.toNat v) x := fun x => by
    rw [bytes, loadByte_store32_eq, wordOver]
    split <;> rfl
  exact ⟨_, (run_bind_ok write).trans run, ⟨m, k, q, rfl⟩,
    (load32_congr fun x _ _ => stored x).trans (load32_store32_self ..),
    fun x hx => (stored x).trans (loadByte_store32_outside _ hx _)⟩

/-- `CLEAR_HALT(e, 0)`: `H` and `K` are cleared, and no other byte of memory changes (40_endpoint.md R218). -/
theorem clearHalt_words (g : s.params.Good) (alone : s.sched = []) {e : Nat} (he : e < s.params.ned) :
    ∃ t, clearHalt e false s = .ok ⟨⟩ t ∧ Quietly s t ∧
      t.physRead (edHeadAddr s.params e) = clearHaltBit (s.physRead (edHeadAddr s.params e)) ∧
      t.physRead (edControlAddr s.params e) = clearSkip (s.physRead (edControlAddr s.params e)) ∧
      ∀ x, inWord (edControlAddr s.params e) x = false → inWord (edHeadAddr s.params e) x = false →
        loadByte t.mem x = loadByte s.mem x := by
  obtain ⟨m, k, q, run, bytes⟩ := clearHalt_quiet g alone he.le false
  have apart : (edHeadAddr s.params e).toNat = (edControlAddr s.params e).toNat + 8 :=
    g.edWord_toNat he.le 8#32 (by have := g.line_ge; simp; omega)
  refine ⟨_, run, ⟨m, k, q, rfl⟩, ?_, ?_, fun x hc hh => ?_⟩
  · exact (load32_congr fun x _ _ => bytes x).trans
      ((load32_store32_ne _ (.inr (by omega)) _).trans (load32_store32_self ..))
  · exact (load32_congr fun x _ _ => bytes x).trans (load32_store32_self ..)
  · exact (bytes x).trans ((loadByte_store32_outside _ hc _).trans (loadByte_store32_outside _ hh _))

theorem edTail_ne_edControl (p : Params) (e : Nat) : edTailAddr p e ≠ edControlAddr p e := by
  simp [edTailAddr, edControlAddr]

theorem edTail_ne_edHead (p : Params) (e : Nat) : edTailAddr p e ≠ edHeadAddr p e := by
  simp [edTailAddr, edHeadAddr]

theorem edControl_ne_edHead (p : Params) (e : Nat) : edControlAddr p e ≠ edHeadAddr p e := by
  simp [edControlAddr, edHeadAddr]

theorem tdWord_ne_edControl {p : Params} (g : p.Good) {e x : Nat} (he : e < p.ned) (hx : x < p.ntd) {k : Word}
    (small : k.toNat < 16) : tdAddr p x + k ≠ edControlAddr p e := by
  have apart := slotWords_ne g (g.tdAddr_slot x) (g.edAddr_slot e) (k := k) (k' := 0#32) small (by decide)
    (edSlot_ne_tdSlot g he hx).symm
  rwa [BitVec.add_zero] at apart

theorem tdWord_ne_edHead {p : Params} (g : p.Good) {e x : Nat} (he : e < p.ned) (hx : x < p.ntd) {k : Word}
    (small : k.toNat < 16) : tdAddr p x + k ≠ edHeadAddr p e :=
  slotWords_ne g (g.tdAddr_slot x) (g.edAddr_slot e) small (by decide) (edSlot_ne_tdSlot g he hx).symm

/-- A word that is neither the control word nor `HeadP` keeps its value where only these two have changed. -/
theorem physRead_beside {p : Params} (g : p.Good) {e : Nat} (he : e < p.ned) {a : Word} (ha : a.toNat % 4 = 0)
    (notControl : a ≠ edControlAddr p e) (notHead : a ≠ edHeadAddr p e)
    (bytes : ∀ x, inWord (edControlAddr p e) x = false → inWord (edHeadAddr p e) x = false →
      loadByte t.mem x = loadByte s.mem x) : t.physRead a = s.physRead a :=
  physRead_congr fun x hx => bytes x (decide_eq_false (words_disjoint (edControl_aligned g he) ha notControl hx))
    (decide_eq_false (words_disjoint (edHead_aligned g he) ha notHead hx))

end Sys2Proof.Machine
end

section
/-! SUPPORT. `XFER_COMPLETE` of a finished group while no other agent moves (42_transfer.md R305, R307). -/

namespace Sys2Proof.Machine

variable {s t u v : State} {e after : Nat} {grp : List Nat}

/-! ### The group -/

/-- The walk over a group finds it finished (42_transfer.md R305). -/
theorem checkGroup_finished {tail n t : Nat} (chain : Chain s t grp after) (some_ : grp ≠ []) (fits : grp.length ≤ n)
    (notTail : tail ∉ grp) (finished : ∀ x ∈ grp, (s.td x).finished = true)
    (more : ∀ x ∈ grp.dropLast, (s.td x).more = true) (last : ∀ x, grp.getLast? = some x → (s.td x).more = false) :
    checkGroup s tail n t = some (.finished grp after) := by
  induction grp generalizing n t with
  | nil => exact absurd rfl some_
  | cons x grp ih =>
    obtain ⟨rfl, nx, next, chain⟩ := chain
    obtain ⟨ne, notTail⟩ := List.ne_and_not_mem_of_not_mem_cons notTail
    have go : ¬ (t = tail ∨ (s.td t).finished = false) := by simp [ne.symm, finished t List.mem_cons_self]
    cases n with
    | zero => cases fits
    | succ n =>
      cases grp with
      | nil =>
        cases chain
        simp [checkGroup, go, next, last t rfl]
      | cons y grp =>
        have rest := ih chain (List.cons_ne_nil y grp) (Nat.le_of_succ_le_succ fits) notTail
          (fun z hz => finished z (List.mem_cons_of_mem _ hz))
          (fun z hz => more z (by rw [List.dropLast_cons_of_ne_nil (List.cons_ne_nil y grp)]; exact List.mem_cons_of_mem _ hz))
          fun z hz => last z (by rw [List.getLast?_cons_cons]; exact hz)
        have first : (s.td t).more = true := more t (by simp)
        simp only [checkGroup, if_neg go, next, first, if_true, rest]
        rfl

/-- The bytes a TD has transferred, by what memory holds of it (42_transfer.md R305, R317). -/
def State.transferred (s : State) (x : Nat) : Nat :=
  actualBytes (s.td x).len (s.physRead (tdAddr s.params x + 4#32)) (s.physRead (tdAddr s.params x + 0xC#32))

/-- The second loop adds up what the TDs have transferred and ends with the last one's control word. -/
theorem readGroup_quiet (l : List Nat) (g : s.params.Good) (alone : s.sched = []) (known : ∀ x ∈ l, x < s.params.ntd)
    (total : Nat) (c : Word) : ∃ t, readGroup l total c s = .ok (total + (l.map s.transferred).sum,
        (l.getLast?.map fun x => s.physRead (tdAddr s.params x)).getD c) t ∧ Quietly s t ∧ t.mem = s.mem := by
  induction l generalizing s total c with
  | nil => exact ⟨s, rfl, ⟨s.mem, s.cache, s.seq, rfl⟩, rfl⟩
  | cons x l ih =>
    have hx := known x List.mem_cons_self
    obtain ⟨s₁, run₁, q₁, mem₁, held₁⟩ := inval_slot g alone hx
    have zero := held₁ 0#32 (by decide) (by decide)
    rw [show tdAddr s.params x + 0#32 = tdAddr s.params x from BitVec.add_zero _] at zero
    obtain ⟨s₂, run₂, q₂, mem₂, held₂⟩ := memRead_held (q₁.tables.params ▸ g) (q₁.sched.trans alone) zero
    have q₂ := q₁.trans q₂
    obtain ⟨s₃, run₃, q₃, mem₃, held₃⟩ := memRead_held (q₂.tables.params ▸ g) (q₂.sched.trans alone)
      (held₂ _ _ (tdWord_aligned g hx (by decide) (by decide)) (held₁ 4#32 (by decide) (by decide)))
    have q₃ := q₂.trans q₃
    obtain ⟨s₄, run₄, q₄, mem₄, _⟩ := memRead_held (q₃.tables.params ▸ g) (q₃.sched.trans alone)
      (held₃ _ _ (tdWord_aligned g hx (by decide) (by decide)) (held₂ _ _ (tdWord_aligned g hx (by decide) (by decide))
        (held₁ 0xC#32 (by decide) (by decide))))
    have q₄ := q₃.trans q₄
    have mem : s₄.mem = s.mem := mem₄.trans (mem₃.trans (mem₂.trans mem₁))
    have params : s₄.params = s.params := q₄.tables.params
    have read : ∀ a, s₄.physRead a = s.physRead a := fun a => by rw [State.physRead, mem]; rfl
    have bytes : s₄.transferred = s.transferred := by
      funext y
      simp only [State.transferred, q₄.tables.td, params, read]
    obtain ⟨u, run, q, mem'⟩ := ih (s := s₄) (params ▸ g) (q₄.sched.trans alone)
      (by rw [params]; exact fun y hy => known y (List.mem_cons_of_mem _ hy)) (total + s.transferred x)
      (s.physRead (tdAddr s.params x))
    refine ⟨u, ?_, q₄.trans q, mem'.trans mem⟩
    refine (run_bind_ok (run_get s)).trans ((run_bind_ok run₁).trans ((run_bind_ok run₂).trans ((run_bind_ok run₃).trans
      ((run_bind_ok run₄).trans ((run_bind_ok (run_get s₄)).trans ?_)))))
    rw [q₄.tables.td]
    refine run.trans ?_
    rw [bytes, params, List.map_cons, List.sum_cons, Nat.add_assoc]
    simp only [read]
    cases l with
    | nil => rfl
    | cons y l => rw [List.getLast?_cons_cons, List.getLast?_eq_some_getLast (List.cons_ne_nil y l)]; rfl

/-! ### The body -/

/-- What memory holds of an endpoint's two halt words after a completion of a class (42_transfer.md R305, R307). -/
structure HaltCleared (p : Params) (e : Nat) (s t : State) : Prop where
  head : t.physRead (edHeadAddr p e) = clearHaltBit (s.physRead (edHeadAddr p e))
  control : t.physRead (edControlAddr p e) = clearSkip (s.physRead (edControlAddr p e))
  bytes : ∀ x, inWord (edControlAddr p e) x = false → inWord (edHeadAddr p e) x = false →
    loadByte t.mem x = loadByte s.mem x

theorem xferCompleteBody_completed (g : s.params.Good) (alone : s.sched = []) (valid : s.validEd e = true) {args : Args}
    (owned : s.ownedTd e args.arg0 = some (s.ed e).head)
    (check : checkGroup s (s.ed e).tail s.params.ntd (s.ed e).head = some (.finished grp after))
    (known : ∀ x ∈ grp, x < s.params.ntd) {last : Nat} (hlast : grp.getLast? = some last) {cc : BitVec 4}
    (hcc : ccOf (s.physRead (tdAddr s.params last)) = cc) :
    ∃ v, xferCompleteBody e args s =
        .ok { res0 := (grp.map s.transferred).sum, res1 := (ccClass cc).value, res2 := cc.toNat } v ∧
      Quietly (s.cutGroup e [] grp after) v ∧
      (leavesHalted (ccClass cc) = true → v.mem = s.mem) ∧
      (leavesHalted (ccClass cc) = false → HaltCleared s.params e s v) := by
  obtain ⟨t, run, q, mem⟩ := readGroup_quiet grp g alone known 0 0#32
  rw [hlast, Nat.zero_add] at run
  have body : xferCompleteBody e args s = (do
      if !leavesHalted (ccClass cc) then clearHalt e false
      return { res0 := (grp.map s.transferred).sum, res1 := (ccClass cc).value, res2 := cc.toNat } : Cmd Results)
        (t.cutGroup e [] grp after) := by
    refine (run_bind_ok (run_checkEd_ok valid)).trans ((run_bind_ok (run_get s)).trans ?_)
    simp only [owned, ne_eq, not_true_eq_false, if_false, check]
    refine (run_bind_ok (run_orStop_some ..)).trans ((run_bind_ok run).trans ((run_bind_ok (run_modify _ t)).trans ?_))
    rw [cutGroup_first rfl, freeTds_ed]
    simp only [Option.map_some, Option.getD_some, hcc]
  have cutQ := q.cutGroup e [] grp after
  rw [body]
  by_cases halted : leavesHalted (ccClass cc) = true
  · refine ⟨_, ?_, cutQ, fun _ => ?_, fun no => absurd halted (Bool.eq_false_iff.1 no)⟩
    · rw [halted]
      rfl
    · rw [cutGroup_mem, mem]
  · have he := lt_of_validEd valid
    have params : (t.cutGroup e [] grp after).params = s.params := (cutGroup_params ..).trans q.tables.params
    have mem' : (t.cutGroup e [] grp after).mem = s.mem := (cutGroup_mem ..).trans mem
    obtain ⟨v, run, q', head, control, bytes⟩ := clearHalt_words (s := t.cutGroup e [] grp after) (params ▸ g)
      (cutQ.sched.trans (by rw [cutGroup_sched]; exact alone)) (e := e) (params ▸ he)
    rw [params] at head control bytes
    refine ⟨v, ?_, cutQ.trans q', fun no => absurd no halted, fun _ => ⟨?_, ?_, fun x h1 h2 => ?_⟩⟩
    · rw [Bool.eq_false_iff.2 halted]
      exact run_bind_ok run
    · rw [head, State.physRead, mem']
      rfl
    · rw [control, State.physRead, mem']
      rfl
    · rw [bytes x h1 h2, mem']

/-! ### The HC's list -/

theorem ptrOf_clearHaltBit (w : Word) : ptrOf (clearHaltBit w) = ptrOf w := BitVec.and_assoc ..

/-- Where the HC has retired the TDs of the group they come first among those it has retired. -/
theorem filter_retired {grp rest retired waiting : List Nat} (same : retired ++ waiting = grp ++ rest)
    (apart : ∀ x ∈ waiting, x ∉ grp) (once : (grp ++ rest).Nodup) :
    retired.filter (· ∉ grp) = retired.drop grp.length ∧ waiting.filter (· ∉ grp) = waiting := by
  refine ⟨?_, filter_notMem_self apart⟩
  obtain ⟨c, rfl, rfl⟩ : ∃ c, retired = grp ++ c ∧ rest = c ++ waiting := by
    rcases List.append_eq_append_iff.1 same with ⟨c, rfl, rfl⟩ | both
    · cases c with
      | nil => exact ⟨[], by simp, rfl⟩
      | cons x c => exact absurd (by simp) (apart x (by simp))
    · exact both
  have later : ∀ x ∈ c, x ∉ grp := fun x hx no => List.disjoint_of_nodup_append once no (List.mem_append_left _ hx)
  rw [List.filter_append, filter_notMem_nil fun _ hx => hx, filter_notMem_self later, List.drop_left, List.nil_append]

/-- The HC has passed a finished group: the rest of its list stays as it is. -/
theorem hardwareAgrees_completed {rest retired waiting : List Nat} (g : s.params.Good) (shape : s.shape)
    (alloc : (s.ed e).alloc = true) (queue : s.queueIs e (grp ++ rest))
    (follows : (rest ++ [(s.ed e).tail]).head? = some after) (finished : ∀ x ∈ grp, (s.td x).finished = true)
    (tables : SameTables (s.cutGroup e [] grp after) u) (head : u.headPointer e = s.headPointer e)
    (kept : ∀ x < s.params.ntd, u.physRead (tdAddr s.params x + 8#32) = s.physRead (tdAddr s.params x + 8#32))
    (tail : u.physRead (edTailAddr s.params e) = s.physRead (edTailAddr s.params e))
    (agree : s.hardwareAgrees e retired waiting) : u.hardwareAgrees e (retired.drop grp.length) waiting := by
  have apart : ∀ x ∈ waiting, x ∉ grp := fun x hx no => by cases (finished x no).symm.trans (agree.unfinished x hx)
  obtain ⟨dropped, left⟩ := filter_retired (queueIs_unique agree.queue queue) apart (List.nodup_append.1 queue.once).1
  have passed : s.headPointer e ∉ grp.map (tdAddr s.params) := by
    obtain ⟨w, hw⟩ : ∃ w, (waiting ++ [(s.ed e).tail]).head? = some w := Option.isSome_iff_exists.1 (by simp)
    have member := List.mem_of_head? hw
    rw [show s.headPointer e = tdAddr s.params w from agree.head w hw, mem_map_tdAddr g
      (agree.queue.owned w (by rw [List.append_assoc]; exact List.mem_append_right _ member)).1
      fun y hy => (queue.owned y (by simp [hy])).1]
    rcases List.mem_append.1 member with member | member
    · exact apart w member
    · rw [List.mem_singleton.1 member]
      exact fun no => gone_not_after (before := []) queue no (by simp)
  rw [← dropped, ← left]
  exact hardwareAgrees_cut (before := []) g shape alloc queue follows tables (by rw [if_neg passed, head])
    (fun x no => nomatch no.2.1) (fun x hx _ => kept x hx) tail agree

/-! ### The end of the command -/

/-- Three results, of which the first may need more bits than its register has (log 8). -/
theorem finish_results {r : Results} (h1 : r.res1 < 2 ^ 32) (h2 : r.res2 < 2 ^ 32) (t : State) : finish (.ok r t) =
    .next { t.endedOk (resultWord t.draws 0 r.res0) (BitVec.ofNat 32 r.res1) (BitVec.ofNat 32 r.res2) with
      seq := .idle, draws := if r.res0 < 2 ^ 32 then t.draws else t.draws + 1 } := by
  simp only [finish, State.endOk, State.writeResults, resultWord_fits h1, resultWord_fits h2, h1, h2, and_true]
  rfl

theorem leavesHalted_iff {c : CcClass} : leavesHalted c = true ↔ c = .io ∨ c = .stall := by
  simp [leavesHalted]

/-- Settles O51: `xferCompleteBody_completed` at the state in which the command begins, the HC's list by
`hardwareAgrees_completed`. -/
theorem xferCompleteCompletes : Obligations.XferCompleteCompletes := by
  intro ctx e after last grp s quiet legal started ok valid group hlast arg p total cc halted c h
  have g : p.Good := Params.legal_good legal
  have he : e < p.ned := lt_of_validEd valid
  have alloc := alloc_of_validEd valid
  obtain ⟨q, queue⟩ := ok.shaped e alloc
  obtain ⟨rest, rfl, behind⟩ := chain_prefix queue.chain group.chain group.notTail
  have known : ∀ x ∈ grp, x < p.ntd := fun x hx => (queue.owned x (by simp [hx])).1
  have fits : grp.length ≤ p.ntd := (Nat.le_add_left _ _).trans (parts_length_le (before := []) queue)
  have headOwned : (s.ed e).head ∈ grp ++ rest ++ [(s.ed e).tail] := List.mem_of_head? (chain_start queue.chain)
  obtain ⟨headKnown, headAlloc, headOwner⟩ := queue.owned _ headOwned
  obtain ⟨w, hw⟩ : ∃ w, w = encode (.xferComplete ctx e) := ⟨_, rfl⟩
  have owned : (s.begun w).ownedTd e s.args.arg0 = some (s.ed e).head := by
    rw [show s.args.arg0 = _ from arg]
    exact ownedTd_ofNat (s := s.begun w) g headKnown headAlloc headOwner
  have check : checkGroup (s.begun w) (s.ed e).tail p.ntd (s.ed e).head = some (.finished grp after) :=
    (checkGroup_congr (s := s) (s' := s.begun w) rfl _ _ _).trans
      (checkGroup_finished group.chain group.nonempty fits group.notTail group.finished group.more group.last)
  obtain ⟨v, run, shape, kept, cleared⟩ := xferCompleteBody_completed (s := s.begun w) g quiet.2 valid owned check known
    hlast (cc := cc) rfl
  obtain ⟨u, hu⟩ : ∃ u, u = ({ v.endedOk (resultWord v.draws 0 total) (BitVec.ofNat 32 (ccClass cc).value)
    (BitVec.ofNat 32 cc.toNat) with seq := .idle, draws := if total < 2 ^ 32 then v.draws else v.draws + 1 } : State) :=
    ⟨_, rfl⟩
  have begun : SameTables s (s.begun w) := .other
  have tables : SameTables (s.cutGroup e [] grp after) u :=
    (begun.cutGroup e [] grp after).trans (shape.tables.trans (hu ▸ .other))
  have draws : v.draws = s.draws := by
    obtain ⟨_, _, _, cut⟩ := cutGroup_shape (s.begun w) e [] grp after
    obtain ⟨m, k, q, rfl⟩ := shape
    rw [cut]
    rfl
  have mem : u.mem = v.mem := by rw [hu]; rfl
  have kept : halted → ∀ x, loadByte u.mem x = loadByte s.mem x := fun is x => by
    rw [mem, kept (leavesHalted_iff.2 is)]
    rfl
  have cleared : ¬ halted → HaltCleared p e s u := fun no => by
    obtain ⟨head, control, bytes⟩ := cleared (Bool.eq_false_iff.2 (mt leavesHalted_iff.1 no))
    exact ⟨by rw [State.physRead, mem]; exact head, by rw [State.physRead, mem]; exact control,
      fun x h1 h2 => by rw [mem]; exact bytes x h1 h2⟩
  refine ⟨u, ?_, ?_, fun small => ?_, fun x => ?_, fun x => ?_, fun x => ?_, kept, fun no => ?_,
    fun retired waiting agree => ?_⟩
  · have class_ := ccClass_value_le cc
    rw [exec_quiet_body (i := .xferComplete ctx e) quiet.1 quiet.2 started rfl, bodyOf, ← hw, run, hu]
    exact finish_results (r := { res0 := total, res1 := (ccClass cc).value, res2 := cc.toNat }) (by dsimp only; omega)
      (cc.isLt.trans (by decide)) v
  · obtain ⟨_, _, _, cut⟩ := cutGroup_shape (s.begun w) e [] grp after
    obtain ⟨m, k, q, rfl⟩ := shape
    rw [hu, cut, ← quiet.1, BitVec.ofNat_toNat]
    rfl
  · rw [hu]
    exact ⟨resultWord_fits small .., (if_pos small).trans draws⟩
  · rw [tables.ed, cutGroup_ed]
    simp
  · rw [tables.td, cutGroup_td s e [] grp after nofun]
    simp
  · rw [tables.indexed, cutGroup_indexed]
  · obtain ⟨head, control, bytes⟩ := cleared no
    exact ⟨head, control, bytes⟩
  · have beside : ∀ a : Word, a.toNat % 4 = 0 → a ≠ c → a ≠ h → u.physRead a = s.physRead a := fun a aligned notC notH => by
      by_cases is : halted
      · exact physRead_congr fun x _ => kept is x
      · exact physRead_beside g he aligned notC notH (cleared is).bytes
    have stands : u.headPointer e = s.headPointer e := by
      rw [State.headPointer, State.headPointer, tables.params.trans (cutGroup_params ..)]
      by_cases is : halted
      · rw [physRead_congr fun x _ => kept is x]
      · exact (congrArg ptrOf (cleared is).head).trans (ptrOf_clearHaltBit _)
    refine hardwareAgrees_completed g ok.shape alloc queue (chain_start behind) group.finished tables stands
      (fun x hx => ?_) ?_ agree
    · exact beside _ (tdWord_aligned g hx (by decide) (by decide)) (tdWord_ne_edControl g he hx (by decide))
        (tdWord_ne_edHead g he hx (by decide))
    · exact beside _ (edTail_aligned g he) (edTail_ne_edControl p e) (edTail_ne_edHead p e)

end Sys2Proof.Machine
end

section
/-! SUPPORT. `XFER_ABORT` of what is left of a transfer while no other agent moves (42_transfer.md R310 to R313). -/

namespace Sys2Proof.Machine

variable {s u : State} {e t after : Nat} {before gone grp rest : List Nat}

/-! ### The walks -/

/-- The walk over a transfer ends behind its last TD (42_transfer.md R310). -/
theorem walkGroup_of_chain {tail n : Nat} (chain : Chain s t gone after) (some_ : gone ≠ []) (fits : gone.length ≤ n)
    (notTail : tail ∉ gone) (more : ∀ x ∈ gone.dropLast, (s.td x).more = true)
    (last : after = tail ∨ ∀ x, gone.getLast? = some x → (s.td x).more = false) :
    walkGroup s tail n t = some (gone, after) := by
  induction gone generalizing n t with
  | nil => exact absurd rfl some_
  | cons x l ih =>
    obtain ⟨rfl, nx, next, chain⟩ := chain
    obtain ⟨ne, notTail⟩ := List.ne_and_not_mem_of_not_mem_cons notTail
    cases n with
    | zero => cases fits
    | succ n =>
      rw [walkGroup, if_neg ne.symm, next]
      cases l with
      | nil =>
        cases chain
        rcases last with rfl | last
        · cases n <;> simp [walkGroup]
        · simp [last t rfl]
      | cons y l =>
        have first : (s.td t).more = true := more t (by simp)
        have behind := ih chain (List.cons_ne_nil y l) (Nat.le_of_succ_le_succ fits) notTail
          (fun z hz => more z (by rw [List.dropLast_cons_of_ne_nil (List.cons_ne_nil y l)]; exact List.mem_cons_of_mem _ hz))
          (last.imp_right fun last z hz => last z (by rw [List.getLast?_cons_cons]; exact hz))
        simp [first, behind]

section
variable (queue : s.queueIs e (before ++ t :: grp ++ rest))
include queue

/-- The walk from the head of the queue finds the TD (42_transfer.md R310). -/
theorem before_found : s.before e t = some (some before) := by
  obtain ⟨_, first, _⟩ := chain_split queue.chain
  obtain ⟨b, toGone, overGone⟩ := chain_split first
  obtain rfl : b = t := overGone.1
  have parts := queue_parts queue
  have fits : before.length ≤ s.params.ntd := (Nat.le_add_right _ _).trans (parts_length_le queue)
  have notYet : ∀ x ∈ before, (x == (s.ed e).tail || x == b) = false := fun x hx => by
    have ne : ∀ y ∈ b :: grp ++ (rest ++ [(s.ed e).tail]), x ≠ y := fun y hy same =>
      List.disjoint_of_nodup_append parts hx (same ▸ hy)
    simp [ne b (by simp), ne (s.ed e).tail (by simp)]
  rw [State.before, walkUntil_of_chain (halt := fun x => x == (s.ed e).tail || x == b) toGone (by simp) notYet fits]
  simp

theorem walkGroup_found (follows : (rest ++ [(s.ed e).tail]).head? = some after)
    (more : ∀ x ∈ (t :: grp).dropLast, (s.td x).more = true)
    (last : rest = [] ∨ ∀ x, (t :: grp).getLast? = some x → (s.td x).more = false) :
    walkGroup s (s.ed e).tail s.params.ntd t = some (t :: grp, after) := by
  obtain ⟨c, first, behind⟩ := chain_split queue.chain
  obtain ⟨b, _, overGone⟩ := chain_split first
  obtain rfl : b = t := overGone.1
  obtain rfl : c = after := Option.some.inj ((chain_start behind).symm.trans follows)
  have fits : (b :: grp).length ≤ s.params.ntd := (Nat.le_add_left _ _).trans (parts_length_le queue)
  refine walkGroup_of_chain overGone (List.cons_ne_nil b grp) fits (fun no => gone_not_after queue no (by simp)) more
    (last.imp_left fun none => ?_)
  rw [none] at follows
  exact (Option.some.inj follows).symm

end

/-! ### The relink -/

/-- The word that leads `HeadP` past a group: an address, and the carry of the old word. -/
def headPast (a h : Word) : Word := a ||| (h &&& carryBit)

theorem ptrOf_headPast {a : Word} (ha : ptrOf a = a) (h : Word) : ptrOf (headPast a h) = a := by
  have low : carryBit &&& ~~~0xF#32 = 0#32 := by decide
  rw [headPast, ptrOf, BitVec.and_or_distrib_right, BitVec.and_assoc h, low, BitVec.and_zero, BitVec.or_zero]
  exact ha

theorem clearHaltBit_headPast {a : Word} (ha : ptrOf a = a) (h : Word) : clearHaltBit (headPast a h) = headPast a h := by
  have carry : carryBit &&& ~~~haltBit = carryBit := by decide
  have address : clearHaltBit a = a := by
    rw [← ha]
    exact BitVec.and_assoc ..
  rw [headPast, clearHaltBit, BitVec.and_or_distrib_right, BitVec.and_assoc h, carry]
  exact congrArg (· ||| _) address

/-- The relink with the word that memory holds in `HeadP`: the one write it makes, by where that word points
(42_transfer.md R312). -/
theorem relink_quiet (g : s.params.Good) (alone : s.sched = []) (he : e < s.params.ned)
    (fresh : s.fresh (edHeadAddr s.params e).toNat) (known : ∀ x ∈ before, x < s.params.ntd) :
    ∃ u, relink e (s.physRead (edHeadAddr s.params e)) before gone after s = .ok ⟨⟩ u ∧ Quietly s u ∧
      (s.headPointer e ∈ gone.map (tdAddr s.params) → u.physRead (edHeadAddr s.params e) =
        headPast (tdAddr s.params after) (s.physRead (edHeadAddr s.params e))) ∧
      (∀ x, s.relinksTd e before gone x → u.physRead (tdAddr s.params x + 8#32) = tdAddr s.params after) ∧
      ∀ a, (s.headPointer e ∈ gone.map (tdAddr s.params) → inWord (edHeadAddr s.params e) a = false) →
        (∀ x, s.relinksTd e before gone x → inWord (tdAddr s.params x + 8#32) a = false) →
        loadByte u.mem a = loadByte s.mem a := by
  have body : relink e (s.physRead (edHeadAddr s.params e)) before gone after s =
      (if s.headPointer e ∈ gone.map (tdAddr s.params) then do
        memWrite (edHeadAddr s.params e) (headPast (tdAddr s.params after) (s.physRead (edHeadAddr s.params e)))
        flush (edHeadAddr s.params e) 4
      else if s.headPointer e ∈ before.map (tdAddr s.params) then
        rmw (tdAddr s.params (before.getLastD 0) + 8#32) fun _ => tdAddr s.params after
      else pure () : Cmd Unit) s := by
    rw [relink, run_bind_ok (run_get s)]
    simp only [List.contains_iff_mem]
    rfl
  rw [body]
  by_cases inGone : s.headPointer e ∈ gone.map (tdAddr s.params)
  · obtain ⟨u, run, q, word, bytes⟩ := publish_fresh g alone (edHead_aligned g he) fresh
      (headPast (tdAddr s.params after) (s.physRead (edHeadAddr s.params e)))
    rw [if_pos inGone]
    exact ⟨u, run, q, fun _ => word, fun x no => absurd inGone no.1, fun a h _ => bytes a (h inGone)⟩
  · rw [if_neg inGone]
    by_cases inBefore : s.headPointer e ∈ before.map (tdAddr s.params)
    · obtain ⟨l, x, rfl⟩ : ∃ l x, before = l ++ [x] := by
        rcases List.eq_nil_or_concat' before with rfl | found
        · cases inBefore
        · exact found
      obtain ⟨u, run, q, word, bytes⟩ := rmw_word g alone (tdWord_aligned g (known x (by simp)) (k := 8#32) (by decide)
        (by decide)) fun _ => tdAddr s.params after
      rw [if_pos inBefore, List.getLastD_concat]
      refine ⟨u, run, q, fun no => absurd no inGone, fun y is => ?_, fun a _ h => bytes a (h x ⟨inGone, inBefore, by simp⟩)⟩
      have same : x = y := by simpa using is.2.2
      exact same ▸ word
    · rw [if_neg inBefore]
      exact ⟨s, rfl, ⟨s.mem, s.cache, s.seq, rfl⟩, fun no => absurd no inGone, fun x no => absurd no.2.1 inBefore,
        fun _ _ _ => rfl⟩

/-! ### The body -/

/-- What memory holds after an abort (42_transfer.md R310, R312, R313). -/
structure AbortedMemory (e after : Nat) (before gone : List Nat) (s u : State) : Prop where
  past : s.headPointer e ∈ gone.map (tdAddr s.params) → u.physRead (edHeadAddr s.params e) =
    headPast (tdAddr s.params after) (s.physRead (edHeadAddr s.params e))
  stands : s.headPointer e ∉ gone.map (tdAddr s.params) →
    u.physRead (edHeadAddr s.params e) = clearHaltBit (s.physRead (edHeadAddr s.params e))
  control : u.physRead (edControlAddr s.params e) = clearSkip (s.physRead (edControlAddr s.params e))
  linked : ∀ x, s.relinksTd e before gone x → u.physRead (tdAddr s.params x + 8#32) = tdAddr s.params after
  bytes : ∀ a, inWord (edControlAddr s.params e) a = false → inWord (edHeadAddr s.params e) a = false →
    (∀ x, s.relinksTd e before gone x → inWord (tdAddr s.params x + 8#32) a = false) → loadByte u.mem a = loadByte s.mem a

/-- Of the two states only parameters and memory count. -/
theorem AbortedMemory.of_same {s' u' : State} (m : AbortedMemory e after before gone s u) (params : s.params = s'.params)
    (mem : s.mem = s'.mem) (mem' : u'.mem = u.mem) : AbortedMemory e after before gone s' u' := by
  have read : ∀ a, s.physRead a = s'.physRead a := fun a => by rw [State.physRead, mem]; rfl
  have read' : ∀ a, u.physRead a = u'.physRead a := fun a => by rw [State.physRead, ← mem']; rfl
  obtain ⟨past, stands, control, linked, bytes⟩ := m
  simp only [State.relinksTd, State.headPointer, params, read, read', mem, ← mem'] at past stands control linked bytes
  exact ⟨past, stands, control, linked, bytes⟩

/-- The accesses of an abort once the group is off the tables. -/
theorem relink_clearHalt (g : s.params.Good) (alone : s.sched = []) (he : e < s.params.ned)
    (fresh : s.fresh (edHeadAddr s.params e).toNat) (known : ∀ x ∈ before, x < s.params.ntd) :
    ∃ v w, relink e (s.physRead (edHeadAddr s.params e)) before gone after s = .ok ⟨⟩ v ∧
      clearHalt e false v = .ok ⟨⟩ w ∧ Quietly s w ∧ AbortedMemory e after before gone s w := by
  obtain ⟨v, run, q, past, linked, bytes⟩ := relink_quiet (gone := gone) (after := after) g alone he fresh known
  have params : v.params = s.params := q.tables.params
  obtain ⟨w, run', q', head, control, bytes'⟩ := clearHalt_words (params ▸ g) (q.sched.trans alone) (e := e) (params ▸ he)
  rw [params] at head control bytes'
  have link_known : ∀ x, s.relinksTd e before gone x → x < s.params.ntd := fun x is =>
    known x (List.mem_of_getLast? is.2.2)
  have kept : ∀ a : Word, a.toNat % 4 = 0 → (s.headPointer e ∈ gone.map (tdAddr s.params) → a ≠ edHeadAddr s.params e) →
      (∀ x, s.relinksTd e before gone x → a ≠ tdAddr s.params x + 8#32) → v.physRead a = s.physRead a :=
    fun a aligned notHead notLink => physRead_congr fun y hy => bytes y
      (fun is => decide_eq_false (words_disjoint (edHead_aligned g he) aligned (notHead is) hy))
      fun x is => decide_eq_false (words_disjoint (tdWord_aligned g (link_known x is) (by decide) (by decide)) aligned
        (notLink x is) hy)
  refine ⟨v, w, run, run', q.trans q', ⟨fun is => ?_, fun no => ?_, ?_, fun x is => ?_, fun a hc hh hl => ?_⟩⟩
  · rw [head, past is, clearHaltBit_headPast (ptrOf_aligned (tdAddr_mod16 g after))]
  · rw [head, kept _ (edHead_aligned g he) (fun is => absurd is no) fun x is =>
      (tdWord_ne_edHead g he (link_known x is) (by decide)).symm]
  · rw [control, kept _ (edControl_aligned g he) (fun _ => edControl_ne_edHead _ e) fun x is =>
      (tdWord_ne_edControl g he (link_known x is) (by decide)).symm]
  · have small := link_known x is
    rw [physRead_beside g he (tdWord_aligned g small (by decide) (by decide)) (tdWord_ne_edControl g he small (by decide))
      (tdWord_ne_edHead g he small (by decide)) bytes', linked x is]
  · exact (bytes' a hc hh).trans (bytes a (fun _ => hh) hl)

/-- The command after its wait (42_transfer.md R310). -/
theorem abortRest_aborted (g : s.params.Good) (alone : s.sched = []) (he : e < s.params.ned)
    (queue : s.queueIs e (before ++ t :: grp ++ rest)) (follows : (rest ++ [(s.ed e).tail]).head? = some after)
    (more : ∀ x ∈ (t :: grp).dropLast, (s.td x).more = true)
    (last : rest = [] ∨ ∀ x, (t :: grp).getLast? = some x → (s.td x).more = false) {how : Quiesced}
    (moved : how ≠ .timeout) :
    ∃ w, abortRest e t how s = .ok { res0 := (t :: grp).length } w ∧
      Quietly (s.cutGroup e before (t :: grp) after) w ∧ AbortedMemory e after before (t :: grp) s w := by
  obtain ⟨s₁, s₂, drop, read, q, mem, fresh⟩ := inval_memRead_fresh g alone (edHead_aligned g he)
  obtain ⟨c, hc⟩ : ∃ c, c = s₂.cutGroup e before (t :: grp) after := ⟨_, rfl⟩
  have cutQ : Quietly (s.cutGroup e before (t :: grp) after) c := hc ▸ q.cutGroup e before (t :: grp) after
  have params : c.params = s.params := cutQ.tables.params.trans (cutGroup_params ..)
  have memC : c.mem = s.mem := by rw [hc, cutGroup_mem, mem]
  have known : ∀ x ∈ before, x < s.params.ntd := fun x hx => (queue.owned x (by simp [hx])).1
  have freshC : c.fresh (edHeadAddr c.params e).toNat := by
    rw [params]
    refine fresh.congr (params.trans q.tables.params.symm) (memC.trans mem.symm) ?_
    obtain ⟨_, _, _, cut⟩ := cutGroup_shape s₂ e before (t :: grp) after
    rw [hc, cut]
  obtain ⟨v, w, run, run', q', memory⟩ := relink_clearHalt (s := c) (e := e) (before := before) (gone := t :: grp)
    (after := after) (params ▸ g) (cutQ.sched.trans (by rw [cutGroup_sched]; exact alone)) (params ▸ he) freshC
    (params ▸ known)
  have group : walkGroup s₂ (s₂.ed e).tail s₂.params.ntd t = some (t :: grp, after) := by
    rw [walkGroup_congr q.tables.td, q.tables.ed, q.tables.params]
    exact walkGroup_found queue follows more last
  have phys : ∀ a, c.physRead a = s.physRead a := fun a => by rw [State.physRead, memC]; rfl
  refine ⟨w, ?_, cutQ.trans q', ?_⟩
  · rw [phys, params, hc] at run
    rw [abortRest, if_neg moved]
    refine (run_bind_ok (run_get s)).trans ?_
    rw [before_found queue]
    refine (run_bind_ok (run_orStop_some ..)).trans ((run_bind_ok drop).trans ((run_bind_ok read).trans
      ((run_bind_ok (run_get s₂)).trans ?_)))
    rw [group]
    refine (run_bind_ok (run_orStop_some ..)).trans ((run_bind_ok (run_set ..)).trans ?_)
    exact (run_bind_ok run).trans (run_bind_ok run')
  · exact memory.of_same params memC rfl

/-- `HeadP` after an abort leads past the group where it pointed into it. -/
theorem AbortedMemory.headPointer (m : AbortedMemory e after before gone s u) (g : s.params.Good)
    (params : u.params = s.params) : u.headPointer e =
      if s.headPointer e ∈ gone.map (tdAddr s.params) then tdAddr s.params after else s.headPointer e := by
  rw [State.headPointer, params]
  split
  · rename_i inside
    rw [m.past inside, ptrOf_headPast (ptrOf_aligned (tdAddr_mod16 g after))]
  · rename_i outside
    rw [m.stands outside, ptrOf_clearHaltBit]
    rfl

/-- An aligned word is kept that is none of those an abort writes. -/
theorem AbortedMemory.physRead_kept (m : AbortedMemory e after before gone s u) (g : s.params.Good) (he : e < s.params.ned)
    (known : ∀ x ∈ before, x < s.params.ntd) {a : Word} (aligned : a.toNat % 4 = 0)
    (notControl : a ≠ edControlAddr s.params e) (notHead : a ≠ edHeadAddr s.params e)
    (notLink : ∀ x, s.relinksTd e before gone x → a ≠ tdAddr s.params x + 8#32) : u.physRead a = s.physRead a :=
  physRead_congr fun y hy => m.bytes y
    (decide_eq_false (words_disjoint (edControl_aligned g he) aligned notControl hy))
    (decide_eq_false (words_disjoint (edHead_aligned g he) aligned notHead hy))
    fun x is => decide_eq_false (words_disjoint (tdWord_aligned g (known x (List.mem_of_getLast? is.2.2)) (by decide)
      (by decide)) aligned (notLink x is) hy)

/-- The HC's list after an abort. -/
theorem hardwareAgrees_aborted {retired waiting : List Nat} (m : AbortedMemory e after before gone s u) (g : s.params.Good)
    (shape : s.shape) (valid : s.validEd e = true) (queue : s.queueIs e (before ++ gone ++ rest))
    (follows : (rest ++ [(s.ed e).tail]).head? = some after) (tables : SameTables (s.cutGroup e before gone after) u)
    (agree : s.hardwareAgrees e retired waiting) :
    u.hardwareAgrees e (retired.filter (· ∉ gone)) (waiting.filter (· ∉ gone)) := by
  have he := lt_of_validEd valid
  have known : ∀ x ∈ before, x < s.params.ntd := fun x hx => (queue.owned x (by simp [hx])).1
  refine hardwareAgrees_cut g shape (alloc_of_validEd valid) queue follows tables
    (m.headPointer g (tables.params.trans (cutGroup_params ..))) m.linked (fun x hx no => ?_) ?_ agree
  · refine m.physRead_kept g he known (tdWord_aligned g hx (by decide) (by decide)) (tdWord_ne_edControl g he hx (by decide))
      (tdWord_ne_edHead g he hx (by decide)) fun y is => ?_
    refine slotWords_ne g (g.tdAddr_slot x) (g.tdAddr_slot y) (by decide) (by decide) fun same => no ?_
    rwa [tdAddr_inj g hx (known y (List.mem_of_getLast? is.2.2)) (BitVec.eq_of_toNat_eq same)]
  · refine m.physRead_kept g he known (edTail_aligned g he) (edTail_ne_edControl _ e) (edTail_ne_edHead _ e) fun y is => ?_
    exact slotWords_ne g (g.edAddr_slot e) (g.tdAddr_slot y) (by decide) (by decide)
      (edSlot_ne_tdSlot g he (known y (List.mem_of_getLast? is.2.2)))

/-- Settles O53: `abortRest_aborted` at once, the endpoint being halted, and at the poll that ends the wait. -/
theorem xferAbortCompletes : Obligations.XferAbortCompletes := by
  intro e t after before grp rest s legal ok valid alone queue follows more last p gone c h hp inGroup relinked aborted
  have g : p.Good := Params.legal_good legal
  have he : e < p.ned := lt_of_validEd valid
  have fits : gone.length < 2 ^ 32 := ((Nat.le_add_left _ _).trans (parts_length_le queue)).trans_lt
    (g.ntd.2.trans_lt (by decide))
  have abort : ∀ (b : State) (how : Quiesced) k q, SameTables s b → b.mem = s.mem → b.sched = [] → how ≠ .timeout →
      ∃ u, finish (abortRest e t how { b with cache := k, seq := q }) = .next u ∧ aborted b u := by
    intro b how k q tables mem alone moved
    obtain ⟨b', hb⟩ : ∃ b', b' = ({ b with cache := k, seq := q } : State) := ⟨_, rfl⟩
    have same : SameTables s b' := tables.trans (hb ▸ .other)
    have memB : b'.mem = s.mem := by rw [hb, ← mem]
    obtain ⟨v, run, cut, memory⟩ := abortRest_aborted (s := b') (same.params ▸ g) (by rw [hb]; exact alone)
      (same.params ▸ he) (same.queueIs queue) (by rw [same.ed]; exact follows) (by rw [same.td]; exact more)
      (by rw [same.td]; exact last) moved
    obtain ⟨u, hu⟩ : ∃ u, u = ({ v.endedOk (BitVec.ofNat 32 gone.length) 0 0 with seq := .idle } : State) := ⟨_, rfl⟩
    have ends : SameTables (s.cutGroup e before gone after) u :=
      (same.cutGroup e before gone after).trans (cut.tables.trans (hu ▸ .other))
    have memU : u.mem = v.mem := by rw [hu]; rfl
    have memory : AbortedMemory e after before gone s u := memory.of_same same.params memB memU
    have notGone := last_not_gone queue
    refine ⟨u, ?_, ?_, fun x => ?_, fun x => ?_, fun x => ?_, memory.past, memory.stands, memory.control, memory.linked,
      memory.bytes, fun retired waiting agree =>
        hardwareAgrees_aborted memory g ok.shape valid queue follows ends agree⟩
    · rw [← hb, run, hu]
      exact finish_ok (r := { res0 := gone.length }) fits (Nat.two_pow_pos 32) (Nat.two_pow_pos 32) v
    · obtain ⟨_, _, _, shape⟩ := cutGroup_shape b' e before gone after
      obtain ⟨m, k, q, rfl⟩ := cut
      rw [hu, shape, hb]
      rfl
    · rw [ends.ed, cutGroup_ed]
    · rw [ends.td, cutGroup_td s e before gone after notGone]
    · rw [ends.indexed, cutGroup_indexed]
  refine ⟨fun idle started arg halted => ?_, fun run w f0 r wait moved => ?_⟩
  · obtain ⟨known, alloc, owner⟩ := queue.owned t (by simp)
    have notTail : t ≠ ((s.begun (encode (.xferAbort .thread e))).ed e).tail := fun (no : t = (s.ed e).tail) =>
      gone_not_after queue (x := t) (by simp) (by simp [no])
    obtain ⟨b, run, ⟨m, k, q, rfl⟩, mem⟩ := quiesce_halted (s := s.begun (encode (.xferAbort .thread e))) g alone he halted
      (.abort e t)
    cases mem
    have owned : (s.begun (encode (.xferAbort .thread e))).ownedTd e s.args.arg0 = some t := by
      rw [show s.args.arg0 = _ from arg]
      exact ownedTd_ofNat g known alloc owner
    rw [exec_checked (.xferAbort .thread e) ⟨idle, alone⟩ started rfl valid rfl, run_bind_ok (run_get _)]
    simp only [owned]
    rw [if_neg notTail, run_bind_ok run]
    exact abort s.taken .already k q .other rfl alone (by decide)
  · rw [step_wait wait, run_bind_ok (waitFrom_moved alone moved r)]
    exact abort s .ok s.cache (.exec s.seq.running) .other rfl alone (by decide)

end Sys2Proof.Machine
end

section
/-! SUPPORT. What a drain leaves alone while no other agent moves: the results, `STATUS.ERR`, `CMDLOST` and `ISR.CMD_DONE`
(43_done_queue.md R351), and that it ends with `WDH` clear (R361). -/

namespace Sys2Proof.Machine

variable {α β : Type} {s t : State}

/-! ### The bookkeeping of a command -/

/-- What the acceptance or the end of a command writes and a drain does not, with the moves to come. -/
def State.bookkeeping (s : State) : List Move × ErrCode × Bool × Bool × Word × Word × Word :=
  (s.sched, s.err, s.cmdLost, s.isr.getLsbD 0, s.res0, s.res1, s.res2)

/-- A run that no other agent's move comes into, and that leaves the bookkeeping, unless it is stuck. -/
def Unbooked (c : Cmd α) : Prop := ∀ s, s.sched = [] →
  Goes (fun _ t => t.bookkeeping = s.bookkeeping) (fun _ => False) (fun _ => False) c s

theorem sched_of_bookkeeping (alone : s.sched = []) (same : t.bookkeeping = s.bookkeeping) : t.sched = [] :=
  (congrArg Prod.fst same).trans alone

theorem unbooked_bind {x : Cmd α} {f : α → Cmd β} (hx : Unbooked x) (hf : ∀ a, Unbooked (f a)) : Unbooked (x >>= f) :=
  fun s alone => goes_bind (hx s alone) fun a t same =>
    goes_mono (hf a t (sched_of_bookkeeping alone same)) fun _ _ h => h.trans same

theorem unbooked_pure (a : α) : Unbooked (pure a : Cmd α) := fun _ _ => goes_pure rfl

theorem unbooked_orStop (f : Fault) (o : Option α) : Unbooked (orStop f o) := fun _ _ => goes_orStop fun _ _ => rfl

theorem unbooked_modify {f : State → State} (h : ∀ s, s.sched = [] → (f s).bookkeeping = s.bookkeeping) :
    Unbooked (modify f : Cmd PUnit) := fun s alone => goes_modify (h s alone)

theorem unbooked_ite {c : Prop} [Decidable c] {x y : Cmd α} (hx : Unbooked x) (hy : Unbooked y) :
    Unbooked (if c then x else y) := by
  split
  · exact hx
  · exact hy

/-- The state read is written back with an update of it. -/
theorem unbooked_set {f : State → State} {c : Cmd α} (h : ∀ s, (f s).bookkeeping = s.bookkeeping) (hc : Unbooked c)
    (s : State) (alone : s.sched = []) :
    Goes (fun _ t => t.bookkeeping = s.bookkeeping) (fun _ => False) (fun _ => False) (do set (f s); c) s :=
  goes_bind (Q := fun _ t => t.bookkeeping = s.bookkeeping) (goes_set (h s)) fun _ t same =>
    goes_mono (hc t (sched_of_bookkeeping alone same)) fun _ _ h => h.trans same

/-! ### Accesses -/

theorem unbooked_turn : Unbooked turn := fun s alone => by
  rw [Goes, turn_quiet alone]
  rfl

theorem unbooked_memRead (a : Word) : Unbooked (memRead a) :=
  unbooked_bind unbooked_turn fun _ s alone => goes_read (unbooked_set (f := fun s => s.touch a.toNat)
    (fun s => by obtain ⟨k, touched⟩ := touch_shape s a.toNat; rw [touched]; rfl) (unbooked_pure _) s alone)

theorem unbooked_memWrite (a v : Word) : Unbooked (memWrite a v) :=
  unbooked_bind unbooked_turn fun _ => unbooked_modify fun s _ => by
    obtain ⟨m, k, stored⟩ := cacheStore_shape s a v
    rw [stored]
    rfl

theorem unbooked_flush (a : Word) (n : Nat) : Unbooked (flush a n) := by
  have lines : ∀ bs, Unbooked (flushLines bs) := fun bs => by
    induction bs with
    | nil => exact unbooked_pure _
    | cons b bs ih =>
      refine unbooked_bind unbooked_turn fun _ => unbooked_bind (unbooked_modify fun s alone => ?_) fun _ => ih
      obtain ⟨m, k, c, ms, suffix, flushed⟩ := flushLine_shape s b
      rw [alone] at suffix
      rw [flushed, List.suffix_nil.1 suffix, ← alone]
      rfl
  exact fun s alone => goes_read (lines _ s alone)

theorem unbooked_inval (a : Word) (n : Nat) : Unbooked (inval a n) := by
  have lines : ∀ bs, Unbooked (invalLines bs) := fun bs => by
    induction bs with
    | nil => exact unbooked_pure _
    | cons b bs ih =>
      refine unbooked_bind unbooked_turn fun _ => unbooked_bind (unbooked_modify fun s _ => ?_) fun _ => ih
      obtain ⟨k, dropped⟩ := invalLine_shape s b
      rw [dropped]
      rfl
  exact fun s alone => goes_read (lines _ s alone)

theorem unbooked_mmioWrite (off : Nat) (v : Word) : Unbooked (mmioWrite off v) :=
  unbooked_bind unbooked_turn fun _ => unbooked_modify fun _ _ => rfl

theorem unbooked_listFilled (t : EdType) : Unbooked (listFilled t) := by
  cases t with
  | control => exact unbooked_mmioWrite _ _
  | bulk => exact unbooked_mmioWrite _ _
  | interrupt => exact unbooked_pure _

/-! ### The pieces of a drain -/

theorem bookkeeping_setTd (s : State) (x : Nat) (v : Td) : (s.setTd x v).bookkeeping = s.bookkeeping := rfl

theorem bookkeeping_freeTds (s : State) (ts : List Nat) : (s.freeTds ts).bookkeeping = s.bookkeeping := by
  rw [freeTds_frame]
  rfl

/-- A drain raises no `ISR.CMD_DONE`. -/
theorem bookkeeping_raiseIsr {bits : BitVec 4} (h : bits.getLsbD 0 = false) (s : State) :
    (s.raiseIsr bits).bookkeeping = s.bookkeeping := by
  simp only [State.bookkeeping, State.raiseIsr, BitVec.getLsbD_or, h, Bool.or_false]

theorem unbooked_drainFault (n : Tally) (c : FaultCode) (i : Word) : Unbooked (drainFault n c i) :=
  unbooked_bind (unbooked_modify fun s _ => bookkeeping_raiseIsr (bits := faultBit) (by decide) s) fun _ => unbooked_pure _

theorem unbooked_reverseDone (budget : Nat) (prev a : Word) : Unbooked (reverseDone budget prev a) := by
  induction budget generalizing prev a with
  | zero => exact unbooked_ite (unbooked_pure _) (unbooked_pure _)
  | succ budget ih =>
    exact unbooked_ite (unbooked_pure _) <| unbooked_bind (unbooked_inval _ _) fun _ =>
      unbooked_bind (unbooked_memRead _) fun _ => unbooked_bind (unbooked_memWrite _ _) fun _ =>
        unbooked_bind (unbooked_flush _ _) fun _ => ih _ _

theorem unbooked_resolve (n : Tally) (a w : Word) : Unbooked (resolve n a w) := by
  have lost : ∀ code, Unbooked (do return ((none : Option Nat), ← drainFault n code a)) := fun code =>
    unbooked_bind (unbooked_drainFault n code a) fun _ => unbooked_pure _
  refine fun s alone => goes_read ?_
  split
  · exact unbooked_ite (lost _) (unbooked_ite (lost _) (unbooked_pure _)) s alone
  · refine unbooked_bind (unbooked_orStop _ _) (fun found => ?_) s alone
    cases found with
    | some t => exact unbooked_pure _
    | none => exact lost _

theorem unbooked_post (n : Tally) (e g : Nat) (cc : BitVec 4) : Unbooked (post n e g cc) := fun s alone =>
  goes_read (goes_ite
    (fun _ => unbooked_set (f := fun s => ({ s with compq := s.compq ++ [⟨e, g, cc, (s.ed e).key⟩] } : State).raiseIsr
      compAvailBit) (fun s => bookkeeping_raiseIsr (by decide) _) (unbooked_pure _) s alone)
    fun _ => unbooked_drainFault n _ _ s alone)

theorem unbooked_unwind (e j : Nat) (cc : BitVec 4) : Unbooked (unwind e j cc) := fun s alone => by
  refine goes_read (goes_bind (Q := fun _ t => s = t) (goes_orStop fun _ _ => rfl) ?_)
  rintro nx _ rfl
  refine goes_bind (Q := fun _ t => s = t) (goes_orStop fun _ _ => rfl) ?_
  rintro grp _ rfl
  have publish : Unbooked (do flush (edAddr s.params e) 16; if cc = 9#4 then listFilled (s.ed e).type) :=
    unbooked_bind (unbooked_flush _ _) fun _ => unbooked_ite (unbooked_listFilled _) (unbooked_pure _)
  refine unbooked_set (f := fun s => s.unwindGroup j grp.1 grp.2)
    (fun s => (bookkeeping_setTd _ _ _).trans (bookkeeping_freeTds s grp.1)) ?_ s alone
  exact unbooked_bind (unbooked_inval _ _) fun _ => unbooked_bind (unbooked_memRead _) fun _ =>
    unbooked_bind (unbooked_memWrite _ _) fun _ => unbooked_ite
      (unbooked_bind (unbooked_memRead _) fun _ => unbooked_bind (unbooked_memWrite _ _) fun _ => publish) publish

theorem unbooked_process (n : Tally) (t : Nat) (cc : BitVec 4) : Unbooked (process n t cc) := fun s alone => by
  refine goes_read (goes_ite (fun _ => unbooked_drainFault n _ _ s alone) fun _ => ?_)
  refine goes_bind (Q := fun _ t => s = t) (goes_orStop fun _ _ => rfl) ?_
  rintro first _ rfl
  refine goes_ite (fun _ => unbooked_drainFault n _ _ s alone) fun _ => ?_
  have report : Unbooked (do let s' ← get
                             post n (s.td t).owner (← orStop .brokenQueue (s'.gstart (s.td t).owner t)) cc) :=
    fun s' alone => goes_read (unbooked_bind (unbooked_orStop _ _) (fun _ => unbooked_post n _ _ cc) s' alone)
  exact unbooked_set (f := fun s => s.setTd t { s.td t with status := setFinished (s.td t).status }) (fun _ => rfl)
    (unbooked_ite (unbooked_ite (unbooked_pure _) (unbooked_bind (unbooked_unwind _ t cc) fun _ => report)) report) s alone

theorem unbooked_visitDone (n : Tally) (a w : Word) : Unbooked (visitDone n a w) :=
  unbooked_bind (unbooked_resolve _ a w) fun r => by
    split
    · exact unbooked_pure _
    · exact unbooked_process _ _ _

theorem unbooked_forwardDone (fuel : Nat) (n : Tally) (a : Word) : Unbooked (forwardDone fuel n a) := by
  induction fuel generalizing n a with
  | zero => exact unbooked_pure _
  | succ fuel ih =>
    exact unbooked_ite (unbooked_pure _) <| unbooked_bind (unbooked_memRead _) fun _ =>
      unbooked_bind (unbooked_memRead _) fun _ => unbooked_bind (unbooked_visitDone n a _) fun _ => ih _ _

/-! ### The drain -/

/-- The acknowledgement of a drain clears `WDH` (43_done_queue.md R361). -/
theorem wdh_acknowledged (h : Hc) : (hcRegWrite h 0x0C wdhBit).wdh = false := by
  simp [hcRegWrite, Hc.wdh, wdhBit]

/-- A drain leaves the bookkeeping, and `WDH` clear, unless it is stuck. -/
theorem drain_leaves (alone : s.sched = []) :
    Goes (fun _ t => t.bookkeeping = s.bookkeeping ∧ t.wdhIn = false) (fun _ => False) (fun _ => False) drain s := by
  refine goes_bind (Q := fun w t => t.bookkeeping = s.bookkeeping ∧ w = t.hc.interruptStatus) ?_ ?_
  · rw [Goes, mmioRead_quiet alone]
    exact ⟨rfl, rfl⟩
  rintro _ t ⟨same, rfl⟩
  refine goes_ite (fun _ => goes_read ?_) fun clear => goes_pure ⟨same, Bool.eq_false_iff.2 clear⟩
  have acknowledge : ∀ n t, t.bookkeeping = s.bookkeeping →
      Goes (fun _ t => t.bookkeeping = s.bookkeeping ∧ t.wdhIn = false) (fun _ => False) (fun _ => False)
        (do mmioWrite 0x0C wdhBit; return n : Cmd Tally) t := fun n t same => by
    rw [Goes, run_bind_ok (mmioWrite_quiet (sched_of_bookkeeping alone same) _ _)]
    exact ⟨same, wdh_acknowledged t.hc⟩
  have piece : ∀ {γ : Type} {c : Cmd γ} {f : γ → Cmd Tally}, Unbooked c → (∀ a t, t.bookkeeping = s.bookkeeping →
      Goes (fun _ t => t.bookkeeping = s.bookkeeping ∧ t.wdhIn = false) (fun _ => False) (fun _ => False) (f a) t) →
      ∀ t, t.bookkeeping = s.bookkeeping →
        Goes (fun _ t => t.bookkeeping = s.bookkeeping ∧ t.wdhIn = false) (fun _ => False) (fun _ => False) (c >>= f) t :=
    fun hc hf t same => goes_bind (hc t (sched_of_bookkeeping alone same)) fun a u h => hf a u (h.trans same)
  refine piece (unbooked_inval _ _) (fun _ => piece (unbooked_memRead _) fun dh => piece (unbooked_reverseDone _ _ _)
    fun first => ?_) t same
  cases first with
  | none => exact piece (unbooked_drainFault _ _ _) acknowledge
  | some a => exact piece (unbooked_forwardDone _ _ a) acknowledge

theorem step_idle_quiet (quiet : s.quiet) : step s = idleTurn s := by
  rw [step, quiet.1]
  simp only [idleStep, quiet.2]

/-- Settles O58: the automatic drain begins where `autoDrainEnabled` says so, and what it leaves is `drain_leaves`. -/
theorem autoDrainBookkeeping : Obligations.AutoDrainBookkeeping := by
  intro s quiet
  have enabled : s.autoDrainEnabled = (s.started && s.autoDrain && s.wdhIn) := by
    rw [State.autoDrainEnabled, quiet.1]
    rfl
  rw [step_idle_quiet quiet, idleTurn, enabled]
  refine ⟨fun off => if_neg ?_, fun t started auto wdh ends => ?_⟩
  · rcases off with off | off | off <;> simp [off]
  · rw [if_pos (by rw [started, auto, wdh]; rfl), runAutoDrain] at ends
    have left := drain_leaves (s := { s with seq := .exec { auto := true, ctx := .interrupt } }) quiet.2
    rw [Goes] at left
    split at left
    case h_1 n u run =>
      rw [run] at ends
      cases ends
      obtain ⟨same, clear⟩ := left
      have raised := (bookkeeping_raiseIsr (bits := drainDoneBit) (by decide) u).trans same
      simp only [State.bookkeeping, Prod.mk.injEq] at raised
      obtain ⟨_, err, lost, done, r0, r1, r2⟩ := raised
      exact ⟨clear, rfl, by simp [State.raiseIsr, drainDoneBit], done, err, lost, r0, r1, r2⟩
    case h_2 => exact left.elim
    case h_3 => exact left.elim
    case h_4 f u run =>
      rw [run] at ends
      cases ends

end Sys2Proof.Machine
end

section
/-! SUPPORT. The reversal of a done list while no other agent moves, word by word: first of any aligned descriptors, then of
TD slots (43_done_queue.md R353, R354). -/

namespace Sys2Proof.Machine

variable {s t u : State} {p : Params}

/-! ### A descriptor in its line -/

/-- The bytes of an aligned 16-byte descriptor share a line. -/
theorem lineBase_descriptor (g : p.Good) {a i : Nat} (ha : a % 16 = 0) (hi : i < 16) : lineBase p (a + i) = lineBase p a := by
  have low := lineBase_le p a
  have high := lt_lineBase_add g.line_pos a
  obtain ⟨q, hq⟩ := Nat.dvd_of_mod_eq_zero (lineBase_mod p a)
  obtain ⟨r, hr⟩ := Nat.dvd_of_mod_eq_zero g.line_dvd
  have base : lineBase p a % 16 = 0 := by rw [hq, hr, Nat.mul_assoc, Nat.mul_mod_right]
  exact lineBase_unique (lineBase_mod p a) (by omega) (by have := g.line_dvd; omega)

theorem nextTd_toNat {a : Word} (ha : a.toNat % 16 = 0) : (a + 8#32).toNat = a.toNat + 8 := by
  have := a.isLt
  rw [BitVec.toNat_add]
  exact Nat.mod_eq_of_lt (show a.toNat + 8 < 2 ^ 32 by omega)

theorem nextTd_aligned {a : Word} (ha : a.toNat % 16 = 0) : (a + 8#32).toNat % 4 = 0 := by
  rw [nextTd_toNat ha]
  omega

theorem nextTd_line (g : p.Good) {a : Word} (ha : a.toNat % 16 = 0) :
    lineBase p (a + 8#32).toNat = lineBase p a.toNat := by
  rw [nextTd_toNat ha, lineBase_descriptor g ha (by decide)]

/-- Distinct descriptors have distinct `NextTD` words. -/
theorem nextTd_inj {a b : Word} : a + 8#32 = b + 8#32 ↔ a = b := BitVec.add_left_inj _

/-- No `NextTD` word is a control word. -/
theorem control_ne_nextTd {a b : Word} (ha : a.toNat % 16 = 0) (hb : b.toNat % 16 = 0) : a ≠ b + 8#32 := fun same => by
  have := nextTd_toNat hb
  rw [← same] at this
  omega

/-- To invalidate a descriptor is to invalidate the line of its `NextTD` word. -/
theorem inval_descriptor (g : s.params.Good) {a : Word} (ha : a.toNat % 16 = 0) : inval a 16 s = inval (a + 8#32) 4 s := by
  have last : (a.toNat + 15) / s.params.cacheLine = a.toNat / s.params.cacheLine :=
    Nat.eq_of_mul_eq_mul_right g.line_pos (lineBase_descriptor g ha (i := 15) (by decide))
  have whole : rangeLines s.params a.toNat 16 = [lineBase s.params a.toNat] := by
    have one : lineCount s.params a.toNat 16 = 1 := by simp [lineCount, last]
    simp only [rangeLines, one, List.range_one, List.map_cons, List.map_nil, Nat.add_zero]
    rfl
  have word := rangeLines_word g (nextTd_aligned ha)
  rw [nextTd_line g ha] at word
  rw [inval, inval, run_bind_ok (run_get s), run_bind_ok (run_get s), whole, word]

/-- A word of which no byte may have changed. -/
theorem Touched.physRead {W : Nat → Prop} {A : Word → Prop} (h : Touched W A s t) {a : Word}
    (out : ∀ x, a.toNat ≤ x ∧ x < a.toNat + 4 → ¬ W x) : t.physRead a = s.physRead a :=
  physRead_congr fun x hx => h.bytes x (out x hx)

/-! ### One link reversed -/

/-- One round of the reversal: the link of the descriptor is set back, no other byte of memory changes, and the block sees its
control word as memory holds it (43_done_queue.md R353). -/
theorem reverseDone_step (g : s.params.Good) (alone : s.sched = []) {a : Word} (ha : a.toNat % 16 = 0) (some_ : a ≠ 0#32)
    (prev : Word) : ∃ t, (∀ n, reverseDone (n + 1) prev a s = reverseDone n a (ptrOf (s.physRead (a + 8#32))) t) ∧
      Quietly s t ∧ Touched (fun x => inWord (a + 8#32) x = true) (· = a + 8#32) s t ∧ t.holds (a + 8#32) prev ∧
      t.holds a (s.physRead a) := by
  have aligned := nextTd_aligned ha
  obtain ⟨t, run, q, touched, held⟩ := rmw_touched g alone aligned fun _ => prev
  obtain ⟨_, _, _, run', _, fresh, _⟩ := rmw_quiet g alone aligned fun _ => prev
  rw [← (EStateM.Result.ok.inj (run.symm.trans run')).2] at fresh
  obtain ⟨_, s₁, drop, run⟩ := run_bind_inv run
  obtain ⟨v, s₂, read, run⟩ := run_bind_inv run
  obtain ⟨_, s₃, write, flushed⟩ := run_bind_inv run
  obtain ⟨s₁', _, drop', read', _⟩ := inval_memRead g alone aligned
  cases drop.symm.trans drop'
  cases read.symm.trans read'
  refine ⟨t, fun n => ?_, q, touched, held, ?_⟩
  · rw [reverseDone, if_neg some_, run_bind_ok ((inval_descriptor g ha).trans drop), run_bind_ok read, run_bind_ok write,
      run_bind_ok flushed]
  · have control : a.toNat % 4 = 0 := by omega
    have out : ∀ x, a.toNat ≤ x ∧ x < a.toNat + 4 → ¬ inWord (a + 8#32) x = true := fun x hx no => by
      have := of_decide_eq_true no
      rw [nextTd_toNat ha] at this
      omega
    rw [← touched.physRead out]
    refine ⟨rfl, cacheLoad_of_view (touched.params ▸ g) control fun x h1 h2 => (fresh x ?_).1⟩
    rw [touched.params, nextTd_line g ha]
    exact lineBase_byte g control ⟨h1, h2⟩

/-! ### A list of links reversed -/

/-- The `NextTD` words lead from `a` over the descriptors of the list to `z`. -/
def State.leads (s : State) : Word → List Word → Word → Prop
  | a, [], z => a = z
  | a, x :: l, z => a = x ∧ s.leads (ptrOf (s.physRead (x + 8#32))) l z

theorem leads_congr {l : List Word} {z : Word} (same : ∀ x ∈ l, t.physRead (x + 8#32) = s.physRead (x + 8#32)) {a : Word}
    (h : s.leads a l z) : t.leads a l z := by
  induction l generalizing a with
  | nil => exact h
  | cons x l ih =>
    obtain ⟨rfl, h⟩ := h
    refine ⟨rfl, ?_⟩
    rw [same a List.mem_cons_self]
    exact ih (fun y hy => same y (List.mem_cons_of_mem _ hy)) h

theorem leads_of_links {l : List Word} {z : Word} (links : ∀ pre a post, l = pre ++ a :: post →
    ptrOf (s.physRead (a + 8#32)) = post.head?.getD z) : s.leads (l.head?.getD z) l z := by
  induction l with
  | nil => rfl
  | cons x l ih =>
    refine ⟨rfl, ?_⟩
    rw [links [] x l rfl]
    exact ih fun pre a post same => links (x :: pre) a post (by rw [same, List.cons_append])

/-- The reversal of the first descriptors of a list: each `NextTD` names the descriptor before it, nothing else of memory
changes, and the block sees these descriptors' links and control words as memory holds them. -/
theorem reverseDone_links {l : List Word} {z : Word} (g : s.params.Good) (alone : s.sched = [])
    (aligned : ∀ x ∈ l, x.toNat % 16 = 0 ∧ x ≠ 0#32) (once : l.Nodup) {a : Word} (leads : s.leads a l z) (prev : Word) (n : Nat) :
    ∃ t, reverseDone (l.length + n) prev a s = reverseDone n (l.getLast?.getD prev) z t ∧ Quietly s t ∧
      Touched (fun y => ∃ x ∈ l, inWord (x + 8#32) y = true) (fun w => ∃ x ∈ l, w = x + 8#32) s t ∧
      ∀ pre x post, l = pre ++ x :: post →
        t.holds (x + 8#32) (pre.getLast?.getD prev) ∧ t.holds x (s.physRead x) := by
  induction l generalizing s a prev with
  | nil =>
    cases leads
    exact ⟨s, by rw [List.length_nil, Nat.zero_add]; rfl, ⟨s.mem, s.cache, s.seq, rfl⟩, .refl s, fun pre _ _ no => by simp at no⟩
  | cons x l ih =>
    obtain ⟨rfl, leads⟩ := leads
    obtain ⟨ha, some_⟩ := aligned a List.mem_cons_self
    obtain ⟨fresh, once⟩ := List.nodup_cons.1 once
    have later : ∀ x ∈ l, x.toNat % 16 = 0 ∧ x ≠ 0#32 := fun x hx => aligned x (List.mem_cons_of_mem _ hx)
    have apart : ∀ x ∈ l, x + 8#32 ≠ a + 8#32 := fun x hx same => fresh (nextTd_inj.1 same ▸ hx)
    obtain ⟨s₁, run, q, touched, link, control⟩ := reverseDone_step g alone ha some_ prev
    obtain ⟨t, run', q', touched', held⟩ := ih (s := s₁) (touched.params ▸ g) (q.sched.trans alone) later once
      (leads_congr (fun x hx => touched.physRead fun y hy no =>
        words_disjoint (nextTd_aligned ha) (nextTd_aligned (later x hx).1) (apart x hx) hy (of_decide_eq_true no)) leads) a
    have kept : ∀ w v, w.toNat % 4 = 0 → (∀ x ∈ l, w ≠ x + 8#32) → s₁.holds w v → t.holds w v := fun w v hw no h =>
      touched'.words w v hw (fun ⟨x, hx, same⟩ => no x hx same) h
    refine ⟨t, ?_, q.trans q', ?_, fun pre x post same => ?_⟩
    · rw [List.length_cons, Nat.add_right_comm, run, run', List.getLast?_cons, Option.getD_some]
    · exact (touched.mono (fun y h => ⟨a, List.mem_cons_self, h⟩) fun w h => ⟨a, List.mem_cons_self, h⟩).trans
        (touched'.mono (fun y ⟨x, hx, h⟩ => ⟨x, List.mem_cons_of_mem _ hx, h⟩)
          fun w ⟨x, hx, h⟩ => ⟨x, List.mem_cons_of_mem _ hx, h⟩)
    · cases pre with
      | nil =>
        cases same
        exact ⟨kept _ _ (nextTd_aligned ha) (fun y hy same => apart y hy same.symm) link,
          kept _ _ (by omega) (fun y hy => control_ne_nextTd ha (later y hy).1) control⟩
      | cons y pre =>
        obtain ⟨rfl, rest⟩ := List.cons.inj same
        obtain ⟨link, control⟩ := held pre x post rest
        have hx := (later x (by simp [rest])).1
        rw [List.getLast?_cons, Option.getD_some]
        refine ⟨link, (touched.physRead fun z hz no => ?_) ▸ control⟩
        exact words_disjoint (nextTd_aligned ha) (by omega) (control_ne_nextTd hx ha) hz (of_decide_eq_true no)

/-! ### TD slots -/

/-- The address of a slot, 0 for none. -/
def slotAddr (p : Params) : Option Nat → Word
  | none => 0#32
  | some t => tdAddr p t

theorem getD_map_tdAddr (p : Params) (o : Option Nat) : (o.map (tdAddr p)).getD 0#32 = slotAddr p o := by
  cases o <;> rfl

/-- The reversal of a done list of TD slots (43_done_queue.md R353). -/
theorem reverseDone_slots {ts : List Nat} (g : s.params.Good) (alone : s.sched = []) (once : ts.Nodup)
    (known : ∀ x ∈ ts, x < s.params.ntd ∧ tdAddr s.params x ≠ 0#32) (fits : ts.length ≤ s.params.ntd)
    (links : ∀ pre x post, ts = pre ++ x :: post →
      ptrOf (s.physRead (tdAddr s.params x + 8#32)) = slotAddr s.params post.head?) :
    ∃ u, reverseDone s.params.ntd 0#32 (slotAddr s.params ts.head?) s = .ok (some (slotAddr s.params ts.getLast?)) u ∧
      Quietly s u ∧
      Touched (fun y => ∃ x ∈ ts, inWord (tdAddr s.params x + 8#32) y = true)
        (fun w => ∃ x ∈ ts, w = tdAddr s.params x + 8#32) s u ∧
      ∀ pre x post, ts = pre ++ x :: post → u.holds (tdAddr s.params x + 8#32) (slotAddr s.params pre.getLast?) ∧
        u.holds (tdAddr s.params x) (s.physRead (tdAddr s.params x)) := by
  obtain ⟨n, hn⟩ := Nat.exists_eq_add_of_le fits
  have leads : s.leads ((ts.map (tdAddr s.params)).head?.getD 0#32) (ts.map (tdAddr s.params)) 0#32 :=
    leads_of_links fun pre a post same => by
      obtain ⟨pre', _, rfl, rfl, rest⟩ := List.map_eq_append_iff.1 same
      obtain ⟨x, post', rfl, rfl, rfl⟩ := List.map_eq_cons_iff.1 rest
      rw [links pre' x post' rfl, List.head?_map, getD_map_tdAddr]
  obtain ⟨u, run, q, touched, held⟩ := reverseDone_links g alone (fun a ha => by
      obtain ⟨x, hx, rfl⟩ := List.mem_map.1 ha
      exact ⟨tdAddr_mod16 g x, (known x hx).2⟩)
    (List.Nodup.map_on (fun x hx y hy => tdAddr_inj g (known x hx).1 (known y hy).1) once) leads 0#32 n
  rw [List.length_map, ← hn, List.head?_map, getD_map_tdAddr, List.getLast?_map, getD_map_tdAddr] at run
  refine ⟨u, run.trans ?_, q, ?_, fun pre x post same => ?_⟩
  · cases n <;> rfl
  · refine touched.mono (fun y ⟨a, ha, h⟩ => ?_) fun w ⟨a, ha, h⟩ => ?_
    · obtain ⟨x, hx, rfl⟩ := List.mem_map.1 ha
      exact ⟨x, hx, h⟩
    · obtain ⟨x, hx, rfl⟩ := List.mem_map.1 ha
      exact ⟨x, hx, h⟩
  · have at_ := held (pre.map (tdAddr s.params)) (tdAddr s.params x) (post.map (tdAddr s.params)) (by rw [same]; simp)
    rwa [List.getLast?_map, getD_map_tdAddr] at at_

/-- Settles O55: `reverseDone_slots`, the addresses as the statement writes them. -/
theorem reversalReverses : Obligations.ReversalReverses := by
  intro ts s alone legal once known fits p addr links
  have addr_eq : ∀ l, addr l = slotAddr p l.head? := fun l => by cases l <;> rfl
  simp only [addr_eq] at links ⊢
  obtain ⟨u, run, ⟨m, k, q, shape⟩, touched, held⟩ := reverseDone_slots (Params.legal_good legal) alone once known fits links
  refine ⟨u, ?_, by rw [shape], fun pre t post same => ?_, fun x out => touched.bytes x fun ⟨t, ht, no⟩ => ?_⟩
  · rw [List.head?_reverse]
    exact run
  · rw [List.head?_reverse]
    exact (held pre t post same).1.1
  · exact Bool.false_ne_true ((out t ht).symm.trans no)

end Sys2Proof.Machine
end

section
/-! SUPPORT. The correlation of a done TD by index and by scan, and the TDs whose completion is taken while no other agent moves
(43_done_queue.md R356, R357). -/

namespace Sys2Proof.Machine

variable {s t : State} {n : Tally} {a c : Word} {e x : Nat} {q : List Nat} {cc : BitVec 4}

theorem run_drainFault (n : Tally) (code : FaultCode) (info : Word) (s : State) :
    drainFault n code info s = .ok { n with faults := n.faults + 1 } (s.logFault code info) := rfl

/-! ### By index -/

section
variable (mode : s.params.corrMode = .index)
include mode

/-- `RESOLVE` with the index table (43_done_queue.md R356). -/
theorem resolve_index : resolve n a c s = (if s.params.ntd ≤ idxOf c then
      do return (none, ← drainFault n .indexRange a)
    else if s.indexed (idxOf c) = false ∨ tdAddr s.params (idxOf c) ≠ a then
      do return (none, ← drainFault n .unresolved a)
    else return (some (idxOf c), n) : Cmd (Option Nat × Tally)) s := by
  rw [resolve, run_bind_ok (run_get s)]
  simp only [mode]

theorem resolve_indexRange (beyond : s.params.ntd ≤ idxOf c) :
    resolve n a c s = .ok (none, { n with faults := n.faults + 1 }) (s.logFault .indexRange a) := by
  rw [resolve_index mode, if_pos beyond]
  rfl

theorem resolve_unresolved (known : idxOf c < s.params.ntd)
    (no : s.indexed (idxOf c) = false ∨ tdAddr s.params (idxOf c) ≠ a) :
    resolve n a c s = .ok (none, { n with faults := n.faults + 1 }) (s.logFault .unresolved a) := by
  rw [resolve_index mode, if_neg (not_le.2 known), if_pos no]
  rfl

theorem resolve_indexed (known : idxOf c < s.params.ntd) (indexed : s.indexed (idxOf c) = true)
    (here : tdAddr s.params (idxOf c) = a) : resolve n a c s = .ok (some (idxOf c), n) s := by
  rw [resolve_index mode, if_neg (not_le.2 known), if_neg (by simp [indexed, here])]
  rfl

end

/-! ### By scan -/

/-- A TD of an endpoint's queue, not its placeholder, that lies at the address (43_done_queue.md R356). -/
def State.liesAt (s : State) (a : Word) (t : Nat) : Prop :=
  s.validEd (s.td t).owner = true ∧ (s.td t).alloc = true ∧ t ≠ (s.ed (s.td t).owner).tail ∧ tdAddr s.params t = a

/-- The endpoint has no TD at the address before its placeholder. -/
def State.misses (s : State) (a : Word) (e : Nat) : Prop :=
  (s.ed e).alloc = true → ∃ q, s.queueIs e q ∧ ∀ x ∈ q, tdAddr s.params x ≠ a

theorem queue_ne_tail (queue : s.queueIs e q) (hx : x ∈ q) : x ≠ (s.ed e).tail := fun same =>
  List.disjoint_of_nodup_append queue.once hx (List.mem_singleton.2 same)

theorem queue_length_le (queue : s.queueIs e q) : q.length ≤ s.params.ntd :=
  (List.sublist_append_left q _).length_le.trans queue.length_le

theorem scanQueues_skip {es rest : List Nat} (miss : ∀ e ∈ es, s.misses a e) :
    scanQueues s a (es ++ rest) = scanQueues s a rest := by
  induction es with
  | nil => rfl
  | cons e es ih =>
    have later := ih fun e he => miss e (List.mem_cons_of_mem _ he)
    rw [List.cons_append, scanQueues]
    split
    · rename_i alloc
      obtain ⟨q, queue, out⟩ := miss e List.mem_cons_self alloc
      have walk : walkUntil s (fun u => u == (s.ed e).tail || tdAddr s.params u == a) s.params.ntd (s.ed e).head =
          some (q, (s.ed e).tail) :=
        walkUntil_of_chain queue.chain (by simp) (fun x hx => by simp [queue_ne_tail queue hx, out x hx])
          (queue_length_le queue)
      simp only [walk, if_true, later]
    · exact later

theorem scanQueues_hit (g : s.params.Good) (alloc : (s.ed e).alloc = true) (queue : s.queueIs e q) (hx : x ∈ q)
    (rest : List Nat) : scanQueues s (tdAddr s.params x) (e :: rest) = some (some x) := by
  obtain ⟨l, r, rfl⟩ := List.append_of_mem hx
  obtain ⟨y, toHere, from_⟩ := chain_split queue.chain
  obtain rfl : y = x := from_.1
  have before : ∀ z ∈ l, (z == (s.ed e).tail || tdAddr s.params z == tdAddr s.params y) = false := fun z hz => by
    have apart : z ≠ y := fun same => List.disjoint_of_nodup_append (List.nodup_append.1 queue.once).1 hz (by simp [same])
    have other : tdAddr s.params z ≠ tdAddr s.params y := fun same =>
      apart (tdAddr_inj g (queue.owned z (by simp [hz])).1 (queue.owned y (by simp)).1 same)
    simp [queue_ne_tail queue (List.mem_append_left _ hz), other]
  have walk : walkUntil s (fun u => u == (s.ed e).tail || tdAddr s.params u == tdAddr s.params y) s.params.ntd (s.ed e).head =
      some (l, y) :=
    walkUntil_of_chain toHere (by simp) before
      ((List.sublist_append_left l _).length_le.trans (queue_length_le queue))
  rw [scanQueues, if_pos alloc]
  simp only [walk, if_neg (queue_ne_tail queue hx)]

section
variable (shape : s.shape)
include shape

/-- The TD of a queue, not its placeholder, is on the queue of its owner. -/
theorem State.liesAt.mem (h : s.liesAt a x) (queue : s.queueIs (s.td x).owner q) : x ∈ q := by
  obtain ⟨_, alloc, notTail, _⟩ := h
  exact (List.mem_append.1 (shape.mem queue alloc rfl)).resolve_right fun no => notTail (List.mem_singleton.1 no)

/-- An endpoint misses the address unless a TD of its own lies there. -/
theorem misses_of_none (he : e < s.params.ned) (none_ : ∀ x, s.liesAt a x → (s.td x).owner ≠ e) : s.misses a e := fun alloc => by
  obtain ⟨q, queue⟩ := shape.shaped e alloc
  refine ⟨q, queue, fun x hx here => ?_⟩
  obtain ⟨_, allocTd, owner⟩ := queue.owned x (List.mem_append_left _ hx)
  refine none_ x ⟨?_, allocTd, ?_, here⟩ owner
  · rw [owner, State.validEd, alloc, decide_eq_true he]
    rfl
  · rw [owner]
    exact queue_ne_tail queue hx

theorem scanQueues_none (none_ : ∀ x, ¬ s.liesAt a x) : scanQueues s a (List.range s.params.ned) = some none := by
  have skip := scanQueues_skip (rest := []) fun e he =>
    misses_of_none shape (List.mem_range.1 he) fun x h => absurd h (none_ x)
  rwa [List.append_nil] at skip

theorem scanQueues_found (g : s.params.Good) (h : s.liesAt a x) : scanQueues s a (List.range s.params.ned) = some (some x) := by
  obtain ⟨q, queue⟩ := shape.shaped _ (alloc_of_validEd h.1)
  obtain ⟨es, rest, range⟩ := List.append_of_mem (List.mem_range.2 (lt_of_validEd h.1))
  have once := range ▸ List.nodup_range (n := s.params.ned)
  have below : ∀ e ∈ es, e < s.params.ned := fun e he => List.mem_range.1 (range ▸ List.mem_append_left _ he)
  rw [range, scanQueues_skip fun e he => misses_of_none shape (below e he) fun y hy owner => ?_]
  · have here := h.2.2.2
    subst here
    exact scanQueues_hit g (alloc_of_validEd h.1) queue (h.mem shape queue) rest
  · obtain ⟨q', queue'⟩ := shape.shaped _ (alloc_of_validEd hy.1)
    have known := (queue.owned x (List.mem_append_left _ (h.mem shape queue))).1
    have known' := (queue'.owned y (List.mem_append_left _ (hy.mem shape queue'))).1
    cases tdAddr_inj g known known' (h.2.2.2.trans hy.2.2.2.symm)
    exact List.disjoint_of_nodup_append once he (by simp [owner])

end

theorem resolve_scan (mode : s.params.corrMode = .scan) {o : Option Nat}
    (found : scanQueues s a (List.range s.params.ned) = some o) : resolve n a c s =
      (o.elim (do return (none, ← drainFault n .unresolved a)) fun x => return (some x, n) : Cmd (Option Nat × Tally)) s := by
  rw [resolve, run_bind_ok (run_get s)]
  simp only [mode, found]
  rw [run_bind_ok (run_orStop_some ..)]
  cases o <;> rfl

/-- A TD on a queue, indexed and with its number in the control word, resolves in both modes (43_done_queue.md R356). -/
theorem resolve_queued (g : s.params.Good) (shape : s.shape) (here : s.liesAt a x) (indexed : s.indexed x = true)
    (number : idxOf c = x) : resolve n a c s = .ok (some x, n) s := by
  cases mode : s.params.corrMode with
  | index =>
    obtain ⟨q, queue⟩ := shape.shaped _ (alloc_of_validEd here.1)
    have known := (queue.owned x (List.mem_append_left _ (here.mem shape queue))).1
    subst number
    exact resolve_indexed mode known indexed here.2.2.2
  | scan => exact resolve_scan mode (scanQueues_found shape g here)

/-! ### Which completions are taken -/

theorem process_finished (finished : (s.td x).finished = true) : process n x cc s =
    .ok { n with faults := n.faults + 1 } (s.logFault .duplicate (BitVec.ofNat 32 x)) := by
  rw [process, run_bind_ok (run_get s), if_pos finished, run_drainFault]

/-- A chain leads to each of its TDs, and to its end. -/
theorem chain_to {l r : List Nat} {a b u : Nat} (h : Chain s a q b) (split : q ++ [b] = l ++ u :: r) : Chain s a l u := by
  induction l generalizing a q with
  | nil => exact Option.some.inj ((chain_start h).symm.trans (congrArg List.head? split))
  | cons y l ih =>
    cases q with
    | nil => simp at split
    | cons z q =>
      obtain ⟨rfl, nx, next, h⟩ := h
      obtain ⟨rfl, rest⟩ := List.cons.inj split
      exact ⟨rfl, nx, next, ih h rest⟩

section
variable {done rest : List Nat} {u : Nat} (queue : s.queueIs e q) (split : q ++ [(s.ed e).tail] = done ++ u :: rest)
  (before : ∀ y ∈ done, (s.td y).finished = true) (first : (s.td u).finished = false)
include queue split before first

/-- The walk from the head of the queue finds the first unfinished TD (43_done_queue.md R357). -/
theorem walkUntil_unfinished :
    walkUntil s (fun y => !(s.td y).finished) s.params.ntd (s.ed e).head = some (done, u) := by
  have fits := queue.length_le
  rw [split, List.length_append] at fits
  exact walkUntil_of_chain (chain_to queue.chain split) (by simp [first]) (fun y hy => by simp [before y hy]) (by omega)

theorem process_order (owner : (s.td x).owner = e) (unfinished : (s.td x).finished = false) (later : u ≠ x) :
    process n x cc s = .ok { n with faults := n.faults + 1 } (s.logFault .order (infoWord e x)) := by
  rw [process, run_bind_ok (run_get s), unfinished, owner, walkUntil_unfinished queue split before first,
    if_neg Bool.false_ne_true, run_bind_ok (run_orStop_some ..), if_pos later, run_drainFault]

/-- The completion of the first unfinished TD marks it finished and goes on from there (43_done_queue.md R357). -/
theorem process_first (owner : (s.td u).owner = e) : process n u cc s = (if (s.td u).more then
      if cc = 0#4 then return n
      else do
        unwind e u cc
        let s ← get
        post n e (← orStop .brokenQueue (s.gstart e u)) cc
    else do
      let s ← get
      post n e (← orStop .brokenQueue (s.gstart e u)) cc : Cmd Tally) (s.marked u) := by
  rw [process, run_bind_ok (run_get s), first, owner, walkUntil_unfinished queue split before first,
    if_neg Bool.false_ne_true, run_bind_ok (run_orStop_some ..), if_neg (not_not.2 rfl), run_bind_ok (run_set ..)]
  rfl

end

/-- Settles O56: the faults and answers of `RESOLVE` in its two modes, and the branches of `PROCESS`. -/
theorem indexResolves : Obligations.IndexResolves := by
  refine ⟨fun s n a c mode => ⟨fun beyond => ?_, fun known no => ?_, fun known indexed here => ?_⟩,
    fun s n a c mode legal ok => ⟨fun t here => ?_, fun none_ => ?_⟩, fun s n t cc => ⟨process_finished, ?_⟩⟩
  · exact resolve_indexRange mode beyond
  · exact resolve_unresolved mode known no
  · exact resolve_indexed mode known indexed here
  · exact resolve_scan mode (scanQueues_found ok.shape (Params.legal_good legal) here)
  · exact resolve_scan mode (scanQueues_none ok.shape none_)
  · intro u done rest q unfinished queue split before first
    refine ⟨process_order queue split before first rfl unfinished, ?_⟩
    rintro rfl more rfl
    refine ⟨s.marked u, ?_, rfl, marked_td u⟩
    rw [process_first queue split before first rfl, if_pos more, if_pos rfl]
    rfl

end Sys2Proof.Machine
end

section
/-! SUPPORT. The unwind of a transfer that ended early, while no other agent moves: the tables it leaves, the words of the
endpoint, and the HC's list in step with the queue (43_done_queue.md R358, R359, R364). -/

namespace Sys2Proof.Machine

variable {s t u v : State} {e j after : Nat} {pre grp rest : List Nat} {cc : BitVec 4}

/-! ### The tables -/

theorem unwindGroup_shape (s : State) (j : Nat) (grp : List Nat) (after : Nat) :
    ∃ x y, s.unwindGroup j grp after = { s with tdt := x, idxValid := y } := by
  rw [State.unwindGroup, freeTds_frame]
  exact ⟨_, _, rfl⟩

theorem unwindGroup_td (out : j ∉ grp) (x : Nat) : (s.unwindGroup j grp after).td x =
    if x ∈ grp then { s.td x with alloc := false }
    else if x = j then { s.td j with next := some after, status := clearMore (s.td j).status } else s.td x := by
  by_cases h : x = j
  · rw [h, State.unwindGroup, setTd_td_self, freeTds_td, if_neg out, if_neg out, if_pos rfl]
  · rw [State.unwindGroup, setTd_td_ne _ h, freeTds_td, if_neg h]

theorem unwindGroup_indexed (x : Nat) :
    (s.unwindGroup j grp after).indexed x = if x ∈ grp then false else s.indexed x := by
  rw [State.unwindGroup, setTd_indexed, freeTds_indexed]

/-- Beside the accesses the unwound group is the same. -/
theorem unwindGroup_quietly (q : Quietly (s.unwindGroup j grp after) t) :
    ∃ x y m k q, t = { s with tdt := x, idxValid := y, mem := m, cache := k, seq := q } := by
  obtain ⟨x, y, unwound⟩ := unwindGroup_shape s j grp after
  obtain ⟨m, k, q, rfl⟩ := q
  exact ⟨x, y, m, k, q, by rw [unwound]⟩

/-- A queue whose TDs keep their links and owners. -/
theorem queueIs_of_kept {q : List Nat} (h : u.queueIs e q) (params : v.params = u.params) (ed : v.ed e = u.ed e)
    (td : ∀ x ∈ q, (v.td x).alloc = (u.td x).alloc ∧ (v.td x).owner = (u.td x).owner ∧ (v.td x).next = (u.td x).next)
    (tail : v.td (u.ed e).tail = u.td (u.ed e).tail) (indexed : v.indexed (u.ed e).tail = u.indexed (u.ed e).tail) :
    v.queueIs e q where
  chain := by
    rw [ed]
    exact chain_congr (fun x hx => (td x hx).2.2) h.chain
  once := by
    rw [ed]
    exact h.once
  owned x hx := by
    rw [ed] at hx
    rw [params]
    rcases List.mem_append.1 hx with hq | hq
    · obtain ⟨alloc, owner, _⟩ := td x hq
      rw [alloc, owner]
      exact h.owned x hx
    · rw [List.mem_singleton.1 hq] at hx ⊢
      rw [tail]
      exact h.owned _ hx
  empty := by
    rw [ed, tail, indexed]
    exact h.empty

section
variable (queue : s.queueIs e (pre ++ [j] ++ grp ++ rest)) (follows : (rest ++ [(s.ed e).tail]).head? = some after)
include queue follows

/-- The walk over the rest of the transfer (43_done_queue.md R358); there may be none, behind the last TD of the queue. -/
theorem walkGroup_rest (more : ∀ x ∈ grp.dropLast, (s.td x).more = true)
    (last : rest = [] ∨ ∃ x, grp.getLast? = some x ∧ (s.td x).more = false) :
    ∃ nx, (s.td j).next = some nx ∧ walkGroup s (s.ed e).tail s.params.ntd nx = some (grp, after) := by
  obtain ⟨c, first, behind⟩ := chain_split queue.chain
  obtain ⟨nx, toGroup, overGroup⟩ := chain_split first
  obtain ⟨_, _, rfl, nx', next, rfl⟩ := chain_split toGroup
  obtain rfl : c = after := Option.some.inj ((chain_start behind).symm.trans follows)
  refine ⟨nx', next, ?_⟩
  cases grp with
  | nil =>
    obtain rfl : rest = [] := last.resolve_right fun ⟨x, no, _⟩ => nomatch no
    cases overGroup
    cases behind
    cases s.params.ntd <;> simp [walkGroup]
  | cons x grp =>
    refine walkGroup_of_chain overGroup (List.cons_ne_nil x grp) ((Nat.le_add_left _ _).trans (parts_length_le queue))
      (fun no => gone_not_after queue no (by simp)) more ?_
    rcases last with rfl | ⟨y, hy, ends⟩
    · exact .inl (Option.some.inj follows).symm
    · exact .inr fun z hz => Option.some.inj (hy.symm.trans hz) ▸ ends

/-- The queue has lost the rest of the transfer. -/
theorem queueIs_unwound (shape : s.shape) (alloc : (s.ed e).alloc = true) :
    (s.unwindGroup j grp after).queueIs e (pre ++ [j] ++ rest) := by
  have last : (pre ++ [j]).getLast? = some j := by simp
  have out := last_not_gone queue j last
  obtain ⟨x, y, unwound⟩ := unwindGroup_shape s j grp after
  have cutTail : ((s.cutGroup e (pre ++ [j]) grp after).ed e).tail = (s.ed e).tail := (cutGroup_cut queue follows).tail
  have notLast : (pre ++ [j]).getLast? ≠ some (s.ed e).tail := fun no =>
    List.disjoint_of_nodup_append (queue_parts queue) (List.mem_of_getLast? no) (by simp)
  have ne : (s.ed e).tail ≠ j := fun no => notLast (no ▸ last)
  refine queueIs_of_kept (queueIs_cut queue follows shape alloc) ?_ ?_ (fun z _ => ?_) ?_ ?_
  · rw [cutGroup_params, unwound]
  · rw [cutGroup_ed, if_neg (by simp), unwound]
    rfl
  · rw [unwindGroup_td out, cutGroup_td s e _ grp after (last_not_gone queue), last]
    by_cases h : z = j
    · rw [h, if_neg out, if_neg out, if_pos rfl, if_pos rfl]
      exact ⟨rfl, rfl, rfl⟩
    · rw [if_neg h, if_neg fun (no : some j = some z) => h (Option.some.inj no).symm]
      exact ⟨rfl, rfl, rfl⟩
  · rw [cutTail, unwindGroup_td out, cutGroup_td s e _ grp after (last_not_gone queue), if_neg notLast, if_neg ne]
  · rw [unwindGroup_indexed, cutGroup_indexed]

end

/-! ### The words of the endpoint -/

/-- What a stage in a fresh line leaves of a word it has not written. -/
theorem Staged.cacheLoad_fresh {b : Nat} {w : Nat → Option Byte} (h : Staged s t b w) (g : s.params.Good)
    (fresh : ∀ x, lineBase s.params x = b → s.view x = loadByte s.mem x) {a : Word} (ha : a.toNat % 4 = 0)
    (line : lineBase s.params a.toNat = b) (out : ∀ x, a.toNat ≤ x ∧ x < a.toNat + 4 → w x = none) :
    t.cacheLoad a = s.physRead a := by
  rw [cacheLoad_congr g h.params ha fun x hx => by rw [h.view, out x hx]; rfl]
  exact cacheLoad_of_view g ha fun x h1 h2 => fresh x ((lineBase_byte g ha ⟨h1, h2⟩).trans line)

/-- What memory holds of the endpoint's words after an unwind (43_done_queue.md R358, R359). -/
structure HeadMoved (p : Params) (e after : Nat) (cc : BitVec 4) (s t : State) : Prop where
  head : t.physRead (edHeadAddr p e) =
    tdAddr p after ||| (s.physRead (edHeadAddr p e) &&& (if cc = 9#4 then carryBit else carryBit ||| haltBit))
  control : t.physRead (edControlAddr p e) =
    if cc = 9#4 then clearSkip (s.physRead (edControlAddr p e)) else s.physRead (edControlAddr p e)
  bytes : ∀ x, inWord (edControlAddr p e) x = false → inWord (edHeadAddr p e) x = false →
    loadByte t.mem x = loadByte s.mem x

/-- Of the two states only memory counts. -/
theorem HeadMoved.of_same {p : Params} {s' t' : State} (h : HeadMoved p e after cc s t) (mem : s.mem = s'.mem)
    (mem' : t.mem = t'.mem) : HeadMoved p e after cc s' t' := by
  have read : ∀ a, s.physRead a = s'.physRead a := fun a => by rw [State.physRead, mem]; rfl
  have read' : ∀ a, t.physRead a = t'.physRead a := fun a => by rw [State.physRead, mem']; rfl
  obtain ⟨head, control, bytes⟩ := h
  simp only [read, read', mem, mem'] at head control bytes
  exact ⟨head, control, bytes⟩

/-- The accesses of an unwind, the list-filled write left aside. -/
def moveHead (p : Params) (e after : Nat) (cc : BitVec 4) : Cmd Unit := do
  inval (edAddr p e) 16
  let h ← memRead (edHeadAddr p e)
  memWrite (edHeadAddr p e)
    (tdAddr p after ||| (if cc = 9#4 then h &&& carryBit else h &&& (carryBit ||| haltBit)))
  if cc = 9#4 then
    let k ← memRead (edControlAddr p e)
    memWrite (edControlAddr p e) (clearSkip k)
  flush (edAddr p e) 16

theorem edHead_toNat {p : Params} (g : p.Good) (he : e < p.ned) :
    (edHeadAddr p e).toNat = (edControlAddr p e).toNat + 8 :=
  g.edWord_toNat he.le 8#32 (by have := g.line_ge; simp; omega)

theorem moveHead_quiet {p : Params} (hp : s.params = p) (g : p.Good) (alone : s.sched = []) (he : e < p.ned) (after : Nat)
    (cc : BitVec 4) : ∃ t, moveHead p e after cc s = .ok ⟨⟩ t ∧ Quietly s t ∧ HeadMoved p e after cc s t := by
  have slot := g.edAddr_slot e
  have apart := edHead_toNat g he
  obtain ⟨s₁, drop, q, mem, fresh⟩ := inval_fresh (hp ▸ g) alone (a := edAddr p e) (n := 16) (b := (edAddr p e).toNat)
    (by rw [hp]; exact rangeLines_slot g slot)
  have params : s₁.params = p := q.tables.params.trans hp
  have g₁ : s₁.params.Good := params ▸ g
  have alone₁ : s₁.sched = [] := q.sched.trans alone
  have headLine : lineBase s₁.params (edHeadAddr p e).toNat = (edAddr p e).toNat := by
    rw [params]
    exact slotWord_line g slot (by decide)
  have controlLine : lineBase s₁.params (edControlAddr p e).toNat = (edAddr p e).toNat := by
    rw [params]
    exact lineBase_self g.line_pos slot
  have phys : ∀ a, s₁.physRead a = s.physRead a := fun a => by rw [State.physRead, mem]; rfl
  have fresh : ∀ x, lineBase s₁.params x = (edAddr p e).toNat → s₁.view x = loadByte s.mem x ∧ s₁.pending x = false :=
    fun x hx => fresh x ((congrArg (lineBase · x) q.tables.params).symm.trans hx)
  have seen : ∀ x, lineBase s₁.params x = (edAddr p e).toNat → s₁.view x = loadByte s₁.mem x := fun x hx => by
    rw [mem]
    exact (fresh x hx).1
  have freshLine : s₁.fresh (edAddr p e).toNat := fun x hx =>
    ⟨seen x (hx.trans controlLine), (fresh x (hx.trans controlLine)).2⟩
  obtain ⟨s₂, read, S₂⟩ := (Staged.refl s₁ (edAddr p e).toNat).read alone₁ (edHeadAddr p e)
  rw [(Staged.refl s₁ _).cacheLoad_fresh g₁ seen (edHead_aligned g he) headLine fun _ _ => rfl, phys] at read
  obtain ⟨s₃, write, S₃⟩ := S₂.write g₁ alone₁ (edHead_aligned g he) headLine (tdAddr p after |||
    (if cc = 9#4 then s.physRead (edHeadAddr p e) &&& carryBit else s.physRead (edHeadAddr p e) &&& (carryBit ||| haltBit)))
  have start : moveHead p e after cc s = (do
      if cc = 9#4 then
        let k ← memRead (edControlAddr p e)
        memWrite (edControlAddr p e) (clearSkip k)
      flush (edAddr p e) 16 : Cmd Unit) s₃ := by
    rw [moveHead, run_bind_ok drop, run_bind_ok read, run_bind_ok write]
  -- what a flush of the staged words leaves
  have published : ∀ {s' w}, Staged s₁ s' (edAddr p e).toNat w → ∃ t, flush (edAddr p e) 16 s' = .ok ⟨⟩ t ∧
      Quietly s t ∧ ∀ x, loadByte t.mem x = (w x).getD (loadByte s.mem x) := fun S => by
    obtain ⟨m, k, q', run, _, _, all, _⟩ := S.publish g₁ alone₁ (by rw [params]; exact slot)
      (by rw [params]; exact rangeLines_slot g slot)
    exact ⟨_, run, q.trans ⟨m, k, q', rfl⟩, fun x => by rw [← mem]; exact (all freshLine).1 x⟩
  rw [start]
  by_cases short : cc = 9#4
  · obtain ⟨s₄, read', S₄⟩ := S₃.read alone₁ (edControlAddr p e)
    rw [S₃.cacheLoad_fresh g₁ seen (edControl_aligned g he) controlLine
      fun x hx => by rw [wordOver, if_neg (by omega)], phys] at read'
    obtain ⟨s₅, write', S₅⟩ := S₄.write g₁ alone₁ (edControl_aligned g he) controlLine
      (clearSkip (s.physRead (edControlAddr p e)))
    obtain ⟨t, run, q, bytes⟩ := published S₅
    have stored : ∀ x, loadByte t.mem x = loadByte (store32 (store32 s.mem (edHeadAddr p e).toNat
        (tdAddr p after ||| (s.physRead (edHeadAddr p e) &&& carryBit))) (edControlAddr p e).toNat
        (clearSkip (s.physRead (edControlAddr p e)))) x := fun x => by
      rw [bytes, loadByte_store32_eq, loadByte_store32_eq, wordOver, wordOver, if_pos short]
      split_ifs <;> rfl
    refine ⟨t, ?_, q, ?_, ?_, fun x hc hh => ?_⟩
    · rw [if_pos short]
      exact (run_bind_ok read').trans ((run_bind_ok write').trans run)
    · rw [if_pos short]
      exact (load32_congr fun x _ _ => stored x).trans
        ((load32_store32_ne _ (.inr (by omega)) _).trans (load32_store32_self ..))
    · rw [if_pos short]
      exact (load32_congr fun x _ _ => stored x).trans (load32_store32_self ..)
    · exact (stored x).trans ((loadByte_store32_outside _ hc _).trans (loadByte_store32_outside _ hh _))
  · obtain ⟨t, run, q, bytes⟩ := published S₃
    have stored : ∀ x, loadByte t.mem x = loadByte (store32 s.mem (edHeadAddr p e).toNat
        (tdAddr p after ||| (s.physRead (edHeadAddr p e) &&& (carryBit ||| haltBit)))) x := fun x => by
      rw [bytes, loadByte_store32_eq, wordOver, if_neg short]
      split <;> rfl
    refine ⟨t, ?_, q, ?_, ?_, fun x _ hh => ?_⟩
    · rw [if_neg short]
      exact run
    · rw [if_neg short]
      exact (load32_congr fun x _ _ => stored x).trans (load32_store32_self ..)
    · rw [if_neg short]
      exact (load32_congr fun x _ _ => stored x).trans (load32_store32_ne _ (.inl (by omega)) _)
    · exact (stored x).trans (loadByte_store32_outside _ hh _)

/-! ### The body -/

/-- An address beside low bits is the pointer of the word. -/
theorem ptrOf_or_low {a low : Word} (ha : ptrOf a = a) (hl : low &&& ~~~0xF#32 = 0#32) (h : Word) :
    ptrOf (a ||| (h &&& low)) = a := by
  rw [ptrOf, BitVec.and_or_distrib_right, BitVec.and_assoc h, hl, BitVec.and_zero, BitVec.or_zero]
  exact ha

theorem unwind_eq {nx : Nat} (next : (s.td j).next = some nx)
    (group : walkGroup s (s.ed e).tail s.params.ntd nx = some (grp, after)) : unwind e j cc s = (do
      moveHead s.params e after cc
      if cc = 9#4 then listFilled (s.ed e).type : Cmd Unit) (s.unwindGroup j grp after) := by
  rw [unwind, run_bind_ok (run_get s), next, run_bind_ok (run_orStop_some ..), group, run_bind_ok (run_orStop_some ..),
    run_bind_ok (run_set ..)]
  by_cases short : cc = 9#4
  · simp only [moveHead, short, if_true, bind_assoc]
  · simp only [moveHead, short, if_false, bind_assoc]

/-- The unwind of the rest of a transfer (43_done_queue.md R358, R359). -/
theorem unwind_quiet (g : s.params.Good) (alone : s.sched = []) (valid : s.validEd e = true) {nx : Nat}
    (next : (s.td j).next = some nx) (group : walkGroup s (s.ed e).tail s.params.ntd nx = some (grp, after)) :
    ∃ t q, unwind e j cc s = .ok ⟨⟩ { t with hc := if cc = 9#4 then s.hc.filled (s.ed e).type else s.hc, seq := q } ∧
      Quietly (s.unwindGroup j grp after) t ∧ HeadMoved s.params e after cc s t := by
  obtain ⟨x, y, unwound⟩ := unwindGroup_shape s j grp after
  obtain ⟨t, run, q, words⟩ := moveHead_quiet (s := s.unwindGroup j grp after) (p := s.params) (by rw [unwound]) g
    (by rw [unwound]; exact alone) (lt_of_validEd valid) after cc
  have hc : t.hc = s.hc := by rw [q.hc, unwound]
  have words : HeadMoved s.params e after cc s t := words.of_same (by rw [unwound]) rfl
  rw [unwind_eq next group, run_bind_ok run, ← hc]
  by_cases short : cc = 9#4
  · obtain ⟨seq, filled⟩ := listFilled_quiet (q.sched.trans (by rw [unwound]; exact alone)) (s.ed e).type
    rw [if_pos short, if_pos short]
    exact ⟨t, seq, filled, q, words⟩
  · rw [if_neg short, if_neg short]
    exact ⟨t, t.seq, rfl, q, words⟩

/-- The HC's list after an unwind: `HeadP` leads past the rest of the transfer, whose first TD it named (43_done_queue.md
R364). -/
theorem hardwareAgrees_unwound (g : s.params.Good) (shape : s.shape) (valid : s.validEd e = true)
    (queue : s.queueIs e (pre ++ [j] ++ grp ++ rest)) (follows : (rest ++ [(s.ed e).tail]).head? = some after)
    (tables : SameTables (s.unwindGroup j grp after) u) (words : HeadMoved s.params e after cc s u)
    (agree : s.hardwareAgrees e (pre ++ [j]) (grp ++ rest)) : u.hardwareAgrees e (pre ++ [j]) rest := by
  have he := lt_of_validEd valid
  obtain ⟨x, y, unwound⟩ := unwindGroup_shape s j grp after
  have params : u.params = s.params := tables.params.trans (by rw [unwound])
  have ed : u.ed = s.ed := tables.ed.trans (by rw [unwound]; rfl)
  have out := last_not_gone queue j (by simp)
  have td : ∀ x ∈ rest, u.td x = s.td x := fun x hx => by
    have ne : x ≠ j := fun same => List.disjoint_of_nodup_append (queue_parts queue) (a := x) (by simp [same]) (by simp [hx])
    have gone : x ∉ grp := fun no => gone_not_after queue no (List.mem_append_left _ hx)
    rw [tables.td, unwindGroup_td out, if_neg gone, if_neg ne]
  refine ⟨tables.queueIs (queueIs_unwound queue follows shape (alloc_of_validEd valid)), fun x hx => ?_, fun x hx => ?_,
    fun x hx nx next => ?_, ?_⟩
  · rw [td x hx]
    exact agree.unfinished x (List.mem_append_right _ hx)
  · rw [ed, follows] at hx
    cases hx
    rw [params, words.head, ptrOf_or_low (ptrOf_aligned (tdAddr_mod16 g after))]
    split <;> decide
  · have small := (queue.owned x (by simp [hx])).1
    rw [td x hx] at next
    rw [params, physRead_beside g he (tdWord_aligned g small (by decide) (by decide)) (tdWord_ne_edControl g he small (by decide))
      (tdWord_ne_edHead g he small (by decide)) words.bytes]
    exact agree.next x (List.mem_append_right _ hx) nx next
  · rw [params, ed, physRead_beside g he (edTail_aligned g he) (edTail_ne_edControl _ e) (edTail_ne_edHead _ e) words.bytes]
    exact agree.tail

/-- Settles O57: `unwind_quiet`, its words as the statement writes them, and `hardwareAgrees_unwound`. -/
theorem unwindFreesTheRest : Obligations.UnwindFreesTheRest := by
  intro e j after pre grp rest cc s alone legal ok valid queue follows more last p c h
  have g : p.Good := Params.legal_good legal
  have queue : s.queueIs e (pre ++ [j] ++ grp ++ rest) := by simpa using queue
  obtain ⟨nx, next, group⟩ := walkGroup_rest queue follows more last
  obtain ⟨t, q, run, shape, words⟩ := unwind_quiet (cc := cc) g alone valid next group
  obtain ⟨u, hu⟩ : ∃ u, u = ({ t with hc := if cc = 9#4 then s.hc.filled (s.ed e).type else s.hc, seq := q } : State) := ⟨_, rfl⟩
  have tables : SameTables (s.unwindGroup j grp after) u := shape.tables.trans (hu ▸ .other)
  have words : HeadMoved p e after cc s u := words.of_same rfl (by rw [hu])
  refine ⟨u, by rw [hu]; exact run, ?_, fun x => ?_, fun x => ?_, words.head.trans ?_, words.control, words.bytes,
    hardwareAgrees_unwound g ok.shape valid queue follows tables words⟩
  · obtain ⟨_, _, _, _, _, rfl⟩ := unwindGroup_quietly shape
    rw [hu]
    by_cases short : cc = 9#4
    · rw [if_pos short, if_pos short]
      cases (s.ed e).type with
      | control => rfl
      | bulk => rfl
      | interrupt => simp [Hc.filled]
    · rw [if_neg short, if_neg short, BitVec.or_zero]
  · rw [tables.td, unwindGroup_td (last_not_gone queue j (by simp))]
    rfl
  · rw [tables.indexed, unwindGroup_indexed]
  · rfl

end Sys2Proof.Machine
end

section
/-! SUPPORT. `DQ_DRAIN` while no other agent moves: with nothing to drain, over the TDs that end one transfer, and over a list
that is too long (43_done_queue.md R350 to R363). -/

namespace Sys2Proof.Machine

variable {s t u v : State} {e x : Nat} {fin l rest : List Nat} {c : Nat → Word}

theorem run_bind_congr {α β : Type} {c c' : Cmd α} (h : c s = c' s) (f : α → Cmd β) : (c >>= f) s = (c' >>= f) s := by
  show EStateM.bind c f s = EStateM.bind c' f s
  simp only [EStateM.bind, h]

/-! ### TDs marked finished one after the other -/

/-- The TDs of a list finished (43_done_queue.md R357). -/
def State.markAll (s : State) (l : List Nat) : State := l.foldl State.marked s

theorem markAll_concat (s : State) (l : List Nat) (x : Nat) : s.markAll (l ++ [x]) = (s.markAll l).marked x :=
  List.foldl_append ..

theorem markAll_shape (s : State) (l : List Nat) : ∃ a, s.markAll l = { s with tdt := a } := by
  induction l generalizing s with
  | nil => exact ⟨s.tdt, rfl⟩
  | cons x l ih =>
    obtain ⟨a, same⟩ := ih (s.marked x)
    exact ⟨a, same⟩

theorem setFinished_twice (w : Word) : setFinished (setFinished w) = setFinished w := by
  rw [setFinished, setFinished, BitVec.or_assoc, BitVec.or_self]

theorem markAll_td (s : State) (l : List Nat) (x : Nat) : (s.markAll l).td x =
    if x ∈ l then { s.td x with status := setFinished (s.td x).status } else s.td x := by
  induction l generalizing s with
  | nil => rfl
  | cons y l ih =>
    have step : (s.markAll (y :: l)).td x = ((s.marked y).markAll l).td x := rfl
    rw [step, ih, marked_td]
    by_cases same : x = y
    · subst same
      simp [setFinished_twice]
    · simp [same]

theorem Quietly.marked (h : Quietly s t) (x : Nat) : Quietly (s.marked x) (t.marked x) := by
  obtain ⟨m, k, q, rfl⟩ := h
  exact ⟨m, k, q, rfl⟩

theorem Quietly.markAll (h : Quietly s t) (l : List Nat) : Quietly (s.markAll l) (t.markAll l) := by
  induction l generalizing s t with
  | nil => exact h
  | cons x l ih => exact ih (h.marked x)

theorem SameTables.markAll (h : SameTables s t) (l : List Nat) : SameTables (s.markAll l) (t.markAll l) := by
  induction l generalizing s t with
  | nil => exact h
  | cons x l ih => exact ih (h.marked x)

/-- A mark leaves `MORE`. -/
theorem marked_more (y : Nat) : ((u.marked x).td y).more = (u.td y).more := by
  rw [marked_td]
  split
  · rename_i same
    rw [same]
    simp [Td.more, setFinished]
  · rfl

theorem queueIs_marked {q : List Nat} (queue : u.queueIs e q) (hx : x ∈ q) : (u.marked x).queueIs e q :=
  queueIs_of_kept queue rfl rfl (fun y _ => marked_kept x y) (by rw [marked_td, if_neg (queue_ne_tail queue hx).symm]) rfl

theorem queueIs_markAll {q l : List Nat} (queue : s.queueIs e q) (hl : ∀ x ∈ l, x ∈ q) : (s.markAll l).queueIs e q := by
  induction l generalizing s with
  | nil => exact queue
  | cons x l ih =>
    exact ih (queueIs_marked queue (hl x List.mem_cons_self)) fun y hy => hl y (List.mem_cons_of_mem _ hy)

/-- TDs that the HC has retired are marked and their links reversed: the HC's list stays as it is (10_state.md R42 (d)). -/
theorem hardwareAgrees_drained {retired waiting l : List Nat} (g : s.params.Good) (valid : s.validEd e = true)
    (agree : s.hardwareAgrees e retired waiting) (hl : ∀ x ∈ l, x ∈ retired) (tables : SameTables (s.markAll l) u)
    (bytes : ∀ a, (∀ x ∈ l, inWord (tdAddr s.params x + 8#32) a = false) → loadByte u.mem a = loadByte s.mem a) :
    u.hardwareAgrees e retired waiting := by
  obtain ⟨a, marked⟩ := markAll_shape s l
  have params : u.params = s.params := tables.params.trans (by rw [marked])
  have ed : u.ed = s.ed := tables.ed.trans (by rw [marked]; rfl)
  have he := lt_of_validEd valid
  have once := (List.nodup_append.1 agree.queue.once).1
  have known : ∀ x ∈ retired ++ waiting, x < s.params.ntd := fun x hx => (agree.queue.owned x (List.mem_append_left _ hx)).1
  have waits : ∀ x ∈ waiting, x ∉ l := fun x hx no => List.disjoint_of_nodup_append once (hl x no) hx
  have td : ∀ x ∈ waiting, u.td x = s.td x := fun x hx => by rw [tables.td, markAll_td, if_neg (waits x hx)]
  have phys : ∀ w : Word, w.toNat % 4 = 0 → (∀ x ∈ l, w ≠ tdAddr s.params x + 8#32) → u.physRead w = s.physRead w :=
    fun w aligned ne => physRead_congr fun b hb => bytes b fun x hx => decide_eq_false
      (words_disjoint (tdWord_aligned g (known x (List.mem_append_left _ (hl x hx))) (by decide) (by decide)) aligned
        (ne x hx) hb)
  refine ⟨tables.queueIs (queueIs_markAll agree.queue fun x hx => List.mem_append_left _ (hl x hx)), fun x hx => ?_,
    fun x hx => ?_, fun x hx nx next => ?_, ?_⟩
  · rw [td x hx]
    exact agree.unfinished x hx
  · rw [ed] at hx
    rw [params, phys _ (edHead_aligned g he) fun y hy => (tdWord_ne_edHead g he
      (known y (List.mem_append_left _ (hl y hy))) (by decide)).symm]
    exact agree.head x hx
  · have small := known x (List.mem_append_right _ hx)
    rw [td x hx] at next
    rw [params, phys _ (tdWord_aligned g small (by decide) (by decide)) fun y hy same => waits x hx
      (tdAddr_inj g small (known y (List.mem_append_left _ (hl y hy))) (nextTd_inj.1 same) ▸ hy)]
    exact agree.next x hx nx next
  · rw [params, ed, phys _ (edTail_aligned g he) fun y hy => slotWords_ne g (g.edAddr_slot e) (g.tdAddr_slot y) (by decide)
      (by decide) (edSlot_ne_tdSlot g he (known y (List.mem_append_left _ (hl y hy))))]
    exact agree.tail

/-! ### The first TD of a transfer (43_done_queue.md R360) -/

theorem groupStart_more (g : Nat) (l : List Nat) (more : ∀ y ∈ l, (s.td y).more = true) : groupStart s g l = some g := by
  induction l with
  | nil => rfl
  | cons y l ih =>
    rw [groupStart, if_pos (more y List.mem_cons_self)]
    exact ih fun z hz => more z (List.mem_cons_of_mem _ hz)

/-- Past TDs whose last ends its transfer a new one begins. -/
theorem groupStart_past {done l : List Nat} {a b : Nat} (chain : Chain s a done b)
    (ended : ∀ y, done.getLast? = some y → (s.td y).more = false) (g : Nat) (some_ : done ≠ []) :
    groupStart s g (done ++ l) = groupStart s b l := by
  induction done generalizing a g with
  | nil => exact absurd rfl some_
  | cons y done ih =>
    obtain ⟨rfl, nx, next, chain⟩ := chain
    rw [List.cons_append, groupStart]
    cases done with
    | nil =>
      cases chain
      simp only [ended a rfl, next]
      rfl
    | cons z done =>
      have rest := fun g => ih chain (fun w hw => ended w (by rw [List.getLast?_cons_cons]; exact hw)) g (List.cons_ne_nil z done)
      simp only [next, rest, ite_self]

/-- The transfer of a TD begins behind the last one that ended (43_done_queue.md R360). -/
theorem gstart_found {done group rest : List Nat} (queue : s.queueIs e (done ++ group ++ x :: rest))
    (ended : ∀ y, done.getLast? = some y → (s.td y).more = false) (more : ∀ y ∈ group, (s.td y).more = true) :
    s.gstart e x = (group ++ [x]).head? := by
  obtain ⟨b, toHere, from_⟩ := chain_split queue.chain
  obtain rfl : b = x := from_.1
  have notYet : ∀ y ∈ done ++ group, (y == b) = false := fun y hy => by
    have apart := List.disjoint_of_nodup_append (List.nodup_append.1 queue.once).1 hy
    exact beq_false_of_ne fun same => apart (by simp [same])
  have fits : (done ++ group).length ≤ s.params.ntd :=
    (List.sublist_append_left _ _).length_le.trans (queue_length_le queue)
  have walk := walkUntil_of_chain (halt := fun y => y == b) toHere (beq_self_eq_true b) notYet fits
  obtain ⟨c, overDone, overGroup⟩ := chain_split toHere
  rw [State.gstart, walk, chain_start overGroup]
  by_cases none_ : done = []
  · subst none_
    cases overDone
    exact groupStart_more _ _ more
  · exact (groupStart_past overDone ended _ none_).trans (groupStart_more _ _ more)

/-! ### The forward walk -/

/-- The TDs `l` come next in the forward walk of a drain: they are the first unfinished of their endpoint, lie behind its
finished TDs `fin`, are linked in this order, and memory and the block agree on their links and their control words `c`. -/
structure DoneWalk (s : State) (e : Nat) (fin l rest : List Nat) (c : Nat → Word) : Prop where
  alone : s.sched = []
  shape : s.shape
  valid : s.validEd e = true
  queue : s.queueIs e (fin ++ l ++ rest)
  finished : ∀ y ∈ fin, (s.td y).finished = true
  waiting : ∀ y ∈ l, (s.td y).finished = false
  numbered : ∀ y ∈ l, s.indexed y = true ∧ tdAddr s.params y ≠ 0#32 ∧ idxOf (c y) = y
  control : ∀ y ∈ l, s.holds (tdAddr s.params y) (c y)
  links : ∀ pre y post, l = pre ++ y :: post → s.holds (tdAddr s.params y + 8#32) (slotAddr s.params post.head?)

namespace DoneWalk

/-- What else changes does not matter to the walk. -/
theorem of_held (w : DoneWalk s e fin l rest c) (g : s.params.Good) (tables : SameTables s t) (alone : t.sched = [])
    (held : ∀ a v, a.toNat % 4 = 0 → s.holds a v → t.holds a v) : DoneWalk t e fin l rest c := by
  obtain ⟨_, shape, valid, queue, finished, waiting, numbered, control, links⟩ := w
  have known : ∀ y ∈ l, y < s.params.ntd := fun y hy => (queue.owned y (by simp [hy])).1
  refine ⟨alone, tables.shape shape, by rw [tables.validEd]; exact valid, tables.queueIs queue, by rw [tables.td]; exact finished,
    by rw [tables.td]; exact waiting, by rw [tables.indexed, tables.params]; exact numbered, fun y hy => ?_,
    fun pre y post same => ?_⟩
  · have word := tdWord_aligned g (known y hy) (k := 0#32) (by decide) (by decide)
    rw [BitVec.add_zero] at word
    rw [tables.params]
    exact held _ _ word (control y hy)
  · rw [tables.params]
    exact held _ _ (tdWord_aligned g (known y (by simp [same])) (by decide) (by decide)) (links pre y post same)

variable (w : DoneWalk s e fin (x :: l) rest c)
include w

/-- The next TD is one of the queue's. -/
theorem owned : x < s.params.ntd ∧ (s.td x).alloc = true ∧ (s.td x).owner = e := w.queue.owned x (by simp)

theorem ne_tail : x ≠ (s.ed e).tail := queue_ne_tail w.queue (by simp)

/-- The next TD resolves to its slot (43_done_queue.md R356). -/
theorem resolves (g : s.params.Good) (n : Tally) :
    resolve n (tdAddr s.params x) (c x) s = .ok (some x, n) s := by
  obtain ⟨indexed, _, number⟩ := w.numbered x List.mem_cons_self
  obtain ⟨_, alloc, owner⟩ := w.owned
  refine resolve_queued g w.shape ⟨?_, alloc, ?_, rfl⟩ indexed number
  · rw [owner]
    exact w.valid
  · rw [owner]
    exact w.ne_tail

/-- One round of the forward walk up to `PROCESS` (43_done_queue.md R355): accesses alone. -/
theorem round (g : s.params.Good) : ∃ t, (∀ k n, forwardDone (k + 1) n (tdAddr s.params x) s = (do
      let n' ← process { n with walked := n.walked + 1 } x (ccOf (c x))
      forwardDone k n' (slotAddr s.params l.head?) : Cmd Tally) t) ∧
    Quietly s t ∧ t.mem = s.mem ∧ DoneWalk t e fin (x :: l) rest c := by
  have known := w.owned.1
  obtain ⟨s₁, read, q, mem, held⟩ := memRead_held g w.alone (w.control x List.mem_cons_self)
  obtain ⟨s₂, read', q', mem', held'⟩ := memRead_held (q.tables.params ▸ g) (q.sched.trans w.alone)
    (held _ _ (tdWord_aligned g known (by decide) (by decide)) (w.links [] x l rfl))
  have both := q.trans q'
  have walk := w.of_held g both.tables (both.sched.trans w.alone) fun a v ha h => held' a v ha (held a v ha h)
  refine ⟨s₂, fun k n => ?_, both, mem'.trans mem, walk⟩
  have found := walk.resolves (both.tables.params ▸ g) { n with walked := n.walked + 1 }
  rw [both.tables.params] at found
  have visit : visitDone n (tdAddr s.params x) (c x) s₂ =
      process { n with walked := n.walked + 1 } x (ccOf (c x)) s₂ := by
    rw [visitDone, run_bind_ok found]
  rw [forwardDone, if_neg (w.numbered x List.mem_cons_self).2.1, run_bind_ok read, run_bind_ok read']
  exact run_bind_congr visit _

omit w in
theorem split : fin ++ x :: l ++ rest ++ [(s.ed e).tail] = fin ++ x :: (l ++ rest ++ [(s.ed e).tail]) := by simp

/-- The completion of the next TD is taken (43_done_queue.md R357). -/
theorem marked : DoneWalk (s.marked x) e (fin ++ [x]) l rest c := by
  have others : ∀ y ∈ l, (s.marked x).td y = s.td y := fun y hy => by
    have once := (List.nodup_append.1 w.queue.once).1
    rw [List.append_assoc, List.cons_append] at once
    have apart : x ∉ l ++ rest := (List.nodup_cons.1 (List.nodup_append.1 once).2.1).1
    rw [marked_td, if_neg fun same => apart (by rw [← same]; exact List.mem_append_left _ hy)]
  obtain ⟨_, alloc, owner⟩ := w.owned
  have grown : (s.marked x).shape := by
    refine (local_marked (l := fin) w.shape alloc ?_ ?_ ?_ w.finished).shape w.shape
    · rw [owner]
      exact alloc_of_validEd w.valid
    · rw [owner]
      exact w.ne_tail
    · rw [owner]
      exact chain_to w.queue.chain split
  have queue := queueIs_marked w.queue (x := x) (by simp)
  rw [List.append_cons] at queue
  refine ⟨w.alone, grown, w.valid, queue, fun y hy => ?_, fun y hy => ?_, fun y hy => w.numbered y (List.mem_cons_of_mem _ hy),
    fun y hy => w.control y (List.mem_cons_of_mem _ hy), fun pre y post same => w.links (x :: pre) y post (by simp [same])⟩
  · rcases List.mem_append.1 hy with hy | hy
    · exact marked_finished x (w.finished y hy)
    · rw [List.mem_singleton.1 hy, marked_td, if_pos rfl]
      exact setFinished_getLsbD _
  · rw [others y hy]
    exact w.waiting y (List.mem_cons_of_mem _ hy)

theorem process_more (n : Tally) (more : (s.td x).more = true) : process n x 0#4 s = .ok n (s.marked x) := by
  rw [process_first w.queue split w.finished (w.waiting x List.mem_cons_self) w.owned.2.2, if_pos more, if_pos rfl]
  rfl

/-- The last TD of a transfer reports it (43_done_queue.md R357, R360, R362). -/
theorem process_last (n : Tally) (cc : BitVec 4) (last : (s.td x).more = false) {g : Nat}
    (start : (s.marked x).gstart e x = some g) (room : s.compq.length < s.params.compDepth) : process n x cc s =
    .ok { n with posted := n.posted + 1 }
      (({ s.marked x with compq := s.compq ++ [⟨e, g, cc, (s.ed e).key⟩] } : State).raiseIsr compAvailBit) := by
  rw [process_first w.queue split w.finished (w.waiting x List.mem_cons_self) w.owned.2.2, if_neg (by simp [last]),
    run_bind_ok (run_get _), start, run_bind_ok (run_orStop_some ..), post, run_bind_ok (run_get _),
    if_pos (show (s.marked x).compq.length < (s.marked x).params.compDepth from room), run_bind_ok (run_set ..)]
  rfl

end DoneWalk

theorem forwardDone_end (k : Nat) (n : Tally) (s : State) : forwardDone k n 0#32 s = .ok n s := by
  cases k <;> rfl

/-- The forward walk over TDs that end no transfer and did not fail marks them finished (43_done_queue.md R357). -/
theorem forwardDone_more {mids later : List Nat} (g : s.params.Good) (w : DoneWalk s e fin (mids ++ later) rest c)
    (more : ∀ y ∈ mids, (s.td y).more = true) (ok : ∀ y ∈ mids, ccOf (c y) = 0#4) :
    ∃ v, (∀ k n, forwardDone (mids.length + k) n (slotAddr s.params (mids ++ later).head?) s =
        forwardDone k { n with walked := n.walked + mids.length } (slotAddr s.params later.head?) v) ∧
      Quietly (s.markAll mids) v ∧ v.mem = s.mem ∧ DoneWalk v e (fin ++ mids) later rest c := by
  induction mids generalizing s fin with
  | nil =>
    refine ⟨s, fun k n => ?_, ⟨s.mem, s.cache, s.seq, rfl⟩, rfl, by rw [List.append_nil]; exact w⟩
    rw [List.length_nil, Nat.zero_add]
    rfl
  | cons x mids ih =>
    have w : DoneWalk s e fin (x :: (mids ++ later)) rest c := w
    obtain ⟨s₁, run, q, mem, w₁⟩ := w.round g
    have g₁ : (s₁.marked x).params.Good := q.tables.params ▸ g
    have first : (s₁.td x).more = true := by
      rw [q.tables.td]
      exact more x List.mem_cons_self
    have moreLater : ∀ y ∈ mids, ((s₁.marked x).td y).more = true := fun y hy => by
      rw [marked_more, q.tables.td]
      exact more y (List.mem_cons_of_mem _ hy)
    obtain ⟨v, run', q', mem', w'⟩ := ih g₁ w₁.marked moreLater fun y hy => ok y (List.mem_cons_of_mem _ hy)
    have params : (s₁.marked x).params = s.params := q.tables.params
    rw [params] at run'
    refine ⟨v, fun k n => ?_, ((q.marked x).markAll mids).trans q', mem'.trans mem, by rw [List.append_cons]; exact w'⟩
    rw [List.length_cons, Nat.add_right_comm]
    refine (run (mids.length + k) n).trans ?_
    rw [ok x List.mem_cons_self, run_bind_ok (w₁.process_more _ first), run', Nat.add_assoc, Nat.add_comm 1]

/-! ### The drain -/

/-- With `WDH = 0` there is nothing to drain (43_done_queue.md R352). -/
theorem drain_clear (alone : s.sched = []) (clear : s.wdhIn = false) : drain s = .ok {} { s with seq := s.seq.advance } := by
  have bit : (hcRegRead s.hc 0x0C).getLsbD 1 = false := clear
  rw [drain, run_bind_ok (mmioRead_quiet alone _), bit]
  rfl

/-- A drain reverses the done list that memory names and goes on with what the reversal answers (43_done_queue.md R352). -/
theorem drain_reverses (g : s.params.Good) (alone : s.sched = []) (wdh : s.wdhIn = true) :
    ∃ s₁, Quietly s s₁ ∧ s₁.mem = s.mem ∧ ∀ o t,
      reverseDone s.params.ntd 0#32 (ptrOf (s.physRead (doneHeadAddr s.params))) s₁ = .ok o t → drain s = (do
        let n ← o.elim (drainFault {} .doneLoop (ptrOf (s.physRead (doneHeadAddr s.params)))) (forwardDone s.params.ntd {})
        mmioWrite 0x0C wdhBit
        return n : Cmd Tally) t := by
  have bit : (hcRegRead s.hc 0x0C).getLsbD 1 = true := wdh
  have aligned : (doneHeadAddr s.params).toNat % 4 = 0 := by
    have base := g.hccaAligned
    have low : s.params.hccaBase + 0x84 < 2 ^ 32 := by
      have := g.hccaLow
      omega
    rw [doneHeadAddr, BitVec.toNat_ofNat, Nat.mod_eq_of_lt low]
    omega
  obtain ⟨_, s₁, drop, read, q, mem⟩ := inval_memRead (s := { s with seq := s.seq.advance }) g alone aligned
  refine ⟨s₁, Quietly.trans ⟨s.mem, s.cache, _, rfl⟩ q, mem, fun o t reversed => ?_⟩
  rw [drain, run_bind_ok (mmioRead_quiet alone _), if_pos bit, run_bind_ok (run_get _), run_bind_ok drop, run_bind_ok read]
  refine (run_bind_ok reversed).trans ?_
  cases o <;> rfl

/-- The acknowledgement ends a drain (43_done_queue.md R361). -/
theorem acknowledge_quiet (alone : s.sched = []) (n : Tally) : (do mmioWrite 0x0C wdhBit; return n : Cmd Tally) s =
    .ok n { s with hc := hcRegWrite s.hc 0x0C wdhBit, seq := s.seq.advance } := by
  rw [run_bind_ok (mmioWrite_quiet alone _ _)]
  rfl

/-- `DQ_DRAIN` answers the counts of its drain (43_done_queue.md R350). -/
theorem exec_dqDrain {ctx : Ctx} (quiet : s.quiet) (started : s.started = true) {n : Tally}
    (run : drain (s.begun (encode (.dqDrain ctx))) = .ok n t) (walked : n.walked < 2 ^ 32) (posted : n.posted < 2 ^ 32)
    (faults : n.faults < 2 ^ 32) : exec (.dqDrain ctx) s = .next { t.endedOk (BitVec.ofNat 32 n.walked)
      (BitVec.ofNat 32 n.posted) (BitVec.ofNat 32 n.faults) with isr := t.isr ||| 0x9#4, seq := .idle } := by
  have ended : ∀ r0 r1 r2, ({ (t.raiseIsr drainDoneBit).endedOk r0 r1 r2 with seq := .idle } : State) =
      { t.endedOk r0 r1 r2 with isr := t.isr ||| 0x9#4, seq := .idle } := fun r0 r1 r2 =>
    congrArg (fun i => { t.endedOk r0 r1 r2 with isr := i, seq := .idle }) (BitVec.or_assoc t.isr drainDoneBit 0x1#4)
  rw [← ended]
  rw [exec_quiet_body (i := .dqDrain ctx) quiet.1 quiet.2 started rfl, bodyOf, dqDrainBody, run_bind_ok run, drainDone,
    run_bind_ok (run_modify _ t)]
  exact finish_ok (r := { res0 := n.walked, res1 := n.posted, res2 := n.faults }) walked posted faults _

/-! ### A done list that ends one transfer -/

/-- The HC has written a done list, most recent first, of the TDs `mids` and `t`: they are the first unfinished of their
endpoint, behind transfers that ended (`done`) and finished TDs of their own (`group`), and end their transfer, all but `t`
without error. There is room for its record. -/
structure TransferDone (s : State) (e t : Nat) (done group mids rest : List Nat) : Prop where
  alone : s.sched = []
  shape : s.shape
  wdh : s.wdhIn = true
  valid : s.validEd e = true
  queue : s.queueIs e (done ++ group ++ (mids ++ [t]) ++ rest)
  finished : ∀ x ∈ done ++ group, (s.td x).finished = true
  waiting : ∀ x ∈ mids ++ [t], (s.td x).finished = false
  ended : ∀ x, done.getLast? = some x → (s.td x).more = false
  more : ∀ x ∈ group ++ mids, (s.td x).more = true
  last : (s.td t).more = false
  ok : ∀ x ∈ mids, ccOf (s.physRead (tdAddr s.params x)) = 0#4
  numbered : ∀ x ∈ mids ++ [t], s.indexed x = true ∧ tdAddr s.params x ≠ 0#32 ∧
    idxOf (s.physRead (tdAddr s.params x)) = x
  head : ptrOf (s.physRead (doneHeadAddr s.params)) = tdAddr s.params t
  links : ∀ pre x post, mids ++ [t] = pre ++ x :: post →
    ptrOf (s.physRead (tdAddr s.params x + 8#32)) = slotAddr s.params pre.getLast?
  room : s.compq.length < s.params.compDepth

namespace TransferDone

variable {done group mids : List Nat} {y : Nat} (h : TransferDone s e y done group mids rest) (g : s.params.Good)
include h

theorem known {z : Nat} (hz : z ∈ mids ++ [y]) : z < s.params.ntd :=
  (h.queue.owned z (List.mem_append_left _ (List.mem_append_left _ (List.mem_append_right _ hz)))).1

theorem once : (mids ++ [y]).Nodup :=
  h.queue.once.sublist ((List.sublist_append_right _ _).trans
    ((List.sublist_append_left _ _).trans (List.sublist_append_left _ _)))

theorem fits : (mids ++ [y]).length ≤ s.params.ntd :=
  ((List.sublist_append_right _ _).trans (List.sublist_append_left _ _)).length_le.trans (queue_length_le h.queue)

include g

/-- The reversal brings the TDs into the order of their completion (43_done_queue.md R353). -/
theorem reversed (q : Quietly s t) (mem : t.mem = s.mem) :
    ∃ u, reverseDone s.params.ntd 0#32 (tdAddr s.params y) t = .ok (some (slotAddr s.params (mids ++ [y]).head?)) u ∧
      Quietly s u ∧
      DoneWalk u e (done ++ group) (mids ++ [y]) rest (fun x => s.physRead (tdAddr s.params x)) ∧
      ∀ a, (∀ x ∈ mids ++ [y], inWord (tdAddr s.params x + 8#32) a = false) → loadByte u.mem a = loadByte s.mem a := by
  obtain ⟨order, horder⟩ : ∃ order, order = mids ++ [y] := ⟨_, rfl⟩
  have params : t.params = s.params := q.tables.params
  have phys : ∀ a, t.physRead a = s.physRead a := fun a => by rw [State.physRead, mem]; rfl
  have links : ∀ pre x post, order.reverse = pre ++ x :: post →
      ptrOf (t.physRead (tdAddr t.params x + 8#32)) = slotAddr t.params post.head? := fun pre x post same => by
    rw [phys, params, h.links post.reverse x pre.reverse (by rw [← horder, ← List.reverse_reverse order, same]; simp),
      List.getLast?_reverse]
  obtain ⟨u, run, q', touched, held⟩ := reverseDone_slots (ts := order.reverse) (params ▸ g) (q.sched.trans h.alone)
    (List.nodup_reverse.2 (horder ▸ h.once))
    (fun x hx => by
      have hx : x ∈ mids ++ [y] := horder ▸ List.mem_reverse.1 hx
      rw [params]
      exact ⟨h.known hx, (h.numbered x hx).2.1⟩)
    (by rw [List.length_reverse, params, horder]; exact h.fits) links
  have both := q.trans q'
  have held : ∀ pre x post, mids ++ [y] = pre ++ x :: post → u.holds (tdAddr s.params x + 8#32) (slotAddr s.params post.head?) ∧
      u.holds (tdAddr s.params x) (s.physRead (tdAddr s.params x)) := fun pre x post same => by
    have at_ := held post.reverse x pre.reverse (by rw [horder, same]; simp)
    rwa [List.getLast?_reverse, params, phys] at at_
  rw [List.head?_reverse, List.getLast?_reverse, horder, List.getLast?_concat, params] at run
  refine ⟨u, run, both, ?_, fun a out => ?_⟩
  · refine ⟨both.sched.trans h.alone, both.tables.shape h.shape, by rw [both.tables.validEd]; exact h.valid,
      both.tables.queueIs h.queue, by rw [both.tables.td]; exact h.finished, by rw [both.tables.td]; exact h.waiting,
      by rw [both.tables.indexed, both.tables.params]; exact h.numbered, fun x hx => ?_, fun pre x post same => ?_⟩
    · obtain ⟨pre, post, same⟩ := List.append_of_mem hx
      rw [both.tables.params]
      exact (held pre x post same).2
    · rw [both.tables.params]
      exact (held pre x post same).1
  · refine (touched.bytes a fun ⟨x, hx, no⟩ => ?_).trans (by rw [mem])
    rw [params, out x (horder ▸ List.mem_reverse.1 hx)] at no
    cases no

/-- The forward walk over the transfer (43_done_queue.md R355, R357, R360, R362). -/
theorem walked (w : DoneWalk u e (done ++ group) (mids ++ [y]) rest (fun x => s.physRead (tdAddr s.params x)))
    (q : Quietly s u) {first : Nat} (start : (group ++ (mids ++ [y])).head? = some first) :
    ∃ v, forwardDone s.params.ntd {} (slotAddr s.params (mids ++ [y]).head?) u =
        .ok { walked := (mids ++ [y]).length, posted := 1 } (({ v with
          compq := s.compq ++ [⟨e, first, ccOf (s.physRead (tdAddr s.params y)), (s.ed e).key⟩] } : State).raiseIsr
            compAvailBit) ∧
      Quietly (s.markAll (mids ++ [y])) v ∧ v.mem = u.mem := by
  have td := q.tables.td
  have params : u.params = s.params := q.tables.params
  obtain ⟨v, run, qv, memv, wv⟩ := forwardDone_more (params ▸ g) w
    (fun z hz => by rw [td]; exact h.more z (List.mem_append_right _ hz)) h.ok
  have qv := (q.markAll mids).trans qv
  obtain ⟨a, marked⟩ := markAll_shape s mids
  have paramsV : v.params = s.params := qv.tables.params.trans (by rw [marked])
  have keptMore : ∀ z, z ∉ mids → (v.td z).more = (s.td z).more := fun z hz => by rw [qv.tables.td, markAll_td, if_neg hz]
  obtain ⟨x, run', qx, memx, wx⟩ := wv.round (paramsV ▸ g)
  have qx := qv.trans qx
  have paramsX : x.params = s.params := qx.tables.params.trans (by rw [marked])
  have more : ∀ z, (x.td z).more = (s.td z).more := fun z => by
    rw [qx.tables.td, markAll_td]
    split
    · simp [Td.more, setFinished]
    · rfl
  have found : (x.marked y).gstart e y = some first := by
    have queue := queueIs_marked wx.queue (x := y) (by simp)
    rw [List.append_assoc done group mids, List.append_assoc, List.singleton_append] at queue
    rw [gstart_found queue (fun z hz => by rw [marked_more, more]; exact h.ended z hz)
      fun z hz => by rw [marked_more, more]; exact h.more z hz, List.append_assoc]
    exact start
  have last := wx.process_last { walked := mids.length + 1 } (ccOf (s.physRead (tdAddr s.params y)))
    ((more y).trans h.last) found (by
      obtain ⟨_, _, _, same⟩ := qx
      rw [same, marked]
      exact h.room)
  obtain ⟨k, hk⟩ := Nat.exists_eq_add_of_le h.fits
  refine ⟨x.marked y, ?_, by rw [markAll_concat]; exact qx.marked y, memx.trans memv⟩
  rw [params] at run
  rw [hk, List.length_append, List.length_singleton, Nat.add_assoc, Nat.add_comm 1 k]
  refine (run (k + 1) {}).trans ?_
  have first_ : slotAddr s.params [y].head? = tdAddr v.params y := by rw [paramsV]; rfl
  rw [first_, run']
  have tally : (0 + mids.length) + 1 = mids.length + 1 := by omega
  simp only [tally]
  rw [run_bind_ok last]
  refine (forwardDone_end k _ _).trans ?_
  obtain ⟨_, _, _, same⟩ := qx
  rw [same, marked]
  rfl

/-- The drain of a transfer (43_done_queue.md R352 to R362). -/
theorem drained {first : Nat} (start : (group ++ (mids ++ [y])).head? = some first) :
    ∃ v, drain s = .ok { walked := (mids ++ [y]).length, posted := 1 } { v with
        compq := s.compq ++ [⟨e, first, ccOf (s.physRead (tdAddr s.params y)), (s.ed e).key⟩]
        isr := s.isr ||| compAvailBit
        hc := hcRegWrite s.hc 0x0C wdhBit } ∧
      Quietly (s.markAll (mids ++ [y])) v ∧
      (∀ pre x post, mids ++ [y] = pre ++ x :: post →
        v.physRead (tdAddr s.params x + 8#32) = slotAddr s.params post.head?) ∧
      ∀ a, (∀ x ∈ mids ++ [y], inWord (tdAddr s.params x + 8#32) a = false) → loadByte v.mem a = loadByte s.mem a := by
  obtain ⟨s₁, q₁, mem₁, drained⟩ := drain_reverses g h.alone h.wdh
  obtain ⟨s₂, reversed, q₂, walk, bytes⟩ := h.reversed g q₁ mem₁
  obtain ⟨v, forward, q, mem⟩ := h.walked g walk q₂ start
  obtain ⟨a, marked⟩ := markAll_shape s (mids ++ [y])
  have sched : v.sched = [] := q.sched.trans (by rw [marked]; exact h.alone)
  have frame : v.isr = s.isr ∧ v.hc = s.hc := by
    obtain ⟨_, _, _, same⟩ := q
    rw [same, marked]
    exact ⟨rfl, rfl⟩
  rw [h.head] at drained
  refine ⟨{ v with seq := v.seq.advance }, ?_, q.trans ⟨v.mem, v.cache, _, rfl⟩, fun pre x post same => ?_, fun b out => ?_⟩
  · rw [drained _ _ reversed]
    refine (run_bind_ok forward).trans ?_
    refine (acknowledge_quiet (by exact sched) _).trans ?_
    rw [← frame.1, ← frame.2]
    rfl
  · have link := (walk.links pre x post same).1
    rw [q₂.tables.params, State.physRead, ← mem] at link
    exact link
  · exact (congrArg (loadByte · b) mem).trans (bytes b out)

end TransferDone

/-! ### A done list that is too long -/

/-- A list that goes on after `NTD` TDs is logged and acknowledged, its first `NTD` links reversed (43_done_queue.md R354). -/
theorem drain_overlong (g : s.params.Good) (alone : s.sched = []) (wdh : s.wdhIn = true) {first z : Word} {l : List Word}
    (whole : l.length = s.params.ntd) (once : l.Nodup) (aligned : ∀ a ∈ l, a.toNat % 16 = 0 ∧ a ≠ 0#32) (more : z ≠ 0#32)
    (head : ptrOf (s.physRead (doneHeadAddr s.params)) = first) (leads : s.leads first l z) :
    ∃ v, drain s = .ok { faults := 1 } { v.logFault .doneLoop first with hc := hcRegWrite s.hc 0x0C wdhBit } ∧ Quietly s v ∧
      (∀ pre a post, l = pre ++ a :: post → v.physRead (a + 8#32) = pre.getLast?.getD 0#32) ∧
      ∀ x, (∀ a ∈ l, inWord (a + 8#32) x = false) → loadByte v.mem x = loadByte s.mem x := by
  obtain ⟨s₁, q₁, mem₁, drained⟩ := drain_reverses g alone wdh
  have params : s₁.params = s.params := q₁.tables.params
  have leads₁ : s₁.leads first l z := leads_congr (fun x _ => by rw [State.physRead, mem₁]; rfl) leads
  obtain ⟨t, run, q, touched, held⟩ := reverseDone_links (params ▸ g) (q₁.sched.trans alone) aligned once leads₁ 0#32 0
  have both := q₁.trans q
  rw [Nat.add_zero, whole, reverseDone, if_neg more] at run
  rw [head] at drained
  have frame : t.hc = s.hc := by
    obtain ⟨_, _, _, same⟩ := both
    rw [same]
  refine ⟨{ t with seq := t.seq.advance }, ?_, both.trans ⟨t.mem, t.cache, _, rfl⟩, fun pre a post same =>
    (held pre a post same).1.1, fun x out => (touched.bytes x fun ⟨a, ha, no⟩ => ?_).trans (by rw [mem₁])⟩
  · rw [drained _ _ run]
    refine (run_bind_ok (run_drainFault ..)).trans ?_
    refine (acknowledge_quiet (by exact both.sched.trans alone) _).trans ?_
    rw [← frame]
    rfl
  · rw [out a ha] at no
    cases no

/-! ### The statement -/

/-- A pointer that `ptrOf` leaves as it is is the address of a descriptor. -/
theorem mod16_of_ptrOf {a : Word} (h : ptrOf a = a) : a.toNat % 16 = 0 := by
  rw [← h]
  exact ptrOf_mod a

/-- `IDX` read back: a slot number fits it (20_memory.md R90). -/
theorem idxOf_slot (g : s.params.Good) {c : Word} (known : x < s.params.ntd)
    (number : c.extractLsb' 0 16 = BitVec.ofNat 16 x) : idxOf c = x := by
  have := g.ntd.2
  exact (congrArg BitVec.toNat number).trans (Nat.mod_eq_of_lt (by omega))

/-- Settles O54: `drain_clear`, `TransferDone.drained` and `drain_overlong`, the command's end by `exec_dqDrain`. -/
theorem dqDrainCompletes : Obligations.DqDrainCompletes := by
  refine ⟨fun ctx s quiet started clear => ?_, ?_, ?_⟩
  · rw [exec_dqDrain quiet started (drain_clear quiet.2 clear) (by decide) (by decide) (by decide), ← quiet.1]
    rfl
  · intro ctx t done group mids rest s quiet legal started ok wdh p e order addr valid queue finished waiting ended more last
      codes numbered head links room
    have g : p.Good := Params.legal_good legal
    have addr_eq : ∀ o, addr o = slotAddr p o := fun o => by cases o <;> rfl
    simp only [addr_eq] at links ⊢
    obtain ⟨b, begun⟩ : ∃ b, b = s.begun (encode (.dqDrain ctx)) := ⟨_, rfl⟩
    have same : SameTables s b := begun ▸ .other
    have h : TransferDone b e t done group mids rest := by
      subst begun
      refine ⟨quiet.2, same.shape ok.shape, wdh, valid, same.queueIs queue, finished, waiting, ended, more, last, codes,
        fun x hx => ?_, head, links, room⟩
      obtain ⟨indexed, some_, number⟩ := numbered x hx
      exact ⟨indexed, some_, idxOf_slot g (queue.owned x (by simp [show x ∈ order from hx])).1 number⟩
    obtain ⟨first, start⟩ : ∃ first, (group ++ order).head? = some first := Option.isSome_iff_exists.1 (by simp [order])
    obtain ⟨v, run, q, linked, bytes⟩ := h.drained (same.params ▸ g) start
    have short : order.length < 2 ^ 32 := by
      have fits : order.length ≤ b.params.ntd := h.fits
      have := (same.params ▸ g : b.params.Good).ntd.2
      omega
    obtain ⟨a, marked⟩ := markAll_shape b order
    have tables := q.tables
    subst begun
    refine ⟨_, first, exec_dqDrain quiet started run short (show 1 < 2 ^ 32 by decide) (show 0 < 2 ^ 32 by decide), start,
      ?_, fun x => ?_, linked, bytes, fun retired waiting agree done => ?_⟩
    · obtain ⟨_, _, _, shape⟩ := q
      rw [shape, marked, ← quiet.1]
      simp only [BitVec.or_assoc]
      rfl
    · have td := congrFun tables.td x
      rw [markAll_td] at td
      exact td
    · exact hardwareAgrees_drained (l := order) g valid agree done (((same.markAll order).trans tables).trans .other) bytes
  · intro ctx first more s quiet legal started wdh list walked whole once aligned head links
    have g : s.params.Good := Params.legal_good legal
    obtain ⟨z, split⟩ : ∃ z, list = walked ++ [z] :=
      ⟨_, (List.dropLast_concat_getLast (List.cons_ne_nil first more)).symm⟩
    have descriptor : ∀ a ∈ list, a.toNat % 16 = 0 ∧ a ≠ 0#32 := fun a ha =>
      ⟨mod16_of_ptrOf (aligned a ha).2, (aligned a ha).1⟩
    have leads : s.leads (walked.head?.getD z) walked z := leads_of_links fun pre a post same => by
      cases post with
      | nil => exact links pre a z [] (by rw [split, same]; simp)
      | cons b post => exact links pre a b (post ++ [z]) (by rw [split, same]; simp)
    have begins : first = walked.head?.getD z := Option.some.inj ((congrArg List.head? split).trans List.head?_concat)
    have begun : (s.begun (encode (.dqDrain ctx))).leads first walked z :=
      leads_congr (s := s) (t := s.begun _) (fun _ _ => rfl) (begins ▸ leads)
    obtain ⟨v, run, q, linked, bytes⟩ := drain_overlong (s := s.begun (encode (.dqDrain ctx))) g quiet.2 wdh
      (List.length_dropLast.trans (show (first :: more).length - 1 = _ from whole)) (once.sublist (List.dropLast_sublist _))
      (fun a ha => descriptor a (List.mem_of_mem_dropLast ha)) (descriptor z (by rw [split]; simp)).2 head begun
    refine ⟨_, exec_dqDrain quiet started run (by decide) (by decide) (by decide), ?_, linked, bytes⟩
    obtain ⟨_, _, _, shape⟩ := q
    rw [shape, ← quiet.1]
    simp only [State.logFault, BitVec.or_assoc]
    rfl

end Sys2Proof.Machine
end
